-- ==== Sys2Proof/Word.lean ====
section
/-!
DEFINITION. The word types of the model.

`Word` is 64 bits wide and carries an `XLEN`-bit value: with `XLEN = 32` the upper half is zero (`spec/10_state.md` R20;
the choice is assumption log entry 1). A physical address is a natural number, so that a block base plus an offset never wraps
(R30, R31); so are the names of observers, harts and other bus masters alike (R50), block sizes and counters.
-/

namespace Sys2Proof

/-- One byte of memory (R30). -/
abbrev Byte := BitVec 8

/-- A register, program counter or effective-address value, `XLEN` bits held in 64 (R20, log entry 1). -/
abbrev Word := BitVec 64

/-- A 32-bit instruction word, bit 0 least significant (R100). -/
abbrev InstrWord := BitVec 32

/-- The number of a general register, `x0` to `x31` (R20). -/
abbrev Reg := Fin 32

end Sys2Proof
end

