-- ==== Sys2Proof/Config.lean ====
section
/-!
DEFINITION. What an implementation or a platform fixes (the parameter table of `spec/00_scope.md` section 4), and the free values.

`Config` is held in `State` as plain data, so a statement about every state is a statement about every platform (log entry 2).
The host functions `PMA`, `COH` and `observes` are finite tables; `Translate` and `PMP` are tables of each hart (R172, R184, log entry 3).
The constants declared `opaque` at the end are the free values: they have no body, so no proof can know one.
-/

namespace Sys2Proof

/-- `XLEN` (parameter table; R20). -/
inductive Xlen where
  | rv32
  | rv64
deriving DecidableEq, Repr

/-- The privilege modes. `S` is HS-mode when the hypervisor extension is present (R23, R165). -/
inductive Mode where
  | M
  | S
  | U
  | VS
  | VU
deriving DecidableEq, Repr

/-- The three prefetch hints (R150, R154). -/
inductive PrefetchKind where
  | I
  | R
  | W
deriving DecidableEq, Repr

/-- What the host's address translation is told about the access (R172), and instruction fetch, which is the host's own (R199). -/
inductive AccessClass where
  | fetch
  | cbm
  | cbz
  | pf (k : PrefetchKind)
deriving DecidableEq, Repr

/-- Read, write and execute permission, as the PMP or the PMAs grant it (R184). -/
structure Perm where
  r : Bool
  w : Bool
  x : Bool
deriving DecidableEq, Repr

/-- The bits of a leaf page-table entry that the CMO rules read (R172). -/
structure Pte where
  r : Bool
  w : Bool
  x : Bool
  u : Bool
deriving DecidableEq, Repr

/-- Why a walk did not complete (R172 (b)). -/
inductive WalkFault where
  | access
  | page
  | guestPage
deriving DecidableEq, Repr

/-- What `Translate` answers (R172). `ppage` and `gpage` are the physical and guest-physical page numbers of the page of the
effective address; a stage that is off has no leaf entry. -/
inductive WalkResult where
  | done (ppage gpage : Nat) (pte gpte : Option Pte)
  | fault (kind : WalkFault) (gpage : Nat)
deriving DecidableEq, Repr

/-- One row of a hart's translation function: what `Translate` answers for a page in a mode, for the classes listed. -/
structure WalkRow where
  mode    : Mode
  classes : List AccessClass
  page    : Nat
  result  : WalkResult
deriving DecidableEq, Repr

/-- A hart's translation function `Translate` (R172). In the modes of `bare` translation is off. -/
structure Walk where
  bare : List Mode
  rows : List WalkRow
deriving DecidableEq, Repr

/-- One region of a hart's PMP and the permissions it grants in the modes listed (R184, R185). -/
structure PmpRow where
  modes : List Mode
  base  : Nat
  size  : Nat
  perm  : Perm
deriving DecidableEq, Repr

/-- A hart's PMP unit (R184). Where no row matches, M-mode is granted everything and the other modes `below`. -/
structure Pmp where
  rows  : List PmpRow
  below : Perm
deriving DecidableEq, Repr

/-- Main memory or I/O: decides the `FENCE` set of an access (R72, R93). -/
inductive LocKind where
  | mainMemory
  | io
deriving DecidableEq, Repr

/-- The physical memory attributes of a location (parameter `PMA`). `incoherent` is the coherence PMA: the observers for which
the location is not coherent (R61). -/
structure Pma where
  perm       : Perm
  kind       : LocKind
  cacheable  : Bool
  incoherent : List Nat
deriving DecidableEq, Repr

/-- A region of the address map and its attributes (R83). -/
structure PmaRegion where
  base  : Nat
  size  : Nat
  attrs : Pma
deriving DecidableEq, Repr

/-- A region an observer can access (parameter `observes`, R51). -/
structure Visible where
  obs  : Nat
  base : Nat
  size : Nat
deriving DecidableEq, Repr

/-- A region of the address map and the sets its observers belong to, each set named by a number (parameter `COH`, R60). An
observer that is not listed is in no set with another. -/
structure CohRegion where
  base   : Nat
  size   : Nat
  groups : List (Nat × Nat)
deriving DecidableEq, Repr

/-- The name of a set of coherent observers of a location (R60): a numbered set, or one observer alone. -/
inductive CohSet where
  | group (n : Nat)
  | alone (o : Nat)
deriving DecidableEq, Repr

/-- What `CMO_ENABLE` answers (R168). -/
inductive Enable where
  | illegalInstruction
  | performFlushInstead
  | perform
deriving DecidableEq, Repr

/-- The instructions that `CMO_ENABLE` gates (R168, R170). -/
inductive Gated where
  | inval
  | clean
  | flush
  | zero
deriving DecidableEq, Repr

/-- One entry of a platform's own `CMO_ENABLE`: the answer for an instruction in a mode when the low bytes of `menvcfg`,
`senvcfg` and `henvcfg` are as given. What is not listed is as the default instance says (R169). -/
structure EnableRow where
  instr  : Gated
  mode   : Mode
  menv   : BitVec 8
  senv   : BitVec 8
  henv   : BitVec 8
  answer : Enable
deriving DecidableEq, Repr

/-- The choices the recommendations leave to an implementation that follows them (R193 to R195, U6). What a prefetch is seen as may
differ between the three of them. -/
structure TriggerParams where
  /-- address-match triggers are implemented for Zicbom (optional, R193) -/
  zicbomAddress : Bool
  /-- type 6 data-match triggers are implemented for Zicboz (optional, R194) -/
  zicbozData    : Bool
  /-- address-match triggers are implemented for Zicbop (optional, R195) -/
  zicbopAddress : Bool
  /-- the prefetches that match a trigger with `load = 1` (R195) -/
  prefetchLoads  : List PrefetchKind
  /-- the prefetches that match a trigger with `store = 1` (R195) -/
  prefetchStores : List PrefetchKind
deriving DecidableEq, Repr

/-- Parameter `TRIGGERS`: the behaviour of trigger modules is UNSPECIFIED (R191), or the implementation follows the
recommendations (R192 to R195). -/
inductive TriggerPolicy where
  | unspecified
  | recommended (p : TriggerParams)
deriving DecidableEq, Repr

/-- Parameter `UNCACHED_CBO`: what a cache block operation does on a location that is not cacheable (R7, R123, D19, log entry 26). -/
inductive UncachedCbo where
  | noEffect
  | accessFault
deriving DecidableEq, Repr

/-- The parameters of `spec/00_scope.md` section 4 that do not change during a run (R4 to R7, D39). The spec leaves open whether the
harts of one system may differ in `XLEN`, extensions, modes or `CBIE` values; here all of them share one `Config` (DESIGN CHOICE,
log entry 2). -/
structure Config where
  xlen            : Xlen
  /-- width of a physical address, `PALEN` -/
  palen           : Nat
  /-- base-2 logarithm of `CBS_M`: a power of two from 1 to 4096 (R6) -/
  cbsMLog         : Fin 13
  /-- base-2 logarithm of `CBS_Z`: a power of two from 1 to 4096 (R6) -/
  cbsZLog         : Fin 13
  hasZicbom       : Bool
  hasZicboz       : Bool
  hasZicbop       : Bool
  /-- compressed instructions are implemented: instructions are 2-byte aligned, else 4-byte (R81) -/
  hasCompressed   : Bool
  /-- `MODES` (R165); M-mode always exists -/
  modes           : List Mode
  /-- the values the `CBIE` field of `menvcfg`, `senvcfg`, `henvcfg` can hold (R36) -/
  cbieM           : List (BitVec 2)
  cbieS           : List (BitVec 2)
  cbieH           : List (BitVec 2)
  /-- a platform's own `CMO_ENABLE`; empty: the default instance (R168, R169) -/
  enableRows      : List EnableRow
  /-- the observers that are harts (parameter `OBS`, R50); any other number names a bus master that is not one -/
  harts           : List Nat
  pma             : List PmaRegion
  visible         : List Visible
  coh             : List CohRegion
  prefetchStrictR : Bool
  prefetchStrictW : Bool
  prefetchStrictI : Bool
  triggers        : TriggerPolicy
  uncachedCbo     : UncachedCbo
  /-- an illegal instruction exception reports the instruction word, else 0 (R197) -/
  tvalHoldsWord   : Bool
deriving DecidableEq, Repr

/-! The free values. Each takes the step counter `State.tick`, so that every draw is a fresh one. -/

/-- `TVAL_CHOICE`: which address of the block a fault reports (R198, D10). -/
opaque Config.freeOffset (tick : Nat) : Nat

/-- Which supported value a `CBIE` field holds after a write of an unsupported one (R108, D31). -/
opaque Config.freeCbie (tick : Nat) : Nat

/-- The value of `mtinst` or `htinst` after a guest-page fault (R201 names the register and gives no value). -/
opaque Config.freeInst (tick : Nat) : Word

/-- Whether a hart's reservation is lost when another hart executes a CMO instruction (R85, R87, U10). -/
opaque Config.losesReservation (tick : Nat) (hart : Nat) : Bool

/-- Whether the hardware acts on a prefetch (R150, U13). -/
opaque Config.hintActs (tick : Nat) : Bool

/-- Which cache on the hart's path allocates when the hardware acts on a prefetch (R150: "some cache"). -/
opaque Config.hintCache (tick : Nat) : Nat

/-- Which of the values a location has held an instruction fetch returns, where it has been stored to (R84, D22). -/
opaque Config.freeFetch (tick : Nat) (addr : Nat) : Nat

end Sys2Proof
end

