-- ==== Sys2Proof/Syntax.lean ====
section
/-!
DEFINITION. The seven CMO instructions, one constructor for each row of `spec/opcode_table.json` (R2, R103).
-/

namespace Sys2Proof

/-- The instructions. `rs1` is the base register; `offset` is the signed byte offset of a prefetch, as an assembler writes it
(R104, R109). -/
inductive Instr where
  | cboInval (rs1 : Reg)
  | cboClean (rs1 : Reg)
  | cboFlush (rs1 : Reg)
  | cboZero (rs1 : Reg)
  | prefetchI (rs1 : Reg) (offset : Int)
  | prefetchR (rs1 : Reg) (offset : Int)
  | prefetchW (rs1 : Reg) (offset : Int)
deriving DecidableEq, Repr

end Sys2Proof
end

