-- ==== Sys2Proof/WellFormed.lean ====
section
/-!
DEFINITION. Which instructions have an encoding: the offset of a prefetch is a multiple of 32 from -2048 to 2016 (R104, R109).
A register number is well formed by its type.
-/

namespace Sys2Proof

/-- The offsets a PREFETCH word can hold: `sext(instr[31:25] ++ 00000)` (R104). -/
def offsetOk (offset : Int) : Bool :=
  decide (offset % 32 = 0) && decide (-2048 ≤ offset) && decide (offset ≤ 2016)

/-- The instruction has an encoding. The CBO format has no operand but a register number (R101). -/
def Instr.wf : Instr → Bool
  | .cboInval _ => true
  | .cboClean _ => true
  | .cboFlush _ => true
  | .cboZero _ => true
  | .prefetchI _ offset => offsetOk offset
  | .prefetchR _ offset => offsetOk offset
  | .prefetchW _ offset => offsetOk offset

end Sys2Proof
end

