-- ==== Sys2Proof/Decode.lean ====
section
/-!
DEFINITION. The decoder, by the mask and match values of R103 and the procedure of R110, and the encoder, by the field layouts
of R101 and R102. What is not a CMO instruction is rejected by name. The assembler's notation of R109 stands at the end.
-/

namespace Sys2Proof

/-- What a 32-bit word is, to a hart with all three extensions (R105, R106, R110). -/
inductive Decoded where
  /-- a CMO instruction -/
  | cmo (i : Instr)
  /-- a word of the CBO space that is no instruction: `opcode = 0001111`, `funct3 = 010` (R105) -/
  | reservedCbo
  /-- `ORI` with destination `x0` that is no prefetch: a hint that executes as a no-op (R106) -/
  | oriHint
  /-- the host's `FENCE`, no CMO instruction, by its predecessor and successor bits `I, O, R, W` (R93, R105) -/
  | fence (pred succ : BitVec 4)
  /-- not a CMO instruction: a word of the host's instruction set (R110 step 4) -/
  | notCmo
  /-- fewer than four bytes (R100) -/
  | tooShort
deriving DecidableEq, Repr

/-- The mask of the CBO format (R103). -/
def cboMask : InstrWord := 0xFFF07FFF#32

/-- The mask of the PREFETCH format (R103). -/
def prefetchMask : InstrWord := 0x01F07FFF#32

/-- `rs1 = w[19:15]` (R110). -/
def rs1Of (w : InstrWord) : Reg :=
  (w.extractLsb' 15 5).toFin

/-- The prefetch offset `sext(w[31:25] ++ 00000)` (R104). -/
def offsetOf (w : InstrWord) : Int :=
  (w.extractLsb' 25 7).toInt * 32

/-- Decode a word (R110), for a hart that implements all three extensions. -/
def decode (w : InstrWord) : Decoded :=
  if w &&& cboMask = 0x0000200F#32 then .cmo (.cboInval (rs1Of w))
  else if w &&& cboMask = 0x0010200F#32 then .cmo (.cboClean (rs1Of w))
  else if w &&& cboMask = 0x0020200F#32 then .cmo (.cboFlush (rs1Of w))
  else if w &&& cboMask = 0x0040200F#32 then .cmo (.cboZero (rs1Of w))
  else if w &&& prefetchMask = 0x00006013#32 then .cmo (.prefetchI (rs1Of w) (offsetOf w))
  else if w &&& prefetchMask = 0x00106013#32 then .cmo (.prefetchR (rs1Of w) (offsetOf w))
  else if w &&& prefetchMask = 0x00306013#32 then .cmo (.prefetchW (rs1Of w) (offsetOf w))
  else if w &&& 0x0000707F#32 = 0x0000200F#32 then .reservedCbo
  else if w &&& 0x00007FFF#32 = 0x00006013#32 then .oriHint
  else if w &&& 0xF000707F#32 = 0x0000000F#32 then .fence (w.extractLsb' 24 4) (w.extractLsb' 20 4)
  else .notCmo

/-- The hart implements the extension the instruction belongs to (R2, R107). -/
def implemented (cfg : Config) : Instr → Bool
  | .cboInval _ => cfg.hasZicbom
  | .cboClean _ => cfg.hasZicbom
  | .cboFlush _ => cfg.hasZicbom
  | .cboZero _ => cfg.hasZicboz
  | .prefetchI _ _ => cfg.hasZicbop
  | .prefetchR _ _ => cfg.hasZicbop
  | .prefetchW _ _ => cfg.hasZicbop

/-- What an instruction's words are to a hart without its extension: management and zero words are reserved, prefetch words
are `ORI` with destination `x0` (R107). -/
def absent : Instr → Decoded
  | .cboInval _ => .reservedCbo
  | .cboClean _ => .reservedCbo
  | .cboFlush _ => .reservedCbo
  | .cboZero _ => .reservedCbo
  | .prefetchI _ _ => .oriHint
  | .prefetchR _ _ => .oriHint
  | .prefetchW _ _ => .oriHint

/-- Decode a word for a hart with the extensions `cfg` names (R107, R110). -/
def decodeFor (cfg : Config) (w : InstrWord) : Decoded :=
  match decode w with
  | .cmo i => if implemented cfg i then .cmo i else absent i
  | d => d

/-- The word stored in four bytes, the least significant at the lowest address (R80, R100). -/
def wordOfBytes (b0 b1 b2 b3 : Byte) : InstrWord :=
  b3 ++ b2 ++ b1 ++ b0

/-- The bytes of a word, lowest address first (R80, R100). -/
def bytesOfWord (w : InstrWord) : List Byte :=
  [w.extractLsb' 0 8, w.extractLsb' 8 8, w.extractLsb' 16 8, w.extractLsb' 24 8]

/-- Decode the first four bytes of a list (R100). -/
def decodeBytes : List Byte → Decoded
  | b0 :: b1 :: b2 :: b3 :: _ => decode (wordOfBytes b0 b1 b2 b3)
  | _ => .tooShort

/-- The CBO format: `funct12, rs1, 010, 00000, 0001111` (R101). -/
def cboWord (funct12 : BitVec 12) (rs1 : Reg) : InstrWord :=
  funct12 ++ BitVec.ofFin (w := 5) rs1 ++ 0b010#3 ++ 0b00000#5 ++ 0b0001111#7

/-- The PREFETCH format: `offset[11:5], pfop, rs1, 110, 00000, 0010011` (R102). -/
def prefetchWord (pfop : BitVec 5) (rs1 : Reg) (offset : Int) : InstrWord :=
  BitVec.ofInt 7 (offset / 32) ++ pfop ++ BitVec.ofFin (w := 5) rs1 ++ 0b110#3 ++ 0b00000#5 ++ 0b0010011#7

/-- The word of an instruction (R101 to R103). -/
def encode : Instr → InstrWord
  | .cboInval rs1 => cboWord 0x000#12 rs1
  | .cboClean rs1 => cboWord 0x001#12 rs1
  | .cboFlush rs1 => cboWord 0x002#12 rs1
  | .cboZero rs1 => cboWord 0x004#12 rs1
  | .prefetchI rs1 offset => prefetchWord 0b00000#5 rs1 offset
  | .prefetchR rs1 offset => prefetchWord 0b00001#5 rs1 offset
  | .prefetchW rs1 offset => prefetchWord 0b00011#5 rs1 offset

/-- The word of a table row: the row's `nbits` bits, every bit above them zero. -/
def tableWord (nbits w : Nat) : InstrWord :=
  BitVec.ofNat 32 (w % 2 ^ nbits)

/-- The instruction the decoder reads from the bits of a table row. -/
def decodeTableWord (nbits w : Nat) : Option Instr :=
  match decodeBytes (bytesOfWord (tableWord nbits w)) with
  | .cmo i => some i
  | _ => none

/-! ### Assembler notation -/

/-- The assembler's name of a register (R20). -/
def regName (r : Reg) : String :=
  ["zero", "ra", "sp", "gp", "tp", "t0", "t1", "t2", "s0", "s1", "a0", "a1", "a2", "a3", "a4", "a5", "a6", "a7",
    "s2", "s3", "s4", "s5", "s6", "s7", "s8", "s9", "s10", "s11", "t3", "t4", "t5", "t6"].getD r.val ""

/-- The mnemonic the toolchains write (R109). -/
def Instr.mnemonic : Instr → String
  | .cboInval _ => "cbo.inval"
  | .cboClean _ => "cbo.clean"
  | .cboFlush _ => "cbo.flush"
  | .cboZero _ => "cbo.zero"
  | .prefetchI _ _ => "prefetch.i"
  | .prefetchR _ _ => "prefetch.r"
  | .prefetchW _ _ => "prefetch.w"

/-- The operand the toolchains write: `(rs1)`, or `offset(rs1)` for a prefetch (R109). -/
def Instr.operand : Instr → String
  | .cboInval rs1 => "(" ++ regName rs1 ++ ")"
  | .cboClean rs1 => "(" ++ regName rs1 ++ ")"
  | .cboFlush rs1 => "(" ++ regName rs1 ++ ")"
  | .cboZero rs1 => "(" ++ regName rs1 ++ ")"
  | .prefetchI rs1 offset => toString offset ++ "(" ++ regName rs1 ++ ")"
  | .prefetchR rs1 offset => toString offset ++ "(" ++ regName rs1 ++ ")"
  | .prefetchW rs1 offset => toString offset ++ "(" ++ regName rs1 ++ ")"

/-- What an assembler makes of a mnemonic, an offset and a base register: the only offset of the CBO format is 0, and that of a
prefetch must be one its word can hold; anything else is an assembler error (R109). -/
def assemble (mnemonic : String) (offset : Int) (rs1 : Reg) : Option InstrWord :=
  let named := [Instr.cboInval rs1, .cboClean rs1, .cboFlush rs1, .cboZero rs1].filter (fun _ => decide (offset = 0))
    ++ [.prefetchI rs1 offset, .prefetchR rs1 offset, .prefetchW rs1 offset]
  (named.find? (fun i => i.mnemonic == mnemonic && i.wf)).map encode

end Sys2Proof
end

