-- ==== Sys2Proof/Machine/Bits.lean ====
section
/-!
DEFINITION. Bit fields of a word, truncation to `XLEN`, and cache blocks as ranges of addresses.
-/

namespace Sys2Proof.Machine

/-- An `XLEN`-bit value held in a word: arithmetic is modulo `2^XLEN` (R20, R104). -/
def xtrunc : Xlen → Word → Word
  | .rv32, w => (w.setWidth 32).setWidth 64
  | .rv64, w => w

/-- Bit `n` of a word. -/
def getBit (w : Word) (n : Nat) : Bool :=
  w.getLsbD n

/-- The word with bit `n` set to `b`. -/
def setBit (w : Word) (n : Nat) (b : Bool) : Word :=
  if b then w ||| (1#64 <<< n) else w &&& ~~~(1#64 <<< n)

/-- The two-bit field of a word whose low bit is `lo`. -/
def getField2 (w : Word) (lo : Nat) : BitVec 2 :=
  w.extractLsb' lo 2

/-- The word with the two-bit field at `lo` set to `v`. -/
def setField2 (w : Word) (lo : Nat) (v : BitVec 2) : Word :=
  (w &&& ~~~(3#64 <<< lo)) ||| (v.setWidth 64 <<< lo)

/-- The bits of `new` where `mask` is 1 and those of `old` elsewhere. -/
def mergeBits (mask old new : Word) : Word :=
  (old &&& ~~~mask) ||| (new &&& mask)

/-- `blk_base(a, S)`: the address with its low `log2(S)` bits cleared (`spec/00_scope.md` section 5). -/
def blkBase (a size : Nat) : Nat :=
  a - a % size

/-- `Block(a, S)`: the `S` addresses of the block that contains `a`, in rising order (R56). -/
def block (a size : Nat) : List Nat :=
  (List.range size).map (fun k => blkBase a size + k)

/-- The address lies in the range of `size` bytes from `base`. -/
def inRange (a base size : Nat) : Bool :=
  decide (base ≤ a) && decide (a < base + size)

/-- `CBS_M`, the block size of management and prefetch instructions, and of the caches (R6, log entry 9). -/
def cbsM (cfg : Config) : Nat :=
  2 ^ cfg.cbsMLog.val

/-- `CBS_Z`, the block size of `CBO.ZERO` (R6). -/
def cbsZ (cfg : Config) : Nat :=
  2 ^ cfg.cbsZLog.val

end Sys2Proof.Machine
end

