-- ==== Sys2Proof/Machine/Table.lean ====
section
/-!
DEFINITION. Finite maps with natural-number keys as lists of key and value in strictly rising order, and memory as one of them.

Memory is the data at every memory location (R30), byte addressed. An address that is not listed reads as zero (log entry 5),
and writing zero removes the entry, so equal memories are equal lists.
-/

namespace Sys2Proof.Machine

/-- A finite map; its canonical form has strictly rising keys. -/
abbrev Table (α : Type) := List (Nat × α)

/-- The value stored at a key. -/
def Table.get? {α : Type} : Table α → Nat → Option α
  | [], _ => none
  | (k, v) :: t, j => if k = j then some v else Table.get? t j

/-- Store a value at a key, keeping the keys in order. -/
def Table.put {α : Type} (k : Nat) (v : α) : Table α → Table α
  | [] => [(k, v)]
  | (k', v') :: t =>
    if k < k' then (k, v) :: (k', v') :: t
    else if k = k' then (k, v) :: t
    else (k', v') :: Table.put k v t

/-- Remove a key. -/
def Table.del {α : Type} (k : Nat) (t : Table α) : Table α :=
  t.filter (fun e => e.1 != k)

/-- The keys rise strictly. -/
abbrev Table.Sorted {α : Type} (t : Table α) : Prop :=
  t.Pairwise (fun a b => a.1 < b.1)

/-- Memory: address and byte (R30). -/
abbrev Memory := List Host.Cell

/-- What an address that is not listed reads as (log entry 5). -/
def Memory.unlisted : Byte := 0

/-- The byte at an address. -/
def Memory.read (m : Memory) (a : Nat) : Byte :=
  (Table.get? m a).getD Memory.unlisted

/-- Write one byte. -/
def Memory.write (m : Memory) (a : Nat) (v : Byte) : Memory :=
  if v = Memory.unlisted then Table.del a m else Table.put a v m

/-- Write bytes at consecutive addresses. -/
def Memory.writeBytes (m : Memory) (a : Nat) : List Byte → Memory
  | [] => m
  | v :: vs => Memory.writeBytes (Memory.write m a v) (a + 1) vs

/-- The canonical form: strictly rising addresses, and no entry equal to what an unlisted address reads as. -/
abbrev Memory.wf (m : Memory) : Prop :=
  Table.Sorted (α := Byte) m ∧ ∀ e ∈ m, e.2 ≠ Memory.unlisted

end Sys2Proof.Machine
end

