-- ==== Sys2Proof/Machine/State.lean ====
section
/-!
DEFINITION. The state of the machine: one executing hart, the other harts, memory, the caches, the store-since-write state, the
event history, the operations still to be performed, the trap records, the queue of what the agents do, and the platform's
parameters.

`INVENTORY.md`, heading State, lists every piece with the rule that names it and its reset value.
-/

namespace Sys2Proof.Machine

/-! ### Exceptions -/

/-- The exceptions the spec names for CMO instructions, those they never take among them (R167, R197). -/
inductive Cause where
  | illegalInstruction
  | breakpoint
  | storeMisaligned
  | storeAccessFault
  | storePageFault
  | virtualInstruction
  | storeGuestPageFault
deriving DecidableEq, Repr

/-- The record `Trap(cause, epc, tval)` (R196). `gpa` is the guest physical address of a guest-page fault (R197);
`guestVirtual` says that `tval` is an address of a virtual mode (log entry 21). -/
structure TrapRecord where
  cause        : Cause
  epc          : Word
  tval         : Word
  gpa          : Option Nat
  guestVirtual : Bool
deriving DecidableEq, Repr

/-! ### The registers of a hart -/

/-- One debug trigger: `tdata1`, which is `mcontrol6` when its type is 6, and `tdata2` (R27). The fields of `tdata1` are read in
`Flags.lean`; their widths and positions are the family's (PRESUMED, log entry 13). -/
structure Trigger where
  tdata1 : Word
  tdata2 : Word
deriving DecidableEq, Repr

/-- The control and status registers the spec names, the debug triggers among them. `mstatus` holds `mstatush` as its upper half when
`XLEN = 32`, as `menvcfg` and `henvcfg` hold theirs; `sstatus` is a view of `mstatus` (R24, R25, R27, R37, R201). `tdata1` and
`tdata2` are those of the trigger that `tselect` names. -/
structure Csrs where
  mstatus  : Word
  vsstatus : Word
  hstatus  : Word
  menvcfg  : Word
  senvcfg  : Word
  henvcfg  : Word
  mtvec    : Word
  mepc     : Word
  mcause   : Word
  mtval    : Word
  mtval2   : Word
  mtinst   : Word
  medeleg  : Word
  stvec    : Word
  sepc     : Word
  scause   : Word
  stval    : Word
  hedeleg  : Word
  htval    : Word
  htinst   : Word
  vstvec   : Word
  vsepc    : Word
  vscause  : Word
  vstval   : Word
  tselect  : Word
  triggers : List Trigger
deriving DecidableEq, Repr

/-- The registers by name, as a host instruction addresses them (R24, R25, R27, R37, R201). -/
inductive CsrName where
  | mstatus
  | mstatush
  | sstatus
  | vsstatus
  | hstatus
  | menvcfg
  | menvcfgh
  | senvcfg
  | henvcfg
  | henvcfgh
  | mtvec
  | mepc
  | mcause
  | mtval
  | mtval2
  | mtinst
  | medeleg
  | stvec
  | sepc
  | scause
  | stval
  | hedeleg
  | htval
  | htinst
  | vstvec
  | vsepc
  | vscause
  | vstval
  | tselect
  | tdata1
  | tdata2
deriving DecidableEq, Repr

/-- A reservation: the address range an LR instruction set up (R34). -/
structure Reservation where
  base : Nat
  size : Nat
deriving DecidableEq, Repr

/-- One hart (R205). `regDeps` and `ctrlDeps` are bookkeeping of the ordering rules: the ticks of the hart's operations that gave a
register a value (loads, and the stores of SC and AMO instructions) on which each register, and the path to this instruction,
syntactically depend (R91 rules 9 to 11, R94). -/
structure Hart where
  id       : Nat
  x        : Vector Word 32
  pc       : Word
  mode     : Mode
  csr      : Csrs
  walk     : Walk
  pmp      : Pmp
  resv     : Option Reservation
  regDeps  : Vector (List Nat) 32
  ctrlDeps : List Nat
deriving DecidableEq, Repr

/-! ### Caches -/

/-- A region of memory locations, and the observers on whose path to these locations a cache lies (R54). -/
structure PathRegion where
  base      : Nat
  size      : Nat
  observers : List Nat
deriving DecidableEq, Repr

/-- One cache: its position, which is for each location the observers on whose path to it the cache lies (R54; the first region that
contains the location counts, log entry 29), its capacity and organisation (R4), and the copies it holds, block base to the bytes of the
block (R32). It holds at most `ways` blocks of each of its `sets` sets; with `sets = 0` each block is a set of its own, so that the
capacity is not bounded. A set of a cache is not a set of coherent observers. -/
structure Cache where
  serves : List PathRegion
  sets   : Nat
  ways   : Nat
  lines  : Table (List Byte)
deriving DecidableEq, Repr

/-- The memory system, shared by all harts and observers (R205): `Mem` (R30), `Copy` (R32) and `Dirty` (R33). `dirty` lists the
set and block pairs for which `Dirty` holds, without repeats. -/
structure MemSys where
  mem    : Memory
  caches : List Cache
  dirty  : List (CohSet × Nat)
deriving DecidableEq, Repr

/-! ### Events -/

/-- The predecessor or successor set of a `FENCE` (R93). -/
structure FenceSet where
  i : Bool
  o : Bool
  r : Bool
  w : Bool
deriving DecidableEq, Repr

/-- The store a byte of a load was read from: the observer and the tick of the store, or the initial data (R91 rules 2, 3, 12). -/
abbrev Source := Option (Nat × Nat)

/-- A memory operation (R39, R52, R53), or a `FENCE` between them (R93). A block is named by its base address. A load has the bytes
it returns, and their sources, from the moment it is performed; until then both lists are empty. -/
inductive MemOp where
  | load (addr : Nat) (size : Nat) (bytes : List Byte) (src : List Source)
  | store (addr : Nat) (bytes : List Byte)
  | invalidate (block : Nat)
  | clean (block : Nat)
  | flush (block : Nat)
  | fence (pred succ : FenceSet)
deriving DecidableEq, Repr

/-- The annotations and syntactic dependencies of an operation that the PPO rules read (R91). Dependencies are ticks of earlier
operations of the same hart that gave a register a value; `pair` is the tick of the LR paired with an SC. -/
structure Tags where
  acquire : Bool
  release : Bool
  rcsc    : Bool
  amoOrSc : Bool
  pair    : Option Nat
  addrDep : List Nat
  dataDep : List Nat
  ctrlDep : List Nat
deriving DecidableEq, Repr

/-- An event: who performed the operation, and the tick of the instruction that produced it. Of two events of one observer the
one with the smaller tick is first in program order; events of one tick are not ordered (R39, R142). -/
structure Event where
  obs  : Nat
  tick : Nat
  op   : MemOp
  tags : Tags
deriving DecidableEq, Repr

/-! ### What the other agents do -/

/-- An effect of a host (non-CMO) instruction of the executing hart on the state the CMO rules read (D1, log entry 4). -/
inductive HostAction where
  | writeX (rd : Reg) (v : Word) (deps : List Nat)
  | setPc (v : Word)
  | branch (deps : List Nat)
  | fence (pred succ : FenceSet)
  | reserve (r : Option Reservation)
  | writeCsr (c : CsrName) (v : Word)
  | readCsr (rd : Reg) (c : CsrName)
  | setWalk (w : Walk)
  | setPmp (p : Pmp)
  | setMode (m : Mode)
  | mret
  | sret
deriving DecidableEq, Repr

/-- One move of an agent other than a hart's CMO instructions (R206), or of the memory system that performs what was issued (R90).
Caches are named by their place in `MemSys.caches`. -/
inductive Move where
  /-- the hart with this name executes from now on (R206 (1)) -/
  | schedule (hart : Nat)
  /-- a cache allocates a copy of a block (R64) -/
  | allocate (cache : Nat) (block : Nat)
  /-- a cache deallocates its copy, handing it to another cache if one is named (R65) -/
  | deallocate (cache : Nat) (block : Nat) (dest : Option Nat)
  /-- a cache writes a stored-to block to memory (R66) -/
  | writeBack (cache : Nat) (block : Nat)
  /-- an observer, the executing hart among them, issues a load of `size` bytes (R52, R206 (1), (2)) -/
  | load (o : Nat) (addr : Nat) (size : Nat) (tags : Tags)
  /-- an observer, the executing hart among them, issues a store of bytes (R52, R206 (1), (2)) -/
  | store (o : Nat) (addr : Nat) (bytes : List Byte) (tags : Tags)
  /-- the operation at place `n` of `State.pending` is performed: it takes its place at the end of the global memory order (R90); a
  load returns `bytes`, each from its source -/
  | perform (n : Nat) (bytes : List Byte) (src : List Source)
  /-- of the operations that wait, the one at place `n + 1` of `State.pending` will take its place in the global memory order before
  the one at place `n` (R90, log entry 22) -/
  | overtake (n : Nat)
  /-- from now on the memory system holds the operations of instructions back, or no longer does (R90, log entry 22) -/
  | defer (b : Bool)
  /-- a host instruction of the executing hart acts (D1) -/
  | host (a : HostAction)
deriving DecidableEq, Repr

/-- What happens next: the instruction at `pc`, or a move (R206). -/
inductive Input where
  | run
  | act (m : Move)
deriving DecidableEq, Repr

/-! ### Why a step can stop -/

/-- The reasons the machine stops with a fault. -/
inductive Fault where
  /-- raised by the fetch when `pc` is not aligned as the host asks; the host's own fault, which the spec does not describe
  (R81, R199 item 1); safe -/
  | fetchMisaligned
  /-- raised by the fetch when the instruction's bytes cannot be translated or executed; the host's own fault, which the spec
  does not describe (R167, R199 item 1); safe -/
  | fetchDenied
deriving DecidableEq, Repr

/-- The reasons the model refuses a step. -/
inductive Refusal where
  /-- an instruction that has no meaning yet, by its mnemonic; safe -/
  | notModelled (mnemonic : String)
  /-- raised by every CMO instruction whose block breaks the PMA constraints: the behaviour is UNSPECIFIED (R183, U4); safe -/
  | pmaConstraintsNotMet
  /-- raised by every CMO instruction whose block meets an enabled debug trigger when trigger behaviour is UNSPECIFIED
  (R191, U5, D18); safe -/
  | triggerUnspecified
  /-- raised by the step when the word at `pc` is not a CMO instruction: the base instruction set is out of scope
  (`spec/00_scope.md` section 3, R110 step 4); safe -/
  | hostInstruction
deriving DecidableEq, Repr

/-! ### The state -/

/-- The state of the machine. `history` holds the operations that have been performed, in the global memory order; `pending` those
that have been issued and not yet performed, in the order in which they are to follow in it: the order of issue, until one overtakes
another (R39, R90). `inputs` is what happens next; where it is empty,
the instruction at `pc` runs. `deferred` is the model's own field: whether the memory system holds the operations of an instruction
back when it is executed (log entry 22). -/
structure State where
  cfg      : Config
  hart     : Hart
  others   : List Hart
  sys      : MemSys
  initMem  : Memory
  history  : List Event
  pending  : List Event
  deferred : Bool
  traps    : List TrapRecord
  inputs   : List Input
  tick     : Nat
deriving DecidableEq, Repr

/-! ### Reset -/

/-- The control and status registers after reset: zero, `mstatus.MPRV = 0` among them; one debug trigger, not enabled (R45, log
entries 6, 7 and 13). -/
def Csrs.reset : Csrs where
  mstatus  := 0
  vsstatus := 0
  hstatus  := 0
  menvcfg  := 0
  senvcfg  := 0
  henvcfg  := 0
  mtvec    := 0
  mepc     := 0
  mcause   := 0
  mtval    := 0
  mtval2   := 0
  mtinst   := 0
  medeleg  := 0
  stvec    := 0
  sepc     := 0
  scause   := 0
  stval    := 0
  hedeleg  := 0
  htval    := 0
  htinst   := 0
  vstvec   := 0
  vsepc    := 0
  vscause  := 0
  vstval   := 0
  tselect  := 0
  triggers := [{ tdata1 := 0, tdata2 := 0 }]

/-- The hart after reset: M-mode, no reservation, no trigger enabled (R45); the reset vector `0x1000` and every register zero
are the model's choice (log entries 6, 7 and 8). -/
def Hart.reset : Hart where
  id       := 0
  x        := Vector.replicate 32 0
  pc       := 0x1000
  mode     := .M
  csr      := Csrs.reset
  walk     := { bare := [.S, .U, .VS, .VU], rows := [] }
  pmp      := { rows := [], below := { r := false, w := false, x := false } }
  resv     := none
  regDeps  := Vector.replicate 32 []
  ctrlDeps := []

/-- The platform of the reset state, an instance the model chooses (log entry 2): `XLEN = 64`, `PALEN = 56`, 64-byte blocks, every
extension and mode, one region of cacheable main memory, no debug triggers. -/
def resetConfig : Config where
  xlen            := .rv64
  palen           := 56
  cbsMLog         := 6
  cbsZLog         := 6
  hasZicbom       := true
  hasZicboz       := true
  hasZicbop       := true
  hasCompressed   := false
  modes           := [.M, .S, .U, .VS, .VU]
  cbieM           := [0b00#2, 0b01#2, 0b11#2]
  cbieS           := [0b00#2, 0b01#2, 0b11#2]
  cbieH           := [0b00#2, 0b01#2, 0b11#2]
  enableRows      := []
  harts           := [0]
  pma             := [{ base := 0, size := 2 ^ 56,
                        attrs := { perm := { r := true, w := true, x := true }, kind := .mainMemory, cacheable := true,
                                   incoherent := [] } }]
  visible         := [{ obs := 0, base := 0, size := 2 ^ 56 }]
  coh             := [{ base := 0, size := 2 ^ 56, groups := [(0, 0)] }]
  prefetchStrictR := false
  prefetchStrictW := false
  prefetchStrictI := false
  triggers        := .unspecified
  uncachedCbo     := .noEffect
  tvalHoldsWord   := true

/-- The machine right after reset (R45, R210): memory lists nothing, one cache that holds no copy (the launch premise
`CachesEmpty`, R211), of 64 sets of 8 blocks (log entry 9), no event, no operation to be performed, no move pending. -/
def State.reset : State where
  cfg      := resetConfig
  hart     := Hart.reset
  others   := []
  sys      := { mem := []
                caches := [{ serves := [{ base := 0, size := 2 ^ 56, observers := [0] }], sets := 64, ways := 8, lines := [] }]
                dirty := [] }
  initMem  := []
  history  := []
  pending  := []
  deferred := false
  traps    := []
  inputs   := []
  tick     := 0

end Sys2Proof.Machine
end

