-- ==== Sys2Proof/Machine/Flags.lean ====
section
/-!
DEFINITION. The fields of the status registers and of `tdata1`. There is no condition code: no CMO instruction sets or reads one (R22).

The positions of `MPP`, `MPRV`, `SUM`, `MXR` and `MPV` are those of R24 and R25. The positions of the other fields that trap entry
writes (R201) are the family's (PRESUMED, log entry 10), and so are those of the fields of `tdata1` (PRESUMED, log entry 13).
-/

namespace Sys2Proof.Machine

/-- `mstatus.MPP`, bits 12:11 (R24). -/
def mpp (mstatus : Word) : BitVec 2 := getField2 mstatus 11

/-- `mstatus.MPRV`, bit 17 (R24). -/
def mprv (mstatus : Word) : Bool := getBit mstatus 17

/-- `SUM`, bit 18 of `mstatus`, `sstatus` and `vsstatus` (R24, R25). -/
def statusSum (status : Word) : Bool := getBit status 18

/-- `MXR`, bit 19 of `mstatus`, `sstatus` and `vsstatus` (R24, R25). No CMO rule reads it (R179). -/
def statusMxr (status : Word) : Bool := getBit status 19

/-- `mstatus.MPV`: bit 39, which is bit 7 of `mstatush` when `XLEN = 32` (R24). -/
def mpv (mstatus : Word) : Bool := getBit mstatus 39

/-- The privilege level of a mode, without the virtualisation bit: U and VU 0, S and VS 1, M 3 (R23, R24). -/
def level : Mode → BitVec 2
  | .M => 3
  | .S => 1
  | .VS => 1
  | .U => 0
  | .VU => 0

/-- The virtualisation bit of a mode (R23). -/
def virt : Mode → Bool
  | .M => false
  | .S => false
  | .U => false
  | .VS => true
  | .VU => true

/-- The mode a privilege level and a virtualisation bit name, as in R171: level 3 is M, level 1 a supervisor mode, any other a
user mode. -/
def modeOf (lvl : BitVec 2) (v : Bool) : Mode :=
  if lvl = 3 then .M
  else if v then (if lvl = 1 then .VS else .VU)
  else (if lvl = 1 then .S else .U)

/-- `EffPriv()`, the effective privilege mode of the access (R171). -/
def effPriv (h : Hart) : Mode :=
  if h.mode = .M && mprv h.csr.mstatus then modeOf (mpp h.csr.mstatus) (mpv h.csr.mstatus) else h.mode

/-- The fields of `mstatus` that `sstatus` shows: `SIE`, `SPIE`, `SPP`, `SUM`, `MXR` (R25, R201, log entry 10). -/
def sstatusMask : Word := 0xC0122#64

/-- `mstatus` after a trap is taken to M-mode: `MPP <- level`, `MPIE <- MIE`, `MIE <- 0`, and with the hypervisor extension
`MPV` and `GVA` (R201). -/
def mstatusOnTrap (hyp : Bool) (mode : Mode) (gva : Bool) (w : Word) : Word :=
  let w1 := setBit (setBit (setField2 w 11 (level mode)) 7 (getBit w 3)) 3 false
  if hyp then setBit (setBit w1 39 (virt mode)) 38 gva else w1

/-- A supervisor status register (`mstatus` for HS-mode, `vsstatus` for VS-mode) after a trap is taken to that mode:
`SPP <- level`, `SPIE <- SIE`, `SIE <- 0` (R201). -/
def sstatusOnTrap (mode : Mode) (w : Word) : Word :=
  setBit (setBit (setBit w 8 (decide (level mode = 1))) 5 (getBit w 1)) 1 false

/-- `hstatus` after a trap is taken to HS-mode: `SPV` and `GVA` (R201). -/
def hstatusOnTrap (mode : Mode) (gva : Bool) (w : Word) : Word :=
  setBit (setBit w 7 (virt mode)) 6 gva

/-- `mstatus` after `MRET`: the interrupt enable saved at entry is restored (R202). -/
def mstatusOnRet (w : Word) : Word :=
  setBit w 3 (getBit w 7)

/-- A supervisor status register after `SRET`: the interrupt enable saved at entry is restored (R202). -/
def sstatusOnRet (w : Word) : Word :=
  setBit w 1 (getBit w 5)

/-! ### The fields of `tdata1` (R27, R192 to R195; widths and positions PRESUMED, log entry 13) -/

/-- `tdata1.type`, the four highest of the `XLEN` bits. -/
def Trigger.type (cfg : Config) (t : Trigger) : BitVec 4 :=
  match cfg.xlen with
  | .rv32 => t.tdata1.extractLsb' 28 4
  | .rv64 => t.tdata1.extractLsb' 60 4

/-- `select`: a data match, not an address match. It is bit 21 of `mcontrol6` (type 6) and bit 19 of the older type 2. -/
def Trigger.dataMatch (cfg : Config) (t : Trigger) : Bool :=
  if t.type cfg = 2 then getBit t.tdata1 19 else getBit t.tdata1 21

/-- `mcontrol6.size`, bits 18:16. -/
def Trigger.size (t : Trigger) : BitVec 3 := t.tdata1.extractLsb' 16 3

/-- `load`, bit 0. -/
def Trigger.load (t : Trigger) : Bool := getBit t.tdata1 0

/-- `store`, bit 1. -/
def Trigger.store (t : Trigger) : Bool := getBit t.tdata1 1

end Sys2Proof.Machine
end

