-- ==== Sys2Proof/Machine/Platform.lean ====
section
/-!
DEFINITION. The host functions the CMO rules read: `Translate`, `PMP`, `PMA`, `observes` and `COH`, looked up in the tables of
the hart and of the platform (`spec/00_scope.md` section 4; R51, R60, R61, R172, R184).
-/

namespace Sys2Proof.Machine

/-- The hypervisor extension is present when a virtual mode exists (R165). -/
def hasHypervisor (cfg : Config) : Bool :=
  cfg.modes.contains .VS || cfg.modes.contains .VU

/-- `Translate(ea, mode, class)` (R172). M-mode and the modes whose translation is off reach memory at the effective address
(R31, R181); a page with no row has no valid entry, a page fault of the walk. It is a lookup: no class of access sets an accessed or
dirty bit (DESIGN CHOICE, log entry 3). -/
def translate (h : Hart) (mode : Mode) (cls : AccessClass) (ea : Word) : WalkResult :=
  if mode = .M || h.walk.bare.contains mode then .done (ea.toNat / 4096) (ea.toNat / 4096) none none
  else
    match h.walk.rows.find? (fun r => decide (r.mode = mode) && r.classes.contains cls && decide (r.page = ea.toNat / 4096)) with
    | some r => r.result
    | none => .fault .page 0

/-- The address in a page at the offset of the effective address: the smallest page has 4096 bytes (R124). -/
def inPage (page : Nat) (ea : Word) : Nat :=
  page * 4096 + ea.toNat % 4096

/-- The attributes of an address where there is no memory location: no permission (log entry 11). -/
def vacant : Pma where
  perm := { r := false, w := false, x := false }
  kind := .io
  cacheable := false
  incoherent := []

/-- `PMA(pa)`: the attributes of a physical address (R83). An address of `PALEN` bits or more, or in no region, is vacant. -/
def pmaAt (cfg : Config) (a : Nat) : Pma :=
  if a < 2 ^ cfg.palen then
    match cfg.pma.find? (fun r => inRange a r.base r.size) with
    | some r => r.attrs
    | none => vacant
  else vacant

/-- The address identifies a memory location (parameter `LOCS`, R50, log entry 11). -/
def isLocation (cfg : Config) (a : Nat) : Bool :=
  decide (a < 2 ^ cfg.palen) && cfg.pma.any (fun r => inRange a r.base r.size)

/-- `observes(o, pa)` (R51). -/
def observes (cfg : Config) (o : Nat) (a : Nat) : Bool :=
  isLocation cfg a && cfg.visible.any (fun v => decide (v.obs = o) && inRange a v.base v.size)

/-- `PMP(pa, mode)` (R184). M-mode is granted everything where no row matches (`spec/95_test_vectors.md` A7). -/
def pmpAt (p : Pmp) (mode : Mode) (a : Nat) : Perm :=
  match p.rows.find? (fun r => r.modes.contains mode && inRange a r.base r.size) with
  | some r => r.perm
  | none => if mode = .M then { r := true, w := true, x := true } else p.below

/-- What the PMAs allow a hart at an address: nothing where the hart cannot access the location (R51; DEDUCED, log entry 36). -/
def pmaPerm (cfg : Config) (o : Nat) (a : Nat) : Perm :=
  if observes cfg o a then (pmaAt cfg a).perm else vacant.perm

/-- `JointR`, `JointW` and `JointX` of an address (R184). -/
def joint (cfg : Config) (h : Hart) (mode : Mode) (a : Nat) : Perm :=
  let p := pmpAt h.pmp mode a
  let m := pmaPerm cfg h.id a
  { r := p.r && m.r, w := p.w && m.w, x := p.x && m.x }

/-- `PmaOk(pa, S)`: the PMAs are the same for all addresses of the block, and write permission comes with read permission
(R183). -/
def pmaOk (cfg : Config) (pa size : Nat) : Bool :=
  (block pa size).all (fun a =>
    decide (pmaAt cfg a = pmaAt cfg (blkBase pa size)) && (!(pmaAt cfg a).perm.w || (pmaAt cfg a).perm.r))

/-- The location is cacheable, as its PMAs say. -/
def cacheableAt (cfg : Config) (a : Nat) : Bool :=
  (pmaAt cfg a).cacheable

/-- The set of coherent observers that an observer belongs to, for a location (R60). An observer whose coherence PMA says that the
location is not coherent is in no set with another (R61). -/
def cohSetOf (cfg : Config) (a : Nat) (o : Nat) : CohSet :=
  if (pmaAt cfg a).incoherent.contains o then .alone o
  else
    match cfg.coh.find? (fun r => inRange a r.base r.size) with
    | none => .alone o
    | some r =>
      match r.groups.find? (fun g => g.1 == o) with
      | none => .alone o
      | some g => .group g.2

/-- Two observers are coherent with respect to each other for a location (R62). -/
def coherentAt (cfg : Config) (a : Nat) (o o' : Nat) : Bool :=
  decide (cohSetOf cfg a o = cohSetOf cfg a o')

/-- The two ranges have an address in common. -/
def rangesMeet (a n b m : Nat) : Bool :=
  decide (a < b + m) && decide (b < a + n)

/-- No region border runs through the block at base `b`: the first region of the list that meets the block contains it. `region`
gives a region's base and size. -/
def unsplit {α : Type} (region : α → Nat × Nat) (l : List α) (b size : Nat) : Bool :=
  match l.find? (fun r => rangesMeet b size (region r).1 (region r).2) with
  | none => true
  | some r => decide ((region r).1 ≤ b) && decide (b + size ≤ (region r).1 + (region r).2)

/-- A cache can hold the block at base `b`: its locations are cacheable, and no border of the tables `PMA` and `COH` runs through
it, so that they have the same attributes and the same sets of coherent observers. A block whose locations differ in these is not
cached (DESIGN CHOICE, log entry 37). -/
def cacheable (cfg : Config) (b : Nat) : Bool :=
  cacheableAt cfg b && decide (b + cbsM cfg ≤ 2 ^ cfg.palen)
    && unsplit (fun r : PmaRegion => (r.base, r.size)) cfg.pma b (cbsM cfg)
    && unsplit (fun r : CohRegion => (r.base, r.size)) cfg.coh b (cbsM cfg)

/-- The set an observer belongs to for the cache block of an address: that of the block's first location. Where a cache can hold
the block, it is the set of every location of the block. -/
def cohAt (cfg : Config) (a : Nat) (o : Nat) : CohSet :=
  cohSetOf cfg (blkBase a (cbsM cfg)) o

end Sys2Proof.Machine
end

