-- ==== Sys2Proof/Machine/Csr.lean ====
section
/-!
DEFINITION. The CMO control registers and the enable function (R35 to R37, R168 to R170), and the reads and writes of the named
registers by host instructions (R24, R25, R27, R37, R108).
-/

namespace Sys2Proof.Machine

/-- `CBIE`, bits 5:4 of an `envcfg` register (R37). -/
def cbie (env : Word) : BitVec 2 := getField2 env 4

/-- `CBCFE`, bit 6 (R37). -/
def cbcfe (env : Word) : Bool := getBit env 6

/-- `CBZE`, bit 7 (R37). -/
def cbze (env : Word) : Bool := getBit env 7

/-- `on(csr, I)`: the register enables the instruction (R169). -/
def enables (env : Word) : Gated → Bool
  | .inval => decide (cbie env ≠ 0b00#2)
  | .clean => cbcfe env
  | .flush => cbcfe env
  | .zero => cbze env

/-- The default instance of `CMO_ENABLE` (R169). A register that does not exist counts as enabling. -/
def cmoEnableDefault (cfg : Config) (g : Gated) (mode : Mode) (menv senv henv : Word) : Enable :=
  let hasS := cfg.modes.contains .S
  let hasH := hasHypervisor cfg
  let onS := !hasS || enables senv g
  let onH := !hasH || enables henv g
  let flushS := hasS && decide (cbie senv = 0b01#2)
  let flushH := hasH && decide (cbie henv = 0b01#2)
  let disabled :=
    (decide (mode ≠ .M) && !enables menv g) || (decide (mode = .U) && !onS) || (decide (mode = .VS) && !onH)
      || (decide (mode = .VU) && (!onH || !onS))
  let flush :=
    (decide (mode ≠ .M) && decide (cbie menv = 0b01#2)) || (decide (mode = .U) && flushS) || (decide (mode = .VS) && flushH)
      || (decide (mode = .VU) && (flushH || flushS))
  if disabled then .illegalInstruction
  else if decide (g = .inval) && flush then .performFlushInstead
  else .perform

/-- Only `CBO.INVAL` has the answer `PerformFlushInstead` (R168). -/
def onlyInvalFlushes : Gated → Enable → Enable
  | .inval, a => a
  | .clean, .performFlushInstead => .perform
  | .flush, .performFlushInstead => .perform
  | .zero, .performFlushInstead => .perform
  | _, a => a

/-- `CmoEnable(I)`: the platform's own `CMO_ENABLE` where it has an entry, else the default instance. It reads the current mode,
not the effective one (R168). -/
def cmoEnable (cfg : Config) (h : Hart) (g : Gated) : Enable :=
  match cfg.enableRows.find? (fun r =>
      decide (r.instr = g) && decide (r.mode = h.mode) && decide (r.menv = h.csr.menvcfg.setWidth 8)
        && decide (r.senv = h.csr.senvcfg.setWidth 8) && decide (r.henv = h.csr.henvcfg.setWidth 8)) with
  | some r => onlyInvalFlushes g r.answer
  | none => cmoEnableDefault cfg g h.mode h.csr.menvcfg h.csr.senvcfg h.csr.henvcfg

/-! ### Register access by host instructions -/

/-- The number of a register, where the spec gives one (R24, R25, R27, R37). -/
def CsrName.number? : CsrName → Option Nat
  | .mstatus => some 0x300
  | .mstatush => some 0x310
  | .sstatus => some 0x100
  | .vsstatus => some 0x200
  | .menvcfg => some 0x30A
  | .menvcfgh => some 0x31A
  | .senvcfg => some 0x10A
  | .henvcfg => some 0x60A
  | .henvcfgh => some 0x61A
  | .tselect => some 0x7A0
  | .tdata1 => some 0x7A1
  | .tdata2 => some 0x7A2
  | _ => none

/-- The lower half of a word. -/
def lowHalf : Word := 0xFFFFFFFF#64

/-- The values a `CBIE` field can hold: `10` is never held (R36, R108, D31). -/
def cbieLegal (supported : List (BitVec 2)) : List (BitVec 2) :=
  supported.filter (fun v => decide (v ≠ 0b10#2))

/-- What a `CBIE` field holds after a write: the value written if it is supported, else a free choice among those that are
(R108, D31). -/
def cbieAfterWrite (supported : List (BitVec 2)) (tick : Nat) (old v : BitVec 2) : BitVec 2 :=
  let legal := cbieLegal supported
  if legal.contains v then v else legal.getD (Config.freeCbie tick % legal.length) old

/-- An `envcfg` register after a write of `v`: bits 3:1 keep their value, `CBIE` is write-any-read-legal, and a field whose
extension is absent is read-only zero (R37, R108, log entry 12). -/
def envcfgWrite (cfg : Config) (supported : List (BitVec 2)) (tick : Nat) (old v : Word) : Word :=
  let kept := mergeBits 0xE#64 v old
  let ie := if cfg.hasZicbom then cbieAfterWrite supported tick (cbie old) (cbie v) else 0
  setBit (setBit (setField2 kept 4 ie) 6 (cfg.hasZicbom && cbcfe v)) 7 (cfg.hasZicboz && cbze v)

/-- A write to the lower half when `XLEN = 32`, to the whole register when `XLEN = 64`. -/
def writeLow (xlen : Xlen) (old v : Word) : Word :=
  match xlen with
  | .rv32 => mergeBits lowHalf old v
  | .rv64 => v

/-- A write to the upper half, which has a name of its own only when `XLEN = 32`. -/
def writeHigh (xlen : Xlen) (old v : Word) : Word :=
  match xlen with
  | .rv32 => mergeBits (~~~lowHalf) old (v <<< 32)
  | .rv64 => old

/-- A read of the upper half. When `XLEN = 64` there is no such register: it reads as zero and is not written (R24 and R37 are silent:
DESIGN CHOICE, log entry 12). -/
def readHigh (xlen : Xlen) (w : Word) : Word :=
  match xlen with
  | .rv32 => w >>> 32
  | .rv64 => 0

/-- `MPP = 2` is reserved: a write of it leaves the field as it was (R24, log entry 12). -/
def legalMpp (old w : Word) : Word :=
  if mpp w = 2 then setField2 w 11 (mpp old) else w

/-- An address an instruction may have: the low bits of an exception program counter read as zero (R81, log entry 12). -/
def alignPc (cfg : Config) (v : Word) : Word :=
  if cfg.hasCompressed then v &&& ~~~1#64 else v &&& ~~~3#64

/-- The control registers that exist (R37). -/
def hasMenvcfg (cfg : Config) : Bool := cfg.modes.any (fun m => decide (m ≠ .M))

/-- The trigger that `tselect` names (R27). -/
def selected (r : Csrs) : Option Trigger := r.triggers[r.tselect.toNat]?

/-- A change of the trigger that `tselect` names. -/
def changeSelected (f : Trigger → Trigger) (r : Csrs) : Csrs :=
  { r with triggers := r.triggers.modify r.tselect.toNat f }

/-- The value a read of a named register gives (R24, R25, R27, R37). Where `tselect` names no trigger, `tdata1` and `tdata2` read as
zero (R27 is silent: DESIGN CHOICE, log entry 13). A register that does not exist on the hart reads as what is held, and `sstatus` and
`vsstatus` are read on every hart, with S-mode and the hypervisor extension or without (R25 is silent; DESIGN CHOICE, log entry 12). -/
def csrRead (cfg : Config) (c : CsrName) (r : Csrs) : Word :=
  match c with
  | .mstatus => xtrunc cfg.xlen r.mstatus
  | .mstatush => readHigh cfg.xlen r.mstatus
  | .sstatus => xtrunc cfg.xlen (r.mstatus &&& sstatusMask)
  | .vsstatus => xtrunc cfg.xlen r.vsstatus
  | .hstatus => xtrunc cfg.xlen r.hstatus
  | .menvcfg => xtrunc cfg.xlen r.menvcfg
  | .menvcfgh => readHigh cfg.xlen r.menvcfg
  | .senvcfg => xtrunc cfg.xlen r.senvcfg
  | .henvcfg => xtrunc cfg.xlen r.henvcfg
  | .henvcfgh => readHigh cfg.xlen r.henvcfg
  | .mtvec => xtrunc cfg.xlen r.mtvec
  | .mepc => xtrunc cfg.xlen r.mepc
  | .mcause => xtrunc cfg.xlen r.mcause
  | .mtval => xtrunc cfg.xlen r.mtval
  | .mtval2 => xtrunc cfg.xlen r.mtval2
  | .mtinst => xtrunc cfg.xlen r.mtinst
  | .medeleg => xtrunc cfg.xlen r.medeleg
  | .stvec => xtrunc cfg.xlen r.stvec
  | .sepc => xtrunc cfg.xlen r.sepc
  | .scause => xtrunc cfg.xlen r.scause
  | .stval => xtrunc cfg.xlen r.stval
  | .hedeleg => xtrunc cfg.xlen r.hedeleg
  | .htval => xtrunc cfg.xlen r.htval
  | .htinst => xtrunc cfg.xlen r.htinst
  | .vstvec => xtrunc cfg.xlen r.vstvec
  | .vsepc => xtrunc cfg.xlen r.vsepc
  | .vscause => xtrunc cfg.xlen r.vscause
  | .vstval => xtrunc cfg.xlen r.vstval
  | .tselect => xtrunc cfg.xlen r.tselect
  | .tdata1 => (selected r).elim 0 (fun t => xtrunc cfg.xlen t.tdata1)
  | .tdata2 => (selected r).elim 0 (fun t => xtrunc cfg.xlen t.tdata2)

/-- The registers after a write to a named one (R24, R25, R27, R37, R108). The three registers of R37, and the upper halves, are not
written where they do not exist. Every other named register is written on every hart, `sstatus` also without S-mode and `vsstatus` also
without the hypervisor extension: R25 does not say where they exist (DESIGN CHOICE, log entry 12). Nor is `tselect` written with the
number of a trigger that does not exist, nor `tdata1` or `tdata2` where `tselect` names none (DESIGN CHOICE, log entry 13). -/
def csrWrite (cfg : Config) (tick : Nat) (c : CsrName) (v : Word) (r : Csrs) : Csrs :=
  match c with
  | .mstatus => { r with mstatus := legalMpp r.mstatus (writeLow cfg.xlen r.mstatus v) }
  | .mstatush => { r with mstatus := writeHigh cfg.xlen r.mstatus v }
  | .sstatus => { r with mstatus := mergeBits sstatusMask r.mstatus v }
  | .vsstatus => { r with vsstatus := xtrunc cfg.xlen v }
  | .hstatus => { r with hstatus := xtrunc cfg.xlen v }
  | .menvcfg =>
    if hasMenvcfg cfg then
      { r with menvcfg := envcfgWrite cfg cfg.cbieM tick r.menvcfg (writeLow cfg.xlen r.menvcfg v) }
    else r
  | .menvcfgh => if hasMenvcfg cfg then { r with menvcfg := writeHigh cfg.xlen r.menvcfg v } else r
  | .senvcfg =>
    if cfg.modes.contains .S then { r with senvcfg := envcfgWrite cfg cfg.cbieS tick r.senvcfg (xtrunc cfg.xlen v) } else r
  | .henvcfg =>
    if hasHypervisor cfg then
      { r with henvcfg := envcfgWrite cfg cfg.cbieH tick r.henvcfg (writeLow cfg.xlen r.henvcfg v) }
    else r
  | .henvcfgh => if hasHypervisor cfg then { r with henvcfg := writeHigh cfg.xlen r.henvcfg v } else r
  | .mtvec => { r with mtvec := xtrunc cfg.xlen v }
  | .mepc => { r with mepc := alignPc cfg (xtrunc cfg.xlen v) }
  | .mcause => { r with mcause := xtrunc cfg.xlen v }
  | .mtval => { r with mtval := xtrunc cfg.xlen v }
  | .mtval2 => { r with mtval2 := xtrunc cfg.xlen v }
  | .mtinst => { r with mtinst := xtrunc cfg.xlen v }
  | .medeleg => { r with medeleg := xtrunc cfg.xlen v }
  | .stvec => { r with stvec := xtrunc cfg.xlen v }
  | .sepc => { r with sepc := alignPc cfg (xtrunc cfg.xlen v) }
  | .scause => { r with scause := xtrunc cfg.xlen v }
  | .stval => { r with stval := xtrunc cfg.xlen v }
  | .hedeleg => { r with hedeleg := xtrunc cfg.xlen v }
  | .htval => { r with htval := xtrunc cfg.xlen v }
  | .htinst => { r with htinst := xtrunc cfg.xlen v }
  | .vstvec => { r with vstvec := xtrunc cfg.xlen v }
  | .vsepc => { r with vsepc := alignPc cfg (xtrunc cfg.xlen v) }
  | .vscause => { r with vscause := xtrunc cfg.xlen v }
  | .vstval => { r with vstval := xtrunc cfg.xlen v }
  | .tselect => if (xtrunc cfg.xlen v).toNat < r.triggers.length then { r with tselect := xtrunc cfg.xlen v } else r
  | .tdata1 => changeSelected (fun t => { t with tdata1 := xtrunc cfg.xlen v }) r
  | .tdata2 => changeSelected (fun t => { t with tdata2 := xtrunc cfg.xlen v }) r

end Sys2Proof.Machine
end

