-- ==== Sys2Proof/Machine/Access.lean ====
section
/-!
DEFINITION. The checks on the access of a CMO instruction: the page tests, the G-stage tests, the joint permissions, the PMA
constraints and the debug triggers (R171 to R195).
-/

namespace Sys2Proof.Machine

/-- The permission an access class requires, of a page or of an address: any of the three for management (R174, R186), write for
zero (R175, R187), any of the three and the one the implementation asks for in particular for a prefetch (R177, R178, R188, R189),
execute for a fetch. -/
def permits (cfg : Config) (cls : AccessClass) (r w x : Bool) : Bool :=
  match cls with
  | .fetch => x
  | .cbm => r || w || x
  | .cbz => w
  | .pf .R => (r || w || x) && (!cfg.prefetchStrictR || r)
  | .pf .W => (r || w || x) && (!cfg.prefetchStrictW || w)
  | .pf .I => (r || w || x) && (!cfg.prefetchStrictI || x)

/-- `LegalXWR(pte)`: a legal leaf encoding, neither `000` nor writable without readable (R181). -/
def legalXwr (p : Pte) : Bool :=
  (p.r || p.x) && (!p.w || p.r)

/-- `UserOk(pte, mode)`: the user-access test (R181). `SUM` enters here and nowhere else (R180); `MXR` nowhere (R179). -/
def userOk (c : Csrs) (mode : Mode) (p : Pte) : Bool :=
  match mode with
  | .M => true
  | .U => p.u
  | .VU => p.u
  | .S => !p.u || statusSum c.mstatus
  | .VS => !p.u || statusSum c.vsstatus

/-- `PageOkCBM`, `PageOkCBZ`, `PageOkPrefetch`: the test of the first-stage leaf entry (R174, R175, R178). -/
def pageOk (cfg : Config) (c : Csrs) (mode : Mode) (cls : AccessClass) (p : Pte) : Bool :=
  legalXwr p && permits cfg cls p.r p.w p.x && userOk c mode p

/-- `GStageOk`: the test of the G-stage leaf entry, which must grant user access (R176). -/
def gStageOk (cfg : Config) (cls : AccessClass) (p : Pte) : Bool :=
  legalXwr p && permits cfg cls p.r p.w p.x && p.u

/-- The access is permitted jointly by the PMP and the PMAs at an address (R184, R186 to R189). -/
def jointOk (cfg : Config) (h : Hart) (mode : Mode) (cls : AccessClass) (a : Nat) : Bool :=
  permits cfg cls (joint cfg h mode a).r (joint cfg h mode a).w (joint cfg h mode a).x

/-- The access is permitted at every address of the block (R186, R187, R188). -/
def blockOk (cfg : Config) (h : Hart) (mode : Mode) (cls : AccessClass) (pa size : Nat) : Bool :=
  (block pa size).all (jointOk cfg h mode cls)

/-- The outcome of the checks of a management or zero instruction. `gpage` is the guest page of a guest-page fault. -/
inductive Access where
  | granted (pa : Nat)
  | trap (c : Cause) (gpage : Option Nat)
  | pmaUnspecified
deriving DecidableEq, Repr

/-- A fault of the walk is raised as the store variant of its kind (R172, R182). -/
def walkTrap (k : WalkFault) (gpage : Nat) : Access :=
  match k with
  | .access => .trap .storeAccessFault none
  | .page => .trap .storePageFault none
  | .guestPage => .trap .storeGuestPageFault (some gpage)

/-- The checks of a management or zero instruction in their order: translation, first-stage leaf, G-stage leaf, joint permissions
of the block, PMA constraints (R124 steps 5 to 8, R141 steps 4 to 7, R199). -/
def accessCheck (cfg : Config) (h : Hart) (cls : AccessClass) (size : Nat) (ea : Word) : Access :=
  let mode := effPriv h
  match translate h mode cls ea with
  | .fault k gpage => walkTrap k gpage
  | .done ppage gpage pte gpte =>
    if !pte.all (pageOk cfg h.csr mode cls) then .trap .storePageFault none
    else if !gpte.all (gStageOk cfg cls) then .trap .storeGuestPageFault (some gpage)
    else if !blockOk cfg h mode cls (inPage ppage ea) size then .trap .storeAccessFault none
    else if !pmaOk cfg (inPage ppage ea) size then .pmaUnspecified
    else .granted (inPage ppage ea)

/-- The platform takes an access fault on a cache block operation whose location is not cacheable, and this one is not
(`UNCACHED_CBO`, R7, R123; DESIGN CHOICE, log entry 26). -/
def uncachedFault (cfg : Config) (pa : Nat) : Bool :=
  decide (cfg.uncachedCbo = .accessFault) && !cacheableAt cfg pa

/-- The outcome of the checks of a prefetch: it never traps (R170, R177, R188). -/
inductive PrefetchAccess where
  | acts (pa : Nat)
  | noAccess
  | pmaUnspecified
deriving DecidableEq, Repr

/-- The checks of a prefetch (R154 steps 4 and 5). An interrupted walk counts as permission not granted (R188, C6). -/
def prefetchCheck (cfg : Config) (h : Hart) (k : PrefetchKind) (ea : Word) : PrefetchAccess :=
  let mode := effPriv h
  match translate h mode (.pf k) ea with
  | .fault _ _ => .noAccess
  | .done ppage _ pte gpte =>
    if !pte.all (pageOk cfg h.csr mode (.pf k)) then .noAccess
    else if !gpte.all (gStageOk cfg (.pf k)) then .noAccess
    else if !pmaOk cfg (inPage ppage ea) (cbsM cfg) then .pmaUnspecified
    else if !blockOk cfg h mode (.pf k) (inPage ppage ea) (cbsM cfg) then .noAccess
    else .acts (inPage ppage ea)

/-! ### Debug triggers -/

/-- The trigger is enabled: a match trigger of type 2 or 6 that looks at loads or stores (R27, log entry 13). -/
def Trigger.enabled (cfg : Config) (t : Trigger) : Bool :=
  (decide (t.type cfg = 2) || decide (t.type cfg = 6)) && (t.load || t.store)

/-- The compare value lies in the block of the effective address (R192). -/
def Trigger.inBlock (t : Trigger) (ea : Word) (size : Nat) : Bool :=
  inRange t.tdata2.toNat (blkBase ea.toNat size) size

/-- Address-match triggers are implemented for the class: mandatory for Zicboz, optional for Zicbom and Zicbop (R193 to R195, C2). -/
def addressTriggers (p : TriggerParams) : AccessClass → Bool
  | .fetch => false
  | .cbm => p.zicbomAddress
  | .cbz => true
  | .pf _ => p.zicbopAddress

/-- The trigger's `load` and `store` fields match the class: management and zero accesses are stores, a prefetch of each kind is what
the implementation says (R193 to R195). -/
def Trigger.seesAs (p : TriggerParams) (t : Trigger) : AccessClass → Bool
  | .fetch => false
  | .cbm => t.store
  | .cbz => t.store
  | .pf k => (p.prefetchLoads.contains k && t.load) || (p.prefetchStores.contains k && t.store)

/-- The trigger matches the access under the recommendations: type 6 only; an address match with `size = 0` against the block; a
data match only for `CBO.ZERO`, against the zero stored (R192 to R195). -/
def Trigger.fires (cfg : Config) (p : TriggerParams) (cls : AccessClass) (ea : Word) (size : Nat) (t : Trigger) : Bool :=
  decide (t.type cfg = 6) && t.seesAs p cls &&
    (if t.dataMatch cfg then p.zicbozData && decide (cls = .cbz) && decide (t.tdata2 = 0)
     else addressTriggers p cls && decide (t.size = 0) && t.inBlock ea size)

/-- What the trigger module does with an access. -/
inductive TriggerCheck where
  | pass
  | breakpoint
  | unspecified
deriving DecidableEq, Repr

/-- The trigger module and a CMO instruction (R191 to R195, D18). -/
def triggerCheck (cfg : Config) (h : Hart) (cls : AccessClass) (ea : Word) (size : Nat) : TriggerCheck :=
  match cfg.triggers with
  | .unspecified =>
    if h.csr.triggers.any (fun t => t.enabled cfg && (t.dataMatch cfg || t.inBlock ea size)) then .unspecified else .pass
  | .recommended p => if h.csr.triggers.any (Trigger.fires cfg p cls ea size) then .breakpoint else .pass

end Sys2Proof.Machine
end

