-- ==== Sys2Proof/Machine/Caches.lean ====
section
/-!
DEFINITION. The memory system: what a set of coherent observers sees, the store, invalidate, clean and flush operations on it, and
the moves a coherent cache may make on its own (R52 to R68, R120 to R123, R140).

It is the operational reading of R69 with the copies of R32 in the place of its value `V`. A store is satisfied by a cache where
one serves the set and has room, and by memory otherwise (R54, R55). A cache on the path of observers of several sets lies at or
beyond the point common to them (R120): its copies are shared by all of them (R205) and are those of memory (log entry 29).
-/

namespace Sys2Proof.Machine

/-! ### Caches -/

/-- The observers on whose path to the locations of the block at base `b` the cache lies (R54). For a block through which a border of
the cache's regions runs there are none: the cache does not hold it (DESIGN CHOICE, log entry 29). -/
def servedAt (cfg : Config) (b : Nat) (c : Cache) : List Nat :=
  if unsplit (fun r : PathRegion => (r.base, r.size)) c.serves b (cbsM cfg) then
    match c.serves.find? (fun r => inRange b r.base r.size) with
    | some r => r.observers
    | none => []
  else []

/-- The cache is a coherent cache of the set for the block: it lies on the path of observers of that set only (R63). -/
def reaches (cfg : Config) (b : Nat) (k : CohSet) (c : Cache) : Bool :=
  !(servedAt cfg b c).isEmpty && (servedAt cfg b c).all (fun o => decide (cohSetOf cfg b o = k))

/-- The set whose cache this is, for the block at base `b`. -/
def setOfCache (cfg : Config) (b : Nat) (c : Cache) : CohSet :=
  match servedAt cfg b c with
  | o :: _ => cohSetOf cfg b o
  | [] => .group 0

/-- The cache lies on the path of observers of several sets for the block (R205). -/
def common (cfg : Config) (b : Nat) (c : Cache) : Bool :=
  !(servedAt cfg b c).isEmpty && !reaches cfg b (setOfCache cfg b c) c

/-- The place of a block in the organisation of a cache: blocks of one slot share its `ways` (R4; the mapping is a DESIGN CHOICE,
log entry 9). -/
def slot (cfg : Config) (c : Cache) (b : Nat) : Nat :=
  b / cbsM cfg % c.sets

/-- How many blocks of the slot of this block the cache holds. -/
def occupancy (cfg : Config) (c : Cache) (b : Nat) : Nat :=
  c.lines.countP (fun e => slot cfg c e.1 == slot cfg c b)

/-- The cache has room for the block (R4). -/
def hasRoom (cfg : Config) (c : Cache) (b : Nat) : Bool :=
  decide (occupancy cfg c b < c.ways)

/-- Put a copy of a block in a cache: the cache fetches it (R57, R64). -/
def addLine (b : Nat) (d : List Byte) (c : Cache) : Cache :=
  { c with lines := Table.put b d c.lines }

/-- Take the copy of a block out of a cache (R65, R120). -/
def dropLine (b : Nat) (c : Cache) : Cache :=
  { c with lines := Table.del b c.lines }

/-- Store a byte at place `i` of the copy of a block, if the cache holds one (R57). -/
def patchLine (b : Nat) (i : Nat) (v : Byte) (c : Cache) : Cache :=
  match Table.get? c.lines b with
  | some d => { c with lines := Table.put b (d.set i v) c.lines }
  | none => c

/-- Put a copy in the place of the one the cache holds, if it holds one (R57). -/
def replaceLine (b : Nat) (d : List Byte) (c : Cache) : Cache :=
  match Table.get? c.lines b with
  | some _ => addLine b d c
  | none => c

/-! ### What is seen -/

/-- The copy of a block that the set's caches hold, if any does. -/
def heldCopy (cfg : Config) (ms : MemSys) (k : CohSet) (b : Nat) : Option (List Byte) :=
  ms.caches.findSome? (fun c => if reaches cfg b k c then Table.get? c.lines b else none)

/-- `Dirty(S, b)` (R33). -/
def isDirty (ms : MemSys) (k : CohSet) (b : Nat) : Bool :=
  ms.dirty.contains (k, b)

/-- The byte the set sees at an address: of a copy if a cache of the set holds the block, else of memory (R55). -/
def view (cfg : Config) (ms : MemSys) (k : CohSet) (a : Nat) : Byte :=
  if cacheable cfg (blkBase a (cbsM cfg)) then
    match heldCopy cfg ms k (blkBase a (cbsM cfg)) with
    | some d => d.getD (a - blkBase a (cbsM cfg)) Memory.unlisted
    | none => Memory.read ms.mem a
  else Memory.read ms.mem a

/-- The bytes the set sees in the block at base `b`. -/
def blockView (cfg : Config) (ms : MemSys) (k : CohSet) (b : Nat) : List Byte :=
  (List.range (cbsM cfg)).map (fun i => view cfg ms k (b + i))

/-- The bytes of memory in the block at base `b`. -/
def memBlock (cfg : Config) (m : Memory) (b : Nat) : List Byte :=
  (List.range (cbsM cfg)).map (fun i => Memory.read m (b + i))

/-- The byte an observer sees at an address. -/
def viewOf (cfg : Config) (ms : MemSys) (o : Nat) (a : Nat) : Byte :=
  view cfg ms (cohAt cfg a o) a

/-! ### Stores -/

/-- A write operation on memory, of bytes in the block at base `b`; the copies of the block in the common caches are those of
memory (R57, R205). -/
def writeMem (cfg : Config) (b a : Nat) (vs : List Byte) (ms : MemSys) : MemSys :=
  let m := Memory.writeBytes ms.mem a vs
  { ms with
    mem := m
    caches := ms.caches.map (fun c => if common cfg b c then replaceLine b (memBlock cfg m b) c else c) }

/-- Set `Dirty(S, b)` (R33). -/
def setDirty (k : CohSet) (b : Nat) (d : List (CohSet × Nat)) : List (CohSet × Nat) :=
  if d.contains (k, b) then d else d ++ [(k, b)]

/-- Clear `Dirty(S, b)` (R33). -/
def clearDirty (k : CohSet) (b : Nat) (d : List (CohSet × Nat)) : List (CohSet × Nat) :=
  d.filter (fun e => decide (e ≠ (k, b)))

/-- Change the first element that satisfies `p`. -/
def mapFirst {α : Type} (p : α → Bool) (f : α → α) : List α → List α
  | [] => []
  | c :: cs => if p c then f c :: cs else c :: mapFirst p f cs

/-- The cache lies on the path from the observer to the block, is a coherent cache of its set, and has room (R4, R54, R63). -/
def onPath (cfg : Config) (b o : Nat) (c : Cache) : Bool :=
  reaches cfg b (cohSetOf cfg b o) c && (servedAt cfg b c).contains o && hasRoom cfg c b

/-- A store by the observer can be satisfied by a cache: a cache can hold the block, and those of its set do or one on its path
has room for it (R54, R55). -/
def canCache (cfg : Config) (ms : MemSys) (b o : Nat) : Bool :=
  cacheable cfg b && ((heldCopy cfg ms (cohSetOf cfg b o) b).isSome || ms.caches.any (onPath cfg b o))

/-- The caches once the observer's set holds the block: where it does not yet, the first cache on its path fetches it (R55). -/
def fetchedCaches (cfg : Config) (ms : MemSys) (b o : Nat) : List Cache :=
  if (heldCopy cfg ms (cohSetOf cfg b o) b).isSome then ms.caches
  else mapFirst (onPath cfg b o) (addLine b (blockView cfg ms (cohSetOf cfg b o) b)) ms.caches

/-- A store satisfied by the caches of the observer's set: every copy they hold is updated at place `i` of the block, and `Dirty`
set (R33, R55, R57). -/
def storeCached (cfg : Config) (o b i : Nat) (v : Byte) (ms : MemSys) : MemSys :=
  { ms with
    caches := (fetchedCaches cfg ms b o).map (fun c => if reaches cfg b (cohSetOf cfg b o) c then patchLine b i v c else c)
    dirty := setDirty (cohSetOf cfg b o) b ms.dirty }

/-- A store operation of one byte by an observer (R33, R55, R57): satisfied by the caches of its set, or, where none can, at once a
write operation on memory. -/
def storeBy (cfg : Config) (o a : Nat) (v : Byte) (ms : MemSys) : MemSys :=
  if canCache cfg ms (blkBase a (cbsM cfg)) o then
    storeCached cfg o (blkBase a (cbsM cfg)) (a - blkBase a (cbsM cfg)) v ms
  else writeMem cfg (blkBase a (cbsM cfg)) a [v] ms

/-- Store operations of bytes at consecutive addresses by an observer. -/
def storeBytesBy (cfg : Config) (o : Nat) (a : Nat) : List Byte → MemSys → MemSys
  | [], ms => ms
  | v :: vs, ms => storeBytesBy cfg o (a + 1) vs (storeBy cfg o a v ms)

/-! ### Invalidate, clean, flush -/

/-- An invalidate operation of the set on the block at base `b`: every copy in the set's caches is deallocated without a write
operation, and `Dirty` is cleared (R120, R123). The common caches are beyond its reach. -/
def invalidateBlock (cfg : Config) (k : CohSet) (b : Nat) (ms : MemSys) : MemSys :=
  if cacheable cfg b then
    { ms with
      caches := ms.caches.map (fun c => if reaches cfg b k c then dropLine b c else c)
      dirty := clearDirty k b ms.dirty }
  else ms

/-- A clean operation of the set on the block at base `b`: if `Dirty`, the latest data goes to memory; copies stay (R121, R123). -/
def cleanBlock (cfg : Config) (k : CohSet) (b : Nat) (ms : MemSys) : MemSys :=
  if cacheable cfg b && isDirty ms k b then
    { writeMem cfg b b (blockView cfg ms k b) ms with dirty := clearDirty k b ms.dirty }
  else ms

/-- A flush operation: a clean, then an invalidate, of the same block (R122). -/
def flushBlock (cfg : Config) (k : CohSet) (b : Nat) (ms : MemSys) : MemSys :=
  invalidateBlock cfg k b (cleanBlock cfg k b ms)

/-- What an operation of observer `o` does to the memory system when it is performed: a load and a `FENCE` nothing, a store its
bytes, a management operation its block for the observer's set (R55, R120 to R123). -/
def MemOp.effect (cfg : Config) (o : Nat) (op : MemOp) (ms : MemSys) : MemSys :=
  match op with
  | .load _ _ _ _ => ms
  | .store a vs => storeBytesBy cfg o a vs ms
  | .invalidate b => invalidateBlock cfg (cohAt cfg b o) (blkBase b (cbsM cfg)) ms
  | .clean b => cleanBlock cfg (cohAt cfg b o) (blkBase b (cbsM cfg)) ms
  | .flush b => flushBlock cfg (cohAt cfg b o) (blkBase b (cbsM cfg)) ms
  | .fence _ _ => ms

/-- What operations do to the memory system, performed in this order. -/
def effects (cfg : Config) : List Event → MemSys → MemSys
  | [], ms => ms
  | e :: es, ms => effects cfg es (e.op.effect cfg e.obs ms)

/-! ### What a cache may do on its own -/

/-- The cache can hold a copy of the block: it lies on some observer's path to it, and the block is one a cache can hold. -/
def mayHold (cfg : Config) (b : Nat) (c : Cache) : Bool :=
  decide (b % cbsM cfg = 0) && cacheable cfg b && !(servedAt cfg b c).isEmpty

/-- The data a cache obtains when it allocates a copy of a block: of another coherent cache of its set if one holds it, else of
memory; a common cache has that of memory (R64, R205). -/
def allocated (cfg : Config) (ms : MemSys) (b : Nat) (c : Cache) : List Byte :=
  if common cfg b c then memBlock cfg ms.mem b else blockView cfg ms (setOfCache cfg b c) b

/-- Allocate a copy of a block in a cache (R64). A cache that holds the block, cannot hold it or has no room does nothing. -/
def allocateLine (cfg : Config) (i : Nat) (b : Nat) (ms : MemSys) : MemSys :=
  match ms.caches[i]? with
  | none => ms
  | some c =>
    if mayHold cfg b c && (Table.get? c.lines b).isNone && hasRoom cfg c b then
      { ms with caches := ms.caches.set i (addLine b (allocated cfg ms b c) c) }
    else ms

/-- Another cache of the set than number `i` holds the block. -/
def heldElsewhere (cfg : Config) (ms : MemSys) (i : Nat) (k : CohSet) (b : Nat) : Bool :=
  (ms.caches.eraseIdx i).any (fun c => reaches cfg b k c && (Table.get? c.lines b).isSome)

/-- The transfer of a copy from cache `i` to another cache of the same set, if one is named (R65). -/
def transferLine (cfg : Config) (k : CohSet) (i : Nat) (b : Nat) (dest : Option Nat) (ms : MemSys) : MemSys :=
  match dest with
  | none => ms
  | some j =>
    if decide (j ≠ i) && ms.caches[j]?.any (reaches cfg b k) then allocateLine cfg j b ms else ms

/-- Cache `i` gives its copy of a block up. -/
def dropAt (i b : Nat) (ms : MemSys) : MemSys :=
  { ms with caches := ms.caches.modify i (dropLine b) }

/-- Deallocate the copy of a block in cache `i`, first writing it to the set's cache `dest` if one is named (R65). The only
up-to-date copy is not given up: a block that is `Dirty` and held nowhere else stays (R67). A common cache gives its copy up at any
time: memory has the same data. -/
def deallocateLine (cfg : Config) (i : Nat) (b : Nat) (dest : Option Nat) (ms : MemSys) : MemSys :=
  match ms.caches[i]? with
  | none => ms
  | some c =>
    if common cfg b c then dropAt i b ms
    else if mayHold cfg b c
        && (!isDirty ms (setOfCache cfg b c) b
          || heldElsewhere cfg (transferLine cfg (setOfCache cfg b c) i b dest ms) i (setOfCache cfg b c) b) then
      dropAt i b (transferLine cfg (setOfCache cfg b c) i b dest ms)
    else ms

/-- A cache that holds a copy of a block writes it to memory; only a block that a coherent observer stored to since the previous
write is written (R66, R68). -/
def writeBackLine (cfg : Config) (i : Nat) (b : Nat) (ms : MemSys) : MemSys :=
  match ms.caches[i]? with
  | none => ms
  | some c =>
    match Table.get? c.lines b with
    | none => ms
    | some d =>
      if mayHold cfg b c && reaches cfg b (setOfCache cfg b c) c && isDirty ms (setOfCache cfg b c) b then
        { writeMem cfg b b d ms with dirty := clearDirty (setOfCache cfg b c) b ms.dirty }
      else ms

/-- The caches on the path from an observer to a block, by their places (R54). -/
def cachesOf (cfg : Config) (b : Nat) (ms : MemSys) (o : Nat) : List Nat :=
  (List.range ms.caches.length).filter (fun i => ms.caches[i]?.any (fun c => (servedAt cfg b c).contains o))

/-- What the hardware may do on a prefetch: some cache on the hart's path to the block allocates a copy of the block (R150, D20 (a)). Which one
is a free choice, made by `pick` (log entry 20). -/
def hintLine (cfg : Config) (pick : Nat) (o : Nat) (pa : Nat) (ms : MemSys) : MemSys :=
  match (cachesOf cfg (blkBase pa (cbsM cfg)) ms o)[pick % (cachesOf cfg (blkBase pa (cbsM cfg)) ms o).length]? with
  | none => ms
  | some i => allocateLine cfg i (blkBase pa (cbsM cfg)) ms

end Sys2Proof.Machine
end

