-- ==== Sys2Proof/Machine/Operands.lean ====
section
/-!
DEFINITION. The operands: the general registers, and the two effective-address forms (R20, R104).
-/

namespace Sys2Proof.Machine

/-- Read of a general register. `x0` reads as zero (R20). -/
def readX (cfg : Config) (h : Hart) (r : Reg) : Word :=
  if r = 0 then 0 else xtrunc cfg.xlen h.x[r]

/-- Write of a general register by a host instruction, with the loads its value depends on. A write of `x0` is discarded (R20).
No CMO instruction performs one. -/
def writeX (cfg : Config) (r : Reg) (v : Word) (deps : List Nat) (h : Hart) : Hart :=
  if r = 0 then h
  else { h with x := h.x.set r (xtrunc cfg.xlen v), regDeps := h.regDeps.set r deps }

/-- The loads on which a register's value syntactically depends; `x0` depends on none (R94 rule 9). -/
def depsOf (h : Hart) (r : Reg) : List Nat :=
  if r = 0 then [] else h.regDeps[r]

/-- The effective address of the CBO format: `EA = x[rs1]` (R104). -/
def eaCbo (s : State) (rs1 : Reg) : Word :=
  readX s.cfg s.hart rs1

/-- The effective address of the PREFETCH format: `EA = (x[rs1] + offset) mod 2^XLEN` (R104). -/
def eaPrefetch (s : State) (rs1 : Reg) (offset : Int) : Word :=
  xtrunc s.cfg.xlen (readX s.cfg s.hart rs1 + BitVec.ofInt 64 offset)

/-- The alignment of an instruction address, in bytes (R81). -/
def ialign (cfg : Config) : Nat :=
  if cfg.hasCompressed then 2 else 4

/-- The address is one an instruction may have (R81). -/
def pcAligned (cfg : Config) (pc : Word) : Bool :=
  decide (pc.toNat % ialign cfg = 0)

/-- `pc + 4` modulo `2^XLEN` (R21). -/
def nextPc (cfg : Config) (pc : Word) : Word :=
  xtrunc cfg.xlen (pc + 4)

end Sys2Proof.Machine
end

