-- ==== Sys2Proof/Machine/Ordering.lean ====
section
/-!
DEFINITION. The memory ordering rules over a list of events: RVWMO's preserved program order and axioms with what the CMO
operations add (R70 to R79, R90 to R95).

An execution is a list of events in the global memory order (R90). Program order is read off the events: same observer, smaller
tick. `FENCE` events stand in the list for their place in program order only. The stores that count in the global memory order of
a load are those of observers coherent with it; the others are its `NonCoh` (R78, R206). A load that is not performed yet has no
bytes, so that nothing is asked of its values.
-/

namespace Sys2Proof.Machine

/-! ### What an event is and touches -/

/-- A load operation. -/
def Event.isLoad (e : Event) : Bool :=
  match e.op with
  | .load _ _ _ _ => true
  | _ => false

/-- A store operation: an operation that writes a value (R79). -/
def Event.isStore (e : Event) : Bool :=
  match e.op with
  | .store _ _ => true
  | _ => false

/-- An invalidate, clean or flush operation (R70). -/
def Event.isCbm (e : Event) : Bool :=
  match e.op with
  | .invalidate _ => true
  | .clean _ => true
  | .flush _ => true
  | _ => false

/-- A `FENCE`, which is no memory operation (R90, R93). -/
def Event.isFence (e : Event) : Bool :=
  match e.op with
  | .fence _ _ => true
  | _ => false

/-- A store, or an operation that behaves as a store in the PPO rules (R70, R73). -/
def Event.storeLike (e : Event) : Bool :=
  e.isStore || e.isCbm

/-- The bytes an operation accesses, as base and size: a management operation accesses its whole block (R70). -/
def Event.footprint (cfg : Config) (e : Event) : Nat × Nat :=
  match e.op with
  | .load a n _ _ => (a, n)
  | .store a bs => (a, bs.length)
  | .invalidate b => (b, cbsM cfg)
  | .clean b => (b, cbsM cfg)
  | .flush b => (b, cbsM cfg)
  | .fence _ _ => (0, 0)

/-- The operation accesses the byte. -/
def Event.touches (cfg : Config) (e : Event) (x : Nat) : Bool :=
  inRange x (e.footprint cfg).1 (e.footprint cfg).2

/-- The two operations access overlapping addresses (R71). -/
def overlap (cfg : Config) (a b : Event) : Bool :=
  let (p, n) := a.footprint cfg
  let (q, m) := b.footprint cfg
  decide (0 < n) && decide (0 < m) && decide (p < q + m) && decide (q < p + n)

/-- The value a store writes to a byte. -/
def Event.storeValue? (e : Event) (x : Nat) : Option Byte :=
  match e.op with
  | .store a bs => if a ≤ x then bs[x - a]? else none
  | _ => none

/-- The operation is a store to the byte (R79). -/
def Event.writes (e : Event) (x : Nat) : Bool :=
  (e.storeValue? x).isSome

/-- `a` precedes `b` in program order (R90). -/
def po (a b : Event) : Bool :=
  decide (a.obs = b.obs) && decide (a.tick < b.tick)

/-! ### Preserved program order -/

/-- The operation is to main memory (R91). Where its bytes lie in locations of different attributes, those of the first count: the spec
does not say (DESIGN CHOICE, log entry 38). -/
def inMainMemory (cfg : Config) (e : Event) : Bool :=
  decide ((pmaAt cfg (e.footprint cfg).1).kind = .mainMemory)

/-- The `FENCE` set that classifies the operation: a load is R or I, a store or a management operation W or O, by the PMA of the
address (R72, R93). -/
def inFenceSet (cfg : Config) (s : FenceSet) (e : Event) : Bool :=
  if e.isLoad then (if inMainMemory cfg e then s.r else s.i)
  else if e.storeLike then (if inMainMemory cfg e then s.w else s.o)
  else false

/-- PPO rule 1: a later store (or management operation) to an overlapping address (R91, R94). -/
def ppo1 (cfg : Config) (a b : Event) : Bool :=
  b.storeLike && overlap cfg a b

/-- The source of a byte that a load returned. -/
def sourceOf (e : Event) (x : Nat) : Option Source :=
  match e.op with
  | .load a _ _ src => if a ≤ x then src[x - a]? else none
  | _ => none

/-- PPO rule 2: two loads that returned values of a byte written by different operations, with no store to it between them (R91). -/
def ppo2 (cfg : Config) (ex : List Event) (a b : Event) : Bool :=
  a.isLoad && b.isLoad &&
    (List.range (a.footprint cfg).2).any (fun i =>
      let x := (a.footprint cfg).1 + i
      (sourceOf a x).isSome && (sourceOf b x).isSome && decide (sourceOf a x ≠ sourceOf b x) &&
        !ex.any (fun m => m.writes x && po a m && po m b))

/-- The load returned a value the store wrote (R91 rules 3 and 12). -/
def returnsFrom (b m : Event) : Bool :=
  match b.op with
  | .load a _ _ src => src.zipIdx.any (fun s => decide (s.1 = some (m.obs, m.tick)) && m.writes (a + s.2))
  | _ => false

/-- PPO rule 3: a load that returns a value written by an AMO or SC (R91). -/
def ppo3 (a b : Event) : Bool :=
  a.isStore && a.tags.amoOrSc && b.isLoad && returnsFrom b a

/-- PPO rule 4: a `FENCE` between the two orders them (R72, R93). -/
def ppo4 (cfg : Config) (ex : List Event) (a b : Event) : Bool :=
  ex.any (fun f =>
    match f.op with
    | .fence p s => po a f && po f b && inFenceSet cfg p a && inFenceSet cfg s b
    | _ => false)

/-- PPO rules 5, 6 and 7: annotations. A management operation has none, and rules 6 and 7 never apply with one as `a` or `b` (the
table of R94, log entry 39). -/
def ppo567 (a b : Event) : Bool :=
  (a.tags.acquire && !a.isCbm) || (b.tags.release && !a.isCbm && !b.isCbm) ||
    (a.tags.rcsc && b.tags.rcsc && !a.isCbm && !b.isCbm)

/-- PPO rule 8: an LR and its SC (R91). -/
def ppo8 (a b : Event) : Bool :=
  a.isLoad && b.isStore && decide (b.tags.pair = some a.tick)

/-- The operation gives a register a value, on which a later instruction can depend: a load, or the store of an AMO or SC (R91 rules
9 to 13). A management operation gives none (R94). -/
def givesRegister (a : Event) : Bool :=
  a.isLoad || (a.isStore && a.tags.amoOrSc)

/-- PPO rule 9: an address dependency (R91, R94). -/
def ppo9 (a b : Event) : Bool :=
  givesRegister a && b.tags.addrDep.contains a.tick

/-- PPO rule 10: a data dependency. A management operation has no data operand (R91, R94). -/
def ppo10 (a b : Event) : Bool :=
  givesRegister a && !b.isCbm && b.tags.dataDep.contains a.tick

/-- PPO rule 11: a store (or management operation) with a control dependency (R91, R94). -/
def ppo11 (a b : Event) : Bool :=
  givesRegister a && b.storeLike && b.tags.ctrlDep.contains a.tick

/-- PPO rule 12: a load that returns a value written by a store between, which depends on `a` (R91). -/
def ppo12 (ex : List Event) (a b : Event) : Bool :=
  givesRegister a && b.isLoad &&
    ex.any (fun m => m.isStore && po a m && po m b
      && (m.tags.addrDep.contains a.tick || m.tags.dataDep.contains a.tick) && returnsFrom b m)

/-- PPO rule 13: a store (or management operation) after an instruction whose address depends on `a` (R91, R94). -/
def ppo13 (ex : List Event) (a b : Event) : Bool :=
  givesRegister a && b.storeLike && ex.any (fun m => po a m && po m b && m.tags.addrDep.contains a.tick)

/-- The additional overlapping-address rule: a load after an invalidate, clean or flush of an overlapping address (R71). -/
def ppoCbmLoad (cfg : Config) (a b : Event) : Bool :=
  a.isCbm && b.isLoad && overlap cfg a b

/-- The thirteen rules but rule 4, which are stated for two operations to main memory (R91). -/
def ppoMain (cfg : Config) (ex : List Event) (a b : Event) : Bool :=
  ppo1 cfg a b || ppo2 cfg ex a b || ppo3 a b || ppo567 a b || ppo8 a b || ppo9 a b || ppo10 a b || ppo11 a b
    || ppo12 ex a b || ppo13 ex a b

/-- `a` precedes `b` in preserved program order (R70, R71, R91, R94), which is about memory operations. -/
def ppo (cfg : Config) (ex : List Event) (a b : Event) : Bool :=
  po a b && !a.isFence && !b.isFence && (ppo4 cfg ex a b || ppoCbmLoad cfg a b
    || (inMainMemory cfg a && inMainMemory cfg b && ppoMain cfg ex a b))

/-- The global memory order respects preserved program order (R90). -/
abbrev RespectsPpo (cfg : Config) (ex : List Event) : Prop :=
  ex.Pairwise (fun a b => ppo cfg ex b a = false)

/-! ### Load values -/

/-- A value a load may return for a byte, and the store it comes from. -/
abbrev Written := Byte × Source

/-- The initial data of a location (R60, R92). -/
def initialValue (init : Memory) (x : Nat) : Written := (Memory.read init x, none)

/-- The events that write the byte and are by observers coherent, for it, with observer `o`. -/
def coherentStores (cfg : Config) (o : Nat) (x : Nat) (l : List Event) : List Event :=
  l.filter (fun e => e.writes x && coherentAt cfg x o e.obs)

/-- The values of stores to the byte. -/
def valuesOf (x : Nat) (l : List Event) : List Written :=
  l.filterMap (fun e => (e.storeValue? x).map (fun v => (v, some (e.obs, e.tick))))

/-- The value the unmodified load value axiom gives: the store latest in the global memory order among those before the load in
that order (`before`) and those before it in program order; the initial value if there is none (R92). -/
def rvwmoValue (cfg : Config) (init : Memory) (before after : List Event) (r : Event) (x : Nat) : Written :=
  let cands := coherentStores cfg r.obs x (before ++ after.filter (fun e => po e r))
  ((valuesOf x cands).getLast?).getD (initialValue init x)

/-- `NonCoh(r, x)`: the values of all stores to the byte by observers that are not coherent with the load's (R78). -/
def nonCoh (cfg : Config) (o : Nat) (x : Nat) (l : List Event) : List Written :=
  valuesOf x (l.filter (fun e => !coherentAt cfg x o e.obs))

/-- A clean or flush operation on the byte, by any observer (`CF` of R77). -/
def Event.isCleanOf (cfg : Config) (x : Nat) (e : Event) : Bool :=
  match e.op with
  | .clean _ => e.touches cfg x
  | .flush _ => e.touches cfg x
  | _ => false

/-- An invalidate operation on the byte; a flush counts as one (R79, D37). -/
def Event.isInvalOf (cfg : Config) (x : Nat) (e : Event) : Bool :=
  match e.op with
  | .invalidate _ => e.touches cfg x
  | .flush _ => e.touches cfg x
  | _ => false

/-- The values an invalidate leaves possible, from the events before it, newest first: while no clean or flush of the byte is met,
every store's value; then, of the stores before the latest clean or flush, the latest alone, or the initial value if there is none
(R77). -/
def afterInvFrom (cfg : Config) (init : Memory) (o : Nat) (x : Nat) (newestFirst : List Event) : List Written :=
  match newestFirst with
  | [] => [initialValue init x]
  | e :: rest =>
    if e.isCleanOf cfg x then
      match valuesOf x (coherentStores cfg o x rest) with
      | [] => [initialValue init x]
      | v :: _ => [v]
    else
      valuesOf x (coherentStores cfg o x [e]) ++ afterInvFrom cfg init o x rest

/-- `AfterInv(i, x)` for an invalidate that follows the events `before` in the global memory order (R77). A flush is itself the
latest member of `CF`, its clean half coming first (D37). -/
def afterInv (cfg : Config) (init : Memory) (o : Nat) (x : Nat) (before : List Event) (i : Event) : List Written :=
  afterInvFrom cfg init o x ((if i.isCleanOf cfg x then [i] else []) ++ before.reverse)

/-- The invalidate `i` qualifies for the load `r` and the byte (R76): no store to the byte stands between them in program order, nor
in the global memory order. `between` are the events between them in the global memory order and `all` the whole execution. -/
def qualifies (cfg : Config) (all between : List Event) (i r : Event) (x : Nat) : Bool :=
  i.isInvalOf cfg x && (coherentStores cfg r.obs x between).isEmpty
    && !all.any (fun e => e.writes x && coherentAt cfg x r.obs e.obs && po i e && po e r)

/-- For each invalidate among `rest` that qualifies for the load, the values it leaves possible; `before` are the events before
`rest` in the global memory order and `all` the whole execution (R76). -/
def qualifying (cfg : Config) (init : Memory) (all : List Event) (r : Event) (x : Nat) :
    List Event → List Event → List (List Written)
  | _, [] => []
  | before, i :: rest =>
    let tail := qualifying cfg init all r x (before ++ [i]) rest
    if qualifies cfg all rest i r x then afterInv cfg init r.obs x before i :: tail else tail

/-- `Allowed(r, x)`: the values the load may return for the byte (R76, R78, D14). `before` and `after` are the events before and
after the load in the global memory order. -/
def allowed (cfg : Config) (init : Memory) (before after : List Event) (r : Event) (x : Nat) : List Written :=
  let sets := qualifying cfg init (before ++ after) r x [] before
  let base := if sets.isEmpty then [rvwmoValue cfg init before after r x] else sets.flatten
  base ++ nonCoh cfg r.obs x (before ++ after)

/-- Every byte a hart's load returned, with its source, is allowed. The loads of other observers are not judged by the axiom, which
is about harts (R90, R206 (2), log entry 18). -/
def loadOk (cfg : Config) (init : Memory) (before after : List Event) (r : Event) : Bool :=
  match r.op with
  | .load a _ bs src =>
    !cfg.harts.contains r.obs || (bs.zip src).zipIdx.all (fun e => (allowed cfg init before after r (a + e.2)).contains e.1)
  | _ => true

/-- The load value axiom with the condition the source adds (R76, R92), for the events after `before`. -/
def loadValuesOk (cfg : Config) (init : Memory) : List Event → List Event → Bool
  | _, [] => true
  | before, e :: rest => loadOk cfg init before rest e && loadValuesOk cfg init (before ++ [e]) rest

/-! ### Atomicity -/

/-- The event is the store to the byte that has this name. -/
def Event.isStoreNamed (x o t : Nat) (e : Event) : Bool :=
  decide (e.obs = o) && decide (e.tick = t) && e.writes x

/-- The events that lie, in the global memory order, between the store to the byte that a source names and an event with these events
`before` it and these `after` it, whichever of the two comes first. R92 is silent where the source is the initial data: they come before
every event (DESIGN CHOICE, log entry 40). -/
def betweenSource (x : Nat) (src : Source) (before after : List Event) : List Event :=
  match src with
  | none => before
  | some (o, t) =>
    if before.any (Event.isStoreNamed x o t) then (before.dropWhile (fun e => !e.isStoreNamed x o t)).drop 1
    else if after.any (Event.isStoreNamed x o t) then after.takeWhile (fun e => !e.isStoreNamed x o t)
    else []

/-- A store to the byte by another hart than the one of the paired store `w`. The store of an observer that is no hart counts where it
is coherent with the hart's (R92, R206 (2)). -/
def foreignStore (cfg : Config) (w : Event) (x : Nat) (e : Event) : Bool :=
  e.writes x && decide (e.obs ≠ w.obs) && (cfg.harts.contains e.obs || coherentAt cfg x w.obs e.obs)

/-- No store by another hart to a byte the paired load read lies between the store it read from and the paired store (R92). `before` and
`after` are the events before and after the paired store `w`; the load may be among either. -/
def atomicOk (cfg : Config) (before : List Event) (w : Event) (after : List Event) : Bool :=
  match w.tags.pair with
  | none => true
  | some t =>
    (before ++ after).all (fun r =>
      !(r.isLoad && decide (r.obs = w.obs) && decide (r.tick = t)) ||
        (List.range (r.footprint cfg).2).all (fun i =>
          let x := (r.footprint cfg).1 + i
          match sourceOf r x with
          | none => true
          | some src => !(betweenSource x src before after).any (foreignStore cfg w x)))

/-- The atomicity axiom (R92), for the paired stores of a list that has the events `before` before it and `waiting` after it. -/
def atomicityOk (cfg : Config) (waiting : List Event) : List Event → List Event → Bool
  | _, [] => true
  | before, e :: rest => atomicOk cfg before e (rest ++ waiting) && atomicityOk cfg waiting (before ++ [e]) rest

/-! ### Legal executions -/

/-- The execution is legal (R90, R92). The progress axiom holds of every finite list; for a run it is `Progress` (`Safety.lean`). -/
abbrev Legal (cfg : Config) (init : Memory) (ex : List Event) : Prop :=
  RespectsPpo cfg ex ∧ loadValuesOk cfg init [] ex = true ∧ atomicityOk cfg [] [] ex = true

/-- The execution so far is legal, with `done` in the global memory order and `waiting` to follow in it, in this order. A waiting store
counts for a load that is done where it comes before the load in program order (R92); a waiting load has no value yet, and is judged when
it is performed, as a waiting paired store is. -/
abbrev LegalSoFar (cfg : Config) (init : Memory) (done waiting : List Event) : Prop :=
  RespectsPpo cfg (done ++ waiting) ∧ loadValuesOk cfg init [] (done ++ waiting) = true ∧ atomicityOk cfg waiting [] done = true

end Sys2Proof.Machine
end

