-- ==== Sys2Proof/Machine/Ops.lean ====
section
/-!
DEFINITION. The operations the instructions share: issuing operations, losing reservations, retiring, and taking a trap and
returning from one.
-/

namespace Sys2Proof.Machine

/-! ### Events and reservations -/

/-- An operation with no annotation and no dependency (R94). -/
def Tags.plain : Tags where
  acquire := false
  release := false
  rcsc    := false
  amoOrSc := false
  pair    := none
  addrDep := []
  dataDep := []
  ctrlDep := []

/-- The tags of an operation of a CMO instruction: no annotation and no data operand; the address depends on what `x[rs1]` does,
and the operation on the branches before it (R94). -/
def cmoTags (h : Hart) (rs1 : Reg) : Tags :=
  { Tags.plain with addrDep := depsOf h rs1, ctrlDep := h.ctrlDeps }

/-- The memory system performs the operations of an instruction at once: it does not hold them back, and nothing issued before
waits (log entry 22). -/
def atOnce (s : State) : Bool :=
  !s.deferred && s.pending.isEmpty

/-- Issue operations. Where they are performed at once they take their places at the end of the global memory order, in this order,
each with its effect on the memory system; else they wait, behind those that wait already (R39, R90). -/
def issue (es : List Event) (s : State) : State :=
  { s with
    sys := if atOnce s then effects s.cfg es s.sys else s.sys
    history := if atOnce s then s.history ++ es else s.history
    pending := if atOnce s then s.pending else s.pending ++ es }

/-- Issue one operation of an observer, of this tick (R39). -/
def issueOp (o : Nat) (op : MemOp) (tags : Tags) (s : State) : State :=
  issue [{ obs := o, tick := s.tick, op := op, tags := tags }] s

/-- `MayLoseReservations()`: any of the other harts may lose its reservation, whatever the addresses (R85, R87, U10). -/
def loseReservations (tick : Nat) (others : List Hart) : List Hart :=
  others.map (fun h => if Config.losesReservation tick h.id then { h with resv := none } else h)

/-- `MayLoseReservations()`, then `pc <- pc + 4` (R21, R85, R87). -/
def retire (s : State) : State :=
  { s with
    hart := { s.hart with pc := nextPc s.cfg s.hart.pc }
    others := loseReservations s.tick s.others
    tick := s.tick + 1 }

/-! ### Taking a trap -/

/-- The cause number (R197). -/
def Cause.code : Cause → Nat
  | .illegalInstruction => 2
  | .breakpoint => 3
  | .storeMisaligned => 6
  | .storeAccessFault => 7
  | .storePageFault => 15
  | .virtualInstruction => 22
  | .storeGuestPageFault => 23

/-- The mode a trap is taken to: M, or by delegation HS, or VS (R201). A guest-page fault goes no further than HS-mode. -/
def trapTarget (cfg : Config) (h : Hart) (c : Cause) : Mode :=
  if decide (h.mode ≠ .M) && cfg.modes.contains .S && getBit h.csr.medeleg c.code then
    if virt h.mode && cfg.modes.contains .VS && getBit h.csr.hedeleg c.code && decide (c ≠ .storeGuestPageFault) then .VS else .S
  else .M

/-- The address of the handler: the base of the vector register, which synchronous exceptions always use (R201). -/
def tvecBase (tvec : Word) : Word :=
  tvec &&& ~~~3#64

/-- The guest physical address of a guest-page fault shifted right by 2, as it is saved (R197). -/
def savedGpa (g : Nat) : Word :=
  BitVec.ofNat 64 (g / 4)

/-- The hart after a trap is taken to M-mode (R201). -/
def enterM (cfg : Config) (tick : Nat) (t : TrapRecord) (h : Hart) : Hart :=
  { h with
    mode := .M
    pc := xtrunc cfg.xlen (tvecBase h.csr.mtvec)
    csr := { h.csr with
      mepc := t.epc
      mcause := BitVec.ofNat 64 t.cause.code
      mtval := t.tval
      mstatus := mstatusOnTrap (hasHypervisor cfg) h.mode t.guestVirtual h.csr.mstatus
      mtval2 := match t.gpa with | some g => xtrunc cfg.xlen (savedGpa g) | none => h.csr.mtval2
      mtinst := match t.gpa with | some _ => xtrunc cfg.xlen (Config.freeInst tick) | none => h.csr.mtinst } }

/-- The hart after a trap is taken to S-mode or HS-mode (R201). -/
def enterS (cfg : Config) (tick : Nat) (t : TrapRecord) (h : Hart) : Hart :=
  { h with
    mode := .S
    pc := xtrunc cfg.xlen (tvecBase h.csr.stvec)
    csr := { h.csr with
      sepc := t.epc
      scause := BitVec.ofNat 64 t.cause.code
      stval := t.tval
      mstatus := sstatusOnTrap h.mode h.csr.mstatus
      hstatus := if hasHypervisor cfg then hstatusOnTrap h.mode t.guestVirtual h.csr.hstatus else h.csr.hstatus
      htval := match t.gpa with | some g => xtrunc cfg.xlen (savedGpa g) | none => h.csr.htval
      htinst := match t.gpa with | some _ => xtrunc cfg.xlen (Config.freeInst tick) | none => h.csr.htinst } }

/-- The hart after a trap is taken to VS-mode (R201). -/
def enterVS (cfg : Config) (t : TrapRecord) (h : Hart) : Hart :=
  { h with
    mode := .VS
    pc := xtrunc cfg.xlen (tvecBase h.csr.vstvec)
    csr := { h.csr with
      vsepc := t.epc
      vscause := BitVec.ofNat 64 t.cause.code
      vstval := t.tval
      vsstatus := sstatusOnTrap h.mode h.csr.vsstatus } }

/-- The hart after trap entry, by the mode the trap is taken to (R201). -/
def trapEntry (cfg : Config) (tick : Nat) (t : TrapRecord) (h : Hart) : Hart :=
  match trapTarget cfg h t.cause with
  | .S => enterS cfg tick t h
  | .VS => enterVS cfg t h
  | .M => enterM cfg tick t h
  | .U => enterM cfg tick t h
  | .VU => enterM cfg tick t h

/-- Take a trap: the record is handed to the host model, which performs trap entry; nothing else changes (R196, R200, R201). -/
def takeTrap (t : TrapRecord) (s : State) : State :=
  { s with
    hart := trapEntry s.cfg s.tick t s.hart
    traps := s.traps ++ [t]
    tick := s.tick + 1 }

/-- The record of an illegal instruction exception: the value is the instruction word or zero, as the implementation chooses
(R197). -/
def illegalRecord (s : State) (w : InstrWord) : TrapRecord where
  cause := .illegalInstruction
  epc := s.hart.pc
  tval := if s.cfg.tvalHoldsWord then w.setWidth 64 else 0
  gpa := none
  guestVirtual := false

/-- `raise IllegalInstruction(I)` (R168, R196). -/
def raiseIllegal (w : InstrWord) (s : State) : State :=
  takeTrap (illegalRecord s w) s

/-- The address a fault reports: a free draw from `Block(ea, S)` (R198, `TVAL_CHOICE`). -/
def drawTval (tick : Nat) (ea : Word) (size : Nat) : Word :=
  BitVec.ofNat 64 (blkBase ea.toNat size + Config.freeOffset tick % size)

/-- The record of a fault of an access (R196 to R198). The guest physical address is that of the address reported (log entry 14). -/
def faultRecord (s : State) (c : Cause) (gpage : Option Nat) (ea : Word) (size : Nat) : TrapRecord where
  cause := c
  epc := s.hart.pc
  tval := drawTval s.tick ea size
  gpa := gpage.map (fun g => inPage g (drawTval s.tick ea size))
  guestVirtual := virt (effPriv s.hart)

/-- `raise E(ea)` for a fault of an access of `size` bytes (R196). -/
def raiseFault (c : Cause) (gpage : Option Nat) (ea : Word) (size : Nat) (s : State) : State :=
  takeTrap (faultRecord s c gpage ea size) s

/-! ### Returning from a trap -/

/-- `MRET`: the mode and the interrupt enable saved at entry are restored and `pc` is the saved one (R202). `MPV` counts with the
hypervisor extension only, as entry writes it then only (R201). -/
def returnM (cfg : Config) (h : Hart) : Hart :=
  { h with
    mode := modeOf (mpp h.csr.mstatus) (hasHypervisor cfg && mpv h.csr.mstatus)
    pc := alignPc cfg (xtrunc cfg.xlen h.csr.mepc)
    csr := { h.csr with mstatus := mstatusOnRet h.csr.mstatus } }

/-- `SRET` in S-mode or HS-mode (R202). -/
def returnS (cfg : Config) (h : Hart) : Hart :=
  { h with
    mode := modeOf (if getBit h.csr.mstatus 8 then 1 else 0) (hasHypervisor cfg && getBit h.csr.hstatus 7)
    pc := alignPc cfg (xtrunc cfg.xlen h.csr.sepc)
    csr := { h.csr with mstatus := sstatusOnRet h.csr.mstatus } }

/-- `SRET` in VS-mode (R202). -/
def returnVS (cfg : Config) (h : Hart) : Hart :=
  { h with
    mode := modeOf (if getBit h.csr.vsstatus 8 then 1 else 0) true
    pc := alignPc cfg (xtrunc cfg.xlen h.csr.vsepc)
    csr := { h.csr with vsstatus := sstatusOnRet h.csr.vsstatus } }

end Sys2Proof.Machine
end

