-- ==== Sys2Proof/Machine/CboManagement.lean ====
section
/-!
DEFINITION. The cache block management instructions `CBO.INVAL`, `CBO.CLEAN` and `CBO.FLUSH` (`spec/40_cbo_management.md`,
R120 to R127).
-/

namespace Sys2Proof.Machine

/-- The operations of management instructions (R70). -/
inductive BlockOp where
  | invalidate
  | clean
  | flush
deriving DecidableEq, Repr

/-- The event of an operation on the block at base `b` (R39, R70). -/
def BlockOp.event (op : BlockOp) (b : Nat) : MemOp :=
  match op with
  | .invalidate => .invalidate b
  | .clean => .clean b
  | .flush => .flush b

/-- `Op(kind, CBS_M, pa)`: one operation of the executing hart, whose footprint is the whole block (R53, R70, R123, R124 step 9). -/
def performOp (op : BlockOp) (pa : Nat) (tags : Tags) (s : State) : State :=
  issueOp s.hart.id (op.event (blkBase pa (cbsM s.cfg))) tags s

/-- `CbmExecute` from the check of the debug triggers on (R124 steps 4 to 11), with the operation already selected. On a platform
that faults on locations that are not cacheable, the instruction takes a store access fault there (`UNCACHED_CBO`). -/
def cbmAccess (op : BlockOp) (rs1 : Reg) (s : State) : Host.Outcome State Fault Refusal :=
  let ea := eaCbo s rs1
  let size := cbsM s.cfg
  match triggerCheck s.cfg s.hart .cbm ea size with
  | .unspecified => .refused .triggerUnspecified
  | .breakpoint => .next (raiseFault .breakpoint none ea size s)
  | .pass =>
    match accessCheck s.cfg s.hart .cbm size ea with
    | .trap c gpage => .next (raiseFault c gpage ea size s)
    | .pmaUnspecified => .refused .pmaConstraintsNotMet
    | .granted pa =>
      if uncachedFault s.cfg pa then .next (raiseFault .storeAccessFault none ea size s)
      else .next (retire (performOp op pa (cmoTags s.hart rs1) s))

/-- `CBO.INVAL`: an invalidate, or a flush where the control registers select it (R125). -/
def execCboInval (rs1 : Reg) (s : State) : Host.Outcome State Fault Refusal :=
  match cmoEnable s.cfg s.hart .inval with
  | .illegalInstruction => .next (raiseIllegal (encode (.cboInval rs1)) s)
  | .performFlushInstead => cbmAccess .flush rs1 s
  | .perform => cbmAccess .invalidate rs1 s

/-- `CBO.CLEAN` (R126). -/
def execCboClean (rs1 : Reg) (s : State) : Host.Outcome State Fault Refusal :=
  match cmoEnable s.cfg s.hart .clean with
  | .illegalInstruction => .next (raiseIllegal (encode (.cboClean rs1)) s)
  | .performFlushInstead => cbmAccess .clean rs1 s
  | .perform => cbmAccess .clean rs1 s

/-- `CBO.FLUSH` (R127). -/
def execCboFlush (rs1 : Reg) (s : State) : Host.Outcome State Fault Refusal :=
  match cmoEnable s.cfg s.hart .flush with
  | .illegalInstruction => .next (raiseIllegal (encode (.cboFlush rs1)) s)
  | .performFlushInstead => cbmAccess .flush rs1 s
  | .perform => cbmAccess .flush rs1 s

end Sys2Proof.Machine
end

