-- ==== Sys2Proof/Machine/CboZero.lean ====
section
/-!
DEFINITION. The cache block zero instruction `CBO.ZERO` (`spec/41_cbo_zero.md`, R140 to R142).
-/

namespace Sys2Proof.Machine

/-- The store operations of `CBO.ZERO`: one for each byte of the block, of one tick, so that program order puts none before another
(R142, D13). Where the memory system holds them back they are performed one by one in any order; else in rising address order
(log entry 24). -/
def zeroEvents (o : Nat) (tick : Nat) (tags : Tags) (addrs : List Nat) : List Event :=
  addrs.map (fun a => { obs := o, tick := tick, op := .store a [0], tags := tags })

/-- The stores of `CBO.ZERO`: zero to every byte of the block and to no other (R140, R141 step 8). -/
def performZero (pa : Nat) (tags : Tags) (s : State) : State :=
  issue (zeroEvents s.hart.id s.tick tags (block pa (cbsZ s.cfg))) s

/-- `CbzExecute` from the check of the debug triggers on (R141 steps 3 to 10). On a platform that faults on
locations that are not cacheable, it takes a store access fault there (`UNCACHED_CBO`). -/
def cbzAccess (rs1 : Reg) (s : State) : Host.Outcome State Fault Refusal :=
  let ea := eaCbo s rs1
  let size := cbsZ s.cfg
  match triggerCheck s.cfg s.hart .cbz ea size with
  | .unspecified => .refused .triggerUnspecified
  | .breakpoint => .next (raiseFault .breakpoint none ea size s)
  | .pass =>
    match accessCheck s.cfg s.hart .cbz size ea with
    | .trap c gpage => .next (raiseFault c gpage ea size s)
    | .pmaUnspecified => .refused .pmaConstraintsNotMet
    | .granted pa =>
      if uncachedFault s.cfg pa then .next (raiseFault .storeAccessFault none ea size s)
      else .next (retire (performZero pa (cmoTags s.hart rs1) s))

/-- `CBO.ZERO` (R141). -/
def execCboZero (rs1 : Reg) (s : State) : Host.Outcome State Fault Refusal :=
  match cmoEnable s.cfg s.hart .zero with
  | .illegalInstruction => .next (raiseIllegal (encode (.cboZero rs1)) s)
  | .performFlushInstead => cbzAccess rs1 s
  | .perform => cbzAccess rs1 s

end Sys2Proof.Machine
end

