-- ==== Sys2Proof/Machine/Prefetch.lean ====
section
/-!
DEFINITION. The cache block prefetch instructions `PREFETCH.I`, `PREFETCH.R` and `PREFETCH.W` (`spec/42_prefetch.md`, R150 to
R154). A prefetch tests no control register, raises no exception of its own access and records no event (R74, R170).
-/

namespace Sys2Proof.Machine

/-- `Hint(K, pa)`: the hardware may act on the hint, by allocating a copy of the block, or ignore it (R150, U13).
Whether it acts and which cache allocates are free values (log entry 20). -/
def hint (pa : Nat) (s : State) : State :=
  { s with sys := if Config.hintActs s.tick then hintLine s.cfg (Config.hintCache s.tick) s.hart.id pa s.sys else s.sys }

/-- `PrefetchExecute` (R154). -/
def prefetch (k : PrefetchKind) (rs1 : Reg) (offset : Int) (s : State) : Host.Outcome State Fault Refusal :=
  let ea := eaPrefetch s rs1 offset
  match triggerCheck s.cfg s.hart (.pf k) ea (cbsM s.cfg) with
  | .unspecified => .refused .triggerUnspecified
  | .breakpoint => .next (raiseFault .breakpoint none ea (cbsM s.cfg) s)
  | .pass =>
    match prefetchCheck s.cfg s.hart k ea with
    | .pmaUnspecified => .refused .pmaConstraintsNotMet
    | .noAccess => .next (retire s)
    | .acts pa => .next (retire (hint pa s))

/-- `PREFETCH.I` (R151). -/
def execPrefetchI (rs1 : Reg) (offset : Int) (s : State) : Host.Outcome State Fault Refusal :=
  prefetch .I rs1 offset s

/-- `PREFETCH.R` (R152). -/
def execPrefetchR (rs1 : Reg) (offset : Int) (s : State) : Host.Outcome State Fault Refusal :=
  prefetch .R rs1 offset s

/-- `PREFETCH.W` (R153). -/
def execPrefetchW (rs1 : Reg) (offset : Int) (s : State) : Host.Outcome State Fault Refusal :=
  prefetch .W rs1 offset s

end Sys2Proof.Machine
end

