-- ==== Sys2Proof/Machine/Dispatch.lean ====
section
/-! DEFINITION. One arm for each instruction (R2). -/

namespace Sys2Proof.Machine

def exec (i : Instr) (s : State) : Host.Outcome State Fault Refusal :=
  match i with
  | .cboInval rs1 => Sys2Proof.Machine.execCboInval rs1 s
  | .cboClean rs1 => Sys2Proof.Machine.execCboClean rs1 s
  | .cboFlush rs1 => Sys2Proof.Machine.execCboFlush rs1 s
  | .cboZero rs1 => Sys2Proof.Machine.execCboZero rs1 s
  | .prefetchI rs1 offset => Sys2Proof.Machine.execPrefetchI rs1 offset s
  | .prefetchR rs1 offset => Sys2Proof.Machine.execPrefetchR rs1 offset s
  | .prefetchW rs1 offset => Sys2Proof.Machine.execPrefetchW rs1 offset s

end Sys2Proof.Machine
end

