-- ==== Sys2Proof/Machine/Environment.lean ====
section
/-!
DEFINITION. The moves of the agents other than a hart's CMO instructions (R206): scheduling, the caches' own moves, loads and stores
of any observer, the performing of operations that wait (R90), and the host instructions of the executing hart (D1).

A move that the rules do not allow the agent does not happen: it is taken from the queue and nothing else changes. The execution
environment has no move (D39).
-/

namespace Sys2Proof.Machine

/-- Another hart executes from now on; the executing hart takes its place (R205, R206 (1)). -/
def schedule (o : Nat) (s : State) : State :=
  match s.others.find? (fun h => decide (h.id = o)) with
  | none => s
  | some h => { s with hart := h, others := mapFirst (fun g => decide (g.id = o)) (fun _ => s.hart) s.others }

/-- The observer can access every byte of a range (R51). -/
def observesAll (cfg : Config) (o : Nat) (a : Nat) (n : Nat) : Bool :=
  (List.range n).all (fun i => observes cfg o (a + i))

/-- An operation that an observer issues waits to be performed (R90). -/
def hold (e : Event) (s : State) : State :=
  { s with pending := s.pending ++ [e] }

/-- A load that an observer issues, where it can access the bytes (R51, R52, R206). -/
def loadMove (o : Nat) (a : Nat) (size : Nat) (tags : Tags) (s : State) : State :=
  if observesAll s.cfg o a size then hold { obs := o, tick := s.tick, op := .load a size [] [], tags := tags } s else s

/-- A store that an observer issues, where it can access the bytes (R51, R52, R206). -/
def storeMove (o : Nat) (a : Nat) (bytes : List Byte) (tags : Tags) (s : State) : State :=
  if observesAll s.cfg o a bytes.length then hold { obs := o, tick := s.tick, op := .store a bytes, tags := tags } s else s

/-- The operation as it is when it is performed: a load returns these bytes, each from its source. -/
def MemOp.performed (op : MemOp) (bytes : List Byte) (src : List Source) : MemOp :=
  match op with
  | .load a n _ _ => .load a n bytes src
  | .store a vs => .store a vs
  | .invalidate b => .invalidate b
  | .clean b => .clean b
  | .flush b => .flush b
  | .fence p q => .fence p q

/-- The byte is the value of the performed store the load names as its source, or the initial value (R91 rules 2, 3, 12). -/
def sourceOk (s : State) (x : Nat) (v : Byte) : Source → Bool
  | none => decide (v = Memory.read s.initMem x)
  | some (o, t) => s.history.any (fun e => decide (e.obs = o) && decide (e.tick = t) && decide (e.storeValue? x = some v))

/-- The bytes a load returns can be: as many as it asks for, each with a source. Those of an observer that is no hart are what lies on
its own path, its caches or memory (R206 (2)); what a hart's load returns is judged by the load value rules (R76, R92, U12). -/
def returnOk (s : State) (e : Event) : Bool :=
  match e.op with
  | .load a n bytes src =>
    decide (bytes.length = n) && decide (src.length = n) &&
      (s.cfg.harts.contains e.obs || (bytes.zip src).zipIdx.all (fun b =>
        sourceOk s (a + b.2) b.1.1 b.1.2 && decide (b.1.1 = viewOf s.cfg s.sys e.obs (a + b.2))))
  | _ => true

/-- The operation at place `n` of those that wait is performed, where the execution so far stays legal: it takes its place at the
end of the global memory order, with its effect on the memory system (R55, R90 to R92). -/
def perform (n : Nat) (bytes : List Byte) (src : List Source) (s : State) : State :=
  match s.pending[n]? with
  | none => s
  | some e =>
    let e' := { e with op := e.op.performed bytes src }
    let rest := s.pending.eraseIdx n
    if returnOk s e' && decide (LegalSoFar s.cfg s.initMem (s.history ++ [e']) rest) then
      { s with history := s.history ++ [e'], pending := rest, sys := e'.op.effect s.cfg e'.obs s.sys }
    else s

/-- A list with its elements at places `n` and `n + 1` exchanged, if it has both. -/
def swapAt {α : Type} : Nat → List α → List α
  | 0, a :: b :: l => b :: a :: l
  | n + 1, a :: l => a :: swapAt n l
  | 0, [a] => [a]
  | _, [] => []

/-- The waiting operation at place `n + 1` will come before the one at place `n` in the global memory order, where the execution so far
stays legal (R90). So the operations that wait stand in any order that the rules allow (log entry 22). -/
def overtake (n : Nat) (s : State) : State :=
  if decide (LegalSoFar s.cfg s.initMem s.history (swapAt n s.pending)) then { s with pending := swapAt n s.pending } else s

/-- A return from a trap happens only into a mode the hart implements (log entry 12). -/
def returnTo (cfg : Config) (h t : Hart) : Hart :=
  if cfg.modes.contains t.mode then t else h

/-- The executing hart after an effect of a host instruction, or of a trap of the host's own, on its registers (D1, R165; DESIGN CHOICE,
log entry 4). What is read from a control register carries no syntactic dependency (R91 is silent on dependencies through control
registers: DESIGN CHOICE, log entry 4). `SRET` in M-mode returns as in S-mode or HS-mode, on a hart without S-mode too (R202 is silent:
DESIGN CHOICE, log entry 19). -/
def hostHart (cfg : Config) (tick : Nat) (a : HostAction) (h : Hart) : Hart :=
  match a with
  | .writeX rd v deps => writeX cfg rd v deps h
  | .setPc v => if pcAligned cfg (xtrunc cfg.xlen v) then { h with pc := xtrunc cfg.xlen v } else h
  | .branch deps => { h with ctrlDeps := h.ctrlDeps ++ deps }
  | .fence _ _ => h
  | .reserve r => { h with resv := r }
  | .writeCsr c v => { h with csr := csrWrite cfg tick c v h.csr }
  | .readCsr rd c => writeX cfg rd (csrRead cfg c h.csr) [] h
  | .setWalk w => { h with walk := w }
  | .setPmp p => { h with pmp := p }
  | .setMode m => if cfg.modes.contains m then { h with mode := m } else h
  | .mret => if h.mode = .M then returnTo cfg h (returnM cfg h) else h
  | .sret =>
    match h.mode with
    | .M => returnTo cfg h (returnS cfg h)
    | .S => returnTo cfg h (returnS cfg h)
    | .VS => returnTo cfg h (returnVS cfg h)
    | .U => h
    | .VU => h

/-- A host instruction acts: on the hart's registers, and a `FENCE` takes its place in program order (R93). -/
def hostMove (a : HostAction) (s : State) : State :=
  match a with
  | .fence p q => issueOp s.hart.id (.fence p q) Tags.plain s
  | a => { s with hart := hostHart s.cfg s.tick a s.hart }

/-- The effect of one move (R206). -/
def move (m : Move) (s : State) : State :=
  match m with
  | .schedule o => schedule o s
  | .allocate c b => { s with sys := allocateLine s.cfg c b s.sys }
  | .deallocate c b dest => { s with sys := deallocateLine s.cfg c b dest s.sys }
  | .writeBack c b => { s with sys := writeBackLine s.cfg c b s.sys }
  | .load o a size tags => loadMove o a size tags s
  | .store o a bytes tags => storeMove o a bytes tags s
  | .perform n bytes src => perform n bytes src s
  | .overtake n => overtake n s
  | .defer b => { s with deferred := b }
  | .host a => hostMove a s

/-- One move is a step of its own. -/
def applyMove (m : Move) (s : State) : State :=
  let t := move m s
  { t with tick := t.tick + 1 }

end Sys2Proof.Machine
end

