-- ==== Sys2Proof/Machine/Fetch.lean ====
section
/-!
DEFINITION. Fetching an instruction's bytes, and placing them from outside. Fetch is the host's own (R81, R167, R199 item 1); what
the spec says of it is that the word is little-endian (R80, R100) and that the bytes are loaded (R84).
-/

namespace Sys2Proof.Machine

/-- The physical address of the byte of the instruction at offset `i`, if it can be translated and executed (log entry 16). -/
def fetchAddr (s : State) (i : Nat) : Option Nat :=
  let va := xtrunc s.cfg.xlen (s.hart.pc + BitVec.ofNat 64 i)
  match translate s.hart s.hart.mode .fetch va with
  | .fault _ _ => none
  | .done ppage _ _ _ =>
    if jointOk s.cfg s.hart s.hart.mode .fetch (inPage ppage va) then some (inPage ppage va) else none

/-- The values other than the one the hart's set sees now that an instruction fetch may find at an address: nothing makes a store
visible to it, so any value stored there, or the initial one, may still be what it returns (R84, D22). -/
def otherFetched (s : State) (a : Nat) : List Byte :=
  (Memory.read s.initMem a :: (valuesOf a (s.history ++ s.pending)).map (·.1)).filter
    (fun v => decide (v ≠ viewOf s.cfg s.sys s.hart.id a))

/-- The byte an instruction fetch returns: the one the hart's set sees, or by a free choice any other the location has held
(R84, log entry 16). -/
def fetchedValue (s : State) (a : Nat) : Byte :=
  match otherFetched s a with
  | [] => viewOf s.cfg s.sys s.hart.id a
  | vs =>
    let all := viewOf s.cfg s.sys s.hart.id a :: vs
    all.getD (Config.freeFetch s.tick a % all.length) 0

/-- The byte of the instruction at offset `i`. -/
def fetchByte (s : State) (i : Nat) : Option Byte :=
  (fetchAddr s i).map (fetchedValue s)

/-- The instruction word at `pc` (R100). -/
def fetchWord (s : State) : Option InstrWord :=
  match fetchByte s 0, fetchByte s 1, fetchByte s 2, fetchByte s 3 with
  | some b0, some b1, some b2, some b3 => some (wordOfBytes b0 b1 b2 b3)
  | _, _, _, _ => none

/-- A byte placed from outside: in memory, and in every copy of its block, of whichever cache. -/
def placeByte (cfg : Config) (a : Nat) (v : Byte) (ms : MemSys) : MemSys :=
  let b := blkBase a (cbsM cfg)
  { ms with mem := Memory.write ms.mem a v, caches := ms.caches.map (patchLine b (a - b) v) }

/-- A byte placed from outside as the initial data of the location: no store to it is remembered. -/
def placeInitial (a : Nat) (v : Byte) (s : State) : State :=
  { s with
    sys := placeByte s.cfg a v s.sys
    initMem := Memory.write s.initMem a v
    history := s.history.filter (fun e => !e.writes a)
    pending := s.pending.filter (fun e => !e.writes a) }

/-- A byte placed at an address, if there is one. -/
def placeAt (a : Option Nat) (v : Byte) (s : State) : State :=
  match a with
  | some a => placeInitial a v s
  | none => s

/-- The bytes of a word placed where the fetch finds the next instruction (log entry 17). -/
def placeWord (w : InstrWord) (s : State) : State :=
  placeAt (fetchAddr s 3) (w.extractLsb' 24 8)
    (placeAt (fetchAddr s 2) (w.extractLsb' 16 8)
      (placeAt (fetchAddr s 1) (w.extractLsb' 8 8)
        (placeAt (fetchAddr s 0) (w.extractLsb' 0 8) s)))

/-- A word that is no CMO instruction but has an effect the spec gives: a reserved word of the CBO space is an illegal instruction,
and an `ORI` with destination `x0` is a no-op (R105 to R107). -/
def runReserved (w : InstrWord) (s : State) : State :=
  raiseIllegal w s

/-- The no-op `ORI x0, rs1, imm` (R106, R107): only `pc` advances. -/
def runHint (s : State) : State :=
  { s with hart := { s.hart with pc := nextPc s.cfg s.hart.pc }, tick := s.tick + 1 }

/-- A `FENCE` set from its four bits, `I` the highest (R93). -/
def fenceSet (b : BitVec 4) : FenceSet where
  i := b.getLsbD 3
  o := b.getLsbD 2
  r := b.getLsbD 1
  w := b.getLsbD 0

/-- `FENCE`: it takes its place in program order, where the ordering rules find it, and `pc` advances (R72, R93). -/
def runFence (p q : BitVec 4) (s : State) : State :=
  runHint (issueOp s.hart.id (.fence (fenceSet p) (fenceSet q)) Tags.plain s)

end Sys2Proof.Machine
end

