-- ==== Sys2Proof/Machine/Step.lean ====
section
/-!
DEFINITION. One step: what the queue says, a move of an agent or the instruction at `pc`; where the queue is empty, the instruction
(R206).
-/

namespace Sys2Proof.Machine

/-- Run a word as an instruction (R93, R105 to R107, R110). -/
def runWord (w : InstrWord) (s : State) : Host.Outcome State Fault Refusal :=
  match decodeFor s.cfg w with
  | .cmo i => exec i s
  | .reservedCbo => .next (runReserved w s)
  | .oriHint => .next (runHint s)
  | .fence p q => .next (runFence p q s)
  | .notCmo => .refused .hostInstruction
  | .tooShort => .refused .hostInstruction

/-- The instruction at `pc`. -/
def runNext (s : State) : Host.Outcome State Fault Refusal :=
  if pcAligned s.cfg s.hart.pc then
    match fetchWord s with
    | some w => runWord w s
    | none => .fault .fetchDenied
  else .fault .fetchMisaligned

/-- One step of the machine. -/
def step (s : State) : Host.Outcome State Fault Refusal :=
  match s.inputs with
  | [] => runNext s
  | .run :: rest => runNext { s with inputs := rest }
  | .act m :: rest => .next (applyMove m { s with inputs := rest })

/-- The state with an instruction stored where the next step fetches, and no move of another agent before it (log entry 17). -/
def State.withFetchWord (s : State) (nbits w : Nat) : State :=
  { placeWord (tableWord nbits w) s with inputs := [] }

end Sys2Proof.Machine
end

