-- ==== Sys2Proof/Safety.lean ====
section
/-!
DEFINITION. What a run must keep: the invariants of the state that claims are stated with, and the launch premises of
`spec/92_eei_decisions.md` (D40).
-/

namespace Sys2Proof.Machine

/-! ### Invariants -/

/-- Memory, and the initial data, are in canonical form. -/
abbrev MemoryCanonical (s : State) : Prop :=
  Memory.wf s.sys.mem ∧ Memory.wf s.initMem

/-- The caches' tables are in canonical form. -/
abbrev LinesSorted (ms : MemSys) : Prop :=
  ∀ c ∈ ms.caches, Table.Sorted c.lines

/-- Every copy is a whole block (R32). -/
abbrev LinesWhole (cfg : Config) (ms : MemSys) : Prop :=
  ∀ c ∈ ms.caches, ∀ e ∈ c.lines, e.2.length = cbsM cfg

/-- The copies of a block in the caches of one set of coherent observers agree (R63, R211). -/
def CopiesAgree (cfg : Config) (ms : MemSys) : Prop :=
  ∀ c ∈ ms.caches, ∀ c' ∈ ms.caches, ∀ (k : CohSet) (b : Nat) (d d' : List Byte),
    reaches cfg b k c = true → reaches cfg b k c' = true →
    Table.get? c.lines b = some d → Table.get? c'.lines b = some d' → d = d'

/-- A block that was stored to since its last write to memory is held by a cache of the set, so the only up-to-date data is never
lost (R65, R67). -/
def DirtyHeld (cfg : Config) (ms : MemSys) : Prop :=
  ∀ (k : CohSet) (b : Nat), (k, b) ∈ ms.dirty → (heldCopy cfg ms k b).isSome = true

/-- Every copy is of an aligned block. -/
abbrev LinesAligned (cfg : Config) (ms : MemSys) : Prop :=
  ∀ c ∈ ms.caches, ∀ e ∈ c.lines, e.1 % cbsM cfg = 0

/-- The copies in the common caches are those of memory (R120, R205). -/
def CommonBacked (cfg : Config) (ms : MemSys) : Prop :=
  ∀ c ∈ ms.caches, ∀ (b : Nat) (d : List Byte), common cfg b c = true → Table.get? c.lines b = some d → d = memBlock cfg ms.mem b

/-- No cache holds more than its capacity and organisation allow (R4). -/
def WithinCapacity (cfg : Config) (ms : MemSys) : Prop :=
  ∀ c ∈ ms.caches, ∀ b, occupancy cfg c b ≤ c.ways

/-- The store-since-write state names no pair twice. -/
abbrev DirtyOnce (ms : MemSys) : Prop :=
  ms.dirty.Nodup

/-- The memory system is coherent: whole copies that agree, no stored-to data lost, the common caches' copies those of memory, and
no cache beyond its capacity (R4, R63, R65, R67, R205, R211). -/
structure SysCoherent (cfg : Config) (ms : MemSys) : Prop where
  sorted  : LinesSorted ms
  whole   : LinesWhole cfg ms
  aligned : LinesAligned cfg ms
  agree   : CopiesAgree cfg ms
  held    : DirtyHeld cfg ms
  once    : DirtyOnce ms
  backed  : CommonBacked cfg ms
  fits    : WithinCapacity cfg ms

/-- The state's memory system is coherent. -/
def CachesCoherent (s : State) : Prop :=
  SysCoherent s.cfg s.sys

/-- A property of the executing hart and of every other one. -/
def AllHarts (p : Hart → Prop) (s : State) : Prop :=
  p s.hart ∧ ∀ h ∈ s.others, p h

/-- The program counters are aligned as instructions are (R81). -/
def PcsAligned (s : State) : Prop :=
  AllHarts (fun h => pcAligned s.cfg h.pc = true) s

/-- M-mode exists, and every hart is in a mode that exists (R23, R165). -/
def ModesLegal (s : State) : Prop :=
  s.cfg.modes.contains .M = true ∧ AllHarts (fun h => s.cfg.modes.contains h.mode = true) s

/-- A value has no bit at or above `XLEN` (R20). -/
def FitsXlen (cfg : Config) (w : Word) : Prop :=
  xtrunc cfg.xlen w = w

/-- The program counters and general registers hold `XLEN`-bit values (R20, R21). -/
def RegistersFit (s : State) : Prop :=
  AllHarts (fun h => FitsXlen s.cfg h.pc ∧ ∀ r : Reg, FitsXlen s.cfg h.x[r]) s

/-- `CBIE` holds a supported value, never `10`, in every control register of a hart with Zicbom (R36, R108). -/
def CbieHeldLegal (cfg : Config) (h : Hart) : Prop :=
  cfg.hasZicbom = true →
    cbie h.csr.menvcfg ∈ cbieLegal cfg.cbieM ∧ cbie h.csr.senvcfg ∈ cbieLegal cfg.cbieS
      ∧ cbie h.csr.henvcfg ∈ cbieLegal cfg.cbieH

/-- `CBIE` is legal in every hart. -/
def CbieLegalEverywhere (s : State) : Prop :=
  AllHarts (CbieHeldLegal s.cfg) s

/-- `MPP` never holds the reserved value 2 (R24). -/
def MppLegal (s : State) : Prop :=
  AllHarts (fun h => mpp h.csr.mstatus ≠ 2) s

/-- No operation, performed or waiting, is of this step or a later one (R39). -/
def EventsPast (s : State) : Prop :=
  ∀ e ∈ s.history ++ s.pending, e.tick < s.tick

/-- Every store that a load names as the source of a byte is among the operations (R91). -/
def SourcesIssued (ex : List Event) : Prop :=
  ∀ r ∈ ex, ∀ x o t, sourceOf r x = some (some (o, t)) → ∃ m ∈ ex, m.isStoreNamed x o t = true

/-- The history, in the global memory order, with the operations that wait is a legal execution so far: it respects preserved program
order and meets the axioms (R90). -/
structure HistoryLegal (s : State) : Prop where
  past    : EventsPast s
  sources : SourcesIssued (s.history ++ s.pending)
  legal   : LegalSoFar s.cfg s.initMem s.history s.pending

/-! ### What becomes of the caches -/

/-- From one memory system to another the caches keep their places, their observers and their organisation, and in each cache the copy
of each block before, and the copy after, are as `p` says. -/
def CopiesBecome (ms ms' : MemSys) (p : Cache → Nat → Option (List Byte) → Option (List Byte) → Prop) : Prop :=
  List.Forall₂ (fun c c' => c'.serves = c.serves ∧ c'.sets = c.sets ∧ c'.ways = c.ways ∧
    ∀ b, p c b (Table.get? c.lines b) (Table.get? c'.lines b)) ms.caches ms'.caches

/-! ### Launch premises (D40) -/

/-- `PmaUniform`: the PMA constraints hold for every block, for both sizes (R183). -/
def PmaUniform (s : State) : Prop :=
  ∀ pa : Nat, pmaOk s.cfg pa (cbsM s.cfg) = true ∧ pmaOk s.cfg pa (cbsZ s.cfg) = true

/-- `NoTrigger`: no debug trigger of the executing hart is enabled (R191). -/
def NoTrigger (s : State) : Prop :=
  ∀ t ∈ s.hart.csr.triggers, t.enabled s.cfg = false

/-- `EnvcfgWritten`: the CMO control registers hold the values given (R45, R212). -/
def EnvcfgWritten (menv senv henv : Word) (s : State) : Prop :=
  s.hart.csr.menvcfg = menv ∧ s.hart.csr.senvcfg = senv ∧ s.hart.csr.henvcfg = henv

/-- `CachesEmpty`: no cache holds a copy, and no block is dirty (R45, R211). -/
def CachesEmpty (s : State) : Prop :=
  (∀ c ∈ s.sys.caches, c.lines = []) ∧ s.sys.dirty = []

/-- `NoForeignStores`: so far no observer outside the observer's set has issued a store to the region (R78). -/
def NoForeignStores (o : Nat) (region : Nat → Prop) (s : State) : Prop :=
  ∀ e ∈ s.history ++ s.pending, ∀ a, region a → e.writes a = true → coherentAt s.cfg a o e.obs = true

/-- `StaticPlatform`: the platform's parameters are the same in both states (D39). -/
def StaticPlatform (s t : State) : Prop :=
  t.cfg = s.cfg

/-- `HostSubset`: the word at `pc` is one that the model runs (D1). -/
def HostSubset (s : State) : Prop :=
  ∃ w, fetchWord s = some w ∧ decodeFor s.cfg w ≠ .notCmo

/-! ### Runs -/

/-- Inputs arrive at the end of the queue. -/
def arrive (q : List Input) (s : State) : State :=
  { s with inputs := s.inputs ++ q }

/-- A run: a state for each number, each the step of the one before; `q n` are the inputs that arrive before step `n`, so that an
agent may move at any step (R206). -/
def Run (r : Nat → State) (q : Nat → List Input) : Prop :=
  ∀ n, step (arrive (q n) (r n)) = .next (r (n + 1))

/-- Every operation that waits is performed in the end (R60 (2), and the progress axiom of R92). Only a liveness claim may take this
premise. -/
def Progress (r : Nat → State) : Prop :=
  ∀ n, ∀ e ∈ (r n).pending, ∃ m, n ≤ m ∧ e ∉ (r m).pending

/-- The write-back that is owed (R67, D28): a run is fair when a block that is dirty is at some later state no longer so. Only a
liveness claim may take this premise. -/
def WriteBackFair (r : Nat → State) : Prop :=
  ∀ n k b, isDirty (r n).sys k b = true → ∃ m, n ≤ m ∧ isDirty (r m).sys k b = false

/-- The control that gates an instruction; a prefetch has none (R168, R170). -/
def gateOf : Instr → Option Gated
  | .cboInval _ => some .inval
  | .cboClean _ => some .clean
  | .cboFlush _ => some .flush
  | .cboZero _ => some .zero
  | .prefetchI _ _ => none
  | .prefetchR _ _ => none
  | .prefetchW _ _ => none

/-- The next step runs the instruction at `pc`. -/
def RunsInstruction (s : State) : Prop :=
  s.inputs = [] ∨ ∃ rest, s.inputs = .run :: rest

/-- The next step runs a prefetch of another hart, and it costs this one its reservation (R87). -/
def PrefetchCancels (hart : Nat) (s : State) : Prop :=
  RunsInstruction s ∧ s.hart.id ≠ hart ∧ Config.losesReservation s.tick hart = true ∧
    ∃ w i, fetchWord s = some w ∧ decodeFor s.cfg w = .cmo i ∧ gateOf i = none

/-- The next step is an LR of the hart (R34). -/
def Reserves (hart : Nat) (s : State) : Prop :=
  s.hart.id = hart ∧ ∃ r rest, s.inputs = .act (.host (.reserve (some r))) :: rest

/-- The fairness of prefetches (R87, C4): a hart that makes reservations for ever makes, again and again, one that no prefetch
cancels before its next one, so that cancellations do not keep a constrained loop from succeeding. For management and zero instructions
the spec promises no such fairness (R86). -/
def ReservationFair (r : Nat → State) (q : Nat → List Input) : Prop :=
  let s := fun n => arrive (q n) (r n)
  ∀ hart, (∀ n, ∃ m, n ≤ m ∧ Reserves hart (s m)) →
    ∀ n, ∃ m, n ≤ m ∧ Reserves hart (s m) ∧
      ∀ j, m < j → (∀ k, m < k → k < j → ¬ Reserves hart (s k)) → ¬ PrefetchCancels hart (s j)

/-! ### What the seven instructions ask of the machine before they act -/

/-- The class of an instruction's access (R172). -/
def classOf : Instr → AccessClass
  | .cboInval _ => .cbm
  | .cboClean _ => .cbm
  | .cboFlush _ => .cbm
  | .cboZero _ => .cbz
  | .prefetchI _ _ => .pf .I
  | .prefetchR _ _ => .pf .R
  | .prefetchW _ _ => .pf .W

/-- The size of the block an instruction accesses: `CBS_Z` for `CBO.ZERO`, `CBS_M` for the others (R6, R82). -/
def accessSize (cfg : Config) : Instr → Nat
  | .cboZero _ => cbsZ cfg
  | .cboInval _ => cbsM cfg
  | .cboClean _ => cbsM cfg
  | .cboFlush _ => cbsM cfg
  | .prefetchI _ _ => cbsM cfg
  | .prefetchR _ _ => cbsM cfg
  | .prefetchW _ _ => cbsM cfg

/-- The effective address of an instruction (R104). -/
def eaOf (s : State) : Instr → Word
  | .cboInval rs1 => eaCbo s rs1
  | .cboClean rs1 => eaCbo s rs1
  | .cboFlush rs1 => eaCbo s rs1
  | .cboZero rs1 => eaCbo s rs1
  | .prefetchI rs1 offset => eaPrefetch s rs1 offset
  | .prefetchR rs1 offset => eaPrefetch s rs1 offset
  | .prefetchW rs1 offset => eaPrefetch s rs1 offset

/-- The control registers enable the instruction in the current mode (R168). -/
def Enabled (i : Instr) (s : State) : Prop :=
  ∀ g, gateOf i = some g → cmoEnable s.cfg s.hart g ≠ .illegalInstruction

/-- No debug trigger has to do with the instruction's access (R191). -/
def Untriggered (i : Instr) (s : State) : Prop :=
  triggerCheck s.cfg s.hart (classOf i) (eaOf s i) (accessSize s.cfg i) = .pass

/-- Translation of the instruction's effective address completes (R172 (a)). -/
def Translated (i : Instr) (s : State) (ppage gpage : Nat) (pte gpte : Option Pte) : Prop :=
  translate s.hart (effPriv s.hart) (classOf i) (eaOf s i) = .done ppage gpage pte gpte

/-- The first-stage leaf entry, where there is one, grants the access (R174, R175, R177, R178). -/
def PageGrants (i : Instr) (s : State) (pte : Option Pte) : Prop :=
  ∀ p, pte = some p → pageOk s.cfg s.hart.csr (effPriv s.hart) (classOf i) p = true

/-- The G-stage leaf entry, where there is one, grants the access (R176, R177). -/
def GStageGrants (i : Instr) (s : State) (gpte : Option Pte) : Prop :=
  ∀ p, gpte = some p → gStageOk s.cfg (classOf i) p = true

/-- The PMP and the PMAs jointly grant the access at every address of the block (R186 to R189). -/
def BlockGranted (i : Instr) (s : State) (pa : Nat) : Prop :=
  ∀ a ∈ block pa (accessSize s.cfg i), jointOk s.cfg s.hart (effPriv s.hart) (classOf i) a = true

/-- The PMA constraints hold for the block (R183). -/
def PmaMet (i : Instr) (s : State) (pa : Nat) : Prop :=
  pmaOk s.cfg pa (accessSize s.cfg i) = true

/-- Everything an instruction asks of translation and protection is granted, and `pa` is its physical address (R124 steps 5 to 8,
R141 steps 4 to 7, R154 steps 4 and 5). -/
def Granted (i : Instr) (s : State) (pa : Nat) : Prop :=
  ∃ ppage gpage pte gpte, Translated i s ppage gpage pte gpte ∧ PageGrants i s pte ∧ GStageGrants i s gpte ∧
    pa = inPage ppage (eaOf s i) ∧ BlockGranted i s pa ∧ PmaMet i s pa

/-- The instruction takes no fault for the location being uncacheable (`UNCACHED_CBO`, log entry 26). -/
def CacheableOrLetThrough (s : State) (pa : Nat) : Prop :=
  s.cfg.uncachedCbo = .noEffect ∨ cacheableAt s.cfg pa = true

/-! ### The latest store (R60, R69) -/

/-- Only observers coherent with `o` stored to the block of the address, and no invalidate operation was performed on it. -/
def Undisturbed (s : State) (o a : Nat) : Prop :=
  (∀ e ∈ s.history, ∀ x, blkBase x (cbsM s.cfg) = blkBase a (cbsM s.cfg) → e.writes x = true →
      coherentAt s.cfg a o e.obs = true) ∧
    ∀ e ∈ s.history, ∀ b, e.op = .invalidate b → blkBase b (cbsM s.cfg) ≠ blkBase a (cbsM s.cfg)

/-- The value of the latest store performed to an address, the initial data if there is none. -/
def latestStore (s : State) (a : Nat) : Byte :=
  (((valuesOf a s.history).getLast?).getD (initialValue s.initMem a)).1

/-- A block is dirty only where an observer of the set stored to it (R33, R66). -/
def DirtyStored (s : State) : Prop :=
  ∀ k b, (k, b) ∈ s.sys.dirty →
    ∃ e ∈ s.history, ∃ x, blkBase x (cbsM s.cfg) = b ∧ e.writes x = true ∧ cohSetOf s.cfg b e.obs = k

/-- An undisturbed location is seen with its latest store's value, and memory holds that value while the block is not dirty
(R60 condition 3, R66, R68). -/
structure LatestSeen (s : State) : Prop where
  coherent : CachesCoherent s
  stored   : DirtyStored s
  seen     : ∀ o a, Undisturbed s o a → viewOf s.cfg s.sys o a = latestStore s a ∧
    (isDirty s.sys (cohAt s.cfg a o) (blkBase a (cbsM s.cfg)) = false → Memory.read s.sys.mem a = latestStore s a)

end Sys2Proof.Machine
end

