-- ==== Sys2Proof/Certificates/Slice0/Obligations.lean ====
section
/-!
DEFINITION. The statements put to the provers, each with the rule of `spec/` it formalises. A statement that rests on a choice of
the model or of the spec says so in its docstring.
-/

open Sys2Proof Sys2Proof.Machine

/-! ### Encoding -/

/-- No bit of an instruction is lost by its encoding (R101 to R104, R110). -/
def Obligations.DecodeInvertsEncode : Prop :=
  ∀ i : Instr, i.wf = true → decode (encode i) = .cmo i

/-- A word that decodes to an instruction is the word of that instruction, and the instruction is well formed, so no two words are
one instruction (R103, R110). -/
def Obligations.EncodeInvertsDecode : Prop :=
  ∀ (w : InstrWord) (i : Instr), decode w = .cmo i → i.wf = true ∧ encode i = w

/-- Words written out from the tables of R101 to R103 and of `spec/95_test_vectors.md` section 2.1 decode as listed there. -/
def Obligations.SampleWordsDecode : Prop :=
  decode 0x0005200F#32 = .cmo (.cboInval 10) ∧ decode 0x000FA00F#32 = .cmo (.cboInval 31) ∧
  decode 0x0015200F#32 = .cmo (.cboClean 10) ∧ decode 0x0025200F#32 = .cmo (.cboFlush 10) ∧
  decode 0x0045200F#32 = .cmo (.cboZero 10) ∧ decode 0x00056013#32 = .cmo (.prefetchI 10 0) ∧
  decode 0x04156013#32 = .cmo (.prefetchR 10 64) ∧ decode 0xFE35E013#32 = .cmo (.prefetchW 11 (-32)) ∧
  decode 0x80006013#32 = .cmo (.prefetchI 0 (-2048)) ∧ decode 0x7E1FE013#32 = .cmo (.prefetchR 31 2016) ∧
  decode 0x0035200F#32 = .reservedCbo ∧ decode 0x0005208F#32 = .reservedCbo ∧ decode 0x00256013#32 = .oriHint ∧
  decode 0x0000100F#32 = .notCmo ∧ decode 0x00156093#32 = .notCmo

/-- The word is fetched from four bytes, least significant byte at the lowest address (R80, R100). -/
def Obligations.WordsAreLittleEndian : Prop :=
  (∀ b0 b1 b2 b3 : Byte, ∀ rest,
    decodeBytes (b0 :: b1 :: b2 :: b3 :: rest) = decode (wordOfBytes b0 b1 b2 b3) ∧
      (wordOfBytes b0 b1 b2 b3).toNat = b0.toNat + 2 ^ 8 * b1.toNat + 2 ^ 16 * b2.toNat + 2 ^ 24 * b3.toNat) ∧
  ∀ w rest, decodeBytes (bytesOfWord w ++ rest) = decode w

/-- On a hart without the extension, a management or zero word is reserved and a prefetch word is the no-op `ORI`. The first
half is the spec's decision D36. -/
def Obligations.AbsentExtensionIsReservedOrNoOp : Prop :=
  ∀ (s : State) (i : Instr), i.wf = true →
    (gateOf i = some .zero → s.cfg.hasZicboz = false → runWord (encode i) s = .next (raiseIllegal (encode i) s)) ∧
    (classOf i = .cbm → s.cfg.hasZicbom = false → runWord (encode i) s = .next (raiseIllegal (encode i) s)) ∧
    (gateOf i = none → s.cfg.hasZicbop = false → runWord (encode i) s =
      .next { s with hart := { s.hart with pc := nextPc s.cfg s.hart.pc }, tick := s.tick + 1 })

/-- The words beside the seven instructions: a word of the CBO space that is none of the four rows raises an illegal instruction
exception (R105, decision D31), and an `ORI` with destination `x0` that is no prefetch is a no-op that only advances `pc` (R106). -/
def Obligations.ReservedAndHintWords : Prop :=
  ∀ (w : InstrWord) (s : State),
    (w.extractLsb' 0 7 = 0b0001111#7 → w.extractLsb' 12 3 = 0b010#3 →
      (w.extractLsb' 7 5 ≠ 0#5 ∨
        (w.extractLsb' 20 12 ≠ 0#12 ∧ w.extractLsb' 20 12 ≠ 1#12 ∧ w.extractLsb' 20 12 ≠ 2#12 ∧ w.extractLsb' 20 12 ≠ 4#12)) →
      runWord w s = .next (raiseIllegal w s)) ∧
    (w.extractLsb' 0 7 = 0b0010011#7 → w.extractLsb' 12 3 = 0b110#3 → w.extractLsb' 7 5 = 0#5 →
      w.extractLsb' 20 5 ≠ 0#5 → w.extractLsb' 20 5 ≠ 1#5 → w.extractLsb' 20 5 ≠ 3#5 →
      runWord w s = .next { s with hart := { s.hart with pc := nextPc s.cfg s.hart.pc }, tick := s.tick + 1 })

/-! ### Operands and blocks -/

/-- The effective addresses, as numbers: `x[rs1]`, and `x[rs1] + offset` modulo `2^XLEN` (R104). -/
def Obligations.EffectiveAddressArithmetic : Prop :=
  ∀ (s : State) (rs1 : Reg) (offset : Int),
    (eaCbo s rs1).toNat = (if rs1 = 0 then 0 else s.hart.x[rs1].toNat % (if s.cfg.xlen = .rv32 then 2 ^ 32 else 2 ^ 64)) ∧
    ((eaPrefetch s rs1 offset).toNat : Int) =
      ((eaCbo s rs1).toNat + offset) % (if s.cfg.xlen = .rv32 then 2 ^ 32 else 2 ^ 64)

/-- `x0` reads as zero and a write of it is discarded; a write of another register is read back, truncated to `XLEN` (R20). -/
def Obligations.RegisterZeroIsHardwired : Prop :=
  ∀ (cfg : Config) (h : Hart) (v : Word) (deps : List Nat),
    readX cfg h 0 = 0 ∧ writeX cfg 0 v deps h = h ∧
      ∀ r r' : Reg, r ≠ 0 → readX cfg (writeX cfg r v deps h) r' = if r' = r then xtrunc cfg.xlen v else readX cfg h r'

/-- A block is an aligned range of its size, and every address inside it identifies the same block (R56). -/
def Obligations.BlocksAreNapotRanges : Prop :=
  ∀ n a : Nat, blkBase a (2 ^ n) % 2 ^ n = 0 ∧ a ∈ block a (2 ^ n) ∧
    (∀ x, x ∈ block a (2 ^ n) ↔ blkBase a (2 ^ n) ≤ x ∧ x ≤ blkBase a (2 ^ n) + 2 ^ n - 1) ∧
    ∀ x ∈ block a (2 ^ n), blkBase x (2 ^ n) = blkBase a (2 ^ n) ∧ block x (2 ^ n) = block a (2 ^ n)

/-! ### The enable test -/

/-- The default instance of `CMO_ENABLE` (R169, decision D4), mode by mode: when a management or zero instruction is illegal, and
when a flush stands in the place of an invalidate: where a register that counts holds `CBIE = 01` and none disables the
instruction. A register is `on` for `CBO.INVAL` where its `CBIE`, bits 5 to 4, is not `00`, for `CBO.CLEAN` and `CBO.FLUSH` where
`CBCFE`, bit 6, is set, and for `CBO.ZERO` where `CBZE`, bit 7, is. -/
def Obligations.DefaultEnableByMode : Prop :=
  ∀ (cfg : Config) (h : Hart) (g : Gated), cfg.enableRows = [] →
    let on := fun env : Word => match g with
      | .inval => env.extractLsb' 4 2 ≠ 0b00#2
      | .clean => env.getLsbD 6 = true
      | .flush => env.getLsbD 6 = true
      | .zero => env.getLsbD 7 = true
    let flushes := fun env : Word => env.extractLsb' 4 2 = 0b01#2
    let hasS := Mode.S ∈ cfg.modes
    let hasH := Mode.VS ∈ cfg.modes ∨ Mode.VU ∈ cfg.modes
    (h.mode = .M → cmoEnable cfg h g = .perform) ∧
    (h.mode = .S → (cmoEnable cfg h g = .illegalInstruction ↔ ¬ on h.csr.menvcfg)) ∧
    (h.mode = .U → (cmoEnable cfg h g = .illegalInstruction ↔ ¬ on h.csr.menvcfg ∨ (hasS ∧ ¬ on h.csr.senvcfg))) ∧
    (h.mode = .VS → (cmoEnable cfg h g = .illegalInstruction ↔ ¬ on h.csr.menvcfg ∨ (hasH ∧ ¬ on h.csr.henvcfg))) ∧
    (h.mode = .VU → (cmoEnable cfg h g = .illegalInstruction ↔
      ¬ on h.csr.menvcfg ∨ (hasH ∧ ¬ on h.csr.henvcfg) ∨ (hasS ∧ ¬ on h.csr.senvcfg))) ∧
    (cmoEnable cfg h g = .performFlushInstead ↔ g = .inval ∧ cmoEnable cfg h g ≠ .illegalInstruction ∧
      ((h.mode ≠ .M ∧ flushes h.csr.menvcfg) ∨ ((h.mode = .U ∨ h.mode = .VU) ∧ hasS ∧ flushes h.csr.senvcfg) ∨
        ((h.mode = .VS ∨ h.mode = .VU) ∧ hasH ∧ flushes h.csr.henvcfg)))

/-- An instruction that the control registers do not enable raises an illegal instruction exception, before translation and whatever
else holds (R168, R199 item 2). -/
def Obligations.DisabledInstructionsAreIllegal : Prop :=
  ∀ (i : Instr) (g : Gated) (s : State), gateOf i = some g → cmoEnable s.cfg s.hart g = .illegalInstruction →
    exec i s = .next (raiseIllegal (encode i) s)

/-- A prefetch takes no illegal instruction exception in any mode and whatever the control registers hold, and no CMO instruction a
virtual instruction exception (R170). -/
def Obligations.PrefetchNeverIllegalNoneVirtual : Prop :=
  ∀ (i : Instr) (s t : State), exec i s = .next t →
    ∃ new, t.traps = s.traps ++ new ∧ (∀ r ∈ new, r.cause ≠ .virtualInstruction) ∧
      (gateOf i = none → ∀ r ∈ new, r.cause ≠ .illegalInstruction)

/-- No CMO instruction generates an address misaligned exception, whatever its effective address (R190). -/
def Obligations.NoMisalignedException : Prop :=
  ∀ (i : Instr) (s t : State), exec i s = .next t →
    ∃ new, t.traps = s.traps ++ new ∧ ∀ r ∈ new, r.cause ≠ .storeMisaligned

/-! ### Translation and protection -/

/-- A management instruction takes a store page fault exactly when the leaf entry grants none of the three permissions in a legal
encoding or fails the user-access test (R174). -/
def Obligations.ManagementPagePermission : Prop :=
  ∀ (i : Instr) (s : State) (ppage gpage : Nat) (p : Pte) (gpte : Option Pte), classOf i = .cbm → Enabled i s → Untriggered i s →
    Translated i s ppage gpage (some p) gpte →
    let ok := legalXwr p = true ∧ (p.r = true ∨ p.w = true ∨ p.x = true) ∧ userOk s.hart.csr (effPriv s.hart) p = true
    (¬ ok → exec i s = .next (raiseFault .storePageFault none (eaOf s i) (cbsM s.cfg) s)) ∧
    (ok → ∀ t, exec i s = .next t → ∀ r, t.traps = s.traps ++ [r] → r.cause ≠ .storePageFault)

/-- `CBO.ZERO` takes a store page fault exactly when the leaf entry does not grant write permission in a legal encoding or fails
the user-access test (R175). -/
def Obligations.ZeroPagePermission : Prop :=
  ∀ (rs1 : Reg) (s : State) (ppage gpage : Nat) (p : Pte) (gpte : Option Pte), Enabled (.cboZero rs1) s →
    Untriggered (.cboZero rs1) s → Translated (.cboZero rs1) s ppage gpage (some p) gpte →
    let ok := legalXwr p = true ∧ p.w = true ∧ userOk s.hart.csr (effPriv s.hart) p = true
    (¬ ok → exec (.cboZero rs1) s = .next (raiseFault .storePageFault none (eaCbo s rs1) (cbsZ s.cfg) s)) ∧
    (ok → ∀ t, exec (.cboZero rs1) s = .next t → ∀ r, t.traps = s.traps ++ [r] → r.cause ≠ .storePageFault)

/-- The effective privilege mode by cases of `MPRV`, `MPP` and `MPV` (R171, decision D30), the legal leaf encodings and the
user-access test (R181): `SUM` opens a user page to a supervisor access of its own world, and nothing else does. -/
def Obligations.LegalEncodingsAndUserAccess : Prop :=
  (∀ h : Hart,
    let lvl := h.csr.mstatus.extractLsb' 11 2
    (h.mode ≠ .M ∨ getBit h.csr.mstatus 17 = false → effPriv h = h.mode) ∧
    (h.mode = .M → getBit h.csr.mstatus 17 = true →
      (lvl = 3 → effPriv h = .M) ∧
      (lvl ≠ 3 → getBit h.csr.mstatus 39 = true → effPriv h = if lvl = 1 then .VS else .VU) ∧
      (lvl ≠ 3 → getBit h.csr.mstatus 39 = false → effPriv h = if lvl = 1 then .S else .U))) ∧
  ∀ (c : Csrs) (p : Pte),
    (legalXwr p = true ↔ (p.x, p.w, p.r) ∈ [(false, false, true), (false, true, true), (true, false, false), (true, false, true),
      (true, true, true)]) ∧
    (userOk c .U p = p.u) ∧ (userOk c .VU p = p.u) ∧
    (userOk c .S p = true ↔ p.u = false ∨ getBit c.mstatus 18 = true) ∧
    (userOk c .VS p = true ↔ p.u = false ∨ getBit c.vsstatus 18 = true)

/-- A management or zero instruction takes a store guest-page fault when the G-stage entry does not permit the access as a user
access (R176, and its derivation there), once the first stage has permitted it (R199 item 4). -/
def Obligations.GStageFaults : Prop :=
  ∀ (i : Instr) (s : State) (ppage gpage : Nat) (pte : Option Pte) (g : Pte), gateOf i ≠ none → Enabled i s → Untriggered i s →
    Translated i s ppage gpage pte (some g) → PageGrants i s pte →
    ¬ (legalXwr g = true ∧ g.u = true ∧ (classOf i = .cbm ∨ g.w = true)) →
    exec i s = .next (raiseFault .storeGuestPageFault (some gpage) (eaOf s i) (accessSize s.cfg i) s)

/-- A fault of the translation process itself is raised as the store variant of its kind by a management or zero instruction
(R172, R182). -/
def Obligations.WalkFaultsAreStoreFaults : Prop :=
  ∀ (i : Instr) (s : State) (k : WalkFault) (gpage : Nat), gateOf i ≠ none → Enabled i s → Untriggered i s →
    translate s.hart (effPriv s.hart) (classOf i) (eaOf s i) = .fault k gpage →
    exec i s = .next (match k with
      | .access => raiseFault .storeAccessFault none (eaOf s i) (accessSize s.cfg i) s
      | .page => raiseFault .storePageFault none (eaOf s i) (accessSize s.cfg i) s
      | .guestPage => raiseFault .storeGuestPageFault (some gpage) (eaOf s i) (accessSize s.cfg i) s)

/-- A management instruction takes a store access fault when some address of its block has no joint permission at all, and none when
every address has one, be it not the same one (R186, by the reading of decision D15). Where the platform faults on cache block
operations of locations that are not cacheable, a management or zero instruction takes a store access fault there (the model's
choice, log entry 26). -/
def Obligations.ManagementAccessPermission : Prop :=
  ∀ (i : Instr) (s : State) (ppage gpage : Nat) (pte gpte : Option Pte), gateOf i ≠ none → Enabled i s →
    Untriggered i s → Translated i s ppage gpage pte gpte → PageGrants i s pte → GStageGrants i s gpte →
    let j := joint s.cfg s.hart (effPriv s.hart)
    let pa := inPage ppage (eaOf s i)
    (classOf i = .cbm →
      (∀ a ∈ block pa (cbsM s.cfg), (j a).r = false → (j a).w = false → (j a).x = false →
        exec i s = .next (raiseFault .storeAccessFault none (eaOf s i) (cbsM s.cfg) s)) ∧
      ((∀ a ∈ block pa (cbsM s.cfg), (j a).r = true ∨ (j a).w = true ∨ (j a).x = true) → CacheableOrLetThrough s pa →
        ∀ t, exec i s = .next t → t.traps = s.traps)) ∧
    (BlockGranted i s pa → PmaMet i s pa → s.cfg.uncachedCbo = .accessFault → (pmaAt s.cfg pa).cacheable = false →
      exec i s = .next (raiseFault .storeAccessFault none (eaOf s i) (accessSize s.cfg i) s))

/-- `CBO.ZERO` requires joint write permission at each address of its block; otherwise it takes a store access fault, and with it on
every address none (R187), unless the platform faults on uncacheable locations (log entry 26). -/
def Obligations.ZeroAccessPermission : Prop :=
  ∀ (rs1 : Reg) (s : State) (ppage gpage : Nat) (pte gpte : Option Pte), Enabled (.cboZero rs1) s → Untriggered (.cboZero rs1) s →
    Translated (.cboZero rs1) s ppage gpage pte gpte → PageGrants (.cboZero rs1) s pte → GStageGrants (.cboZero rs1) s gpte →
    let pa := inPage ppage (eaCbo s rs1)
    let ok := ∀ a ∈ block pa (cbsZ s.cfg), (joint s.cfg s.hart (effPriv s.hart) a).w = true
    (¬ ok → exec (.cboZero rs1) s = .next (raiseFault .storeAccessFault none (eaCbo s rs1) (cbsZ s.cfg) s)) ∧
    (ok → CacheableOrLetThrough s pa → ∀ t, exec (.cboZero rs1) s = .next t → t.traps = s.traps)

/-- A block whose PMAs differ, or that is writable and not readable, is refused by name to every instruction that comes to that
check; the behaviour is UNSPECIFIED (R183, decision D17). A management or zero instruction comes to it where the block is granted, a
prefetch whether it is or not (R124, R141, R154). -/
def Obligations.PmaConstraintsOrRefusal : Prop :=
  ∀ (i : Instr) (s : State) (ppage gpage : Nat) (pte gpte : Option Pte), Enabled i s → Untriggered i s →
    Translated i s ppage gpage pte gpte → PageGrants i s pte → GStageGrants i s gpte →
    let blk := block (inPage ppage (eaOf s i)) (accessSize s.cfg i)
    (gateOf i ≠ none → BlockGranted i s (inPage ppage (eaOf s i))) →
    ((∃ a ∈ blk, ∃ a' ∈ blk, pmaAt s.cfg a ≠ pmaAt s.cfg a') ∨
      ∃ a ∈ blk, (pmaAt s.cfg a).perm.w = true ∧ (pmaAt s.cfg a).perm.r = false) →
    exec i s = .refused .pmaConstraintsNotMet

/-- A prefetch whose translation faults, or to which a page or an address of the block grants no permission, retires with no
exception and no memory access (R177, R178, R188, R189). -/
def Obligations.PrefetchWithoutPermissionRetires : Prop :=
  ∀ (i : Instr) (s : State), gateOf i = none → Untriggered i s →
    (∀ k gpage, translate s.hart (effPriv s.hart) (classOf i) (eaOf s i) = .fault k gpage → exec i s = .next (retire s)) ∧
    (∀ ppage gpage pte gpte, Translated i s ppage gpage pte gpte →
      (¬ PageGrants i s pte ∨ ¬ GStageGrants i s gpte ∨
        (PmaMet i s (inPage ppage (eaOf s i)) ∧ ¬ BlockGranted i s (inPage ppage (eaOf s i)))) → exec i s = .next (retire s))

/-- What a prefetch asks of a leaf entry of the first stage and of the G-stage, and jointly of the PMP and the PMAs at an address: any of
the three permissions, and the one its kind names where the implementation requires it (R177, R178, R188, R189). A joint permission is
what both the PMP and the PMAs grant (R184); of a location that the hart cannot access the PMAs grant nothing (R51; the model's
inference, log entry 36). -/
def Obligations.PrefetchPagePermission : Prop :=
  (∀ (cfg : Config) (c : Csrs) (m : Mode) (k : PrefetchKind),
    let asked := fun r w x : Bool => (r = true ∨ w = true ∨ x = true) ∧ (k = .R → cfg.prefetchStrictR = true → r = true) ∧
      (k = .W → cfg.prefetchStrictW = true → w = true) ∧ (k = .I → cfg.prefetchStrictI = true → x = true)
    (∀ p : Pte, (pageOk cfg c m (.pf k) p = true ↔ legalXwr p = true ∧ userOk c m p = true ∧ asked p.r p.w p.x) ∧
      (gStageOk cfg (.pf k) p = true ↔ legalXwr p = true ∧ p.u = true ∧ asked p.r p.w p.x)) ∧
    ∀ (h : Hart) (a : Nat), jointOk cfg h m (.pf k) a = true ↔
      asked (joint cfg h m a).r (joint cfg h m a).w (joint cfg h m a).x) ∧
  ∀ (cfg : Config) (h : Hart) (m : Mode) (a : Nat),
    joint cfg h m a = if observes cfg h.id a = true then
      { r := (pmpAt h.pmp m a).r && (pmaAt cfg a).perm.r, w := (pmpAt h.pmp m a).w && (pmaAt cfg a).perm.w,
        x := (pmpAt h.pmp m a).x && (pmaAt cfg a).perm.x }
    else { r := false, w := false, x := false }

/-- `MXR`, in `mstatus` and in `vsstatus`, does not affect the execution of CMO instructions: the same state with other `MXR` bits
does the same, and bit 19 of those two registers stays as it was (R179). -/
def Obligations.MxrHasNoEffect : Prop :=
  ∀ (i : Instr) (s : State) (b b' : Bool),
    let s' : State := { s with hart := { s.hart with csr :=
      { s.hart.csr with mstatus := setBit s.hart.csr.mstatus 19 b, vsstatus := setBit s.hart.csr.vsstatus 19 b' } } }
    (∀ t, exec i s = .next t → exec i s' = .next { t with hart := { t.hart with csr :=
      { t.hart.csr with mstatus := setBit t.hart.csr.mstatus 19 b, vsstatus := setBit t.hart.csr.vsstatus 19 b' } } }) ∧
    (∀ r, exec i s = .refused r → exec i s' = .refused r)

/-- With triggers UNSPECIFIED, an enabled address trigger whose address lies in the block makes the model refuse by name; with none
enabled no instruction is stopped (R191, decision D18). Which triggers are enabled, and which lie in the block, is the model's choice
(log entry 13). -/
def Obligations.EnabledTriggerIsRefused : Prop :=
  ∀ (i : Instr) (s : State), Enabled i s →
    (s.cfg.triggers = .unspecified → ∀ t ∈ s.hart.csr.triggers, t.enabled s.cfg = true → t.dataMatch s.cfg = false →
      t.inBlock (eaOf s i) (accessSize s.cfg i) = true → exec i s = .refused .triggerUnspecified) ∧
    (NoTrigger s → Untriggered i s)

/-- Where the implementation follows the recommendations, a type 6 address trigger with `store = 1` and `size = 0` in the block of
`CBO.ZERO` matches; one that lacks any of these does not, nor does a trigger of type 2 beside it (R192, R194). That a match gives a
breakpoint exception, and not entry to debug mode, is the model's choice (log entry 13). -/
def Obligations.RecommendedTriggersOnZero : Prop :=
  ∀ (rs1 : Reg) (s : State) (p : TriggerParams), s.cfg.triggers = .recommended p → Enabled (.cboZero rs1) s →
    (∀ t ∈ s.hart.csr.triggers, t.type s.cfg = 6 → t.dataMatch s.cfg = false → t.store = true → t.size = 0 →
      t.inBlock (eaCbo s rs1) (cbsZ s.cfg) = true →
      exec (.cboZero rs1) s = .next (raiseFault .breakpoint none (eaCbo s rs1) (cbsZ s.cfg) s)) ∧
    ((∀ t ∈ s.hart.csr.triggers, t.type s.cfg = 6 → t.dataMatch s.cfg = false ∧
        (t.store = false ∨ t.size ≠ 0 ∨ t.inBlock (eaCbo s rs1) (cbsZ s.cfg) = false)) →
      Untriggered (.cboZero rs1) s)

/-! ### Taking a trap and returning from one -/

/-- A trap is precise: an instruction that raises issues no operation, stores nothing, records no event, touches no reservation and
changes no general register, and the record holds its own address (R196, R200). -/
def Obligations.TrapsArePrecise : Prop :=
  ∀ (i : Instr) (s t : State), exec i s = .next t → t.traps ≠ s.traps →
    (∃ r, t.traps = s.traps ++ [r] ∧ r.epc = s.hart.pc) ∧ t.sys = s.sys ∧ t.history = s.history ∧ t.pending = s.pending ∧
      t.deferred = s.deferred ∧ t.others = s.others ∧
      t.hart.x = s.hart.x ∧ t.hart.resv = s.hart.resv ∧ t.initMem = s.initMem ∧ t.cfg = s.cfg

/-- What a trap record holds: the cause numbers (R197), the instruction word or zero for an illegal instruction, and for a fault of
the access an address of the block of the effective address (R198, decision D10), with the guest physical address of that address for
a guest-page fault (log entry 14). -/
def Obligations.TrapRecordContents : Prop :=
  (Cause.code .illegalInstruction = 2 ∧ Cause.code .breakpoint = 3 ∧ Cause.code .storeMisaligned = 6 ∧
    Cause.code .storeAccessFault = 7 ∧ Cause.code .storePageFault = 15 ∧ Cause.code .virtualInstruction = 22 ∧
    Cause.code .storeGuestPageFault = 23) ∧
  (∀ (s : State) (w : InstrWord), (illegalRecord s w).tval = 0 ∨ (illegalRecord s w).tval = w.setWidth 64) ∧
  ∀ (c : Cause) (g : Option Nat) (i : Instr) (s : State),
    let r := faultRecord s c g (eaOf s i) (accessSize s.cfg i)
    r.tval.toNat ∈ block (eaOf s i).toNat (accessSize s.cfg i) ∧
      (g = none → r.gpa = none) ∧
      (∀ p, g = some p → r.gpa = some (p * 4096 + r.tval.toNat % 4096) ∧
        p * 4096 + r.tval.toNat % 4096 ∈ block (inPage p (eaOf s i)) (accessSize s.cfg i))

/-- Where a trap goes (R201): to M-mode unless delegated; to VS-mode only from a virtual mode and never for a guest-page fault. The
spec gives trap entry for orientation only (decision D9; PRESUMED, log entry 19). -/
def Obligations.TrapDelegation : Prop :=
  ∀ (cfg : Config) (h : Hart) (c : Cause),
    (trapTarget cfg h c = .VS ↔ h.mode ≠ .M ∧ cfg.modes.contains .S = true ∧ getBit h.csr.medeleg c.code = true ∧
      (h.mode = .VS ∨ h.mode = .VU) ∧ cfg.modes.contains .VS = true ∧ getBit h.csr.hedeleg c.code = true ∧
      c ≠ .storeGuestPageFault) ∧
    (trapTarget cfg h c = .M ↔ ¬ (h.mode ≠ .M ∧ cfg.modes.contains .S = true ∧ getBit h.csr.medeleg c.code = true)) ∧
    (trapTarget cfg h c = .M ∨ trapTarget cfg h c = .S ∨ trapTarget cfg h c = .VS)

/-- Taking a trap to M-mode (R201; PRESUMED, log entries 10 and 19): what each register becomes, and that the other bits of `mstatus` and
the registers of the other modes are as before; without the hypervisor extension bits 38 and 39 are among those other bits. -/
def Obligations.TrapEntryToM : Prop :=
  ∀ (r : TrapRecord) (s : State), trapTarget s.cfg s.hart r.cause = .M →
    let h := (takeTrap r s).hart
    let c := s.hart.csr
    h.mode = .M ∧ h.pc = xtrunc s.cfg.xlen (c.mtvec &&& ~~~3#64) ∧ h.csr.mepc = r.epc ∧
      h.csr.mcause.toNat = r.cause.code ∧ h.csr.mtval = r.tval ∧ mpp h.csr.mstatus = level s.hart.mode ∧
      getBit h.csr.mstatus 7 = getBit c.mstatus 3 ∧ getBit h.csr.mstatus 3 = false ∧
      (hasHypervisor s.cfg = true → mpv h.csr.mstatus = virt s.hart.mode ∧ getBit h.csr.mstatus 38 = r.guestVirtual) ∧
      (hasHypervisor s.cfg = false → ∀ n, n = 38 ∨ n = 39 → getBit h.csr.mstatus n = getBit c.mstatus n) ∧
      (∀ n, n ∉ [3, 7, 11, 12, 38, 39] → getBit h.csr.mstatus n = getBit c.mstatus n) ∧
      h.csr.vsstatus = c.vsstatus ∧ h.csr.hstatus = c.hstatus ∧ h.csr.menvcfg = c.menvcfg ∧ h.csr.senvcfg = c.senvcfg ∧
      h.csr.henvcfg = c.henvcfg ∧ h.csr.mtvec = c.mtvec ∧ h.csr.medeleg = c.medeleg ∧ h.csr.hedeleg = c.hedeleg ∧
      h.csr.stvec = c.stvec ∧ h.csr.sepc = c.sepc ∧ h.csr.scause = c.scause ∧ h.csr.stval = c.stval ∧ h.csr.htval = c.htval ∧
      h.csr.htinst = c.htinst ∧ h.csr.vstvec = c.vstvec ∧ h.csr.vsepc = c.vsepc ∧ h.csr.vscause = c.vscause ∧
      h.csr.vstval = c.vstval ∧ h.csr.tselect = c.tselect ∧ h.csr.triggers = c.triggers ∧
      (r.gpa = none → h.csr.mtval2 = c.mtval2 ∧ h.csr.mtinst = c.mtinst) ∧
      (∀ g, r.gpa = some g → h.csr.mtval2 = xtrunc s.cfg.xlen (BitVec.ofNat 64 (g / 4)))

/-- Taking a trap to S-mode or HS-mode: what each register becomes, and that the other bits of `mstatus` and `hstatus` and the
registers of the other modes are as before (R201; PRESUMED, log entries 10 and 19); without the hypervisor extension `hstatus` is not
written. -/
def Obligations.TrapEntryToS : Prop :=
  ∀ (r : TrapRecord) (s : State), trapTarget s.cfg s.hart r.cause = .S →
    let h := (takeTrap r s).hart
    let c := s.hart.csr
    h.mode = .S ∧ h.pc = xtrunc s.cfg.xlen (c.stvec &&& ~~~3#64) ∧ h.csr.sepc = r.epc ∧
      h.csr.scause.toNat = r.cause.code ∧ h.csr.stval = r.tval ∧
      (getBit h.csr.mstatus 8 = true ↔ s.hart.mode = .S ∨ s.hart.mode = .VS) ∧
      getBit h.csr.mstatus 5 = getBit c.mstatus 1 ∧ getBit h.csr.mstatus 1 = false ∧
      (∀ n, n ∉ [1, 5, 8] → getBit h.csr.mstatus n = getBit c.mstatus n) ∧
      (hasHypervisor s.cfg = true → getBit h.csr.hstatus 7 = virt s.hart.mode ∧ getBit h.csr.hstatus 6 = r.guestVirtual) ∧
      (hasHypervisor s.cfg = false → h.csr.hstatus = c.hstatus) ∧
      (∀ n, n ∉ [6, 7] → getBit h.csr.hstatus n = getBit c.hstatus n) ∧
      h.csr.vsstatus = c.vsstatus ∧ h.csr.menvcfg = c.menvcfg ∧ h.csr.senvcfg = c.senvcfg ∧ h.csr.henvcfg = c.henvcfg ∧
      h.csr.mtvec = c.mtvec ∧ h.csr.mepc = c.mepc ∧ h.csr.mcause = c.mcause ∧ h.csr.mtval = c.mtval ∧
      h.csr.mtval2 = c.mtval2 ∧ h.csr.mtinst = c.mtinst ∧ h.csr.medeleg = c.medeleg ∧ h.csr.hedeleg = c.hedeleg ∧
      h.csr.stvec = c.stvec ∧ h.csr.vstvec = c.vstvec ∧ h.csr.vsepc = c.vsepc ∧ h.csr.vscause = c.vscause ∧
      h.csr.vstval = c.vstval ∧ h.csr.tselect = c.tselect ∧ h.csr.triggers = c.triggers ∧
      (r.gpa = none → h.csr.htval = c.htval ∧ h.csr.htinst = c.htinst) ∧
      (∀ g, r.gpa = some g → h.csr.htval = xtrunc s.cfg.xlen (BitVec.ofNat 64 (g / 4)))

/-- Taking a trap to VS-mode: what each of the `vs` registers becomes, and that no other register is written (R201; PRESUMED, log
entries 10 and 19). -/
def Obligations.TrapEntryToVS : Prop :=
  ∀ (r : TrapRecord) (s : State), trapTarget s.cfg s.hart r.cause = .VS →
    let h := (takeTrap r s).hart
    let c := s.hart.csr
    h.mode = .VS ∧ h.pc = xtrunc s.cfg.xlen (c.vstvec &&& ~~~3#64) ∧
      h.csr = { c with vsepc := r.epc, vscause := h.csr.vscause, vstval := r.tval, vsstatus := h.csr.vsstatus } ∧
      h.csr.vscause.toNat = r.cause.code ∧
      (getBit h.csr.vsstatus 8 = true ↔ s.hart.mode = .VS) ∧
      getBit h.csr.vsstatus 5 = getBit c.vsstatus 1 ∧ getBit h.csr.vsstatus 1 = false ∧
      (∀ n, n ∉ [1, 5, 8] → getBit h.csr.vsstatus n = getBit c.vsstatus n)

/-- A return undoes the entry, whatever the status registers held before it: the mode, the interrupt enable and the address of the
instruction that trapped come back (R202; PRESUMED, log entry 19). -/
def Obligations.ReturnRestoresWhatEntrySaved : Prop :=
  ∀ (r : TrapRecord) (s : State), r.epc = s.hart.pc → FitsXlen s.cfg s.hart.pc → pcAligned s.cfg s.hart.pc = true →
    (virt s.hart.mode = true → hasHypervisor s.cfg = true) →
    (trapTarget s.cfg s.hart r.cause = .M →
      let h := returnM s.cfg (takeTrap r s).hart
      h.mode = s.hart.mode ∧ h.pc = s.hart.pc ∧ getBit h.csr.mstatus 3 = getBit s.hart.csr.mstatus 3) ∧
    (trapTarget s.cfg s.hart r.cause = .S →
      let h := returnS s.cfg (takeTrap r s).hart
      h.mode = s.hart.mode ∧ h.pc = s.hart.pc ∧ getBit h.csr.mstatus 1 = getBit s.hart.csr.mstatus 1) ∧
    (trapTarget s.cfg s.hart r.cause = .VS →
      let h := returnVS s.cfg (takeTrap r s).hart
      h.mode = s.hart.mode ∧ h.pc = s.hart.pc ∧ getBit h.csr.vsstatus 1 = getBit s.hart.csr.vsstatus 1)

/-! ### What the instructions do when they execute -/

/-- `CBO.INVAL` executes as an invalidate (R120, R125): every coherent cache of the hart's set gives the block up without a write to memory,
the block is no longer dirty, memory and every other copy of every cache are as before, those of the caches common to several sets among
them (log entry 29), and the set then sees memory in the block. Where the memory system holds the operation back (log entry 22), it waits
and the memory system is as before. -/
def Obligations.InvalidateExecutes : Prop :=
  ∀ (rs1 : Reg) (s : State) (pa : Nat), cmoEnable s.cfg s.hart .inval = .perform → Untriggered (.cboInval rs1) s →
    Granted (.cboInval rs1) s pa → CacheableOrLetThrough s pa →
    let k := cohAt s.cfg pa s.hart.id
    let b := blkBase pa (cbsM s.cfg)
    let e : Event := { obs := s.hart.id, tick := s.tick, op := .invalidate b, tags := cmoTags s.hart rs1 }
    ∃ t, exec (.cboInval rs1) s = .next t ∧ t.traps = s.traps ∧ t.hart = { s.hart with pc := nextPc s.cfg s.hart.pc } ∧
      t.sys.mem = s.sys.mem ∧
      (atOnce s = true → t.history = s.history ++ [e] ∧ t.pending = s.pending ∧
        (cacheable s.cfg b = true → heldCopy s.cfg t.sys k b = none ∧ isDirty t.sys k b = false) ∧
        (∀ a, a ∈ block pa (cbsM s.cfg) → view s.cfg t.sys k a = Memory.read s.sys.mem a) ∧
        (∀ k' b', (k', b') ≠ (k, b) → heldCopy s.cfg t.sys k' b' = heldCopy s.cfg s.sys k' b' ∧
          isDirty t.sys k' b' = isDirty s.sys k' b') ∧
        CopiesBecome s.sys t.sys (fun c b' d d' =>
          d' = if cacheable s.cfg b = true ∧ b' = b ∧ reaches s.cfg b k c = true then none else d)) ∧
      (atOnce s = false → t.sys = s.sys ∧ t.history = s.history ∧ t.pending = s.pending ++ [e])

/-- `CBO.CLEAN` executes (R121, R126): if the block is dirty, memory receives what the set sees in it, and nothing if it is not; the copies
stay, but that those in the caches common to several sets become what memory holds (log entry 29); the block is no longer dirty; every other
byte of memory, every other copy of every cache, and every other block's store-since-write state, is as before. Where the memory system
holds the operation back (log entry 22), it waits and the memory system is as before. -/
def Obligations.CleanExecutes : Prop :=
  ∀ (rs1 : Reg) (s : State) (pa : Nat), Enabled (.cboClean rs1) s → Untriggered (.cboClean rs1) s →
    Granted (.cboClean rs1) s pa → CacheableOrLetThrough s pa →
    let k := cohAt s.cfg pa s.hart.id
    let b := blkBase pa (cbsM s.cfg)
    let e : Event := { obs := s.hart.id, tick := s.tick, op := .clean b, tags := cmoTags s.hart rs1 }
    ∃ t, exec (.cboClean rs1) s = .next t ∧ t.traps = s.traps ∧ t.hart = { s.hart with pc := nextPc s.cfg s.hart.pc } ∧
      (atOnce s = true → t.history = s.history ++ [e] ∧ t.pending = s.pending ∧
        (∀ k' b', heldCopy s.cfg t.sys k' b' = heldCopy s.cfg s.sys k' b') ∧
        (cacheable s.cfg b = true → isDirty t.sys k b = false) ∧
        (∀ k' b', (k', b') ≠ (k, b) → isDirty t.sys k' b' = isDirty s.sys k' b') ∧
        (∀ a, a ∈ block pa (cbsM s.cfg) → Memory.read t.sys.mem a =
          if cacheable s.cfg b = true ∧ isDirty s.sys k b = true then view s.cfg s.sys k a else Memory.read s.sys.mem a) ∧
        (∀ a, a ∉ block pa (cbsM s.cfg) → Memory.read t.sys.mem a = Memory.read s.sys.mem a) ∧
        CopiesBecome s.sys t.sys (fun c b' d d' =>
          d' = if cacheable s.cfg b = true ∧ isDirty s.sys k b = true ∧ b' = b ∧ common s.cfg b c = true then
            d.map (fun _ => memBlock s.cfg t.sys.mem b) else d)) ∧
      (atOnce s = false → t.sys = s.sys ∧ t.history = s.history ∧ t.pending = s.pending ++ [e])

/-- `CBO.FLUSH` executes as a clean followed by an invalidate of the same block (R122, R127), and so does `CBO.INVAL` where the control
registers select a flush (R125, R168): every coherent cache of the hart's set gives the block up, and where it was dirty the copies of it in
the caches common to several sets become what memory holds (log entry 29); every other copy of every cache, and every other block's
store-since-write state, is as before. Where the memory system holds the operation back (log entry 22), it waits and the memory system is as
before. -/
def Obligations.FlushExecutes : Prop :=
  ∀ (i : Instr) (rs1 : Reg) (s : State) (pa : Nat),
    (i = .cboFlush rs1 ∧ Enabled i s ∨ i = .cboInval rs1 ∧ cmoEnable s.cfg s.hart .inval = .performFlushInstead) →
    Untriggered i s → Granted i s pa → CacheableOrLetThrough s pa →
    let k := cohAt s.cfg pa s.hart.id
    let b := blkBase pa (cbsM s.cfg)
    let e : Event := { obs := s.hart.id, tick := s.tick, op := .flush b, tags := cmoTags s.hart rs1 }
    ∃ t, exec i s = .next t ∧ t.traps = s.traps ∧ t.hart = { s.hart with pc := nextPc s.cfg s.hart.pc } ∧
      (atOnce s = true → t.history = s.history ++ [e] ∧ t.pending = s.pending ∧
        (cacheable s.cfg b = true → heldCopy s.cfg t.sys k b = none ∧ isDirty t.sys k b = false) ∧
        (∀ k' b', (k', b') ≠ (k, b) → heldCopy s.cfg t.sys k' b' = heldCopy s.cfg s.sys k' b' ∧
          isDirty t.sys k' b' = isDirty s.sys k' b') ∧
        (∀ a, a ∈ block pa (cbsM s.cfg) → Memory.read t.sys.mem a =
          if cacheable s.cfg b = true ∧ isDirty s.sys k b = true then view s.cfg s.sys k a else Memory.read s.sys.mem a) ∧
        (∀ a, a ∉ block pa (cbsM s.cfg) → Memory.read t.sys.mem a = Memory.read s.sys.mem a) ∧
        CopiesBecome s.sys t.sys (fun c b' d d' =>
          d' = if cacheable s.cfg b = true ∧ b' = b ∧ reaches s.cfg b k c = true then none
            else if cacheable s.cfg b = true ∧ b' = b ∧ isDirty s.sys k b = true ∧ common s.cfg b c = true then
              d.map (fun _ => memBlock s.cfg t.sys.mem b)
            else d)) ∧
      (atOnce s = false → t.sys = s.sys ∧ t.history = s.history ∧ t.pending = s.pending ++ [e])

/-- `CBO.ZERO` executes (R140, R141): the hart sees zero in every byte of the block of size `CBS_Z`, below the effective address
too, and every other byte, of memory and as the hart sees it, is as before; one store operation for each byte. A zeroed byte is zero in
memory, or its cache block is dirty afterwards, as it is where the hart's caches held it, or had room for it and it contains the whole
zeroed range (R33); no other copy or store-since-write state changes. Cache by cache: a copy that a cache of the hart's set holds has
its zeroed bytes zero; where no cache of the set holds one, a cache that holds none may fetch one; a copy in a cache common to several
sets becomes what memory holds where the stores go to memory and stays where they do not (log entry 29); every other copy stays. The
operations take their places in the global memory order one
after the other in rising address order (the model's choice, log entry 24), or, where the memory system holds them back (log entry
22), wait to be performed one by one. -/
def Obligations.ZeroExecutes : Prop :=
  ∀ (rs1 : Reg) (s : State) (pa : Nat), LinesWhole s.cfg s.sys → Enabled (.cboZero rs1) s → Untriggered (.cboZero rs1) s →
    Granted (.cboZero rs1) s pa → CacheableOrLetThrough s pa →
    let es : List Event := (block pa (cbsZ s.cfg)).map
      (fun a => { obs := s.hart.id, tick := s.tick, op := .store a [0], tags := cmoTags s.hart rs1 })
    ∃ t, exec (.cboZero rs1) s = .next t ∧ t.traps = s.traps ∧ t.hart = { s.hart with pc := nextPc s.cfg s.hart.pc } ∧
      (atOnce s = true → t.history = s.history ++ es ∧ t.pending = s.pending ∧
        (∀ a, a ∈ block pa (cbsZ s.cfg) → viewOf s.cfg t.sys s.hart.id a = 0 ∧
          (Memory.read t.sys.mem a = 0 ∨ isDirty t.sys (cohAt s.cfg a s.hart.id) (blkBase a (cbsM s.cfg)) = true) ∧
          (canCache s.cfg s.sys (blkBase a (cbsM s.cfg)) s.hart.id = true →
            (heldCopy s.cfg s.sys (cohAt s.cfg a s.hart.id) (blkBase a (cbsM s.cfg))).isSome = true ∨ cbsZ s.cfg ≤ cbsM s.cfg →
            isDirty t.sys (cohAt s.cfg a s.hart.id) (blkBase a (cbsM s.cfg)) = true)) ∧
        (∀ a, a ∉ block pa (cbsZ s.cfg) → viewOf s.cfg t.sys s.hart.id a = viewOf s.cfg s.sys s.hart.id a ∧
          Memory.read t.sys.mem a = Memory.read s.sys.mem a) ∧
        (∀ k b, (∀ a ∈ block pa (cbsZ s.cfg), (k, b) ≠ (cohAt s.cfg a s.hart.id, blkBase a (cbsM s.cfg))) →
          heldCopy s.cfg t.sys k b = heldCopy s.cfg s.sys k b ∧ isDirty t.sys k b = isDirty s.sys k b) ∧
        CopiesBecome s.sys t.sys (fun c b d d' =>
          let k := cohSetOf s.cfg b s.hart.id
          let held := heldCopy s.cfg s.sys k b
          let zeroed := fun l : List Byte => (List.range (cbsM s.cfg)).map
            (fun i => if b + i ∈ block pa (cbsZ s.cfg) then (0 : Byte) else l.getD i 0)
          if ∃ a ∈ block pa (cbsZ s.cfg), blkBase a (cbsM s.cfg) = b then
            if common s.cfg b c = true then
              (d' = d ∨ d' = d.map (fun _ => memBlock s.cfg t.sys.mem b)) ∧
              (canCache s.cfg s.sys b s.hart.id = false → d' = d.map (fun _ => memBlock s.cfg t.sys.mem b)) ∧
              (canCache s.cfg s.sys b s.hart.id = true → held.isSome = true ∨ cbsZ s.cfg ≤ cbsM s.cfg → d' = d)
            else if cacheable s.cfg b = true ∧ reaches s.cfg b k c = true then
              (∀ l, d = some l → d' = some (zeroed l)) ∧
              (d = none → d' = none ∨ held = none ∧ d' = some (zeroed (blockView s.cfg s.sys k b)))
            else d' = d
          else d' = d)) ∧
      (atOnce s = false → t.sys = s.sys ∧ t.history = s.history ∧ t.pending = s.pending ++ es)

/-- A prefetch executes (R150, R154): whether or not the hardware acts on the hint, memory, what every set of coherent observers
sees at every address, and the store-since-write state are as before, no operation is issued, and only `pc` advances. -/
def Obligations.PrefetchExecutes : Prop :=
  ∀ (i : Instr) (s : State), CachesCoherent s → gateOf i = none → Untriggered i s →
    (∀ ppage gpage pte gpte, Translated i s ppage gpage pte gpte → PageGrants i s pte → GStageGrants i s gpte →
      PmaMet i s (inPage ppage (eaOf s i))) →
    ∃ t, exec i s = .next t ∧ t.sys.mem = s.sys.mem ∧ (∀ k a, view s.cfg t.sys k a = view s.cfg s.sys k a) ∧
      t.sys.dirty = s.sys.dirty ∧ t.history = s.history ∧ t.pending = s.pending ∧ t.traps = s.traps ∧
      t.hart = { s.hart with pc := nextPc s.cfg s.hart.pc }

/-- A prefetch adds no operation to the global memory order nor to those that wait to take their places in it, and after it memory as
every set of coherent observers sees it is what it was (R74). -/
def Obligations.PrefetchIsNotOrdered : Prop :=
  ∀ (i : Instr) (s t : State), CachesCoherent s → gateOf i = none → exec i s = .next t →
    t.history = s.history ∧ t.pending = s.pending ∧ ∀ k a, view t.cfg t.sys k a = view s.cfg s.sys k a

/-- The frame of every CMO instruction, trapping or not: no general register, no translation or protection state, no trigger, none
of the executing hart's own reservation, and nothing of the platform; and, where it does not trap, no control or status register and
no mode (R20, R24, R200). -/
def Obligations.InstructionFrame : Prop :=
  ∀ (i : Instr) (s t : State), exec i s = .next t →
    t.hart.x = s.hart.x ∧ t.hart.regDeps = s.hart.regDeps ∧ t.hart.ctrlDeps = s.hart.ctrlDeps ∧ t.hart.id = s.hart.id ∧
      t.hart.walk = s.hart.walk ∧ t.hart.pmp = s.hart.pmp ∧ t.hart.csr.tselect = s.hart.csr.tselect ∧
      t.hart.csr.triggers = s.hart.csr.triggers ∧ t.hart.resv = s.hart.resv ∧ t.cfg = s.cfg ∧ t.initMem = s.initMem ∧
      t.inputs = s.inputs ∧ t.deferred = s.deferred ∧
      (t.traps = s.traps → t.hart.csr = s.hart.csr ∧ t.hart.mode = s.hart.mode ∧ t.hart.pc = nextPc s.cfg s.hart.pc)

/-- The memory frame of the instructions: `CBO.INVAL` performed as an invalidate and the prefetches change no byte of memory;
`CBO.CLEAN`, `CBO.FLUSH`, a flush in the place of `CBO.INVAL` and `CBO.ZERO` change memory, and what the hart sees, only inside the
block of the physical address that the access check grants; where it grants none, nothing changes (R120 to R122, R140, R150). -/
def Obligations.MemoryFrame : Prop :=
  ∀ (i : Instr) (s t : State), exec i s = .next t →
    (gateOf i = none → t.sys.mem = s.sys.mem) ∧
    (gateOf i = some .inval → cmoEnable s.cfg s.hart .inval = .perform → t.sys.mem = s.sys.mem) ∧
    (∀ pa, accessCheck s.cfg s.hart (classOf i) (accessSize s.cfg i) (eaOf s i) = .granted pa → gateOf i ≠ none →
      ∀ a, a ∉ block pa (accessSize s.cfg i) → Memory.read t.sys.mem a = Memory.read s.sys.mem a ∧
        viewOf t.cfg t.sys s.hart.id a = viewOf s.cfg s.sys s.hart.id a) ∧
    (gateOf i ≠ none → (∀ pa, accessCheck s.cfg s.hart (classOf i) (accessSize s.cfg i) (eaOf s i) ≠ .granted pa) → t.sys = s.sys)

/-- A CMO instruction may cost other harts their reservations and changes nothing else of theirs; where it traps it touches none
(R85, R87, R200). -/
def Obligations.OtherHartsLoseOnlyReservations : Prop :=
  ∀ (i : Instr) (s t : State), exec i s = .next t →
    List.Forall₂ (fun h h' => h' = h ∨ h' = { h with resv := none }) s.others t.others ∧
      (t.traps ≠ s.traps → t.others = s.others)

/-! ### Memory ordering -/

/-- A load never appears in the global memory order before a preceding invalidate, clean or flush of an overlapping address
(R71). -/
def Obligations.LoadsStayAfterManagementOperations : Prop :=
  ∀ (cfg : Config) (init : Memory) (ex : List Event) (a b : Event), Legal cfg init ex → a.isCbm = true → b.isLoad = true →
    po a b = true → overlap cfg a b = true → ¬ [b, a].Sublist ex

/-- The rows of R94 for a management operation as the later one, `b`, and row 1 with one as the earlier, `a` (R70): in main memory, a
management operation stays behind every earlier operation of its observer that overlaps its whole block (row 1), behind a load or store
with an acquire annotation (rule 5), and, where `a` gave a register its value, behind it when the effective address depends on it (rule
9), when a branch before did (rule 11), and when the address of an operation between did (rule 13); a store, of `CBO.ZERO` too, the same.
The operations that an instruction issues carry the dependencies of `x[rs1]` and of the path to it, and no annotation. -/
def Obligations.ManagementOperationsAreOrderedAsStores : Prop :=
  (∀ (cfg : Config) (init : Memory) (ex : List Event) (a b : Event), Legal cfg init ex → po a b = true →
    inMainMemory cfg a = true → inMainMemory cfg b = true → b.isCbm = true ∨ b.isStore = true →
    let givesRegister := a.isLoad = true ∨ (a.isStore = true ∧ a.tags.amoOrSc = true)
    overlap cfg a b = true ∨
        ((a.isLoad = true ∨ a.isStore = true) ∧ a.tags.acquire = true) ∨
        (givesRegister ∧ a.tick ∈ b.tags.addrDep) ∨
        (givesRegister ∧ a.tick ∈ b.tags.ctrlDep) ∨
        (givesRegister ∧ ∃ m ∈ ex, po a m = true ∧ po m b = true ∧ a.tick ∈ m.tags.addrDep) →
      ¬ [b, a].Sublist ex) ∧
  ∀ (h : Hart) (rs1 : Reg), cmoTags h rs1 =
    { acquire := false, release := false, rcsc := false, amoOrSc := false, pair := none,
      addrDep := if rs1 = 0 then [] else h.regDeps[rs1], dataDep := [], ctrlDep := h.ctrlDeps }

/-- A `FENCE` orders a management operation by its class: W for a block of main memory, O for one of an I/O region, and never R or
I (R72, R93). -/
def Obligations.FencesClassifyManagementOperations : Prop :=
  (∀ (cfg : Config) (s : FenceSet) (e : Event), e.isCbm = true →
    inFenceSet cfg s e = if inMainMemory cfg e then s.w else s.o) ∧
  ∀ (cfg : Config) (init : Memory) (ex : List Event) (a b f : Event) (p q : FenceSet), Legal cfg init ex → f ∈ ex →
    f.op = .fence p q → po a f = true → po f b = true → inFenceSet cfg p a = true → inFenceSet cfg q b = true →
    ¬ [b, a].Sublist ex

/-- The values after an invalidate, in the three cases of R77 (decision D14 of the spec): no clean or flush of the byte before it; one with
no coherent store before it; one with a coherent store before it. That only the stores of observers coherent with the load's count, and
cleans and flushes by whichever observer, is the model's reading of R77 (DEDUCED, log entry 15). A flush that stands as the invalidate is
itself the latest clean: it leaves the latest store alone, or the initial data (decision D37). -/
def Obligations.ValuesAfterInvalidate : Prop :=
  ∀ (cfg : Config) (init : Memory) (o x : Nat) (i : Event) (b : Nat) (v : Written),
    (i.op = .invalidate b →
      (∀ before : List Event, (∀ e ∈ before, e.isCleanOf cfg x = false) →
        (v ∈ afterInv cfg init o x before i ↔ v = (Memory.read init x, none) ∨ v ∈ valuesOf x (coherentStores cfg o x before))) ∧
      (∀ (pre post : List Event) (c : Event), c.isCleanOf cfg x = true → (∀ e ∈ post, e.isCleanOf cfg x = false) →
        (valuesOf x (coherentStores cfg o x pre) = [] →
          (v ∈ afterInv cfg init o x (pre ++ c :: post) i ↔
            v = (Memory.read init x, none) ∨ v ∈ valuesOf x (coherentStores cfg o x post))) ∧
        (∀ u, (valuesOf x (coherentStores cfg o x pre)).getLast? = some u →
          (v ∈ afterInv cfg init o x (pre ++ c :: post) i ↔ v = u ∨ v ∈ valuesOf x (coherentStores cfg o x post))))) ∧
    (i.op = .flush b → b ≤ x → x < b + cbsM cfg → ∀ before : List Event,
      (valuesOf x (coherentStores cfg o x before) = [] → (v ∈ afterInv cfg init o x before i ↔ v = (Memory.read init x, none))) ∧
      (∀ u, (valuesOf x (coherentStores cfg o x before)).getLast? = some u → (v ∈ afterInv cfg init o x before i ↔ v = u)))

/-- What a load may return for a byte (R76, decision D14). An invalidate before it in the global memory order qualifies when no store to
the byte stands between the two, in that order or in program order. The load returns a value that some qualifying invalidate leaves
possible; where none qualifies, what the unmodified load value axiom gives (R92): the value of the latest, in the global memory order, of
the stores that precede the load in that order or in program order, or the initial value if there is none; or, always, the value of a
store by an observer that is not coherent with the load's (R78; where no invalidate qualifies, by decision D14 (e)). So a load with no
qualifying invalidate, of a byte that only coherent observers store to, has one value. That the stores which disqualify an invalidate,
and those of R92, are the ones by observers coherent with the load's is the model's reading of R76 and R92 (DEDUCED, log entry 15). In a
legal execution every byte that a load of a hart returned, with the store it came from, is one that it may return (R76, R92). -/
def Obligations.LoadValuesBesideInvalidates : Prop :=
  (∀ (cfg : Config) (init : Memory) (before after : List Event) (r : Event) (x : Nat) (v : Written),
    let stores := fun e : Event => e.writes x = true ∧ coherentAt cfg x r.obs e.obs = true
    let qualifies := fun (pre : List Event) (i : Event) (post : List Event) => before = pre ++ i :: post ∧
      i.isInvalOf cfg x = true ∧ (∀ e ∈ post, ¬ stores e) ∧ ∀ e ∈ before ++ after, stores e → po i e = true → po e r = false
    let takenFrom := fun (w : Written) (e : Event) => stores e ∧ e.storeValue? x = some w.1 ∧ w.2 = some (e.obs, e.tick)
    let latest := fun w : Written =>
      (∃ pre e post, after = pre ++ e :: post ∧ po e r = true ∧ takenFrom w e ∧ ∀ m ∈ post, po m r = true → ¬ stores m) ∨
      ((∀ e ∈ after, po e r = true → ¬ stores e) ∧
        ((∃ pre e post, before = pre ++ e :: post ∧ takenFrom w e ∧ ∀ m ∈ post, ¬ stores m) ∨
          ((∀ e ∈ before, ¬ stores e) ∧ w = (Memory.read init x, none))))
    (v ∈ allowed cfg init before after r x ↔
      (∃ pre i post, qualifies pre i post ∧ v ∈ afterInv cfg init r.obs x pre i) ∨
      ((¬ ∃ pre i post, qualifies pre i post) ∧ latest v) ∨
      ∃ e ∈ before ++ after, coherentAt cfg x r.obs e.obs = false ∧ e.storeValue? x = some v.1 ∧ v.2 = some (e.obs, e.tick)) ∧
    ((¬ ∃ pre i post, qualifies pre i post) → (∀ e ∈ before ++ after, e.writes x = true → stores e) →
      ∃ w, latest w ∧ allowed cfg init before after r x = [w])) ∧
  ∀ (cfg : Config) (init : Memory) (before after : List Event) (r : Event) (a n : Nat) (bytes : List Byte) (src : List Source),
    Legal cfg init (before ++ r :: after) → r.op = .load a n bytes src → r.obs ∈ cfg.harts →
    ∀ i v w, bytes[i]? = some v → src[i]? = some w → (v, w) ∈ allowed cfg init before after r (a + i)

/-! ### Caches -/

/-- An allocation at any time changes nothing that any set of coherent observers sees (R64, R206 (3)); no allocation or
deallocation writes memory; and a cache writes a block to memory only where the block is dirty for the cache's own set, whatever it is
for other sets: a clean copy is never written back (R66, R68). What it writes is the block, as its set sees it. -/
def Obligations.CacheMovesWriteBackOnlyDirtyBlocks : Prop :=
  ∀ (cfg : Config) (ms : MemSys) (i b : Nat) (dest : Option Nat) (a : Nat), SysCoherent cfg ms →
    (∀ k, view cfg (allocateLine cfg i b ms) k a = view cfg ms k a) ∧ (allocateLine cfg i b ms).dirty = ms.dirty ∧
      (allocateLine cfg i b ms).mem = ms.mem ∧ (deallocateLine cfg i b dest ms).mem = ms.mem ∧
      (deallocateLine cfg i b dest ms).dirty = ms.dirty ∧
      (∀ c, ms.caches[i]? = some c →
        (isDirty ms (setOfCache cfg b c) b = false → (writeBackLine cfg i b ms).mem = ms.mem) ∧
        (Memory.read (writeBackLine cfg i b ms).mem a ≠ Memory.read ms.mem a →
          a ∈ block b (cbsM cfg) ∧ Memory.read (writeBackLine cfg i b ms).mem a = view cfg ms (setOfCache cfg b c) a ∧
            isDirty (writeBackLine cfg i b ms) (setOfCache cfg b c) b = false))

/-! ### Control registers -/

/-- After a write to a CMO control register, by the operation all three go through, `CBIE` holds the value written if it is
supported and some supported value otherwise, never `10`; `CBCFE` and `CBZE` hold what was written; a field whose extension is absent
reads as zero (R37, R108, decision D31). That bits 3 to 1 keep their value and that bit 0 and the bits above 7 take the one written is
the model's choice (log entry 12). -/
def Obligations.ControlRegisterWrites : Prop :=
  ∀ (cfg : Config) (supported : List (BitVec 2)) (tick : Nat) (old v : Word), cbieLegal supported ≠ [] →
    let w := envcfgWrite cfg supported tick old v
    (cfg.hasZicbom = true → cbie w ∈ supported ∧ cbie w ≠ 0b10#2 ∧ (cbie v ∈ cbieLegal supported → cbie w = cbie v) ∧
      cbcfe w = cbcfe v) ∧
    (cfg.hasZicbom = false → cbie w = 0b00#2 ∧ cbcfe w = false) ∧ cbze w = (cfg.hasZicboz && cbze v) ∧
    w.extractLsb' 1 3 = old.extractLsb' 1 3 ∧ getBit w 0 = getBit v 0 ∧ ∀ n, 8 ≤ n → getBit w n = getBit v n

/-- `sstatus.SUM` and `sstatus.MXR` are the bits of `mstatus`; those of `vsstatus` are separate (R25). A write of `sstatus` changes
no bit of `mstatus` but 1, 5, 8, 18 and 19 (PRESUMED, log entry 10). -/
def Obligations.SstatusIsAViewOfMstatus : Prop :=
  ∀ (cfg : Config) (tick : Nat) (r : Csrs) (v : Word),
    (∀ n, n = 18 ∨ n = 19 → getBit (csrRead cfg .sstatus r) n = getBit r.mstatus n ∧
      getBit (csrWrite cfg tick .sstatus v r).mstatus n = getBit v n ∧
      (csrWrite cfg tick .sstatus v r).vsstatus = r.vsstatus ∧ (csrWrite cfg tick .vsstatus v r).mstatus = r.mstatus) ∧
    ∀ n, n ∉ [1, 5, 8, 18, 19] → getBit (csrWrite cfg tick .sstatus v r).mstatus n = getBit r.mstatus n

/-! ### The step, reset, and what every step keeps -/

/-- A step that is not a move of another agent runs the instruction that the four bytes at `pc` decode to, where the hart has the
extension it belongs to: Zicbom for the management instructions, Zicboz for `CBO.ZERO`, Zicbop for the prefetches (R100, R107, R110). A
step that performs an operation that waits, where the execution so far stays legal and a load's bytes can be, puts it at the end of the
global memory order with its effect on the memory system: a store its bytes, a management operation its block, for the observer's set of
coherent observers, a load none (R90, R206; log entry 22). -/
def Obligations.StepRunsDecodedInstruction : Prop :=
  (∀ (s : State) (b0 b1 b2 b3 : Byte) (i : Instr), pcAligned s.cfg s.hart.pc = true →
    fetchByte s 0 = some b0 → fetchByte s 1 = some b1 → fetchByte s 2 = some b2 → fetchByte s 3 = some b3 →
    decodeBytes [b0, b1, b2, b3] = .cmo i → (classOf i = .cbm → s.cfg.hasZicbom = true) →
    (classOf i = .cbz → s.cfg.hasZicboz = true) → (gateOf i = none → s.cfg.hasZicbop = true) →
    (s.inputs = [] → step s = exec i s) ∧ ∀ rest, s.inputs = .run :: rest → step s = exec i { s with inputs := rest }) ∧
  ∀ (s : State) (n : Nat) (bytes : List Byte) (src : List Source) (rest : List Input) (e : Event),
    s.inputs = .act (.perform n bytes src) :: rest → s.pending[n]? = some e →
    let e' := { e with op := e.op.performed bytes src }
    returnOk s e' = true → LegalSoFar s.cfg s.initMem (s.history ++ [e']) (s.pending.eraseIdx n) →
    ∃ t, step s = .next t ∧ t.history = s.history ++ [e'] ∧ t.pending = s.pending.eraseIdx n ∧ t.hart = s.hart ∧
      t.others = s.others ∧ t.inputs = rest ∧
      (∀ a size bs sr, e.op = .load a size bs sr → t.sys = s.sys ∧ e'.op = .load a size bytes src) ∧
      (∀ a vs, e.op = .store a vs → e' = e ∧ t.sys = storeBytesBy s.cfg e.obs a vs s.sys) ∧
      (∀ b, b % cbsM s.cfg = 0 →
        (e.op = .invalidate b → e' = e ∧ t.sys = invalidateBlock s.cfg (cohAt s.cfg b e.obs) b s.sys) ∧
        (e.op = .clean b → e' = e ∧ t.sys = cleanBlock s.cfg (cohAt s.cfg b e.obs) b s.sys) ∧
        (e.op = .flush b → e' = e ∧
          t.sys = invalidateBlock s.cfg (cohAt s.cfg b e.obs) b (cleanBlock s.cfg (cohAt s.cfg b e.obs) b s.sys)))

/-- The state after reset (R45): M-mode, `x0` zero, `MPRV` zero, no reservation; and the values the model chose (log entries 5 to 8):
every general register zero, `pc` at `0x1000`, no copy in any cache; nothing waits to be performed. -/
def Obligations.ResetState : Prop :=
  State.reset.hart.mode = .M ∧ readX State.reset.cfg State.reset.hart 0 = 0 ∧ mprv State.reset.hart.csr.mstatus = false ∧
    State.reset.hart.resv = none ∧ State.reset.hart.pc = 0x1000#64 ∧ (∀ r : Reg, State.reset.hart.x[r] = 0) ∧
    CachesEmpty State.reset ∧ NoTrigger State.reset ∧ State.reset.sys.mem = [] ∧ State.reset.history = [] ∧
    State.reset.pending = []

/-- The state after reset meets the invariants: canonical memory, coherent caches, aligned program counters, modes that exist,
`XLEN`-bit registers, `CBIE` supported, `MPP` not reserved, a legal history, and the latest store seen. -/
def Obligations.ResetMeetsInvariants : Prop :=
  MemoryCanonical State.reset ∧ CachesCoherent State.reset ∧ PcsAligned State.reset ∧ ModesLegal State.reset ∧
    RegistersFit State.reset ∧ CbieLegalEverywhere State.reset ∧ MppLegal State.reset ∧ HistoryLegal State.reset ∧
    LatestSeen State.reset

/-- Every step keeps the platform's parameters and the initial data, and adds to the trap records without changing one
(D39, R196). -/
def Obligations.StepKeepsPlatform : Prop :=
  ∀ s t : State, step s = .next t → t.cfg = s.cfg ∧ t.initMem = s.initMem ∧ ∃ new, t.traps = s.traps ++ new

/-- Every step keeps memory in its canonical form (R30). -/
def Obligations.StepKeepsMemoryCanonical : Prop :=
  ∀ s t : State, MemoryCanonical s → step s = .next t → MemoryCanonical t

/-- Every step keeps the memory system coherent: whole copies, copies of one set that agree, no stored-to block without a holder, and no
cache beyond its capacity (R4, R63, R65, R67, R205, R211). That caches shared by several sets hold what memory holds is the model's choice
(log entry 29), and so is the mapping of blocks to the slots that the capacity is counted by (log entry 9). -/
def Obligations.StepKeepsCachesCoherent : Prop :=
  ∀ s t : State, CachesCoherent s → step s = .next t → CachesCoherent t

/-- Every step keeps the harts well formed: aligned program counters, modes that exist, `XLEN`-bit registers, `MPP` never reserved
(R20, R21, R23, R24, R81). That a write of a reserved `MPP` is not made, and that no return enters a mode that is absent, is the model's
choice (log entry 12). -/
def Obligations.StepKeepsHartsWellFormed : Prop :=
  ∀ s t : State, PcsAligned s → ModesLegal s → RegistersFit s → MppLegal s → step s = .next t →
    PcsAligned t ∧ ModesLegal t ∧ RegistersFit t ∧ MppLegal t

/-- Every step keeps `CBIE` legal in every control register (R36, R108). -/
def Obligations.StepKeepsCbieLegal : Prop :=
  ∀ s t : State, CbieLegalEverywhere s → step s = .next t → CbieLegalEverywhere t

/-- Every step keeps the history, with the operations that wait, a legal execution so far: preserved program order with the rules the
CMO operations add, the load value axiom with the condition on invalidates, and atomicity (R70 to R79, R90 to R94); every store that a load
names as the source of a byte is among the operations. Where the paired load read the initial data, what atomicity asks is the model's
choice (log entry 40). -/
def Obligations.StepKeepsHistoryLegal : Prop :=
  ∀ s t : State, HistoryLegal s → step s = .next t → HistoryLegal t

/-- Every step keeps coherence: what a set of coherent observers sees at an address, where no observer outside the set stored to its block
and no invalidate was performed on the block, is the value of the latest store, through every store, clean, flush, zero, prefetch and move
of a cache; and memory holds it while the block is not dirty (R60, R64 to R68, R121, R122, R206 (3)). -/
def Obligations.StepKeepsLatestStoreSeen : Prop :=
  ∀ s t : State, LatestSeen s → step s = .next t → LatestSeen t
end

