-- ==== Sys2Proof/Laws/Access.lean ====
section
/-!
SUPPORT. What the checks of an access answer, in the words of `Safety.lean`: when they grant, and which fault they give where they
do not (R171 to R189).
-/

namespace Sys2Proof.Machine

theorem pageGrants_iff {i : Instr} {s : State} {pte : Option Pte} :
    PageGrants i s pte ↔ pte.all (pageOk s.cfg s.hart.csr (effPriv s.hart) (classOf i)) = true := by
  cases pte <;> simp [PageGrants]

theorem gStageGrants_iff {i : Instr} {s : State} {gpte : Option Pte} :
    GStageGrants i s gpte ↔ gpte.all (gStageOk s.cfg (classOf i)) = true := by
  cases gpte <;> simp [GStageGrants]

theorem blockGranted_iff {i : Instr} {s : State} {pa : Nat} :
    BlockGranted i s pa ↔ blockOk s.cfg s.hart (effPriv s.hart) (classOf i) pa (accessSize s.cfg i) = true :=
  List.all_eq_true.symm

/-- The checks once translation has completed. -/
theorem accessCheck_of_translated {i : Instr} {s : State} {ppage gpage : Nat} {pte gpte : Option Pte}
    (h : Translated i s ppage gpage pte gpte) :
    accessCheck s.cfg s.hart (classOf i) (accessSize s.cfg i) (eaOf s i) =
      if !pte.all (pageOk s.cfg s.hart.csr (effPriv s.hart) (classOf i)) then .trap .storePageFault none
      else if !gpte.all (gStageOk s.cfg (classOf i)) then .trap .storeGuestPageFault (some gpage)
      else if !blockOk s.cfg s.hart (effPriv s.hart) (classOf i) (inPage ppage (eaOf s i)) (accessSize s.cfg i) then
        .trap .storeAccessFault none
      else if !pmaOk s.cfg (inPage ppage (eaOf s i)) (accessSize s.cfg i) then .pmaUnspecified
      else .granted (inPage ppage (eaOf s i)) := by
  unfold accessCheck
  simp only
  rw [show translate s.hart (effPriv s.hart) (classOf i) (eaOf s i) = _ from h]

/-- The checks grant an access exactly when everything the instruction asks is granted, and then at its physical address. -/
theorem accessCheck_granted_iff {i : Instr} {s : State} {pa : Nat} :
    accessCheck s.cfg s.hart (classOf i) (accessSize s.cfg i) (eaOf s i) = .granted pa ↔ Granted i s pa := by
  constructor
  · intro h
    cases ht : translate s.hart (effPriv s.hart) (classOf i) (eaOf s i) with
    | fault k gpage =>
      unfold accessCheck at h
      simp only [ht] at h
      cases k <;> cases h
    | done ppage gpage pte gpte =>
      rw [accessCheck_of_translated ht] at h
      split at h
      · cases h
      next hp =>
        split at h
        · cases h
        next hg =>
          split at h
          · cases h
          next hb =>
            split at h
            · cases h
            next hm =>
              cases h
              exact ⟨ppage, gpage, pte, gpte, ht, pageGrants_iff.2 (by simpa using hp), gStageGrants_iff.2 (by simpa using hg),
                rfl, blockGranted_iff.2 (by simpa using hb), by simpa [PmaMet] using hm⟩
  · rintro ⟨ppage, gpage, pte, gpte, ht, hp, hg, rfl, hb, hm⟩
    rw [accessCheck_of_translated ht, pageGrants_iff.1 hp, gStageGrants_iff.1 hg, blockGranted_iff.1 hb,
      show pmaOk s.cfg (inPage ppage (eaOf s i)) (accessSize s.cfg i) = true from hm]
    rfl

/-- A leaf entry that does not grant the access is a store page fault. -/
theorem accessCheck_pageFault {i : Instr} {s : State} {ppage gpage : Nat} {pte gpte : Option Pte}
    (ht : Translated i s ppage gpage pte gpte) (hp : ¬ PageGrants i s pte) :
    accessCheck s.cfg s.hart (classOf i) (accessSize s.cfg i) (eaOf s i) = .trap .storePageFault none := by
  rw [accessCheck_of_translated ht, if_pos (by simpa [pageGrants_iff] using hp)]

/-- A G-stage entry that does not grant the access is a store guest-page fault. -/
theorem accessCheck_guestPageFault {i : Instr} {s : State} {ppage gpage : Nat} {pte gpte : Option Pte}
    (ht : Translated i s ppage gpage pte gpte) (hp : PageGrants i s pte) (hg : ¬ GStageGrants i s gpte) :
    accessCheck s.cfg s.hart (classOf i) (accessSize s.cfg i) (eaOf s i) = .trap .storeGuestPageFault (some gpage) := by
  rw [accessCheck_of_translated ht, pageGrants_iff.1 hp, if_neg (by simp), if_pos (by simpa [gStageGrants_iff] using hg)]

/-- An address of the block to which the PMP and the PMAs do not grant the access is a store access fault. -/
theorem accessCheck_accessFault {i : Instr} {s : State} {ppage gpage : Nat} {pte gpte : Option Pte}
    (ht : Translated i s ppage gpage pte gpte) (hp : PageGrants i s pte) (hg : GStageGrants i s gpte)
    (hb : ¬ BlockGranted i s (inPage ppage (eaOf s i))) :
    accessCheck s.cfg s.hart (classOf i) (accessSize s.cfg i) (eaOf s i) = .trap .storeAccessFault none := by
  rw [accessCheck_of_translated ht, pageGrants_iff.1 hp, gStageGrants_iff.1 hg, if_neg (by simp), if_neg (by simp),
    if_pos (by simpa [blockGranted_iff] using hb)]

/-- A fault that the checks answer is the fault the instruction takes (R196). -/
theorem exec_of_trap {i : Instr} {s : State} {c : Cause} {g : Option Nat} (hg : gateOf i ≠ none) (he : Enabled i s)
    (hu : Untriggered i s) (ha : accessCheck s.cfg s.hart (classOf i) (accessSize s.cfg i) (eaOf s i) = .trap c g) :
    exec i s = .next (raiseFault c g (eaOf s i) (accessSize s.cfg i) s) := by
  unfold Untriggered at hu
  cases i <;> simp only [gateOf, ne_eq, reduceCtorEq, not_true_eq_false, not_false_eq_true] at hg
  all_goals
    have := he _ rfl
    simp only [classOf, accessSize, eaOf] at *
    simp only [exec, execCboInval, execCboClean, execCboFlush, execCboZero, cbmAccess, cbzAccess]
    split
    · contradiction
    · simp only [hu, ha]
    · simp only [hu, ha]

theorem uncachedFault_eq_false {s : State} {pa : Nat} (h : CacheableOrLetThrough s pa) : uncachedFault s.cfg pa = false := by
  unfold uncachedFault
  rcases h with h | h <;> simp [h]

/-- A management operation that is granted is performed. -/
theorem cbmAccess_of_granted {op : BlockOp} {rs1 : Reg} {s : State} {pa : Nat}
    (hu : triggerCheck s.cfg s.hart .cbm (eaCbo s rs1) (cbsM s.cfg) = .pass)
    (hg : accessCheck s.cfg s.hart .cbm (cbsM s.cfg) (eaCbo s rs1) = .granted pa) (hc : CacheableOrLetThrough s pa) :
    cbmAccess op rs1 s = .next (retire (performOp op pa (cmoTags s.hart rs1) s)) := by
  simp [cbmAccess, hu, hg, uncachedFault_eq_false hc]

/-- The stores of `CBO.ZERO`, granted, are performed. -/
theorem cbzAccess_of_granted {rs1 : Reg} {s : State} {pa : Nat}
    (hu : triggerCheck s.cfg s.hart .cbz (eaCbo s rs1) (cbsZ s.cfg) = .pass)
    (hg : accessCheck s.cfg s.hart .cbz (cbsZ s.cfg) (eaCbo s rs1) = .granted pa) (hc : CacheableOrLetThrough s pa) :
    cbzAccess rs1 s = .next (retire (performZero pa (cmoTags s.hart rs1) s)) := by
  simp [cbzAccess, hu, hg, uncachedFault_eq_false hc]

end Sys2Proof.Machine
end

