-- ==== Sys2Proof/Laws/Bits.lean ====
section
/-! SUPPORT. The bit fields of a word: what is read after a write of a bit or of a two-bit field. -/

namespace Sys2Proof.Machine

theorem testBit_one (i : Nat) : (1#64).getLsbD i = decide (i = 0) := by
  cases i with
  | zero => rfl
  | succ i => simp [BitVec.getLsbD_one]

theorem testBit_three (i : Nat) : (3#64).getLsbD i = decide (i < 2) := by
  by_cases h : i < 64
  · interval_cases i <;> rfl
  · rw [BitVec.getLsbD_of_ge _ _ (by omega)]
    exact (decide_eq_false (by omega)).symm

/-- A bit after a bit was written. -/
theorem getBit_setBit (w : Word) {n : Nat} (m : Nat) (b : Bool) (hn : n < 64) :
    getBit (setBit w n b) m = if m = n then b else getBit w m := by
  unfold getBit setBit
  by_cases hm : m < 64
  · cases b
    · rw [if_neg (by simp), BitVec.getLsbD_and, BitVec.getLsbD_not, BitVec.getLsbD_shiftLeft, testBit_one]
      by_cases h : m = n
      · subst h; simp
      · rw [if_neg h]
        by_cases hlt : m < n
        · simp [hm, hlt]
        · have : m - n ≠ 0 := by omega
          simp [hm, this]
    · rw [if_pos rfl, BitVec.getLsbD_or, BitVec.getLsbD_shiftLeft, testBit_one]
      by_cases h : m = n
      · subst h; simp [hm]
      · rw [if_neg h]
        by_cases hlt : m < n
        · simp [hlt]
        · have : m - n ≠ 0 := by omega
          simp [this]
  · rw [BitVec.getLsbD_of_ge _ _ (by omega), if_neg (by omega), BitVec.getLsbD_of_ge _ _ (by omega)]

/-- A bit after a two-bit field was written. -/
theorem getBit_setField2 (w : Word) {lo : Nat} (m : Nat) (v : BitVec 2) (hn : lo + 1 < 64) :
    getBit (setField2 w lo v) m = if lo ≤ m ∧ m < lo + 2 then v.getLsbD (m - lo) else getBit w m := by
  unfold getBit setField2
  by_cases hm : m < 64
  · rw [BitVec.getLsbD_or, BitVec.getLsbD_and, BitVec.getLsbD_not, BitVec.getLsbD_shiftLeft, BitVec.getLsbD_shiftLeft,
      testBit_three, BitVec.getLsbD_setWidth]
    by_cases h : m < lo
    · simp [hm, h, show ¬ (lo ≤ m) by omega]
    · by_cases h2 : m < lo + 2
      · have : m - lo < 2 := by omega
        have h3 : m - lo < 64 := by omega
        simp [hm, h, h2, this, h3, show lo ≤ m by omega]
      · have : ¬ m - lo < 2 := by omega
        have hv : v.getLsbD (m - lo) = false := BitVec.getLsbD_of_ge _ _ (by omega)
        simp [hm, h, h2, this, hv]
  · rw [BitVec.getLsbD_of_ge _ _ (by omega), if_neg (by omega), BitVec.getLsbD_of_ge _ _ (by omega)]

theorem getLsbD_getField2 (w : Word) (lo i : Nat) : (getField2 w lo).getLsbD i = (decide (i < 2) && getBit w (lo + i)) := by
  unfold getField2 getBit
  rw [BitVec.getLsbD_extractLsb']

/-- A field after it was written. -/
theorem getField2_setField2 (w : Word) {lo : Nat} (v : BitVec 2) (hn : lo + 1 < 64) : getField2 (setField2 w lo v) lo = v := by
  refine BitVec.eq_of_getLsbD_eq fun i hi => ?_
  rw [getLsbD_getField2, getBit_setField2 _ _ _ hn, if_pos (by omega), Nat.add_sub_cancel_left]
  simp [hi]

/-- A field after a bit outside it was written. -/
theorem getField2_setBit (w : Word) {lo n : Nat} (b : Bool) (hn : n < 64) (h : n < lo ∨ lo + 2 ≤ n) :
    getField2 (setBit w n b) lo = getField2 w lo := by
  refine BitVec.eq_of_getLsbD_eq fun i hi => ?_
  rw [getLsbD_getField2, getLsbD_getField2, getBit_setBit _ _ _ hn, if_neg (by omega)]

/-- A field after another one was written. -/
theorem getField2_setField2_other (w : Word) {lo lo' : Nat} (v : BitVec 2) (hn : lo' + 1 < 64) (h : lo' + 2 ≤ lo ∨ lo + 2 ≤ lo') :
    getField2 (setField2 w lo' v) lo = getField2 w lo := by
  refine BitVec.eq_of_getLsbD_eq fun i hi => ?_
  rw [getLsbD_getField2, getLsbD_getField2, getBit_setField2 _ _ _ hn, if_neg (by omega)]

/-- A bit of a word whose bits under a mask were replaced. -/
theorem getBit_mergeBits (mask old new : Word) (n : Nat) :
    getBit (mergeBits mask old new) n = if getBit mask n then getBit new n else getBit old n := by
  unfold getBit mergeBits
  rw [BitVec.getLsbD_or, BitVec.getLsbD_and, BitVec.getLsbD_and, BitVec.getLsbD_not]
  by_cases hn : n < 64
  · cases mask.getLsbD n <;> simp [hn]
  · rw [BitVec.getLsbD_of_ge mask _ (by omega), BitVec.getLsbD_of_ge old _ (by omega)]
    simp

/-- Truncation to `XLEN` is idempotent. -/
theorem xtrunc_xtrunc (x : Xlen) (w : Word) : xtrunc x (xtrunc x w) = xtrunc x w := by
  cases x with
  | rv64 => rfl
  | rv32 =>
    refine BitVec.eq_of_getLsbD_eq fun i hi => ?_
    simp only [xtrunc, BitVec.getLsbD_setWidth]
    by_cases h : i < 32 <;> simp [h]

end Sys2Proof.Machine
end

