-- ==== Sys2Proof/Laws/Blocks.lean ====
section
/-! SUPPORT. Cache blocks as ranges of addresses: the base, membership, and that blocks of one size do not overlap. -/

namespace Sys2Proof.Machine

theorem cbsM_pos (cfg : Config) : 0 < cbsM cfg := Nat.two_pow_pos _

theorem cbsZ_pos (cfg : Config) : 0 < cbsZ cfg := Nat.two_pow_pos _

theorem blkBase_eq (a size : Nat) : blkBase a size = size * (a / size) := by
  unfold blkBase
  have := Nat.div_add_mod a size
  omega

theorem blkBase_le (a size : Nat) : blkBase a size ≤ a := Nat.sub_le _ _

theorem lt_blkBase_add (a : Nat) {size : Nat} (h : 0 < size) : a < blkBase a size + size := by
  have := Nat.mod_lt a h
  have := Nat.mod_le a size
  unfold blkBase
  omega

theorem blkBase_mod (a size : Nat) : blkBase a size % size = 0 := by
  rw [blkBase_eq]; exact Nat.mul_mod_right _ _

/-- An aligned base is the base of every address of its block. -/
theorem blkBase_add {b size i : Nat} (hb : b % size = 0) (hi : i < size) : blkBase (b + i) size = b := by
  unfold blkBase
  have h : (b + i) % size = i := by rw [Nat.add_mod, hb, Nat.zero_add, Nat.mod_mod, Nat.mod_eq_of_lt hi]
  omega

theorem blkBase_self {b size : Nat} (hb : b % size = 0) : blkBase b size = b := by
  unfold blkBase; omega

theorem blkBase_idem (a size : Nat) : blkBase (blkBase a size) size = blkBase a size :=
  blkBase_self (blkBase_mod a size)

theorem mem_block {x a size : Nat} : x ∈ block a size ↔ blkBase a size ≤ x ∧ x < blkBase a size + size := by
  unfold block
  simp only [List.mem_map, List.mem_range]
  constructor
  · rintro ⟨i, hi, rfl⟩; omega
  · intro h; exact ⟨x - blkBase a size, by omega, by omega⟩

theorem length_block (a size : Nat) : (block a size).length = size := by simp [block]

/-- An address is in the block exactly when its own base is the block's. -/
theorem mem_block_iff_blkBase {x a size : Nat} (h : 0 < size) : x ∈ block a size ↔ blkBase x size = blkBase a size := by
  rw [mem_block]
  constructor
  · intro hx
    have := blkBase_add (blkBase_mod a size) (i := x - blkBase a size) (by omega)
    rwa [Nat.add_sub_cancel' hx.1] at this
  · intro hx
    have h1 := blkBase_le x size
    have h2 := lt_blkBase_add x h
    omega

theorem inRange_iff {a base size : Nat} : inRange a base size = true ↔ base ≤ a ∧ a < base + size := by
  simp [inRange]

end Sys2Proof.Machine
end

