-- ==== Sys2Proof/Laws/State.lean ====
section
/-! SUPPORT. One lemma for each field of the state under each update the machine makes, true by unfolding. -/

namespace Sys2Proof.Machine

@[simp] theorem retire_cfg (s : State) :
    (retire s).cfg = s.cfg := rfl
@[simp] theorem retire_hart (s : State) :
    (retire s).hart = { s.hart with pc := nextPc s.cfg s.hart.pc } := rfl
@[simp] theorem retire_others (s : State) :
    (retire s).others = loseReservations s.tick s.others := rfl
@[simp] theorem retire_sys (s : State) :
    (retire s).sys = s.sys := rfl
@[simp] theorem retire_initMem (s : State) :
    (retire s).initMem = s.initMem := rfl
@[simp] theorem retire_history (s : State) :
    (retire s).history = s.history := rfl
@[simp] theorem retire_pending (s : State) :
    (retire s).pending = s.pending := rfl
@[simp] theorem retire_deferred (s : State) :
    (retire s).deferred = s.deferred := rfl
@[simp] theorem retire_traps (s : State) :
    (retire s).traps = s.traps := rfl
@[simp] theorem retire_inputs (s : State) :
    (retire s).inputs = s.inputs := rfl
@[simp] theorem retire_tick (s : State) :
    (retire s).tick = s.tick + 1 := rfl

@[simp] theorem issue_cfg (es : List Event) (s : State) :
    (issue es s).cfg = s.cfg := rfl
@[simp] theorem issue_hart (es : List Event) (s : State) :
    (issue es s).hart = s.hart := rfl
@[simp] theorem issue_others (es : List Event) (s : State) :
    (issue es s).others = s.others := rfl
@[simp] theorem issue_sys (es : List Event) (s : State) :
    (issue es s).sys = if atOnce s then effects s.cfg es s.sys else s.sys := rfl
@[simp] theorem issue_initMem (es : List Event) (s : State) :
    (issue es s).initMem = s.initMem := rfl
@[simp] theorem issue_history (es : List Event) (s : State) :
    (issue es s).history = if atOnce s then s.history ++ es else s.history := rfl
@[simp] theorem issue_pending (es : List Event) (s : State) :
    (issue es s).pending = if atOnce s then s.pending else s.pending ++ es := rfl
@[simp] theorem issue_deferred (es : List Event) (s : State) :
    (issue es s).deferred = s.deferred := rfl
@[simp] theorem issue_traps (es : List Event) (s : State) :
    (issue es s).traps = s.traps := rfl
@[simp] theorem issue_inputs (es : List Event) (s : State) :
    (issue es s).inputs = s.inputs := rfl
@[simp] theorem issue_tick (es : List Event) (s : State) :
    (issue es s).tick = s.tick := rfl

@[simp] theorem issueOp_cfg (o : Nat) (op : MemOp) (tags : Tags) (s : State) :
    (issueOp o op tags s).cfg = s.cfg := rfl
@[simp] theorem issueOp_hart (o : Nat) (op : MemOp) (tags : Tags) (s : State) :
    (issueOp o op tags s).hart = s.hart := rfl
@[simp] theorem issueOp_others (o : Nat) (op : MemOp) (tags : Tags) (s : State) :
    (issueOp o op tags s).others = s.others := rfl
@[simp] theorem issueOp_sys (o : Nat) (op : MemOp) (tags : Tags) (s : State) :
    (issueOp o op tags s).sys = if atOnce s then op.effect s.cfg o s.sys else s.sys := rfl
@[simp] theorem issueOp_initMem (o : Nat) (op : MemOp) (tags : Tags) (s : State) :
    (issueOp o op tags s).initMem = s.initMem := rfl
@[simp] theorem issueOp_history (o : Nat) (op : MemOp) (tags : Tags) (s : State) :
    (issueOp o op tags s).history = if atOnce s then s.history ++ [{ obs := o, tick := s.tick, op := op, tags := tags }] else s.history := rfl
@[simp] theorem issueOp_pending (o : Nat) (op : MemOp) (tags : Tags) (s : State) :
    (issueOp o op tags s).pending = if atOnce s then s.pending else s.pending ++ [{ obs := o, tick := s.tick, op := op, tags := tags }] := rfl
@[simp] theorem issueOp_deferred (o : Nat) (op : MemOp) (tags : Tags) (s : State) :
    (issueOp o op tags s).deferred = s.deferred := rfl
@[simp] theorem issueOp_traps (o : Nat) (op : MemOp) (tags : Tags) (s : State) :
    (issueOp o op tags s).traps = s.traps := rfl
@[simp] theorem issueOp_inputs (o : Nat) (op : MemOp) (tags : Tags) (s : State) :
    (issueOp o op tags s).inputs = s.inputs := rfl
@[simp] theorem issueOp_tick (o : Nat) (op : MemOp) (tags : Tags) (s : State) :
    (issueOp o op tags s).tick = s.tick := rfl

@[simp] theorem hold_cfg (e : Event) (s : State) :
    (hold e s).cfg = s.cfg := rfl
@[simp] theorem hold_hart (e : Event) (s : State) :
    (hold e s).hart = s.hart := rfl
@[simp] theorem hold_others (e : Event) (s : State) :
    (hold e s).others = s.others := rfl
@[simp] theorem hold_sys (e : Event) (s : State) :
    (hold e s).sys = s.sys := rfl
@[simp] theorem hold_initMem (e : Event) (s : State) :
    (hold e s).initMem = s.initMem := rfl
@[simp] theorem hold_history (e : Event) (s : State) :
    (hold e s).history = s.history := rfl
@[simp] theorem hold_pending (e : Event) (s : State) :
    (hold e s).pending = s.pending ++ [e] := rfl
@[simp] theorem hold_deferred (e : Event) (s : State) :
    (hold e s).deferred = s.deferred := rfl
@[simp] theorem hold_traps (e : Event) (s : State) :
    (hold e s).traps = s.traps := rfl
@[simp] theorem hold_inputs (e : Event) (s : State) :
    (hold e s).inputs = s.inputs := rfl
@[simp] theorem hold_tick (e : Event) (s : State) :
    (hold e s).tick = s.tick := rfl

@[simp] theorem takeTrap_cfg (t : TrapRecord) (s : State) :
    (takeTrap t s).cfg = s.cfg := rfl
@[simp] theorem takeTrap_hart (t : TrapRecord) (s : State) :
    (takeTrap t s).hart = trapEntry s.cfg s.tick t s.hart := rfl
@[simp] theorem takeTrap_others (t : TrapRecord) (s : State) :
    (takeTrap t s).others = s.others := rfl
@[simp] theorem takeTrap_sys (t : TrapRecord) (s : State) :
    (takeTrap t s).sys = s.sys := rfl
@[simp] theorem takeTrap_initMem (t : TrapRecord) (s : State) :
    (takeTrap t s).initMem = s.initMem := rfl
@[simp] theorem takeTrap_history (t : TrapRecord) (s : State) :
    (takeTrap t s).history = s.history := rfl
@[simp] theorem takeTrap_pending (t : TrapRecord) (s : State) :
    (takeTrap t s).pending = s.pending := rfl
@[simp] theorem takeTrap_deferred (t : TrapRecord) (s : State) :
    (takeTrap t s).deferred = s.deferred := rfl
@[simp] theorem takeTrap_traps (t : TrapRecord) (s : State) :
    (takeTrap t s).traps = s.traps ++ [t] := rfl
@[simp] theorem takeTrap_inputs (t : TrapRecord) (s : State) :
    (takeTrap t s).inputs = s.inputs := rfl
@[simp] theorem takeTrap_tick (t : TrapRecord) (s : State) :
    (takeTrap t s).tick = s.tick + 1 := rfl

@[simp] theorem raiseIllegal_cfg (w : InstrWord) (s : State) :
    (raiseIllegal w s).cfg = s.cfg := rfl
@[simp] theorem raiseIllegal_hart (w : InstrWord) (s : State) :
    (raiseIllegal w s).hart = trapEntry s.cfg s.tick (illegalRecord s w) s.hart := rfl
@[simp] theorem raiseIllegal_others (w : InstrWord) (s : State) :
    (raiseIllegal w s).others = s.others := rfl
@[simp] theorem raiseIllegal_sys (w : InstrWord) (s : State) :
    (raiseIllegal w s).sys = s.sys := rfl
@[simp] theorem raiseIllegal_initMem (w : InstrWord) (s : State) :
    (raiseIllegal w s).initMem = s.initMem := rfl
@[simp] theorem raiseIllegal_history (w : InstrWord) (s : State) :
    (raiseIllegal w s).history = s.history := rfl
@[simp] theorem raiseIllegal_pending (w : InstrWord) (s : State) :
    (raiseIllegal w s).pending = s.pending := rfl
@[simp] theorem raiseIllegal_deferred (w : InstrWord) (s : State) :
    (raiseIllegal w s).deferred = s.deferred := rfl
@[simp] theorem raiseIllegal_traps (w : InstrWord) (s : State) :
    (raiseIllegal w s).traps = s.traps ++ [illegalRecord s w] := rfl
@[simp] theorem raiseIllegal_inputs (w : InstrWord) (s : State) :
    (raiseIllegal w s).inputs = s.inputs := rfl
@[simp] theorem raiseIllegal_tick (w : InstrWord) (s : State) :
    (raiseIllegal w s).tick = s.tick + 1 := rfl

@[simp] theorem raiseFault_cfg (c : Cause) (g : Option Nat) (ea : Word) (n : Nat) (s : State) :
    (raiseFault c g ea n s).cfg = s.cfg := rfl
@[simp] theorem raiseFault_hart (c : Cause) (g : Option Nat) (ea : Word) (n : Nat) (s : State) :
    (raiseFault c g ea n s).hart = trapEntry s.cfg s.tick (faultRecord s c g ea n) s.hart := rfl
@[simp] theorem raiseFault_others (c : Cause) (g : Option Nat) (ea : Word) (n : Nat) (s : State) :
    (raiseFault c g ea n s).others = s.others := rfl
@[simp] theorem raiseFault_sys (c : Cause) (g : Option Nat) (ea : Word) (n : Nat) (s : State) :
    (raiseFault c g ea n s).sys = s.sys := rfl
@[simp] theorem raiseFault_initMem (c : Cause) (g : Option Nat) (ea : Word) (n : Nat) (s : State) :
    (raiseFault c g ea n s).initMem = s.initMem := rfl
@[simp] theorem raiseFault_history (c : Cause) (g : Option Nat) (ea : Word) (n : Nat) (s : State) :
    (raiseFault c g ea n s).history = s.history := rfl
@[simp] theorem raiseFault_pending (c : Cause) (g : Option Nat) (ea : Word) (n : Nat) (s : State) :
    (raiseFault c g ea n s).pending = s.pending := rfl
@[simp] theorem raiseFault_deferred (c : Cause) (g : Option Nat) (ea : Word) (n : Nat) (s : State) :
    (raiseFault c g ea n s).deferred = s.deferred := rfl
@[simp] theorem raiseFault_traps (c : Cause) (g : Option Nat) (ea : Word) (n : Nat) (s : State) :
    (raiseFault c g ea n s).traps = s.traps ++ [faultRecord s c g ea n] := rfl
@[simp] theorem raiseFault_inputs (c : Cause) (g : Option Nat) (ea : Word) (n : Nat) (s : State) :
    (raiseFault c g ea n s).inputs = s.inputs := rfl
@[simp] theorem raiseFault_tick (c : Cause) (g : Option Nat) (ea : Word) (n : Nat) (s : State) :
    (raiseFault c g ea n s).tick = s.tick + 1 := rfl

@[simp] theorem performOp_cfg (op : BlockOp) (pa : Nat) (tags : Tags) (s : State) :
    (performOp op pa tags s).cfg = s.cfg := rfl
@[simp] theorem performOp_hart (op : BlockOp) (pa : Nat) (tags : Tags) (s : State) :
    (performOp op pa tags s).hart = s.hart := rfl
@[simp] theorem performOp_others (op : BlockOp) (pa : Nat) (tags : Tags) (s : State) :
    (performOp op pa tags s).others = s.others := rfl
@[simp] theorem performOp_sys (op : BlockOp) (pa : Nat) (tags : Tags) (s : State) :
    (performOp op pa tags s).sys = if atOnce s then (op.event (blkBase pa (cbsM s.cfg))).effect s.cfg s.hart.id s.sys else s.sys := rfl
@[simp] theorem performOp_initMem (op : BlockOp) (pa : Nat) (tags : Tags) (s : State) :
    (performOp op pa tags s).initMem = s.initMem := rfl
@[simp] theorem performOp_history (op : BlockOp) (pa : Nat) (tags : Tags) (s : State) :
    (performOp op pa tags s).history = if atOnce s then s.history ++ [{ obs := s.hart.id, tick := s.tick, op := op.event (blkBase pa (cbsM s.cfg)), tags := tags }]
      else s.history := rfl
@[simp] theorem performOp_pending (op : BlockOp) (pa : Nat) (tags : Tags) (s : State) :
    (performOp op pa tags s).pending = if atOnce s then s.pending
      else s.pending ++ [{ obs := s.hart.id, tick := s.tick, op := op.event (blkBase pa (cbsM s.cfg)), tags := tags }] := rfl
@[simp] theorem performOp_deferred (op : BlockOp) (pa : Nat) (tags : Tags) (s : State) :
    (performOp op pa tags s).deferred = s.deferred := rfl
@[simp] theorem performOp_traps (op : BlockOp) (pa : Nat) (tags : Tags) (s : State) :
    (performOp op pa tags s).traps = s.traps := rfl
@[simp] theorem performOp_inputs (op : BlockOp) (pa : Nat) (tags : Tags) (s : State) :
    (performOp op pa tags s).inputs = s.inputs := rfl
@[simp] theorem performOp_tick (op : BlockOp) (pa : Nat) (tags : Tags) (s : State) :
    (performOp op pa tags s).tick = s.tick := rfl

@[simp] theorem performZero_cfg (pa : Nat) (tags : Tags) (s : State) :
    (performZero pa tags s).cfg = s.cfg := rfl
@[simp] theorem performZero_hart (pa : Nat) (tags : Tags) (s : State) :
    (performZero pa tags s).hart = s.hart := rfl
@[simp] theorem performZero_others (pa : Nat) (tags : Tags) (s : State) :
    (performZero pa tags s).others = s.others := rfl
@[simp] theorem performZero_sys (pa : Nat) (tags : Tags) (s : State) :
    (performZero pa tags s).sys = if atOnce s then effects s.cfg (zeroEvents s.hart.id s.tick tags (block pa (cbsZ s.cfg))) s.sys else s.sys := rfl
@[simp] theorem performZero_initMem (pa : Nat) (tags : Tags) (s : State) :
    (performZero pa tags s).initMem = s.initMem := rfl
@[simp] theorem performZero_history (pa : Nat) (tags : Tags) (s : State) :
    (performZero pa tags s).history = if atOnce s then s.history ++ zeroEvents s.hart.id s.tick tags (block pa (cbsZ s.cfg)) else s.history := rfl
@[simp] theorem performZero_pending (pa : Nat) (tags : Tags) (s : State) :
    (performZero pa tags s).pending = if atOnce s then s.pending else s.pending ++ zeroEvents s.hart.id s.tick tags (block pa (cbsZ s.cfg)) := rfl
@[simp] theorem performZero_deferred (pa : Nat) (tags : Tags) (s : State) :
    (performZero pa tags s).deferred = s.deferred := rfl
@[simp] theorem performZero_traps (pa : Nat) (tags : Tags) (s : State) :
    (performZero pa tags s).traps = s.traps := rfl
@[simp] theorem performZero_inputs (pa : Nat) (tags : Tags) (s : State) :
    (performZero pa tags s).inputs = s.inputs := rfl
@[simp] theorem performZero_tick (pa : Nat) (tags : Tags) (s : State) :
    (performZero pa tags s).tick = s.tick := rfl

@[simp] theorem hint_cfg (pa : Nat) (s : State) :
    (hint pa s).cfg = s.cfg := rfl
@[simp] theorem hint_hart (pa : Nat) (s : State) :
    (hint pa s).hart = s.hart := rfl
@[simp] theorem hint_others (pa : Nat) (s : State) :
    (hint pa s).others = s.others := rfl
@[simp] theorem hint_sys (pa : Nat) (s : State) :
    (hint pa s).sys = if Config.hintActs s.tick then hintLine s.cfg (Config.hintCache s.tick) s.hart.id pa s.sys else s.sys := rfl
@[simp] theorem hint_initMem (pa : Nat) (s : State) :
    (hint pa s).initMem = s.initMem := rfl
@[simp] theorem hint_history (pa : Nat) (s : State) :
    (hint pa s).history = s.history := rfl
@[simp] theorem hint_pending (pa : Nat) (s : State) :
    (hint pa s).pending = s.pending := rfl
@[simp] theorem hint_deferred (pa : Nat) (s : State) :
    (hint pa s).deferred = s.deferred := rfl
@[simp] theorem hint_traps (pa : Nat) (s : State) :
    (hint pa s).traps = s.traps := rfl
@[simp] theorem hint_inputs (pa : Nat) (s : State) :
    (hint pa s).inputs = s.inputs := rfl
@[simp] theorem hint_tick (pa : Nat) (s : State) :
    (hint pa s).tick = s.tick := rfl

@[simp] theorem runHint_cfg (s : State) :
    (runHint s).cfg = s.cfg := rfl
@[simp] theorem runHint_hart (s : State) :
    (runHint s).hart = { s.hart with pc := nextPc s.cfg s.hart.pc } := rfl
@[simp] theorem runHint_others (s : State) :
    (runHint s).others = s.others := rfl
@[simp] theorem runHint_sys (s : State) :
    (runHint s).sys = s.sys := rfl
@[simp] theorem runHint_initMem (s : State) :
    (runHint s).initMem = s.initMem := rfl
@[simp] theorem runHint_history (s : State) :
    (runHint s).history = s.history := rfl
@[simp] theorem runHint_pending (s : State) :
    (runHint s).pending = s.pending := rfl
@[simp] theorem runHint_deferred (s : State) :
    (runHint s).deferred = s.deferred := rfl
@[simp] theorem runHint_traps (s : State) :
    (runHint s).traps = s.traps := rfl
@[simp] theorem runHint_inputs (s : State) :
    (runHint s).inputs = s.inputs := rfl
@[simp] theorem runHint_tick (s : State) :
    (runHint s).tick = s.tick + 1 := rfl

@[simp] theorem placeInitial_cfg (a : Nat) (v : Byte) (s : State) :
    (placeInitial a v s).cfg = s.cfg := rfl
@[simp] theorem placeInitial_hart (a : Nat) (v : Byte) (s : State) :
    (placeInitial a v s).hart = s.hart := rfl
@[simp] theorem placeInitial_others (a : Nat) (v : Byte) (s : State) :
    (placeInitial a v s).others = s.others := rfl
@[simp] theorem placeInitial_sys (a : Nat) (v : Byte) (s : State) :
    (placeInitial a v s).sys = placeByte s.cfg a v s.sys := rfl
@[simp] theorem placeInitial_initMem (a : Nat) (v : Byte) (s : State) :
    (placeInitial a v s).initMem = Memory.write s.initMem a v := rfl
@[simp] theorem placeInitial_history (a : Nat) (v : Byte) (s : State) :
    (placeInitial a v s).history = s.history.filter (fun e => !e.writes a) := rfl
@[simp] theorem placeInitial_pending (a : Nat) (v : Byte) (s : State) :
    (placeInitial a v s).pending = s.pending.filter (fun e => !e.writes a) := rfl
@[simp] theorem placeInitial_deferred (a : Nat) (v : Byte) (s : State) :
    (placeInitial a v s).deferred = s.deferred := rfl
@[simp] theorem placeInitial_traps (a : Nat) (v : Byte) (s : State) :
    (placeInitial a v s).traps = s.traps := rfl
@[simp] theorem placeInitial_inputs (a : Nat) (v : Byte) (s : State) :
    (placeInitial a v s).inputs = s.inputs := rfl
@[simp] theorem placeInitial_tick (a : Nat) (v : Byte) (s : State) :
    (placeInitial a v s).tick = s.tick := rfl

/-! Where the memory system performs operations at once, and where it holds them back. -/

theorem atOnce_iff {s : State} : atOnce s = true ↔ s.deferred = false ∧ s.pending = [] := by
  simp [atOnce]

/-- Operations that are held back change nothing but what waits. -/
theorem issue_of_held {s : State} (h : atOnce s = false) (es : List Event) : issue es s = { s with pending := s.pending ++ es } := by
  simp [issue, h]

/-- Operations performed at once. -/
theorem issue_of_atOnce {s : State} (h : atOnce s = true) (es : List Event) :
    issue es s = { s with sys := effects s.cfg es s.sys, history := s.history ++ es } := by
  simp [issue, h]

/-! The fields of a hart and of the memory system under the updates that change only some of them. -/

@[simp] theorem addLine_sets (b : Nat) (d : List Byte) (c : Cache) : (addLine b d c).sets = c.sets := rfl
@[simp] theorem addLine_ways (b : Nat) (d : List Byte) (c : Cache) : (addLine b d c).ways = c.ways := rfl
@[simp] theorem dropLine_sets (b : Nat) (c : Cache) : (dropLine b c).sets = c.sets := rfl
@[simp] theorem dropLine_ways (b : Nat) (c : Cache) : (dropLine b c).ways = c.ways := rfl
@[simp] theorem addLine_serves (b : Nat) (d : List Byte) (c : Cache) : (addLine b d c).serves = c.serves := rfl
@[simp] theorem addLine_lines (b : Nat) (d : List Byte) (c : Cache) : (addLine b d c).lines = Table.put b d c.lines := rfl
@[simp] theorem dropLine_serves (b : Nat) (c : Cache) : (dropLine b c).serves = c.serves := rfl
@[simp] theorem dropLine_lines (b : Nat) (c : Cache) : (dropLine b c).lines = Table.del b c.lines := rfl

@[simp] theorem enterM_id (cfg : Config) (n : Nat) (t : TrapRecord) (h : Hart) : (enterM cfg n t h).id = h.id := rfl
@[simp] theorem enterM_x (cfg : Config) (n : Nat) (t : TrapRecord) (h : Hart) : (enterM cfg n t h).x = h.x := rfl
@[simp] theorem enterM_walk (cfg : Config) (n : Nat) (t : TrapRecord) (h : Hart) : (enterM cfg n t h).walk = h.walk := rfl
@[simp] theorem enterM_pmp (cfg : Config) (n : Nat) (t : TrapRecord) (h : Hart) : (enterM cfg n t h).pmp = h.pmp := rfl
@[simp] theorem enterM_tselect (cfg : Config) (n : Nat) (t : TrapRecord) (h : Hart) :
    (enterM cfg n t h).csr.tselect = h.csr.tselect := rfl
@[simp] theorem enterM_triggers (cfg : Config) (n : Nat) (t : TrapRecord) (h : Hart) :
    (enterM cfg n t h).csr.triggers = h.csr.triggers := rfl
@[simp] theorem enterM_resv (cfg : Config) (n : Nat) (t : TrapRecord) (h : Hart) : (enterM cfg n t h).resv = h.resv := rfl
@[simp] theorem enterM_regDeps (cfg : Config) (n : Nat) (t : TrapRecord) (h : Hart) : (enterM cfg n t h).regDeps = h.regDeps := rfl
@[simp] theorem enterM_ctrlDeps (cfg : Config) (n : Nat) (t : TrapRecord) (h : Hart) : (enterM cfg n t h).ctrlDeps = h.ctrlDeps := rfl

@[simp] theorem enterS_id (cfg : Config) (n : Nat) (t : TrapRecord) (h : Hart) : (enterS cfg n t h).id = h.id := rfl
@[simp] theorem enterS_x (cfg : Config) (n : Nat) (t : TrapRecord) (h : Hart) : (enterS cfg n t h).x = h.x := rfl
@[simp] theorem enterS_walk (cfg : Config) (n : Nat) (t : TrapRecord) (h : Hart) : (enterS cfg n t h).walk = h.walk := rfl
@[simp] theorem enterS_pmp (cfg : Config) (n : Nat) (t : TrapRecord) (h : Hart) : (enterS cfg n t h).pmp = h.pmp := rfl
@[simp] theorem enterS_tselect (cfg : Config) (n : Nat) (t : TrapRecord) (h : Hart) :
    (enterS cfg n t h).csr.tselect = h.csr.tselect := rfl
@[simp] theorem enterS_triggers (cfg : Config) (n : Nat) (t : TrapRecord) (h : Hart) :
    (enterS cfg n t h).csr.triggers = h.csr.triggers := rfl
@[simp] theorem enterS_resv (cfg : Config) (n : Nat) (t : TrapRecord) (h : Hart) : (enterS cfg n t h).resv = h.resv := rfl
@[simp] theorem enterS_regDeps (cfg : Config) (n : Nat) (t : TrapRecord) (h : Hart) : (enterS cfg n t h).regDeps = h.regDeps := rfl
@[simp] theorem enterS_ctrlDeps (cfg : Config) (n : Nat) (t : TrapRecord) (h : Hart) : (enterS cfg n t h).ctrlDeps = h.ctrlDeps := rfl

@[simp] theorem enterVS_id (cfg : Config) (t : TrapRecord) (h : Hart) : (enterVS cfg t h).id = h.id := rfl
@[simp] theorem enterVS_x (cfg : Config) (t : TrapRecord) (h : Hart) : (enterVS cfg t h).x = h.x := rfl
@[simp] theorem enterVS_walk (cfg : Config) (t : TrapRecord) (h : Hart) : (enterVS cfg t h).walk = h.walk := rfl
@[simp] theorem enterVS_pmp (cfg : Config) (t : TrapRecord) (h : Hart) : (enterVS cfg t h).pmp = h.pmp := rfl
@[simp] theorem enterVS_tselect (cfg : Config) (t : TrapRecord) (h : Hart) :
    (enterVS cfg t h).csr.tselect = h.csr.tselect := rfl
@[simp] theorem enterVS_triggers (cfg : Config) (t : TrapRecord) (h : Hart) :
    (enterVS cfg t h).csr.triggers = h.csr.triggers := rfl
@[simp] theorem enterVS_resv (cfg : Config) (t : TrapRecord) (h : Hart) : (enterVS cfg t h).resv = h.resv := rfl
@[simp] theorem enterVS_regDeps (cfg : Config) (t : TrapRecord) (h : Hart) : (enterVS cfg t h).regDeps = h.regDeps := rfl
@[simp] theorem enterVS_ctrlDeps (cfg : Config) (t : TrapRecord) (h : Hart) : (enterVS cfg t h).ctrlDeps = h.ctrlDeps := rfl

@[simp] theorem returnM_id (cfg : Config) (h : Hart) : (returnM cfg h).id = h.id := rfl
@[simp] theorem returnM_x (cfg : Config) (h : Hart) : (returnM cfg h).x = h.x := rfl
@[simp] theorem returnM_walk (cfg : Config) (h : Hart) : (returnM cfg h).walk = h.walk := rfl
@[simp] theorem returnM_pmp (cfg : Config) (h : Hart) : (returnM cfg h).pmp = h.pmp := rfl
@[simp] theorem returnM_tselect (cfg : Config) (h : Hart) : (returnM cfg h).csr.tselect = h.csr.tselect := rfl
@[simp] theorem returnM_triggers (cfg : Config) (h : Hart) : (returnM cfg h).csr.triggers = h.csr.triggers := rfl
@[simp] theorem returnM_resv (cfg : Config) (h : Hart) : (returnM cfg h).resv = h.resv := rfl
@[simp] theorem returnM_regDeps (cfg : Config) (h : Hart) : (returnM cfg h).regDeps = h.regDeps := rfl
@[simp] theorem returnM_ctrlDeps (cfg : Config) (h : Hart) : (returnM cfg h).ctrlDeps = h.ctrlDeps := rfl

@[simp] theorem returnS_id (cfg : Config) (h : Hart) : (returnS cfg h).id = h.id := rfl
@[simp] theorem returnS_x (cfg : Config) (h : Hart) : (returnS cfg h).x = h.x := rfl
@[simp] theorem returnS_walk (cfg : Config) (h : Hart) : (returnS cfg h).walk = h.walk := rfl
@[simp] theorem returnS_pmp (cfg : Config) (h : Hart) : (returnS cfg h).pmp = h.pmp := rfl
@[simp] theorem returnS_tselect (cfg : Config) (h : Hart) : (returnS cfg h).csr.tselect = h.csr.tselect := rfl
@[simp] theorem returnS_triggers (cfg : Config) (h : Hart) : (returnS cfg h).csr.triggers = h.csr.triggers := rfl
@[simp] theorem returnS_resv (cfg : Config) (h : Hart) : (returnS cfg h).resv = h.resv := rfl
@[simp] theorem returnS_regDeps (cfg : Config) (h : Hart) : (returnS cfg h).regDeps = h.regDeps := rfl
@[simp] theorem returnS_ctrlDeps (cfg : Config) (h : Hart) : (returnS cfg h).ctrlDeps = h.ctrlDeps := rfl

@[simp] theorem returnVS_id (cfg : Config) (h : Hart) : (returnVS cfg h).id = h.id := rfl
@[simp] theorem returnVS_x (cfg : Config) (h : Hart) : (returnVS cfg h).x = h.x := rfl
@[simp] theorem returnVS_walk (cfg : Config) (h : Hart) : (returnVS cfg h).walk = h.walk := rfl
@[simp] theorem returnVS_pmp (cfg : Config) (h : Hart) : (returnVS cfg h).pmp = h.pmp := rfl
@[simp] theorem returnVS_tselect (cfg : Config) (h : Hart) : (returnVS cfg h).csr.tselect = h.csr.tselect := rfl
@[simp] theorem returnVS_triggers (cfg : Config) (h : Hart) : (returnVS cfg h).csr.triggers = h.csr.triggers := rfl
@[simp] theorem returnVS_resv (cfg : Config) (h : Hart) : (returnVS cfg h).resv = h.resv := rfl
@[simp] theorem returnVS_regDeps (cfg : Config) (h : Hart) : (returnVS cfg h).regDeps = h.regDeps := rfl
@[simp] theorem returnVS_ctrlDeps (cfg : Config) (h : Hart) : (returnVS cfg h).ctrlDeps = h.ctrlDeps := rfl

@[simp] theorem trapEntry_id (cfg : Config) (n : Nat) (t : TrapRecord) (h : Hart) :
    (trapEntry cfg n t h).id = h.id := by
  unfold trapEntry; split <;> rfl
@[simp] theorem trapEntry_x (cfg : Config) (n : Nat) (t : TrapRecord) (h : Hart) :
    (trapEntry cfg n t h).x = h.x := by
  unfold trapEntry; split <;> rfl
@[simp] theorem trapEntry_walk (cfg : Config) (n : Nat) (t : TrapRecord) (h : Hart) :
    (trapEntry cfg n t h).walk = h.walk := by
  unfold trapEntry; split <;> rfl
@[simp] theorem trapEntry_pmp (cfg : Config) (n : Nat) (t : TrapRecord) (h : Hart) :
    (trapEntry cfg n t h).pmp = h.pmp := by
  unfold trapEntry; split <;> rfl
@[simp] theorem trapEntry_tselect (cfg : Config) (n : Nat) (t : TrapRecord) (h : Hart) :
    (trapEntry cfg n t h).csr.tselect = h.csr.tselect := by
  unfold trapEntry; split <;> rfl
@[simp] theorem trapEntry_triggers (cfg : Config) (n : Nat) (t : TrapRecord) (h : Hart) :
    (trapEntry cfg n t h).csr.triggers = h.csr.triggers := by
  unfold trapEntry; split <;> rfl
@[simp] theorem trapEntry_resv (cfg : Config) (n : Nat) (t : TrapRecord) (h : Hart) :
    (trapEntry cfg n t h).resv = h.resv := by
  unfold trapEntry; split <;> rfl
@[simp] theorem trapEntry_regDeps (cfg : Config) (n : Nat) (t : TrapRecord) (h : Hart) :
    (trapEntry cfg n t h).regDeps = h.regDeps := by
  unfold trapEntry; split <;> rfl
@[simp] theorem trapEntry_ctrlDeps (cfg : Config) (n : Nat) (t : TrapRecord) (h : Hart) :
    (trapEntry cfg n t h).ctrlDeps = h.ctrlDeps := by
  unfold trapEntry; split <;> rfl

end Sys2Proof.Machine
end

