-- ==== Sys2Proof/Laws/Table.lean ====
section
/-! SUPPORT. The laws of tables and of memory: read after write, and the canonical form. -/

namespace Sys2Proof.Machine

variable {α : Type}

theorem Table.get?_put_same (t : Table α) (k : Nat) (v : α) : Table.get? (Table.put k v t) k = some v := by
  induction t with
  | nil => simp [Table.put, Table.get?]
  | cons e t ih =>
    obtain ⟨k', v'⟩ := e
    unfold Table.put
    split
    · simp [Table.get?]
    · split
      · simp [Table.get?]
      · simp only [Table.get?]
        rw [if_neg (by omega)]
        exact ih

theorem Table.get?_put_other (t : Table α) {k j : Nat} (v : α) (h : j ≠ k) :
    Table.get? (Table.put k v t) j = Table.get? t j := by
  induction t with
  | nil => simp [Table.put, Table.get?, Ne.symm h]
  | cons e t ih =>
    obtain ⟨k', v'⟩ := e
    unfold Table.put
    split
    · simp [Table.get?, Ne.symm h]
    · split
      · subst_vars; simp [Table.get?, Ne.symm h]
      · simp only [Table.get?, ih]

theorem Table.get?_del_same (t : Table α) (k : Nat) : Table.get? (Table.del k t) k = none := by
  induction t with
  | nil => rfl
  | cons e t ih =>
    obtain ⟨k', v'⟩ := e
    by_cases h : k' = k
    · subst h; simpa [Table.del] using ih
    · simpa [Table.del, h, Table.get?] using ih

theorem Table.get?_del_other (t : Table α) {k j : Nat} (h : j ≠ k) :
    Table.get? (Table.del k t) j = Table.get? t j := by
  induction t with
  | nil => rfl
  | cons e t ih =>
    obtain ⟨k', v'⟩ := e
    by_cases hk : k' = k
    · subst hk; simpa [Table.del, Table.get?, Ne.symm h] using ih
    · simp only [Table.del, Table.get?] at ih ⊢
      rw [List.filter_cons_of_pos (by simpa using hk)]
      simp only [Table.get?, ih]

theorem Table.mem_put {t : Table α} {k : Nat} {v : α} {e : Nat × α} (h : e ∈ Table.put k v t) : e = (k, v) ∨ e ∈ t := by
  induction t with
  | nil => simpa [Table.put] using h
  | cons e' t ih =>
    obtain ⟨k', v'⟩ := e'
    unfold Table.put at h
    split at h
    · simpa using h
    · split at h
      · rcases List.mem_cons.1 h with h | h
        · exact .inl h
        · exact .inr (List.mem_cons_of_mem _ h)
      · rcases List.mem_cons.1 h with h | h
        · exact .inr (h ▸ List.mem_cons_self)
        · rcases ih h with h | h
          · exact .inl h
          · exact .inr (List.mem_cons_of_mem _ h)

theorem Table.put_sorted {t : Table α} (h : Table.Sorted t) (k : Nat) (v : α) : Table.Sorted (Table.put k v t) := by
  induction t with
  | nil => simp [Table.put]
  | cons e t ih =>
    obtain ⟨k', v'⟩ := e
    have hk' := (List.pairwise_cons.1 h).1
    have ht := (List.pairwise_cons.1 h).2
    unfold Table.put
    split
    next hlt =>
      refine List.pairwise_cons.2 ⟨fun e he => ?_, h⟩
      rcases List.mem_cons.1 he with he | he
      · subst he; exact hlt
      · exact Nat.lt_trans hlt (hk' e he)
    next hlt =>
      split
      next heq => subst heq; exact List.pairwise_cons.2 ⟨hk', ht⟩
      next hne =>
        refine List.pairwise_cons.2 ⟨fun e he => ?_, ih ht⟩
        rcases Table.mem_put he with he | he
        · subst he; show k' < k; omega
        · exact hk' e he

theorem Table.del_sorted {t : Table α} (h : Table.Sorted t) (k : Nat) : Table.Sorted (Table.del k t) :=
  List.Pairwise.filter _ h

theorem Table.mem_of_get? {t : Table α} {k : Nat} {v : α} (h : Table.get? t k = some v) : (k, v) ∈ t := by
  induction t with
  | nil => cases h
  | cons e t ih =>
    obtain ⟨k', v'⟩ := e
    simp only [Table.get?] at h
    split at h
    next heq => cases h; subst heq; exact List.mem_cons_self
    next => exact List.mem_cons_of_mem _ (ih h)

/-- Storing at a key that is there already leaves the keys as they are. -/
theorem Table.keys_put_of_get? {t : Table α} (h : Table.Sorted t) {k : Nat} {d : α} (hk : Table.get? t k = some d) (v : α) :
    (Table.put k v t).map Prod.fst = t.map Prod.fst := by
  induction t with
  | nil => cases hk
  | cons e t ih =>
    obtain ⟨k', v'⟩ := e
    replace h := List.pairwise_cons.1 h
    unfold Table.get? at hk
    unfold Table.put
    by_cases hkk : k' = k
    · subst hkk; simp
    · rw [if_neg hkk] at hk
      have hlt : k' < k := h.1 (k, d) (Table.mem_of_get? hk)
      rw [if_neg (by omega), if_neg (by omega), List.map_cons, ih h.2 hk, List.map_cons]

/-- Storing at a key adds at most that key. -/
theorem Table.countP_put_le (p : Nat → Bool) (t : Table α) (k : Nat) (v : α) :
    (Table.put k v t).countP (fun e => p e.1) ≤ t.countP (fun e => p e.1) + if p k then 1 else 0 := by
  induction t with
  | nil => simp [Table.put, List.countP_cons]
  | cons e t ih =>
    obtain ⟨k', v'⟩ := e
    unfold Table.put
    split
    · simp [List.countP_cons]
    · split
      next h => subst h; simp only [List.countP_cons]; omega
      next => simp only [List.countP_cons]; omega

theorem Table.countP_put_of_get? (p : Nat → Bool) {t : Table α} (h : Table.Sorted t) {k : Nat} {d : α}
    (hk : Table.get? t k = some d) (v : α) :
    (Table.put k v t).countP (fun e => p e.1) = t.countP (fun e => p e.1) := by
  have := congrArg (List.countP p) (Table.keys_put_of_get? h hk v)
  rwa [List.countP_map, List.countP_map] at this

/-! ### Memory -/

theorem Memory.read_write_same (m : Memory) (a : Nat) (v : Byte) : Memory.read (Memory.write m a v) a = v := by
  unfold Memory.write Memory.read
  split
  next h => rw [Table.get?_del_same]; exact h.symm
  next => rw [Table.get?_put_same]; rfl

theorem Memory.read_write_other (m : Memory) {a x : Nat} (v : Byte) (h : x ≠ a) :
    Memory.read (Memory.write m a v) x = Memory.read m x := by
  unfold Memory.write Memory.read
  split
  · rw [Table.get?_del_other _ h]
  · rw [Table.get?_put_other _ _ h]

/-- Every write of memory keeps the canonical form. -/
theorem Memory.write_wf {m : Memory} (h : Memory.wf m) (a : Nat) (v : Byte) : Memory.wf (Memory.write m a v) := by
  unfold Memory.write
  split
  next => exact ⟨Table.del_sorted h.1 a, fun e he => h.2 e (List.mem_filter.1 he).1⟩
  next hv =>
    refine ⟨Table.put_sorted h.1 a v, fun e he => ?_⟩
    rcases Table.mem_put he with he | he
    · subst he; exact hv
    · exact h.2 e he

theorem Memory.writeBytes_wf {m : Memory} (h : Memory.wf m) (a : Nat) (vs : List Byte) :
    Memory.wf (Memory.writeBytes m a vs) := by
  induction vs generalizing m a with
  | nil => exact h
  | cons v vs ih => exact ih (Memory.write_wf h a v) (a + 1)

theorem Memory.read_writeBytes_outside (m : Memory) (a x : Nat) (vs : List Byte) (h : x < a ∨ a + vs.length ≤ x) :
    Memory.read (Memory.writeBytes m a vs) x = Memory.read m x := by
  induction vs generalizing m a with
  | nil => rfl
  | cons v vs ih =>
    simp only [List.length_cons] at h
    simp only [Memory.writeBytes]
    rw [ih (Memory.write m a v) (a + 1) (by omega), Memory.read_write_other _ _ (by omega)]

theorem Memory.read_writeBytes_inside (m : Memory) (a : Nat) (vs : List Byte) (i : Nat) (h : i < vs.length) :
    Memory.read (Memory.writeBytes m a vs) (a + i) = vs[i] := by
  induction vs generalizing m a i with
  | nil => exact absurd h (Nat.not_lt_zero i)
  | cons v vs ih =>
    simp only [Memory.writeBytes]
    cases i with
    | zero =>
      rw [Memory.read_writeBytes_outside _ _ _ _ (.inl (by omega))]
      exact Memory.read_write_same m a v
    | succ i =>
      have := ih (Memory.write m a v) (a + 1) i (by simpa using h)
      rw [show a + (i + 1) = a + 1 + i by omega, this]
      rfl

theorem Memory.nil_wf : Memory.wf [] := ⟨List.Pairwise.nil, fun _ h => absurd h List.not_mem_nil⟩

end Sys2Proof.Machine
end

