-- ==== Sys2Proof/Laws/Caches.lean ====
section
/-!
SUPPORT. What the operations on the memory system do: which of its parts each changes, what a set of coherent observers sees
afterwards, and that memory keeps its canonical form.
-/

namespace Sys2Proof.Machine

/-! ### The sets of coherent observers of a cached block -/

/-- Where no border runs through a block, the first region that contains an address of it is the first that meets it. -/
theorem find?_of_unsplit {α : Type} {region : α → Nat × Nat} {l : List α} {b size a : Nat} (h : unsplit region l b size = true)
    (h1 : b ≤ a) (h2 : a < b + size) :
    l.find? (fun r => inRange a (region r).1 (region r).2) =
      l.find? (fun r => rangesMeet b size (region r).1 (region r).2) := by
  induction l with
  | nil => rfl
  | cons r l ih =>
    unfold unsplit at h ih
    rw [List.find?_cons] at h ⊢
    rw [List.find?_cons]
    cases hm : rangesMeet b size (region r).1 (region r).2 with
    | true =>
      simp only [hm, Bool.and_eq_true, decide_eq_true_eq] at h
      rw [show inRange a (region r).1 (region r).2 = true from inRange_iff.2 (by omega)]
    | false =>
      rw [hm] at h
      have : inRange a (region r).1 (region r).2 = false := by
        rw [Bool.eq_false_iff, Ne, inRange_iff]
        simp only [rangesMeet, Bool.and_eq_false_iff, decide_eq_false_iff_not] at hm
        omega
      rw [this]
      exact ih h

/-- The locations of a block that a cache can hold all have the same sets of coherent observers (log entry 37). -/
theorem cohSetOf_of_cacheable {cfg : Config} {b a : Nat} (hc : cacheable cfg b = true) (h1 : b ≤ a) (h2 : a < b + cbsM cfg) (o : Nat) :
    cohSetOf cfg a o = cohSetOf cfg b o := by
  unfold cacheable at hc
  simp only [Bool.and_eq_true, decide_eq_true_eq] at hc
  obtain ⟨⟨⟨_, hp⟩, hpma⟩, hcoh⟩ := hc
  have hb : b < b + cbsM cfg := by omega
  have e1 := (find?_of_unsplit hpma h1 h2).trans (find?_of_unsplit hpma (Nat.le_refl b) hb).symm
  have e2 := (find?_of_unsplit hcoh h1 h2).trans (find?_of_unsplit hcoh (Nat.le_refl b) hb).symm
  have e3 : pmaAt cfg a = pmaAt cfg b := by
    unfold pmaAt
    rw [if_pos (by omega), if_pos (by omega)]
    simp only at e1
    rw [e1]
  unfold cohSetOf
  simp only at e2
  rw [e3, e2]

/-! ### Which caches a set reaches -/

theorem servedAt_congr {cfg : Config} {b : Nat} {c c' : Cache} (h : c'.serves = c.serves) : servedAt cfg b c' = servedAt cfg b c := by
  unfold servedAt; rw [h]

theorem reaches_congr {cfg : Config} {b : Nat} {k : CohSet} {c c' : Cache} (h : c'.serves = c.serves) :
    reaches cfg b k c' = reaches cfg b k c := by
  unfold reaches; rw [servedAt_congr h]

/-- A cache is a coherent cache of one set only. -/
theorem reaches_unique {cfg : Config} {b : Nat} {k k' : CohSet} {c : Cache} (h : reaches cfg b k c = true)
    (h' : reaches cfg b k' c = true) : k = k' := by
  unfold reaches at h h'
  cases hs : servedAt cfg b c with
  | nil => simp [hs] at h
  | cons o os =>
    simp only [hs, List.all_cons, Bool.and_eq_true, decide_eq_true_eq] at h h'
    exact h.2.1.symm.trans h'.2.1

theorem reaches_setOfCache {cfg : Config} {b : Nat} {k : CohSet} {c : Cache} (h : reaches cfg b k c = true) :
    setOfCache cfg b c = k := by
  unfold reaches at h
  unfold setOfCache
  cases hs : servedAt cfg b c with
  | nil => simp [hs] at h
  | cons o os =>
    simp only [hs, List.all_cons, Bool.and_eq_true, decide_eq_true_eq] at h
    exact h.2.1

/-- A coherent cache of a set is common to no two. -/
theorem common_of_reaches {cfg : Config} {b : Nat} {k : CohSet} {c : Cache} (h : reaches cfg b k c = true) :
    common cfg b c = false := by
  unfold common
  rw [reaches_setOfCache h, h]
  simp

theorem setOfCache_congr {cfg : Config} {b : Nat} {c c' : Cache} (h : c'.serves = c.serves) :
    setOfCache cfg b c' = setOfCache cfg b c := by
  unfold setOfCache; rw [servedAt_congr h]

theorem common_congr {cfg : Config} {b : Nat} {c c' : Cache} (h : c'.serves = c.serves) :
    common cfg b c' = common cfg b c := by
  unfold common; rw [setOfCache_congr h, reaches_congr h, servedAt_congr h]

/-! ### The copy a list of caches holds -/

/-- The copy of a block in a list of caches, of those the set reaches. -/
def heldIn (cfg : Config) (k : CohSet) (b : Nat) (l : List Cache) : Option (List Byte) :=
  l.findSome? (fun c => if reaches cfg b k c then Table.get? c.lines b else none)

theorem heldCopy_eq (cfg : Config) (ms : MemSys) (k : CohSet) (b : Nat) : heldCopy cfg ms k b = heldIn cfg k b ms.caches := rfl

theorem heldIn_nil (cfg : Config) (k : CohSet) (b : Nat) : heldIn cfg k b [] = none := rfl

theorem heldIn_cons (cfg : Config) (k : CohSet) (b : Nat) (c : Cache) (l : List Cache) :
    heldIn cfg k b (c :: l) = ((if reaches cfg b k c then Table.get? c.lines b else none) <|> heldIn cfg k b l) := by
  unfold heldIn
  rw [List.findSome?_cons]
  cases (if reaches cfg b k c = true then Table.get? c.lines b else none) <;> rfl

theorem exists_of_heldIn {cfg : Config} {k : CohSet} {b : Nat} {l : List Cache} {d : List Byte}
    (h : heldIn cfg k b l = some d) : ∃ c ∈ l, reaches cfg b k c = true ∧ Table.get? c.lines b = some d := by
  obtain ⟨c, hc, hd⟩ := List.exists_of_findSome?_eq_some h
  split at hd
  next hr => exact ⟨c, hc, hr, hd⟩
  next => cases hd

theorem heldIn_isSome_of_mem {cfg : Config} {k : CohSet} {b : Nat} {l : List Cache} {c : Cache} {d : List Byte}
    (hc : c ∈ l) (hr : reaches cfg b k c = true) (hd : Table.get? c.lines b = some d) : (heldIn cfg k b l).isSome = true := by
  cases h : heldIn cfg k b l with
  | some => rfl
  | none =>
    have := List.findSome?_eq_none_iff.1 h c hc
    rw [if_pos hr, hd] at this
    cases this

/-- Where the copies agree, any copy a cache of the set holds is the one the set sees. -/
theorem heldCopy_of_mem {cfg : Config} {ms : MemSys} (ha : CopiesAgree cfg ms) {k : CohSet} {b : Nat} {c : Cache} {d : List Byte}
    (hc : c ∈ ms.caches) (hr : reaches cfg b k c = true) (hd : Table.get? c.lines b = some d) :
    heldCopy cfg ms k b = some d := by
  obtain ⟨d', hd'⟩ := Option.isSome_iff_exists.1 (heldIn_isSome_of_mem hc hr hd)
  obtain ⟨c', hc', hr', hg⟩ := exists_of_heldIn hd'
  rw [heldCopy_eq, hd', ha c hc c' hc' k b d d' hr hr' hd hg]

/-- A change of each cache that keeps the observers it serves and the copy of this block where the set reaches it keeps the copy
the set sees. -/
theorem heldIn_map_congr {cfg : Config} {k : CohSet} {b : Nat} {f : Cache → Cache} (hs : ∀ c, (f c).serves = c.serves)
    (hg : ∀ c, reaches cfg b k c = true → Table.get? (f c).lines b = Table.get? c.lines b) (l : List Cache) :
    heldIn cfg k b (l.map f) = heldIn cfg k b l := by
  induction l with
  | nil => rfl
  | cons c l ih =>
    rw [List.map_cons, heldIn_cons, heldIn_cons, ih, reaches_congr (hs c)]
    split
    next h => rw [hg c h]
    next => rfl

theorem heldIn_mapFirst_congr {cfg : Config} {k : CohSet} {b : Nat} {f : Cache → Cache} {p : Cache → Bool}
    (hs : ∀ c, (f c).serves = c.serves)
    (hg : ∀ c, reaches cfg b k c = true → p c = true → Table.get? (f c).lines b = Table.get? c.lines b) (l : List Cache) :
    heldIn cfg k b (mapFirst p f l) = heldIn cfg k b l := by
  induction l with
  | nil => rfl
  | cons c l ih =>
    unfold mapFirst
    split
    next hp =>
      rw [heldIn_cons, heldIn_cons, reaches_congr (hs c)]
      split
      next h => rw [hg c h hp]
      next => rfl
    next => rw [heldIn_cons, heldIn_cons, ih]

/-- The first cache that fetches a block holds it afterwards, where the set held none. -/
theorem heldIn_mapFirst_addLine {cfg : Config} {k : CohSet} {b : Nat} {d : List Byte} {l : List Cache} {p : Cache → Bool}
    (hp : ∀ c, p c = true → reaches cfg b k c = true) (hn : heldIn cfg k b l = none) (ha : l.any p = true) :
    heldIn cfg k b (mapFirst p (addLine b d) l) = some d := by
  induction l with
  | nil => simp at ha
  | cons c l ih =>
    unfold mapFirst
    split
    next h =>
      rw [heldIn_cons, reaches_congr (addLine_serves b d c), if_pos (hp c h), addLine_lines, Table.get?_put_same]
      rfl
    next h =>
      rw [heldIn_cons] at hn ⊢
      simp only [List.any_cons, Bool.or_eq_true] at ha
      cases hc : (if reaches cfg b k c = true then Table.get? c.lines b else none) with
      | some d => rw [hc] at hn; cases hn
      | none => rw [hc] at hn; exact ih hn (ha.resolve_left h)

/-! ### Single caches -/

theorem patchLine_serves (b i : Nat) (v : Byte) (c : Cache) : (patchLine b i v c).serves = c.serves := by
  unfold patchLine; split <;> rfl

theorem get?_patchLine_same (b i : Nat) (v : Byte) (c : Cache) :
    Table.get? (patchLine b i v c).lines b = (Table.get? c.lines b).map (fun d => d.set i v) := by
  unfold patchLine
  split
  next d h => rw [h]; exact Table.get?_put_same _ _ _
  next h => rw [h]; rfl

theorem get?_patchLine_other {b b' : Nat} (i : Nat) (v : Byte) (c : Cache) (h : b' ≠ b) :
    Table.get? (patchLine b i v c).lines b' = Table.get? c.lines b' := by
  unfold patchLine
  split
  next => exact Table.get?_put_other _ _ h
  next => rfl

theorem replaceLine_serves (b : Nat) (d : List Byte) (c : Cache) : (replaceLine b d c).serves = c.serves := by
  unfold replaceLine; split <;> rfl

theorem get?_replaceLine_other {b b' : Nat} (d : List Byte) (c : Cache) (h : b' ≠ b) :
    Table.get? (replaceLine b d c).lines b' = Table.get? c.lines b' := by
  unfold replaceLine
  split
  next => exact Table.get?_put_other _ _ h
  next => rfl

/-- The copy a cache holds after another was put in its place. -/
theorem get?_replaceLine_same {b : Nat} {d d' : List Byte} {c : Cache} (h : Table.get? (replaceLine b d c).lines b = some d') :
    d' = d := by
  unfold replaceLine at h
  split at h
  next => rw [addLine_lines, Table.get?_put_same] at h; exact (Option.some.inj h).symm
  next hn => rw [hn] at h; cases h

/-- Patching the copies of the set changes the copy it sees in one place. -/
theorem heldIn_patch (cfg : Config) (k : CohSet) (b i : Nat) (v : Byte) (l : List Cache) :
    heldIn cfg k b (l.map (fun c => if reaches cfg b k c then patchLine b i v c else c))
      = (heldIn cfg k b l).map (fun d => d.set i v) := by
  induction l with
  | nil => rfl
  | cons c l ih =>
    rw [List.map_cons, heldIn_cons, heldIn_cons, ih]
    by_cases hr : reaches cfg b k c = true
    · rw [if_pos hr, if_pos hr, reaches_congr (patchLine_serves b i v c), if_pos hr, get?_patchLine_same]
      cases Table.get? c.lines b <;> rfl
    · rw [if_neg hr, if_neg hr]
      rfl

/-! ### Writes to memory -/

@[simp] theorem writeMem_mem (cfg : Config) (b a : Nat) (vs : List Byte) (ms : MemSys) :
    (writeMem cfg b a vs ms).mem = Memory.writeBytes ms.mem a vs := rfl
@[simp] theorem writeMem_dirty (cfg : Config) (b a : Nat) (vs : List Byte) (ms : MemSys) :
    (writeMem cfg b a vs ms).dirty = ms.dirty := rfl

/-- A write to memory changes no copy that a set sees: the common caches are no set's own. -/
theorem heldCopy_writeMem (cfg : Config) (b a : Nat) (vs : List Byte) (ms : MemSys) (k : CohSet) (b' : Nat) :
    heldCopy cfg (writeMem cfg b a vs ms) k b' = heldCopy cfg ms k b' := by
  refine heldIn_map_congr (fun c => ?_) (fun c hr => ?_) _
  · split
    · exact replaceLine_serves _ _ _
    · rfl
  · split
    next hc =>
      by_cases hb : b' = b
      · subst hb; rw [common_of_reaches hr] at hc; cases hc
      · exact get?_replaceLine_other _ _ hb
    next => rfl

/-! ### Stores -/

theorem onPath_reaches {cfg : Config} {b o : Nat} {c : Cache} (h : onPath cfg b o c = true) :
    reaches cfg b (cohSetOf cfg b o) c = true := by
  unfold onPath at h
  simp only [Bool.and_eq_true] at h
  exact h.1.1

theorem hasRoom_of_onPath {cfg : Config} {b o : Nat} {c : Cache} (h : onPath cfg b o c = true) : hasRoom cfg c b = true := by
  unfold onPath at h
  simp only [Bool.and_eq_true] at h
  exact h.2

theorem storeBy_cached {cfg : Config} {o a : Nat} {v : Byte} {ms : MemSys}
    (h : canCache cfg ms (blkBase a (cbsM cfg)) o = true) :
    storeBy cfg o a v ms = storeCached cfg o (blkBase a (cbsM cfg)) (a - blkBase a (cbsM cfg)) v ms := if_pos h

theorem storeBy_uncached {cfg : Config} {o a : Nat} {v : Byte} {ms : MemSys}
    (h : ¬ canCache cfg ms (blkBase a (cbsM cfg)) o = true) :
    storeBy cfg o a v ms = writeMem cfg (blkBase a (cbsM cfg)) a [v] ms := if_neg h

theorem storeBy_uncached_mem {cfg : Config} {o a : Nat} {v : Byte} {ms : MemSys}
    (h : ¬ canCache cfg ms (blkBase a (cbsM cfg)) o = true) : (storeBy cfg o a v ms).mem = Memory.write ms.mem a v := by
  rw [storeBy_uncached h]; rfl

theorem storeCached_mem (cfg : Config) (o b i : Nat) (v : Byte) (ms : MemSys) :
    (storeCached cfg o b i v ms).mem = ms.mem := rfl

theorem storeCached_dirty (cfg : Config) (o b i : Nat) (v : Byte) (ms : MemSys) :
    (storeCached cfg o b i v ms).dirty = setDirty (cohSetOf cfg b o) b ms.dirty := rfl

theorem heldIn_fetchedCaches_other (cfg : Config) (ms : MemSys) {k : CohSet} {o b b' : Nat}
    (h : b' ≠ b ∨ k ≠ cohSetOf cfg b o) :
    heldIn cfg k b' (fetchedCaches cfg ms b o) = heldIn cfg k b' ms.caches := by
  unfold fetchedCaches
  split
  · rfl
  · refine heldIn_mapFirst_congr (fun c => addLine_serves _ _ c) (fun c hr hp => ?_) _
    by_cases hb : b' = b
    · subst hb; exact absurd (reaches_unique hr (onPath_reaches hp)) (h.resolve_left (fun h => h rfl))
    · exact Table.get?_put_other _ _ hb

theorem heldIn_fetchedCaches_same {cfg : Config} {ms : MemSys} {b o : Nat} (h : canCache cfg ms b o = true) :
    heldIn cfg (cohSetOf cfg b o) b (fetchedCaches cfg ms b o)
      = some ((heldCopy cfg ms (cohSetOf cfg b o) b).getD (blockView cfg ms (cohSetOf cfg b o) b)) := by
  unfold fetchedCaches
  split
  next hs =>
    obtain ⟨d, hd⟩ := Option.isSome_iff_exists.1 hs
    rw [hd]; exact hd
  next hs =>
    have hn : heldCopy cfg ms (cohSetOf cfg b o) b = none := by simpa using hs
    have ha : ms.caches.any (onPath cfg b o) = true := by
      unfold canCache at h
      rw [hn] at h
      exact (Bool.and_eq_true _ _ ▸ h).2
    rw [hn, heldIn_mapFirst_addLine (fun c hc => onPath_reaches hc) hn ha]; rfl

theorem heldCopy_storeCached_other (cfg : Config) (ms : MemSys) {k : CohSet} {o b b' : Nat} (i : Nat) (v : Byte)
    (h : b' ≠ b ∨ k ≠ cohSetOf cfg b o) :
    heldCopy cfg (storeCached cfg o b i v ms) k b' = heldCopy cfg ms k b' := by
  rw [heldCopy_eq, heldCopy_eq, ← heldIn_fetchedCaches_other cfg ms h]
  refine heldIn_map_congr (fun c => ?_) (fun c hr => ?_) _
  · split
    · exact patchLine_serves _ _ _ c
    · rfl
  · split
    next hp =>
      by_cases hb : b' = b
      · subst hb; exact absurd (reaches_unique hr hp) (h.resolve_left (fun h => h rfl))
      · exact get?_patchLine_other _ _ c hb
    next => rfl

/-- A store satisfied by the set's caches changes the copy it sees in one place. -/
theorem heldCopy_storeCached_same {cfg : Config} {ms : MemSys} {b o : Nat} (i : Nat) (v : Byte)
    (h : canCache cfg ms b o = true) :
    heldCopy cfg (storeCached cfg o b i v ms) (cohSetOf cfg b o) b
      = some (((heldCopy cfg ms (cohSetOf cfg b o) b).getD (blockView cfg ms (cohSetOf cfg b o) b)).set i v) := by
  have h1 := heldIn_patch cfg (cohSetOf cfg b o) b i v (fetchedCaches cfg ms b o)
  rw [heldIn_fetchedCaches_same h] at h1
  exact h1

theorem length_blockView (cfg : Config) (ms : MemSys) (k : CohSet) (b : Nat) : (blockView cfg ms k b).length = cbsM cfg := by
  simp [blockView]

theorem getD_blockView (cfg : Config) (ms : MemSys) (k : CohSet) (b i : Nat) (h : i < cbsM cfg) :
    (blockView cfg ms k b).getD i Memory.unlisted = view cfg ms k (b + i) := by
  simp [blockView, List.getD, h]

/-- The copy a set sees is a whole block. -/
theorem length_heldCopy {cfg : Config} {ms : MemSys} (hw : LinesWhole cfg ms) {k : CohSet} {b : Nat} {d : List Byte}
    (h : heldCopy cfg ms k b = some d) : d.length = cbsM cfg := by
  obtain ⟨c, hc, _, hd⟩ := exists_of_heldIn h
  exact hw c hc (b, d) (Table.mem_of_get? hd)

theorem canCache_of_heldCopy {cfg : Config} {ms : MemSys} {b o : Nat} (hc : cacheable cfg b = true)
    (h : (heldCopy cfg ms (cohSetOf cfg b o) b).isSome = true) : canCache cfg ms b o = true := by
  unfold canCache; rw [hc, h]; rfl

/-- What a set sees where its caches can hold the block and do. -/
theorem view_of_held {cfg : Config} {ms : MemSys} {k : CohSet} {a : Nat} {d : List Byte}
    (hc : cacheable cfg (blkBase a (cbsM cfg)) = true) (hd : heldCopy cfg ms k (blkBase a (cbsM cfg)) = some d) :
    view cfg ms k a = d.getD (a - blkBase a (cbsM cfg)) Memory.unlisted := by
  unfold view; rw [if_pos hc, hd]

/-- What a set sees where its caches hold no copy. -/
theorem view_of_none {cfg : Config} {ms : MemSys} {k : CohSet} {a : Nat}
    (hd : heldCopy cfg ms k (blkBase a (cbsM cfg)) = none) : view cfg ms k a = Memory.read ms.mem a := by
  unfold view; rw [hd]; split <;> rfl

/-- What a set sees of a location that no cache can hold. -/
theorem view_of_uncacheable {cfg : Config} {ms : MemSys} {k : CohSet} {a : Nat}
    (hc : cacheable cfg (blkBase a (cbsM cfg)) = false) : view cfg ms k a = Memory.read ms.mem a := by
  unfold view; rw [if_neg (by simp [hc])]

/-- What an observer's set sees of a block that its caches neither hold nor have room for, before and after an operation that leaves
its caches' copy alone. -/
theorem view_eq_mem_of_not_canCache {cfg : Config} {ms ms' : MemSys} {o a : Nat}
    (h : ¬ canCache cfg ms (blkBase a (cbsM cfg)) o = true)
    (he : heldCopy cfg ms' (cohAt cfg a o) (blkBase a (cbsM cfg)) = heldCopy cfg ms (cohAt cfg a o) (blkBase a (cbsM cfg))) :
    view cfg ms' (cohAt cfg a o) a = Memory.read ms'.mem a := by
  cases hc : cacheable cfg (blkBase a (cbsM cfg)) with
  | false => exact view_of_uncacheable hc
  | true =>
    cases hd : heldCopy cfg ms (cohAt cfg a o) (blkBase a (cbsM cfg)) with
    | none => exact view_of_none (he.trans hd)
    | some d => exact absurd (canCache_of_heldCopy hc (by rw [show cohSetOf _ _ _ = cohAt cfg a o from rfl, hd]; rfl)) h

theorem length_latest {cfg : Config} {ms : MemSys} (hw : LinesWhole cfg ms) (k : CohSet) (b : Nat) :
    ((heldCopy cfg ms k b).getD (blockView cfg ms k b)).length = cbsM cfg := by
  cases hh : heldCopy cfg ms k b with
  | some d => exact length_heldCopy hw hh
  | none => exact length_blockView _ _ _ _

/-- The copy a store finds or fetches holds, at each place, what the set saw there. -/
theorem getD_latest {cfg : Config} (ms : MemSys) (k : CohSet) (a : Nat) (hc : cacheable cfg (blkBase a (cbsM cfg)) = true) :
    ((heldCopy cfg ms k (blkBase a (cbsM cfg))).getD (blockView cfg ms k (blkBase a (cbsM cfg)))).getD
      (a - blkBase a (cbsM cfg)) Memory.unlisted = view cfg ms k a := by
  have h1 := blkBase_le a (cbsM cfg)
  have h2 := lt_blkBase_add a (cbsM_pos cfg)
  cases hh : heldCopy cfg ms k (blkBase a (cbsM cfg)) with
  | some d => exact (view_of_held hc hh).symm
  | none =>
    rw [Option.getD_none, getD_blockView _ _ _ _ _ (by omega), Nat.add_sub_cancel' h1]

/-- After a store, the observer sees the value stored at the address (R55, R60). -/
theorem viewOf_storeBy_same {cfg : Config} {ms : MemSys} (hw : LinesWhole cfg ms) (o a : Nat) (v : Byte) :
    viewOf cfg (storeBy cfg o a v ms) o a = v := by
  have h1 := blkBase_le a (cbsM cfg)
  have h2 := lt_blkBase_add a (cbsM_pos cfg)
  unfold viewOf
  by_cases h : canCache cfg ms (blkBase a (cbsM cfg)) o = true
  · have hc : cacheable cfg (blkBase a (cbsM cfg)) = true := by
      unfold canCache at h; exact (Bool.and_eq_true _ _ ▸ h).1
    rw [storeBy_cached h, view_of_held (k := cohAt cfg a o) hc (heldCopy_storeCached_same _ _ h)]
    simp [List.getD, length_latest hw, show a - blkBase a (cbsM cfg) < cbsM cfg by omega]
  · rw [view_eq_mem_of_not_canCache h (by rw [storeBy_uncached h]; exact heldCopy_writeMem _ _ _ _ _ _ _), storeBy_uncached_mem h]
    exact Memory.read_write_same _ _ _

/-- After a store, the set of the storing observer sees at every other address what it saw before. -/
theorem view_storeBy_other {cfg : Config} (ms : MemSys) (o : Nat) {a x : Nat} (v : Byte) (hx : x ≠ a) :
    view cfg (storeBy cfg o a v ms) (cohAt cfg x o) x = view cfg ms (cohAt cfg x o) x := by
  by_cases h : canCache cfg ms (blkBase a (cbsM cfg)) o = true
  · rw [storeBy_cached h]
    by_cases hb : blkBase x (cbsM cfg) = blkBase a (cbsM cfg)
    · have hc : cacheable cfg (blkBase x (cbsM cfg)) = true := by
        unfold canCache at h; exact hb ▸ (Bool.and_eq_true _ _ ▸ h).1
      have hs := heldCopy_storeCached_same (a - blkBase a (cbsM cfg)) v h
      have h1 := blkBase_le x (cbsM cfg)
      have h2 := blkBase_le a (cbsM cfg)
      rw [← hb] at hs h2 ⊢
      rw [view_of_held (k := cohAt cfg x o) hc hs, ← getD_latest ms (cohAt cfg x o) x hc]
      simp only [List.getD, List.getElem?_set_ne (show a - blkBase x (cbsM cfg) ≠ x - blkBase x (cbsM cfg) by omega)]
      rfl
    · unfold view
      rw [heldCopy_storeCached_other _ _ _ _ (.inl hb)]
      rfl
  · unfold view
    rw [storeBy_uncached_mem h, Memory.read_write_other _ _ hx, storeBy_uncached h, heldCopy_writeMem]

theorem mapFirst_forall {p : Cache → Bool} {f : Cache → Cache} {q : Cache → Prop} {l : List Cache} (h : ∀ c ∈ l, q c)
    (hf : ∀ c ∈ l, q (f c)) : ∀ c ∈ mapFirst p f l, q c := by
  induction l with
  | nil => exact fun c hc => absurd hc List.not_mem_nil
  | cons c l ih =>
    unfold mapFirst
    split
    · intro c' hc'
      rcases List.mem_cons.1 hc' with rfl | hc'
      · exact hf c List.mem_cons_self
      · exact h c' (List.mem_cons_of_mem _ hc')
    · intro c' hc'
      rcases List.mem_cons.1 hc' with rfl | hc'
      · exact h _ List.mem_cons_self
      · exact ih (fun c hc => h c (List.mem_cons_of_mem _ hc)) (fun c hc => hf c (List.mem_cons_of_mem _ hc)) c' hc'

/-- A cache whose copies are whole blocks still has whole blocks when it fetches one. -/
theorem addLine_whole {cfg : Config} {b : Nat} {d : List Byte} {c : Cache} (hd : d.length = cbsM cfg)
    (h : ∀ e ∈ c.lines, e.2.length = cbsM cfg) : ∀ e ∈ (addLine b d c).lines, e.2.length = cbsM cfg := by
  intro e he
  rcases Table.mem_put he with rfl | he
  · exact hd
  · exact h e he

theorem replaceLine_whole {cfg : Config} {b : Nat} {d : List Byte} {c : Cache} (hd : d.length = cbsM cfg)
    (h : ∀ e ∈ c.lines, e.2.length = cbsM cfg) : ∀ e ∈ (replaceLine b d c).lines, e.2.length = cbsM cfg := by
  unfold replaceLine
  split
  · exact addLine_whole hd h
  · exact h

theorem length_memBlock (cfg : Config) (m : Memory) (b : Nat) : (memBlock cfg m b).length = cbsM cfg := by
  simp [memBlock]

theorem writeMem_whole {cfg : Config} {ms : MemSys} (hw : LinesWhole cfg ms) (b a : Nat) (vs : List Byte) :
    LinesWhole cfg (writeMem cfg b a vs ms) := by
  intro c hc
  obtain ⟨c0, h0, rfl⟩ := List.mem_map.1 hc
  split
  · exact replaceLine_whole (length_memBlock _ _ _) (hw c0 h0)
  · exact hw c0 h0

theorem patchLine_whole {cfg : Config} {b i : Nat} {v : Byte} {c : Cache}
    (h : ∀ e ∈ c.lines, e.2.length = cbsM cfg) : ∀ e ∈ (patchLine b i v c).lines, e.2.length = cbsM cfg := by
  unfold patchLine
  split
  next d hd =>
    intro e he
    rcases Table.mem_put he with rfl | he
    · rw [List.length_set]; exact h (b, d) (Table.mem_of_get? hd)
    · exact h e he
  next => exact h

/-- A store keeps the copies whole. -/
theorem storeBy_whole {cfg : Config} {ms : MemSys} (hw : LinesWhole cfg ms) (o a : Nat) (v : Byte) :
    LinesWhole cfg (storeBy cfg o a v ms) := by
  unfold storeBy
  split
  · intro c hc
    simp only [storeCached, List.mem_map] at hc
    obtain ⟨c0, hc0, rfl⟩ := hc
    have h0 : ∀ e ∈ c0.lines, e.2.length = cbsM cfg := by
      unfold fetchedCaches at hc0
      split at hc0
      · exact hw c0 hc0
      · exact mapFirst_forall (q := fun c => ∀ e ∈ c.lines, e.2.length = cbsM cfg) hw
          (fun c hc => addLine_whole (length_blockView _ _ _ _) (hw c hc)) c0 hc0
    split
    · exact patchLine_whole h0
    · exact h0
  · exact writeMem_whole hw _ _ _

/-- A store keeps memory canonical. -/
theorem storeBy_mem_wf {cfg : Config} {ms : MemSys} (h : Memory.wf ms.mem) (o a : Nat) (v : Byte) :
    Memory.wf (storeBy cfg o a v ms).mem := by
  unfold storeBy
  split
  · exact h
  · exact Memory.write_wf h a v

theorem storeBytesBy_mem_wf {cfg : Config} {ms : MemSys} (h : Memory.wf ms.mem) (o a : Nat) (vs : List Byte) :
    Memory.wf (storeBytesBy cfg o a vs ms).mem := by
  induction vs generalizing ms a with
  | nil => exact h
  | cons v vs ih => exact ih (storeBy_mem_wf h _ a v) (a + 1)

/-! ### Invalidate, clean, flush -/

theorem invalidateBlock_mem (cfg : Config) (k : CohSet) (b : Nat) (ms : MemSys) : (invalidateBlock cfg k b ms).mem = ms.mem := by
  unfold invalidateBlock; split <;> rfl

theorem heldCopy_cleanBlock (cfg : Config) (k : CohSet) (b : Nat) (ms : MemSys) (k' : CohSet) (b' : Nat) :
    heldCopy cfg (cleanBlock cfg k b ms) k' b' = heldCopy cfg ms k' b' := by
  unfold cleanBlock; split
  · exact heldCopy_writeMem _ _ _ _ _ _ _
  · rfl

theorem cleanBlock_mem_wf {cfg : Config} {ms : MemSys} (h : Memory.wf ms.mem) (k : CohSet) (b : Nat) :
    Memory.wf (cleanBlock cfg k b ms).mem := by
  unfold cleanBlock
  split
  · exact Memory.writeBytes_wf h _ _
  · exact h

theorem flushBlock_mem (cfg : Config) (k : CohSet) (b : Nat) (ms : MemSys) :
    (flushBlock cfg k b ms).mem = (cleanBlock cfg k b ms).mem := invalidateBlock_mem _ _ _ _

/-- Every operation keeps memory canonical. -/
theorem MemOp.effect_mem_wf {cfg : Config} {ms : MemSys} (h : Memory.wf ms.mem) (o : Nat) (op : MemOp) :
    Memory.wf (op.effect cfg o ms).mem := by
  cases op with
  | load => exact h
  | store a vs => exact storeBytesBy_mem_wf h o a vs
  | invalidate b => exact (invalidateBlock_mem cfg _ _ ms).symm ▸ h
  | clean b => exact cleanBlock_mem_wf h _ _
  | flush b => exact (flushBlock_mem cfg _ _ ms).symm ▸ cleanBlock_mem_wf h _ _
  | fence => exact h

/-- What every operation keeps, operations one after the other keep. -/
theorem effects_keeps {cfg : Config} {p : MemSys → Prop} (hp : ∀ (e : Event) ms, p ms → p (e.op.effect cfg e.obs ms))
    (es : List Event) {ms : MemSys} (h : p ms) : p (effects cfg es ms) := by
  induction es generalizing ms with
  | nil => exact h
  | cons e es ih => exact ih (hp e ms h)

theorem effects_mem_wf {cfg : Config} {ms : MemSys} (h : Memory.wf ms.mem) (es : List Event) :
    Memory.wf (effects cfg es ms).mem :=
  effects_keeps (p := fun ms => Memory.wf ms.mem) (fun e _ h => e.op.effect_mem_wf h e.obs) es h

/-! ### The caches' own moves -/

theorem allocateLine_mem (cfg : Config) (i b : Nat) (ms : MemSys) : (allocateLine cfg i b ms).mem = ms.mem := by
  unfold allocateLine; split
  · rfl
  · split <;> rfl

theorem allocateLine_dirty (cfg : Config) (i b : Nat) (ms : MemSys) : (allocateLine cfg i b ms).dirty = ms.dirty := by
  unfold allocateLine; split
  · rfl
  · split <;> rfl

theorem transferLine_mem (cfg : Config) (k : CohSet) (i b : Nat) (dest : Option Nat) (ms : MemSys) :
    (transferLine cfg k i b dest ms).mem = ms.mem := by
  unfold transferLine; split
  · rfl
  · split
    · exact allocateLine_mem _ _ _ _
    · rfl

theorem transferLine_dirty (cfg : Config) (k : CohSet) (i b : Nat) (dest : Option Nat) (ms : MemSys) :
    (transferLine cfg k i b dest ms).dirty = ms.dirty := by
  unfold transferLine; split
  · rfl
  · split
    · exact allocateLine_dirty _ _ _ _
    · rfl

theorem deallocateLine_mem (cfg : Config) (i b : Nat) (dest : Option Nat) (ms : MemSys) :
    (deallocateLine cfg i b dest ms).mem = ms.mem := by
  unfold deallocateLine; split
  · rfl
  · split
    · rfl
    · split
      · exact transferLine_mem _ _ _ _ _ _
      · rfl

theorem deallocateLine_dirty (cfg : Config) (i b : Nat) (dest : Option Nat) (ms : MemSys) :
    (deallocateLine cfg i b dest ms).dirty = ms.dirty := by
  unfold deallocateLine; split
  · rfl
  · split
    · rfl
    · split
      · exact transferLine_dirty _ _ _ _ _ _
      · rfl

theorem writeBackLine_mem_wf {cfg : Config} {ms : MemSys} (h : Memory.wf ms.mem) (i b : Nat) :
    Memory.wf (writeBackLine cfg i b ms).mem := by
  unfold writeBackLine; split
  · exact h
  · split
    · exact h
    · split
      · exact Memory.writeBytes_wf h _ _
      · exact h

theorem hintLine_mem (cfg : Config) (n o pa : Nat) (ms : MemSys) : (hintLine cfg n o pa ms).mem = ms.mem := by
  unfold hintLine; split
  · rfl
  · exact allocateLine_mem _ _ _ _

theorem placeByte_mem_wf {cfg : Config} {ms : MemSys} (h : Memory.wf ms.mem) (a : Nat) (v : Byte) :
    Memory.wf (placeByte cfg a v ms).mem := Memory.write_wf h a v

/-- The reset state's memory is in canonical form. -/
theorem reset_memory_wf : Memory.wf State.reset.sys.mem := Memory.nil_wf

end Sys2Proof.Machine
end

