-- ==== Sys2Proof/Laws/Coherence.lean ====
section
/-!
SUPPORT. Every operation on the memory system keeps it coherent (R63 to R68, R211): whole copies in order, copies of one set that
agree, and stored-to data held somewhere.
-/

namespace Sys2Proof.Machine

/-! ### The store-since-write state -/

theorem mem_setDirty {k k' : CohSet} {b b' : Nat} {d : List (CohSet × Nat)} :
    (k', b') ∈ setDirty k b d ↔ (k', b') = (k, b) ∨ (k', b') ∈ d := by
  unfold setDirty
  split
  next h =>
    have hm : (k, b) ∈ d := by simpa using h
    exact ⟨.inr, fun h' => h'.elim (fun e => e ▸ hm) id⟩
  next => simp [or_comm]

theorem setDirty_nodup {k : CohSet} {b : Nat} {d : List (CohSet × Nat)} (h : d.Nodup) : (setDirty k b d).Nodup := by
  unfold setDirty
  split
  next => exact h
  next hn =>
    have hn : (k, b) ∉ d := by simpa using hn
    exact List.nodup_append.2 ⟨h, List.nodup_singleton _, fun x hx y hy e => hn (List.mem_singleton.1 hy ▸ e ▸ hx)⟩

theorem mem_clearDirty {k k' : CohSet} {b b' : Nat} {d : List (CohSet × Nat)} :
    (k', b') ∈ clearDirty k b d ↔ (k', b') ∈ d ∧ (k', b') ≠ (k, b) := by
  unfold clearDirty; rw [List.mem_filter, decide_eq_true_eq]

theorem clearDirty_nodup {k : CohSet} {b : Nat} {d : List (CohSet × Nat)} (h : d.Nodup) : (clearDirty k b d).Nodup :=
  h.filter _

theorem isDirty_iff {ms : MemSys} {k : CohSet} {b : Nat} : isDirty ms k b = true ↔ (k, b) ∈ ms.dirty := by
  unfold isDirty; simp

/-! ### Copies that agree -/

/-- Copies agree as soon as every copy a set reaches is the one the set sees. -/
theorem copiesAgree_of_held {cfg : Config} {ms : MemSys}
    (h : ∀ c ∈ ms.caches, ∀ k b d, reaches cfg b k c = true → Table.get? c.lines b = some d → heldCopy cfg ms k b = some d) :
    CopiesAgree cfg ms := by
  intro c hc c' hc' k b d d' hr hr' hd hd'
  exact Option.some.inj ((h c hc k b d hr hd).symm.trans (h c' hc' k b d' hr' hd'))

theorem mem_mapFirst {p : Cache → Bool} {f : Cache → Cache} {l : List Cache} {c : Cache} (h : c ∈ mapFirst p f l) :
    c ∈ l ∨ ∃ c0 ∈ l, p c0 = true ∧ c = f c0 := by
  induction l with
  | nil => exact .inl h
  | cons c1 l ih =>
    unfold mapFirst at h
    split at h
    next hp =>
      rcases List.mem_cons.1 h with rfl | h
      · exact .inr ⟨c1, List.mem_cons_self, hp, rfl⟩
      · exact .inl (List.mem_cons_of_mem _ h)
    next =>
      rcases List.mem_cons.1 h with rfl | h
      · exact .inl List.mem_cons_self
      · rcases ih h with h | ⟨c0, h0, hp, he⟩
        · exact .inl (List.mem_cons_of_mem _ h)
        · exact .inr ⟨c0, List.mem_cons_of_mem _ h0, hp, he⟩

/-! ### What each cache keeps -/

/-- What a coherent memory system asks of each cache by itself, beside memory `m`. -/
structure CacheOk (cfg : Config) (m : Memory) (c : Cache) : Prop where
  sorted  : Table.Sorted c.lines
  whole   : ∀ e ∈ c.lines, e.2.length = cbsM cfg
  aligned : ∀ e ∈ c.lines, e.1 % cbsM cfg = 0
  backed  : ∀ b d, common cfg b c = true → Table.get? c.lines b = some d → d = memBlock cfg m b
  fits    : ∀ b, occupancy cfg c b ≤ c.ways

theorem SysCoherent.cacheOk {cfg : Config} {ms : MemSys} (hs : SysCoherent cfg ms) {c : Cache} (h : c ∈ ms.caches) :
    CacheOk cfg ms.mem c :=
  ⟨hs.sorted c h, hs.whole c h, hs.aligned c h, hs.backed c h, hs.fits c h⟩

theorem SysCoherent.of_cacheOk {cfg : Config} {ms : MemSys} (h : ∀ c ∈ ms.caches, CacheOk cfg ms.mem c) (ha : CopiesAgree cfg ms)
    (hh : DirtyHeld cfg ms) (ho : DirtyOnce ms) : SysCoherent cfg ms :=
  ⟨fun c hc => (h c hc).sorted, fun c hc => (h c hc).whole, fun c hc => (h c hc).aligned, ha, hh, ho,
    fun c hc => (h c hc).backed, fun c hc => (h c hc).fits⟩

/-- A cache that has room for a block, or holds it, may be given a copy of it; a common cache, that of memory. -/
theorem CacheOk.addLine {cfg : Config} {m : Memory} {c : Cache} (h : CacheOk cfg m c) {b : Nat} {d : List Byte}
    (hb : b % cbsM cfg = 0) (hd : d.length = cbsM cfg) (hr : hasRoom cfg c b = true ∨ ∃ d0, Table.get? c.lines b = some d0)
    (hc : common cfg b c = true → d = memBlock cfg m b) : CacheOk cfg m (addLine b d c) where
  sorted := Table.put_sorted h.sorted b d
  whole := addLine_whole hd h.whole
  aligned := fun e he => (Table.mem_put he).elim (fun he => he ▸ hb) (h.aligned e)
  backed := fun b' d' hc' hg => by
    rw [common_congr (addLine_serves b d c)] at hc'
    by_cases hbb : b' = b
    · subst hbb
      rw [addLine_lines, Table.get?_put_same] at hg
      exact Option.some.inj hg ▸ hc hc'
    · rw [addLine_lines, Table.get?_put_other _ _ hbb] at hg
      exact h.backed b' d' hc' hg
  fits := fun b' => by
    have hf := h.fits b'
    show List.countP (fun e => slot cfg c e.1 == slot cfg c b') (Table.put b d c.lines) ≤ c.ways
    rcases hr with hr | ⟨d0, h0⟩
    · have hle := Table.countP_put_le (fun n => slot cfg c n == slot cfg c b') c.lines b d
      unfold hasRoom occupancy at hr
      unfold occupancy at hf
      rw [decide_eq_true_eq] at hr
      by_cases hs : slot cfg c b = slot cfg c b'
      · rw [hs] at hr
        simp only [hs, beq_self_eq_true, if_true] at hle
        omega
      · simp only [hs, beq_iff_eq, if_false] at hle
        omega
    · rw [Table.countP_put_of_get? (fun n => slot cfg c n == slot cfg c b') h.sorted h0]
      exact hf

theorem CacheOk.dropLine {cfg : Config} {m : Memory} {c : Cache} (h : CacheOk cfg m c) (b : Nat) : CacheOk cfg m (dropLine b c) where
  sorted := Table.del_sorted h.sorted b
  whole := fun e he => h.whole e (List.mem_filter.1 he).1
  aligned := fun e he => h.aligned e (List.mem_filter.1 he).1
  backed := fun b' d hc hg => by
    rw [common_congr (dropLine_serves b c)] at hc
    by_cases hb : b' = b
    · subst hb; rw [dropLine_lines, Table.get?_del_same] at hg; cases hg
    · rw [dropLine_lines, Table.get?_del_other _ hb] at hg
      exact h.backed b' d hc hg
  fits := fun b' => Nat.le_trans (List.Sublist.countP_le List.filter_sublist) (h.fits b')

theorem CacheOk.patchLine {cfg : Config} {m : Memory} {c : Cache} (h : CacheOk cfg m c) {b : Nat} (i : Nat) (v : Byte)
    (hn : common cfg b c = false) : CacheOk cfg m (patchLine b i v c) := by
  unfold Machine.patchLine
  split
  next d hd =>
    have hm := Table.mem_of_get? hd
    exact h.addLine (h.aligned _ hm) ((List.length_set).trans (h.whole _ hm)) (.inr ⟨d, hd⟩)
      (fun hc => Bool.noConfusion (hn.symm.trans hc))
  next => exact h

/-- A cache after a write to memory that changes the block at base `b` alone. -/
theorem CacheOk.written {cfg : Config} {m m' : Memory} {c : Cache} (h : CacheOk cfg m c) {b : Nat}
    (hm : ∀ b', b' ≠ b → b' % cbsM cfg = 0 → memBlock cfg m' b' = memBlock cfg m b') :
    CacheOk cfg m' (if common cfg b c then replaceLine b (memBlock cfg m' b) c else c) := by
  have hold : ∀ b' d, b' ≠ b → common cfg b' c = true → Table.get? c.lines b' = some d → d = memBlock cfg m' b' :=
    fun b' d hb hc hg => (h.backed b' d hc hg).trans (hm b' hb (h.aligned _ (Table.mem_of_get? hg))).symm
  unfold replaceLine
  split
  next hcb =>
    split
    next d hd =>
      have hm := Table.mem_of_get? hd
      refine ⟨Table.put_sorted h.sorted _ _, addLine_whole (length_memBlock _ _ _) h.whole, fun e he => ?_, fun b' d' hc hg => ?_,
        fun b' => ?_⟩
      · exact (Table.mem_put he).elim (fun he => he ▸ (h.aligned (b, d) hm : b % cbsM cfg = 0)) (h.aligned e)
      · rw [common_congr (addLine_serves _ _ _)] at hc
        by_cases hb : b' = b
        · subst hb; rw [addLine_lines, Table.get?_put_same] at hg; exact (Option.some.inj hg).symm
        · rw [addLine_lines, Table.get?_put_other _ _ hb] at hg; exact hold b' d' hb hc hg
      · exact (Table.countP_put_of_get? (fun n => slot cfg c n == slot cfg c b') h.sorted hd _).le.trans (h.fits b')
    next hn =>
      refine ⟨h.sorted, h.whole, h.aligned, fun b' d hc hg => hold b' d (fun hb => ?_) hc hg, h.fits⟩
      subst hb; rw [hn] at hg; cases hg
  next hcb =>
    exact ⟨h.sorted, h.whole, h.aligned, fun b' d hc hg => hold b' d (fun hb => hcb (hb ▸ hc)) hc hg, h.fits⟩

/-- A write inside one block changes the bytes of no other. -/
theorem memBlock_writeBytes_other {cfg : Config} (m : Memory) {a b b' : Nat} {vs : List Byte} (hb' : b' % cbsM cfg = 0)
    (hb : b % cbsM cfg = 0) (h : b' ≠ b) (h1 : b ≤ a) (h2 : a + vs.length ≤ b + cbsM cfg) :
    memBlock cfg (Memory.writeBytes m a vs) b' = memBlock cfg m b' := by
  refine List.map_congr_left fun i hi => Memory.read_writeBytes_outside _ _ _ _ ?_
  rw [List.mem_range] at hi
  by_contra hn
  refine h ?_
  rw [← blkBase_add hb' hi, ← blkBase_add hb (i := b' + i - b) (by omega)]
  congr 1; omega

/-- A write to memory inside one block keeps the memory system coherent. -/
theorem SysCoherent.writeMem {cfg : Config} {ms : MemSys} (hs : SysCoherent cfg ms) {a b : Nat} {vs : List Byte}
    (hb : b % cbsM cfg = 0) (h1 : b ≤ a) (h2 : a + vs.length ≤ b + cbsM cfg) : SysCoherent cfg (writeMem cfg b a vs ms) := by
  have hheld := heldCopy_writeMem cfg b a vs ms
  refine .of_cacheOk (fun c hc => ?_) (copiesAgree_of_held fun c hc k b' d hr hd => ?_) (fun k b' h => ?_) hs.once
  · obtain ⟨c0, h0, rfl⟩ := List.mem_map.1 hc
    exact (hs.cacheOk h0).written fun b' hbb hb' => memBlock_writeBytes_other _ hb' hb hbb h1 h2
  · obtain ⟨c0, h0, rfl⟩ := List.mem_map.1 hc
    have hser : (if common cfg b c0 = true then replaceLine b (memBlock cfg (Memory.writeBytes ms.mem a vs) b) c0 else c0).serves
        = c0.serves := by
      split
      · exact replaceLine_serves _ _ _
      · rfl
    rw [reaches_congr hser] at hr
    rw [hheld]
    refine heldCopy_of_mem hs.agree h0 hr ?_
    split at hd
    next hc =>
      by_cases hbb : b' = b
      · subst hbb; rw [common_of_reaches hr] at hc; cases hc
      · rwa [get?_replaceLine_other _ _ hbb] at hd
    next => exact hd
  · rw [hheld]; exact hs.held k b' h

/-! ### Stores -/

/-- Where a cache of the fetched list came from. -/
theorem mem_fetchedCaches {cfg : Config} {ms : MemSys} {b o : Nat} {c : Cache} (h : c ∈ fetchedCaches cfg ms b o) :
    c ∈ ms.caches ∨ heldCopy cfg ms (cohSetOf cfg b o) b = none ∧ ∃ c0 ∈ ms.caches, onPath cfg b o c0 = true ∧
      c = addLine b (blockView cfg ms (cohSetOf cfg b o) b) c0 := by
  unfold fetchedCaches at h
  split at h
  next => exact .inl h
  next hn => exact (mem_mapFirst h).imp id (fun h => ⟨by simpa using hn, h⟩)

/-- The caches once the observer's set holds the block. -/
theorem fetchedCaches_cacheOk {cfg : Config} {ms : MemSys} (hs : SysCoherent cfg ms) {b o : Nat} (hb : b % cbsM cfg = 0) {c : Cache}
    (h : c ∈ fetchedCaches cfg ms b o) : CacheOk cfg ms.mem c := by
  rcases mem_fetchedCaches h with h | ⟨_, c0, h0, hp, rfl⟩
  · exact hs.cacheOk h
  · exact (hs.cacheOk h0).addLine hb (length_blockView _ _ _ _) (.inl (hasRoom_of_onPath hp))
      (fun hc => Bool.noConfusion ((common_of_reaches (onPath_reaches hp)).symm.trans hc))

/-- The copies of the fetched caches are the ones the sets see in them. -/
theorem fetchedCaches_held {cfg : Config} {ms : MemSys} (hs : SysCoherent cfg ms) {o b : Nat} (hcan : canCache cfg ms b o = true)
    {c : Cache} (hc : c ∈ fetchedCaches cfg ms b o) {k : CohSet} {b' : Nat} {d : List Byte} (hr : reaches cfg b' k c = true)
    (hd : Table.get? c.lines b' = some d) : heldIn cfg k b' (fetchedCaches cfg ms b o) = some d := by
  rcases mem_fetchedCaches hc with h | ⟨hn, c0, h0, hp, rfl⟩
  · have hold := heldCopy_of_mem hs.agree h hr hd
    by_cases hkb : b' ≠ b ∨ k ≠ cohSetOf cfg b o
    · rw [heldIn_fetchedCaches_other cfg ms hkb]; exact hold
    · obtain ⟨rfl, rfl⟩ : b' = b ∧ k = cohSetOf cfg b o := by
        constructor
        · exact Classical.byContradiction fun h => hkb (.inl h)
        · exact Classical.byContradiction fun h => hkb (.inr h)
      rw [heldIn_fetchedCaches_same hcan, hold]; rfl
  · rw [reaches_congr (addLine_serves _ _ _)] at hr
    by_cases hb : b' = b
    · subst hb
      obtain rfl := reaches_unique hr (onPath_reaches hp)
      rw [addLine_lines, Table.get?_put_same] at hd
      rw [heldIn_fetchedCaches_same hcan, hn]
      simpa using hd
    · rw [addLine_lines, Table.get?_put_other _ _ hb] at hd
      rw [heldIn_fetchedCaches_other cfg ms (.inl hb)]
      exact heldCopy_of_mem hs.agree h0 hr hd

theorem storeBy_agree {cfg : Config} {ms : MemSys} (hs : SysCoherent cfg ms) (o a : Nat) (v : Byte) :
    CopiesAgree cfg (storeBy cfg o a v ms) := by
  by_cases hcan : canCache cfg ms (blkBase a (cbsM cfg)) o = true
  · rw [storeBy_cached hcan]
    refine copiesAgree_of_held fun c hc k b d hr hd => ?_
    simp only [storeCached, List.mem_map] at hc
    obtain ⟨c0, hc0, rfl⟩ := hc
    have hs0 : ∀ c1 : Cache, (if reaches cfg (blkBase a (cbsM cfg)) (cohSetOf cfg (blkBase a (cbsM cfg)) o) c1 = true
        then patchLine (blkBase a (cbsM cfg)) (a - blkBase a (cbsM cfg)) v c1 else c1).serves = c1.serves := by
      intro c1; split
      · exact patchLine_serves _ _ _ _
      · rfl
    rw [reaches_congr (hs0 c0)] at hr
    by_cases hkb : b ≠ blkBase a (cbsM cfg) ∨ k ≠ cohSetOf cfg (blkBase a (cbsM cfg)) o
    · rw [heldCopy_storeCached_other _ _ _ _ hkb]
      have hd0 : Table.get? c0.lines b = some d := by
        split at hd
        next hr' =>
          rcases hkb with hb | hk
          · rwa [get?_patchLine_other _ _ _ hb] at hd
          · by_cases hb : b = blkBase a (cbsM cfg)
            · subst hb; exact absurd (reaches_unique hr hr') hk
            · rwa [get?_patchLine_other _ _ _ hb] at hd
        next => exact hd
      have := fetchedCaches_held hs hcan hc0 hr hd0
      rwa [heldIn_fetchedCaches_other cfg ms hkb] at this
    · obtain ⟨rfl, rfl⟩ : b = blkBase a (cbsM cfg) ∧ k = cohSetOf cfg (blkBase a (cbsM cfg)) o := by
        constructor
        · exact Classical.byContradiction fun h => hkb (.inl h)
        · exact Classical.byContradiction fun h => hkb (.inr h)
      rw [if_pos hr, get?_patchLine_same] at hd
      obtain ⟨d0, hd0, rfl⟩ := Option.map_eq_some_iff.1 hd
      have := fetchedCaches_held hs hcan hc0 hr hd0
      rw [heldIn_fetchedCaches_same hcan] at this
      rw [heldCopy_storeCached_same _ _ hcan, Option.some.inj this]
  · rw [storeBy_uncached hcan]; exact (hs.writeMem (blkBase_mod _ _) (blkBase_le _ _) (lt_blkBase_add a (cbsM_pos cfg))).agree

theorem storeBy_dirtyHeld {cfg : Config} {ms : MemSys} (hs : SysCoherent cfg ms) (o a : Nat) (v : Byte) :
    DirtyHeld cfg (storeBy cfg o a v ms) := by
  by_cases hcan : canCache cfg ms (blkBase a (cbsM cfg)) o = true
  · rw [storeBy_cached hcan]
    intro k b h
    by_cases hkb : b ≠ blkBase a (cbsM cfg) ∨ k ≠ cohSetOf cfg (blkBase a (cbsM cfg)) o
    · rw [heldCopy_storeCached_other _ _ _ _ hkb]
      refine hs.held k b ((mem_setDirty.1 h).resolve_left fun e => ?_)
      rcases hkb with hb | hk
      · exact hb (Prod.mk.inj e).2
      · exact hk (Prod.mk.inj e).1
    · obtain ⟨rfl, rfl⟩ : b = blkBase a (cbsM cfg) ∧ k = cohSetOf cfg (blkBase a (cbsM cfg)) o := by
        constructor
        · exact Classical.byContradiction fun h => hkb (.inl h)
        · exact Classical.byContradiction fun h => hkb (.inr h)
      rw [heldCopy_storeCached_same _ _ hcan]; rfl
  · rw [storeBy_uncached hcan]; exact (hs.writeMem (blkBase_mod _ _) (blkBase_le _ _) (lt_blkBase_add a (cbsM_pos cfg))).held

/-- A store keeps the memory system coherent. -/
theorem SysCoherent.storeBy {cfg : Config} {ms : MemSys} (hs : SysCoherent cfg ms) (o a : Nat) (v : Byte) :
    SysCoherent cfg (storeBy cfg o a v ms) := by
  by_cases hcan : canCache cfg ms (blkBase a (cbsM cfg)) o = true
  · refine .of_cacheOk (fun c hc => ?_) (storeBy_agree hs o a v) (storeBy_dirtyHeld hs o a v) ?_
    · rw [storeBy_cached hcan] at hc ⊢
      obtain ⟨c0, h0, rfl⟩ := List.mem_map.1 hc
      have hok := fetchedCaches_cacheOk hs (blkBase_mod a (cbsM cfg)) h0
      split
      next hr => exact hok.patchLine _ _ (common_of_reaches hr)
      next => exact hok
    · rw [storeBy_cached hcan]; exact setDirty_nodup hs.once
  · rw [storeBy_uncached hcan]
    exact hs.writeMem (blkBase_mod _ _) (blkBase_le _ _) (lt_blkBase_add a (cbsM_pos cfg))

theorem SysCoherent.storeBytesBy {cfg : Config} {ms : MemSys} (hs : SysCoherent cfg ms) (o a : Nat) (vs : List Byte) :
    SysCoherent cfg (storeBytesBy cfg o a vs ms) := by
  induction vs generalizing ms a with
  | nil => exact hs
  | cons v vs ih => exact ih (hs.storeBy o a v) (a + 1)

/-! ### Invalidate, clean, flush -/

/-- Taking a block out of caches leaves every other copy a set sees. -/
theorem heldIn_drop_other {cfg : Config} {k k' : CohSet} {b b' : Nat} (h : b' ≠ b ∨ k' ≠ k) (l : List Cache) :
    heldIn cfg k' b' (l.map (fun c => if reaches cfg b k c then dropLine b c else c)) = heldIn cfg k' b' l := by
  refine heldIn_map_congr (fun c => ?_) (fun c hr => ?_) l
  · split <;> rfl
  · split
    next hr' =>
      by_cases hb : b' = b
      · subst hb; exact absurd (reaches_unique hr hr') (h.resolve_left (fun h => h rfl))
      · exact Table.get?_del_other _ hb
    next => rfl

/-- After the set's caches drop a block, the set holds no copy of it. -/
theorem heldIn_drop_same (cfg : Config) (k : CohSet) (b : Nat) (l : List Cache) :
    heldIn cfg k b (l.map (fun c => if reaches cfg b k c then dropLine b c else c)) = none := by
  refine List.findSome?_eq_none_iff.2 fun c hc => ?_
  obtain ⟨c0, _, rfl⟩ := List.mem_map.1 hc
  by_cases hr : reaches cfg b k c0 = true
  · rw [if_pos hr, reaches_congr (dropLine_serves b c0), if_pos hr]; exact Table.get?_del_same _ _
  · rw [if_neg hr, if_neg hr]

theorem heldCopy_invalidate_same {cfg : Config} {k : CohSet} {b : Nat} (hc : cacheable cfg b = true) (ms : MemSys) :
    heldCopy cfg (invalidateBlock cfg k b ms) k b = none := by
  unfold invalidateBlock; rw [if_pos hc]; exact heldIn_drop_same cfg k b ms.caches

theorem heldCopy_invalidate_other {cfg : Config} {k k' : CohSet} {b b' : Nat} (h : b' ≠ b ∨ k' ≠ k) (ms : MemSys) :
    heldCopy cfg (invalidateBlock cfg k b ms) k' b' = heldCopy cfg ms k' b' := by
  unfold invalidateBlock; split
  · exact heldIn_drop_other h ms.caches
  · rfl

/-- An invalidate operation keeps the memory system coherent. -/
theorem SysCoherent.invalidateBlock {cfg : Config} {ms : MemSys} (hs : SysCoherent cfg ms) (k : CohSet) (b : Nat) :
    SysCoherent cfg (invalidateBlock cfg k b ms) := by
  unfold Machine.invalidateBlock
  split
  next hcb =>
    refine .of_cacheOk (fun c hc => ?_) (copiesAgree_of_held fun c hc k' b' d hr hd => ?_) (fun k' b' h => ?_)
      (clearDirty_nodup hs.once)
    · obtain ⟨c0, h0, rfl⟩ := List.mem_map.1 hc
      split
      · exact (hs.cacheOk h0).dropLine b
      · exact hs.cacheOk h0
    · obtain ⟨c0, h0, rfl⟩ := List.mem_map.1 hc
      have hser : (if reaches cfg b k c0 = true then dropLine b c0 else c0).serves = c0.serves := by split <;> rfl
      rw [reaches_congr hser] at hr
      have hd0 : Table.get? c0.lines b' = some d ∧ (b' ≠ b ∨ k' ≠ k) := by
        split at hd
        next hr' =>
          by_cases hb : b' = b
          · subst hb; rw [dropLine_lines, Table.get?_del_same] at hd; cases hd
          · rw [dropLine_lines, Table.get?_del_other _ hb] at hd; exact ⟨hd, .inl hb⟩
        next hr' =>
          refine ⟨hd, ?_⟩
          by_cases hb : b' = b
          · subst hb; exact .inr (fun hk => hr' (hk ▸ hr))
          · exact .inl hb
      show heldIn cfg k' b' _ = some d
      rw [heldIn_drop_other hd0.2]
      exact heldCopy_of_mem hs.agree h0 hr hd0.1
    · obtain ⟨hm, hne⟩ := mem_clearDirty.1 h
      show (heldIn cfg k' b' _).isSome = true
      rw [heldIn_drop_other]
      · exact hs.held k' b' hm
      · by_cases hb : b' = b
        · exact .inr (fun hk => hne (by rw [hb, hk]))
        · exact .inl hb
  next => exact hs

/-- Forgetting that blocks are dirty keeps the memory system coherent. -/
theorem SysCoherent.clear {cfg : Config} {ms : MemSys} (hs : SysCoherent cfg ms) (k : CohSet) (b : Nat) (d : List (CohSet × Nat))
    (hd : d = ms.dirty) : SysCoherent cfg { ms with dirty := clearDirty k b d } := by
  subst hd
  exact ⟨hs.sorted, hs.whole, hs.aligned, hs.agree, fun k' b' h => hs.held k' b' (mem_clearDirty.1 h).1, clearDirty_nodup hs.once,
    hs.backed, hs.fits⟩

/-- A clean operation keeps the memory system coherent. -/
theorem SysCoherent.cleanBlock {cfg : Config} {ms : MemSys} (hs : SysCoherent cfg ms) (k : CohSet) {b : Nat} (hb : b % cbsM cfg = 0) :
    SysCoherent cfg (cleanBlock cfg k b ms) := by
  unfold Machine.cleanBlock
  split
  · exact (hs.writeMem hb (Nat.le_refl b) (by rw [length_blockView])).clear k b _ rfl
  · exact hs

/-- Every operation keeps the memory system coherent. -/
theorem SysCoherent.effect {cfg : Config} {ms : MemSys} (hs : SysCoherent cfg ms) (o : Nat) (op : MemOp) :
    SysCoherent cfg (op.effect cfg o ms) := by
  cases op with
  | load => exact hs
  | store a vs => exact hs.storeBytesBy o a vs
  | invalidate b => exact hs.invalidateBlock _ _
  | clean b => exact hs.cleanBlock _ (blkBase_mod _ _)
  | flush b => exact (hs.cleanBlock _ (blkBase_mod _ _)).invalidateBlock _ _
  | fence => exact hs

theorem SysCoherent.effects {cfg : Config} {ms : MemSys} (hs : SysCoherent cfg ms) (es : List Event) :
    SysCoherent cfg (effects cfg es ms) :=
  effects_keeps (fun e _ h => h.effect e.obs e.op) es hs

/-! ### The caches' own moves -/

theorem mayHold_iff {cfg : Config} {b : Nat} {c : Cache} :
    mayHold cfg b c = true ↔ b % cbsM cfg = 0 ∧ cacheable cfg b = true ∧ (servedAt cfg b c).isEmpty = false := by
  simp [mayHold, and_assoc]

/-- A cache that serves somebody is a coherent cache of its set, unless it is common. -/
theorem reaches_of_not_common {cfg : Config} {b : Nat} {c : Cache} (h : mayHold cfg b c = true) (hc : ¬ common cfg b c = true) :
    reaches cfg b (setOfCache cfg b c) c = true := by
  have := (mayHold_iff.1 h).2.2
  unfold common at hc
  simpa [this] using hc

/-- The block a set sees, where its caches hold it, is the copy. -/
theorem blockView_of_held {cfg : Config} {ms : MemSys} (hw : LinesWhole cfg ms) {k : CohSet} {b : Nat} {d : List Byte}
    (hc : cacheable cfg b = true) (hb : b % cbsM cfg = 0) (hd : heldCopy cfg ms k b = some d) : blockView cfg ms k b = d := by
  refine List.ext_getElem ((length_blockView cfg ms k b).trans (length_heldCopy hw hd).symm) fun i h1 h2 => ?_
  have hi : i < cbsM cfg := by rwa [length_blockView] at h1
  have h := getD_blockView cfg ms k b i hi
  rw [view_of_held (by rw [blkBase_add hb hi]; exact hc) (by rw [blkBase_add hb hi]; exact hd), blkBase_add hb hi,
    Nat.add_sub_cancel_left] at h
  simpa [List.getD, h1, h2] using h

/-- Replacing one cache by one that serves the same observers and holds the same copies but of block `b`. -/
theorem heldIn_set_other {cfg : Config} {k : CohSet} {b' : Nat} {l : List Cache} {i : Nat} {c c' : Cache} (hi : l[i]? = some c)
    (hs : c'.serves = c.serves) (hg : reaches cfg b' k c = true → Table.get? c'.lines b' = Table.get? c.lines b') :
    heldIn cfg k b' (l.set i c') = heldIn cfg k b' l := by
  induction l generalizing i with
  | nil => rfl
  | cons c1 l ih =>
    cases i with
    | zero =>
      simp only [List.getElem?_cons_zero, Option.some.injEq] at hi
      subst hi
      rw [List.set_cons_zero, heldIn_cons, heldIn_cons, reaches_congr hs]
      split
      next hr => rw [hg hr]
      next => rfl
    | succ i =>
      rw [List.set_cons_succ, heldIn_cons, heldIn_cons, ih hi]

theorem heldIn_mem_set {cfg : Config} {k : CohSet} {b : Nat} {l : List Cache} {i : Nat} {c c' : Cache} {d : List Byte}
    (hi : l[i]? = some c) (hr : reaches cfg b k c' = true) (hg : Table.get? c'.lines b = some d)
    (ha : ∀ d', heldIn cfg k b l = some d' → d' = d) :
    heldIn cfg k b (l.set i c') = some d := by
  induction l generalizing i with
  | nil => simp at hi
  | cons c1 l ih =>
    cases i with
    | zero =>
      rw [List.set_cons_zero, heldIn_cons, if_pos hr, hg]; rfl
    | succ i =>
      rw [List.set_cons_succ, heldIn_cons]
      rw [heldIn_cons] at ha
      cases h1 : (if reaches cfg b k c1 = true then Table.get? c1.lines b else none) with
      | some d1 => rw [h1] at ha; simpa using ha d1 rfl
      | none => rw [h1] at ha; exact ih hi ha

/-- What an allocation does, where it happens. -/
theorem allocateLine_cases (cfg : Config) (i b : Nat) (ms : MemSys) :
    allocateLine cfg i b ms = ms ∨ ∃ c, ms.caches[i]? = some c ∧ mayHold cfg b c = true ∧ Table.get? c.lines b = none ∧
      hasRoom cfg c b = true ∧
      allocateLine cfg i b ms = { ms with caches := ms.caches.set i (addLine b (allocated cfg ms b c) c) } := by
  unfold allocateLine
  split
  next => exact .inl rfl
  next c hc =>
    split
    next h =>
      simp only [Bool.and_eq_true, Option.isNone_iff_eq_none] at h
      exact .inr ⟨c, hc, h.1.1, h.1.2, h.2, rfl⟩
    next => exact .inl rfl

/-- After an allocation the set of the cache holds the block as it saw it, and every other copy a set sees is as before. -/
theorem heldCopy_allocate {cfg : Config} {ms : MemSys} (hs : SysCoherent cfg ms) (i b : Nat) (k : CohSet) (b' : Nat) :
    heldCopy cfg (allocateLine cfg i b ms) k b' = heldCopy cfg ms k b' ∨
      b' = b ∧ b % cbsM cfg = 0 ∧ cacheable cfg b = true ∧ heldCopy cfg (allocateLine cfg i b ms) k b = some (blockView cfg ms k b) := by
  rcases allocateLine_cases cfg i b ms with h | ⟨c, hc, hco, hn, _, h⟩
  · rw [h]; exact .inl rfl
  · rw [h]
    by_cases hkb : b' ≠ b ∨ reaches cfg b k c = false
    · refine .inl (heldIn_set_other hc (addLine_serves _ _ _) fun hr' => ?_)
      by_cases hb : b' = b
      · subst hb; exact Bool.noConfusion ((hkb.resolve_left (fun h => h rfl)).symm.trans hr')
      · exact Table.get?_put_other _ _ hb
    · obtain ⟨rfl, hr⟩ : b' = b ∧ reaches cfg b k c = true :=
        ⟨Classical.byContradiction fun h => hkb (.inl h), Classical.byContradiction fun h => hkb (.inr (by simpa using h))⟩
      obtain ⟨hal, hca, _⟩ := mayHold_iff.1 hco
      have hd : allocated cfg ms b' c = blockView cfg ms k b' := by
        unfold allocated; rw [common_of_reaches hr, reaches_setOfCache hr]; rfl
      refine .inr ⟨rfl, hal, hca, ?_⟩
      refine heldIn_mem_set hc ?_ ?_ (fun d' hd' => ?_)
      · rw [reaches_congr (addLine_serves _ _ _)]; exact hr
      · rw [hd]; exact Table.get?_put_same _ _ _
      · exact (blockView_of_held hs.whole hca hal hd').symm

theorem mem_set {l : List Cache} {i : Nat} {c c' : Cache} (h : c' ∈ l.set i c) : c' = c ∨ c' ∈ l :=
  (List.mem_or_eq_of_mem_set h).symm

/-- An allocation keeps the memory system coherent. -/
theorem SysCoherent.allocateLine {cfg : Config} {ms : MemSys} (hs : SysCoherent cfg ms) (i b : Nat) :
    SysCoherent cfg (allocateLine cfg i b ms) := by
  have hheld := heldCopy_allocate hs i b
  rcases allocateLine_cases cfg i b ms with h | ⟨c, hc, hco, hn, hroom, h⟩
  · rw [h]; exact hs
  · rw [h] at hheld ⊢
    have hcm : c ∈ ms.caches := List.mem_of_getElem? hc
    obtain ⟨hal, hca, _⟩ := mayHold_iff.1 hco
    refine .of_cacheOk (fun c' hc' => ?_) (copiesAgree_of_held fun c' hc' k b' d hr hd => ?_) (fun k b' hd => ?_) hs.once
    · rcases mem_set hc' with rfl | hc'
      · refine (hs.cacheOk hcm).addLine hal ?_ (.inl hroom) (fun hc => ?_)
        · unfold allocated; split
          · exact length_memBlock _ _ _
          · exact length_blockView _ _ _ _
        · unfold allocated; rw [if_pos hc]
      · exact hs.cacheOk hc'
    · rcases mem_set hc' with rfl | hc'
      · rw [reaches_congr (addLine_serves _ _ _)] at hr
        by_cases hb : b' = b
        · subst hb
          rw [addLine_lines, Table.get?_put_same, allocated, common_of_reaches hr, if_neg (by simp), reaches_setOfCache hr] at hd
          rcases hheld k b' with he | ⟨_, _, _, he⟩
          · have hsome := heldIn_isSome_of_mem hc' ((reaches_congr (addLine_serves _ _ _)).trans hr) (Table.get?_put_same _ _ _)
            obtain ⟨d', hd'⟩ := Option.isSome_iff_exists.1 hsome
            have hold : heldCopy cfg ms k b' = some d' := he.symm.trans hd'
            rw [he, hold, ← Option.some.inj hd, blockView_of_held hs.whole hca hal hold]
          · rw [he]; exact hd
        · rw [addLine_lines, Table.get?_put_other _ _ hb] at hd
          rcases hheld k b' with he | ⟨hb', _⟩
          · rw [he]; exact heldCopy_of_mem hs.agree hcm hr hd
          · exact absurd hb' hb
      · have hold := heldCopy_of_mem hs.agree hc' hr hd
        rcases hheld k b' with he | ⟨rfl, hal, hca, he⟩
        · rw [he]; exact hold
        · rw [he, blockView_of_held hs.whole hca hal hold]
    · have := hs.held k b' hd
      rcases hheld k b' with he | ⟨rfl, _, _, he⟩
      · rw [he]; exact this
      · rw [he]; rfl

theorem SysCoherent.hintLine {cfg : Config} {ms : MemSys} (hs : SysCoherent cfg ms) (n o pa : Nat) :
    SysCoherent cfg (hintLine cfg n o pa ms) := by
  unfold Machine.hintLine
  split
  · exact hs
  · exact hs.allocateLine _ _

theorem SysCoherent.transferLine {cfg : Config} {ms : MemSys} (hs : SysCoherent cfg ms) (k : CohSet) (i b : Nat) (dest : Option Nat) :
    SysCoherent cfg (transferLine cfg k i b dest ms) := by
  unfold Machine.transferLine
  split
  · exact hs
  · split
    · exact hs.allocateLine _ _
    · exact hs

/-- What giving a copy up does, where it happens. -/
theorem deallocateLine_cases (cfg : Config) (i b : Nat) (dest : Option Nat) (ms : MemSys) :
    deallocateLine cfg i b dest ms = ms ∨ ∃ c, ms.caches[i]? = some c ∧
      (common cfg b c = true ∧ deallocateLine cfg i b dest ms = dropAt i b ms ∨
      reaches cfg b (setOfCache cfg b c) c = true ∧
      (isDirty ms (setOfCache cfg b c) b = false ∨
        heldElsewhere cfg (transferLine cfg (setOfCache cfg b c) i b dest ms) i (setOfCache cfg b c) b = true) ∧
      deallocateLine cfg i b dest ms = dropAt i b (transferLine cfg (setOfCache cfg b c) i b dest ms)) := by
  unfold deallocateLine
  split
  next => exact .inl rfl
  next c hc =>
    split
    next h => exact .inr ⟨c, hc, .inl ⟨h, rfl⟩⟩
    next hn =>
      split
      next h =>
        simp only [Bool.and_eq_true, Bool.or_eq_true, Bool.not_eq_true'] at h
        exact .inr ⟨c, hc, .inr ⟨reaches_of_not_common h.1 hn, h.2, rfl⟩⟩
      next => exact .inl rfl

/-- The cache that hands a copy over is itself as it was. -/
theorem transferLine_getElem? (cfg : Config) (k : CohSet) (i b : Nat) (dest : Option Nat) (ms : MemSys) :
    (transferLine cfg k i b dest ms).caches[i]? = ms.caches[i]? := by
  unfold transferLine
  split
  next => rfl
  next j =>
    split
    next h =>
      simp only [Bool.and_eq_true, decide_eq_true_eq] at h
      rcases allocateLine_cases cfg j b ms with he | ⟨c, _, _, _, _, he⟩
      · rw [he]
      · rw [he]; exact List.getElem?_set_ne h.1
    next => rfl

/-- Taking a block out of one cache leaves every other copy a set sees. -/
theorem heldIn_dropAt_other {cfg : Config} {k : CohSet} {b b' i : Nat} {l : List Cache} {c : Cache} (hi : l[i]? = some c)
    (h : b' ≠ b ∨ reaches cfg b k c = false) : heldIn cfg k b' (l.modify i (dropLine b)) = heldIn cfg k b' l := by
  rw [List.modify_eq_set_getElem?, hi]
  refine heldIn_set_other hi rfl fun hr => ?_
  by_cases hb : b' = b
  · subst hb; exact absurd hr (by simp [h.resolve_left (fun h => h rfl)])
  · exact Table.get?_del_other _ hb

/-- A cache of the modified list has no more copies than one of the list before. -/
theorem mem_dropAt {b i : Nat} {l : List Cache} {c : Cache} (h : c ∈ l.modify i (dropLine b)) :
    c ∈ l ∨ ∃ c0 ∈ l, c = dropLine b c0 := by
  rw [List.modify_eq_set_getElem?] at h
  cases hi : l[i]? with
  | none => rw [hi] at h; exact .inl h
  | some c0 =>
    rw [hi] at h
    exact (mem_set h).symm.imp id (fun h => ⟨c0, List.mem_of_getElem? hi, h⟩)

/-- Giving one copy up keeps the memory system coherent, where no set's only copy of a dirty block is lost. -/
theorem SysCoherent.dropAt {cfg : Config} {ms : MemSys} (hs : SysCoherent cfg ms) {i b : Nat} {c : Cache}
    (hi : ms.caches[i]? = some c)
    (h : ∀ k, reaches cfg b k c = true → isDirty ms k b = false ∨ heldElsewhere cfg ms i k b = true) :
    SysCoherent cfg (dropAt i b ms) := by
  have hget : ∀ {c' : Cache} {k b' d}, c' ∈ ms.caches.modify i (dropLine b) → reaches cfg b' k c' = true →
      Table.get? c'.lines b' = some d → ∃ c0 ∈ ms.caches, reaches cfg b' k c0 = true ∧ Table.get? c0.lines b' = some d := by
    intro c' k b' d hc' hr' hd
    rcases mem_dropAt hc' with h | ⟨c0, h0, rfl⟩
    · exact ⟨c', h, hr', hd⟩
    · refine ⟨c0, h0, (reaches_congr (dropLine_serves b c0)) ▸ hr', ?_⟩
      by_cases hb : b' = b
      · subst hb; rw [dropLine_lines, Table.get?_del_same] at hd; cases hd
      · rwa [dropLine_lines, Table.get?_del_other _ hb] at hd
  refine .of_cacheOk (fun c' hc' => ?_) (fun c1 h1 c2 h2 k b' d d' hr1 hr2 hd1 hd2 => ?_) (fun k b' hd => ?_) hs.once
  · rcases mem_dropAt hc' with h | ⟨c0, h0, rfl⟩
    · exact hs.cacheOk h
    · exact (hs.cacheOk h0).dropLine b
  · obtain ⟨c1', h1', hr1', hd1'⟩ := hget h1 hr1 hd1
    obtain ⟨c2', h2', hr2', hd2'⟩ := hget h2 hr2 hd2
    exact hs.agree c1' h1' c2' h2' k b' d d' hr1' hr2' hd1' hd2'
  · show (heldIn cfg k b' (ms.caches.modify i (dropLine b))).isSome = true
    by_cases hkb : b' ≠ b ∨ reaches cfg b k c = false
    · rw [heldIn_dropAt_other hi hkb]; exact hs.held k b' hd
    · obtain ⟨rfl, hrk⟩ : b' = b ∧ reaches cfg b k c = true :=
        ⟨Classical.byContradiction fun h => hkb (.inl h),
          Classical.byContradiction fun h => hkb (.inr (by simpa using h))⟩
      rcases h k hrk with h | h
      · exact Bool.noConfusion (h.symm.trans (isDirty_iff.2 hd))
      · unfold heldElsewhere at h
        obtain ⟨c', hc', hcr⟩ := List.any_eq_true.1 h
        simp only [Bool.and_eq_true] at hcr
        obtain ⟨d, hd'⟩ := Option.isSome_iff_exists.1 hcr.2
        refine heldIn_isSome_of_mem ?_ hcr.1 hd'
        obtain ⟨j, hj, hj'⟩ := List.mem_eraseIdx_iff_getElem?.1 hc'
        exact List.mem_of_getElem? (i := j) (by rw [List.getElem?_modify_ne _ _ (Ne.symm hj)]; exact hj')

theorem SysCoherent.deallocateLine {cfg : Config} {ms : MemSys} (hs : SysCoherent cfg ms) (i b : Nat) (dest : Option Nat) :
    SysCoherent cfg (deallocateLine cfg i b dest ms) := by
  rcases deallocateLine_cases cfg i b dest ms with h | ⟨c, hc, ⟨hco, h⟩ | ⟨hr, hcond, h⟩⟩
  · rw [h]; exact hs
  · rw [h]
    exact hs.dropAt hc fun k hr => Bool.noConfusion ((common_of_reaches hr).symm.trans hco)
  · rw [h]
    refine (hs.transferLine _ i b dest).dropAt ((transferLine_getElem? _ _ _ _ _ _).trans hc) fun k hk => ?_
    obtain rfl := reaches_unique hr hk
    refine hcond.imp (fun hd => ?_) id
    unfold isDirty at hd ⊢
    rwa [transferLine_dirty]

/-- What a write-back does, where it happens. -/
theorem writeBackLine_cases (cfg : Config) (i b : Nat) (ms : MemSys) :
    writeBackLine cfg i b ms = ms ∨ ∃ c d, ms.caches[i]? = some c ∧ Table.get? c.lines b = some d ∧ mayHold cfg b c = true ∧
      reaches cfg b (setOfCache cfg b c) c = true ∧ isDirty ms (setOfCache cfg b c) b = true ∧
      writeBackLine cfg i b ms = { writeMem cfg b b d ms with dirty := clearDirty (setOfCache cfg b c) b ms.dirty } := by
  unfold writeBackLine
  split
  next => exact .inl rfl
  next c hc =>
    split
    next => exact .inl rfl
    next d hd =>
      split
      next h =>
        simp only [Bool.and_eq_true] at h
        exact .inr ⟨c, d, hc, hd, h.1.1, h.1.2, h.2, rfl⟩
      next => exact .inl rfl

theorem SysCoherent.writeBackLine {cfg : Config} {ms : MemSys} (hs : SysCoherent cfg ms) (i b : Nat) :
    SysCoherent cfg (writeBackLine cfg i b ms) := by
  rcases writeBackLine_cases cfg i b ms with h | ⟨c, d, hc, hd, hm, _, _, h⟩
  · rw [h]; exact hs
  · rw [h]
    have hl := hs.whole c (List.mem_of_getElem? hc) _ (Table.mem_of_get? hd)
    exact (hs.writeMem (mayHold_iff.1 hm).1 (Nat.le_refl b) (by rw [hl])).clear _ b _ rfl

end Sys2Proof.Machine
end

