-- ==== Sys2Proof/Laws/Views.lean ====
section
/-!
SUPPORT. What a set of coherent observers sees, and what memory holds, after each operation on the memory system (R55, R64 to R68,
R120 to R123, R140).
-/

namespace Sys2Proof.Machine

/-! ### Stores -/

/-- A store outside the block of an address changes nothing that any set sees there. -/
theorem view_storeBy_otherBlock {cfg : Config} (ms : MemSys) (o : Nat) {a x : Nat} (v : Byte) (k : CohSet)
    (h : blkBase x (cbsM cfg) ≠ blkBase a (cbsM cfg)) : view cfg (storeBy cfg o a v ms) k x = view cfg ms k x := by
  have hx : x ≠ a := fun e => h (e ▸ rfl)
  by_cases hcan : canCache cfg ms (blkBase a (cbsM cfg)) o = true
  · rw [storeBy_cached hcan]; unfold view
    rw [heldCopy_storeCached_other _ _ _ _ (.inl h)]; rfl
  · unfold view
    rw [storeBy_uncached_mem hcan, Memory.read_write_other _ _ hx, storeBy_uncached hcan, heldCopy_writeMem]

/-- A store changes memory at its own address only. -/
theorem mem_storeBy_other {cfg : Config} (ms : MemSys) (o : Nat) {a x : Nat} (v : Byte) (hx : x ≠ a) :
    Memory.read (storeBy cfg o a v ms).mem x = Memory.read ms.mem x := by
  unfold storeBy; split
  · rfl
  · exact Memory.read_write_other _ _ hx

theorem viewOf_storeBytesBy_outside {cfg : Config} (ms : MemSys) (o : Nat) {a x : Nat} (vs : List Byte)
    (hx : x < a ∨ a + vs.length ≤ x) : viewOf cfg (storeBytesBy cfg o a vs ms) o x = viewOf cfg ms o x := by
  induction vs generalizing ms a with
  | nil => rfl
  | cons v vs ih =>
    simp only [List.length_cons] at hx
    exact (ih _ (by omega)).trans (view_storeBy_other ms o v (by omega))

theorem mem_storeBytesBy_outside {cfg : Config} (ms : MemSys) (o : Nat) {a x : Nat} (vs : List Byte)
    (hx : x < a ∨ a + vs.length ≤ x) : Memory.read (storeBytesBy cfg o a vs ms).mem x = Memory.read ms.mem x := by
  induction vs generalizing ms a with
  | nil => rfl
  | cons v vs ih =>
    simp only [List.length_cons] at hx
    exact (ih _ (by omega)).trans (mem_storeBy_other ms o v (by omega))

theorem storeBytesBy_whole {cfg : Config} {ms : MemSys} (hw : LinesWhole cfg ms) (o a : Nat) (vs : List Byte) :
    LinesWhole cfg (storeBytesBy cfg o a vs ms) := by
  induction vs generalizing ms a with
  | nil => exact hw
  | cons v vs ih => exact ih (storeBy_whole hw o a v) (a + 1)

/-- After stores of bytes, the observer sees each of them. -/
theorem viewOf_storeBytesBy_inside {cfg : Config} {ms : MemSys} (hw : LinesWhole cfg ms) (o a : Nat) (vs : List Byte) (i : Nat)
    (hi : i < vs.length) : viewOf cfg (storeBytesBy cfg o a vs ms) o (a + i) = vs[i] := by
  induction vs generalizing ms a i with
  | nil => exact absurd hi (Nat.not_lt_zero _)
  | cons v vs ih =>
    cases i with
    | zero =>
      refine (viewOf_storeBytesBy_outside _ o vs (.inl (by omega))).trans ?_
      exact viewOf_storeBy_same hw o a v
    | succ i =>
      have h := ih (storeBy_whole hw o a v) (a + 1) i (by simpa using hi)
      rw [show a + (i + 1) = a + 1 + i by omega]
      exact h

/-- `CBO.ZERO`'s stores, in rising address order, are stores of zeros at consecutive addresses. -/
theorem effects_zeroEvents (cfg : Config) (o tick : Nat) (tags : Tags) (a n : Nat) (ms : MemSys) :
    effects cfg (zeroEvents o tick tags ((List.range n).map (a + ·))) ms = storeBytesBy cfg o a (List.replicate n 0) ms := by
  induction n generalizing a ms with
  | zero => rfl
  | succ n ih =>
    have h : (List.range (n + 1)).map (a + ·) = a :: (List.range n).map (a + 1 + ·) := by
      rw [List.range_succ_eq_map, List.map_cons, List.map_map]
      exact congrArg _ (List.map_congr_left fun i _ => by simp; omega)
    rw [h, List.replicate_succ]
    exact ih (a + 1) _

/-- After `CBO.ZERO`'s stores the observer sees zero in the whole block. -/
theorem viewOf_zeroEvents_inside {cfg : Config} {ms : MemSys} (hw : LinesWhole cfg ms) (o tick : Nat) (tags : Tags) (pa : Nat) {x : Nat}
    (hx : x ∈ block pa (cbsZ cfg)) : viewOf cfg (effects cfg (zeroEvents o tick tags (block pa (cbsZ cfg))) ms) o x = 0 := by
  rw [mem_block] at hx
  have h := viewOf_storeBytesBy_inside hw o (blkBase pa (cbsZ cfg)) (List.replicate (cbsZ cfg) 0) (x - blkBase pa (cbsZ cfg))
    (by rw [List.length_replicate]; omega)
  rw [Nat.add_sub_cancel' hx.1] at h
  rw [show block pa (cbsZ cfg) = (List.range (cbsZ cfg)).map (blkBase pa (cbsZ cfg) + ·) from rfl, effects_zeroEvents, h]
  exact List.getElem_replicate _

theorem viewOf_zeroEvents_outside {cfg : Config} (ms : MemSys) (o tick : Nat) (tags : Tags) (pa : Nat) {x : Nat}
    (hx : x ∉ block pa (cbsZ cfg)) :
    viewOf cfg (effects cfg (zeroEvents o tick tags (block pa (cbsZ cfg))) ms) o x = viewOf cfg ms o x := by
  rw [mem_block] at hx
  rw [show block pa (cbsZ cfg) = (List.range (cbsZ cfg)).map (blkBase pa (cbsZ cfg) + ·) from rfl, effects_zeroEvents]
  exact viewOf_storeBytesBy_outside ms o _ (by rw [List.length_replicate]; omega)

theorem mem_zeroEvents_outside {cfg : Config} (ms : MemSys) (o tick : Nat) (tags : Tags) (pa : Nat) {x : Nat}
    (hx : x ∉ block pa (cbsZ cfg)) :
    Memory.read (effects cfg (zeroEvents o tick tags (block pa (cbsZ cfg))) ms).mem x = Memory.read ms.mem x := by
  rw [mem_block] at hx
  rw [show block pa (cbsZ cfg) = (List.range (cbsZ cfg)).map (blkBase pa (cbsZ cfg) + ·) from rfl, effects_zeroEvents]
  exact mem_storeBytesBy_outside ms o _ (by rw [List.length_replicate]; omega)

/-! ### Invalidate, clean, flush -/

/-- After an invalidate the set sees memory in the block (R69, R120). -/
theorem view_invalidate_same {cfg : Config} (ms : MemSys) (k : CohSet) (a : Nat) :
    view cfg (invalidateBlock cfg k (blkBase a (cbsM cfg)) ms) k a = Memory.read ms.mem a := by
  by_cases hc : cacheable cfg (blkBase a (cbsM cfg)) = true
  · rw [view_of_none (heldCopy_invalidate_same hc ms), invalidateBlock_mem]
  · rw [view_of_uncacheable (by simpa using hc), invalidateBlock_mem]

/-- An invalidate leaves what a set sees in other blocks, and what other sets see. -/
theorem view_invalidate_other {cfg : Config} (ms : MemSys) {k k' : CohSet} {a b : Nat} (h : blkBase a (cbsM cfg) ≠ b ∨ k' ≠ k) :
    view cfg (invalidateBlock cfg k b ms) k' a = view cfg ms k' a := by
  unfold view
  rw [heldCopy_invalidate_other h, invalidateBlock_mem]

/-- After a clean, memory outside the block is as it was. -/
theorem mem_cleanBlock_other {cfg : Config} (ms : MemSys) (k : CohSet) {a b : Nat} (hb : b % cbsM cfg = 0)
    (h : blkBase a (cbsM cfg) ≠ b) : Memory.read (cleanBlock cfg k b ms).mem a = Memory.read ms.mem a := by
  unfold cleanBlock
  split
  · refine Memory.read_writeBytes_outside _ _ _ _ ?_
    rw [length_blockView]
    rcases Nat.lt_or_ge a b with h1 | h1
    · exact .inl h1
    · refine .inr (Nat.le_of_not_lt fun h2 => h ?_)
      have := blkBase_add hb (i := a - b) (by omega)
      rwa [Nat.add_sub_cancel' h1] at this
  · rfl

/-- After a clean of a stored-to block, memory holds what the set sees in it; of any other, what it held (R68, R121). -/
theorem mem_cleanBlock_same {cfg : Config} (ms : MemSys) (k : CohSet) (a : Nat) :
    Memory.read (cleanBlock cfg k (blkBase a (cbsM cfg)) ms).mem a =
      if cacheable cfg (blkBase a (cbsM cfg)) && isDirty ms k (blkBase a (cbsM cfg)) then view cfg ms k a
      else Memory.read ms.mem a := by
  have h1 := blkBase_le a (cbsM cfg)
  have h2 := lt_blkBase_add a (cbsM_pos cfg)
  unfold cleanBlock
  split
  next hd =>
    have h := Memory.read_writeBytes_inside ms.mem (blkBase a (cbsM cfg)) (blockView cfg ms k (blkBase a (cbsM cfg)))
      (a - blkBase a (cbsM cfg)) (by rw [length_blockView]; omega)
    rw [Nat.add_sub_cancel' h1] at h
    refine h.trans ?_
    simp only [blockView, List.getElem_map, List.getElem_range, Nat.add_sub_cancel' h1]
  next => rfl

/-- A clean leaves what its own set sees (R121). -/
theorem view_cleanBlock_own {cfg : Config} {ms : MemSys} (hs : SysCoherent cfg ms) (k : CohSet) {b : Nat} (hb : b % cbsM cfg = 0)
    (a : Nat) : view cfg (cleanBlock cfg k b ms) k a = view cfg ms k a := by
  have hheld := heldCopy_cleanBlock cfg k b ms k (blkBase a (cbsM cfg))
  by_cases hab : blkBase a (cbsM cfg) = b
  · subst hab
    by_cases hd : cacheable cfg (blkBase a (cbsM cfg)) && isDirty ms k (blkBase a (cbsM cfg))
    · have hd' := Bool.and_eq_true _ _ ▸ hd
      obtain ⟨d, hh⟩ := Option.isSome_iff_exists.1 (hs.held _ _ (isDirty_iff.1 hd'.2))
      rw [view_of_held hd'.1 (hheld.trans hh), view_of_held hd'.1 hh]
    · unfold cleanBlock; rw [if_neg hd]
  · unfold view
    rw [hheld, mem_cleanBlock_other ms k hb hab]

/-! ### The caches' own moves -/

/-- An allocation changes nothing that any set sees (R64, R206 (3)). -/
theorem view_allocateLine {cfg : Config} {ms : MemSys} (hs : SysCoherent cfg ms) (i b : Nat) (k : CohSet) (a : Nat) :
    view cfg (allocateLine cfg i b ms) k a = view cfg ms k a := by
  rcases heldCopy_allocate hs i b k (blkBase a (cbsM cfg)) with h | ⟨hb, hal, hca, h⟩
  · unfold view; rw [h, allocateLine_mem]
  · subst hb
    have h1 := blkBase_le a (cbsM cfg)
    have h2 := lt_blkBase_add a (cbsM_pos cfg)
    rw [view_of_held hca h, getD_blockView _ _ _ _ _ (by omega), Nat.add_sub_cancel' h1]

theorem view_hintLine {cfg : Config} {ms : MemSys} (hs : SysCoherent cfg ms) (n o pa : Nat) (k : CohSet) (a : Nat) :
    view cfg (hintLine cfg n o pa ms) k a = view cfg ms k a := by
  unfold hintLine
  split
  · rfl
  · exact view_allocateLine hs _ _ _ _

theorem hintLine_dirty (cfg : Config) (n o pa : Nat) (ms : MemSys) : (hintLine cfg n o pa ms).dirty = ms.dirty := by
  unfold hintLine; split
  · rfl
  · exact allocateLine_dirty _ _ _ _

/-! ### The store-since-write state -/

theorem isDirty_invalidate_same {cfg : Config} {k : CohSet} {b : Nat} (ms : MemSys) (h : cacheable cfg b = true) :
    isDirty (invalidateBlock cfg k b ms) k b = false := by
  rw [Bool.eq_false_iff, Ne, isDirty_iff]
  simp [invalidateBlock, h, mem_clearDirty]

theorem isDirty_invalidate_other {cfg : Config} {k k' : CohSet} {b b' : Nat} (ms : MemSys) (h : (k', b') ≠ (k, b)) :
    isDirty (invalidateBlock cfg k b ms) k' b' = isDirty ms k' b' := by
  rw [Bool.eq_iff_iff, isDirty_iff, isDirty_iff]
  unfold invalidateBlock
  split
  · simp only [mem_clearDirty]; simp_all
  · rfl

theorem isDirty_clean_same {cfg : Config} {k : CohSet} {b : Nat} (ms : MemSys) (h : cacheable cfg b = true) :
    isDirty (cleanBlock cfg k b ms) k b = false := by
  rw [Bool.eq_false_iff, Ne, isDirty_iff]
  unfold cleanBlock
  split
  · simp [mem_clearDirty]
  next hd =>
    simp only [h, Bool.true_and] at hd
    rwa [← isDirty_iff]

theorem isDirty_clean_other {cfg : Config} {k k' : CohSet} {b b' : Nat} (ms : MemSys) (h : (k', b') ≠ (k, b)) :
    isDirty (cleanBlock cfg k b ms) k' b' = isDirty ms k' b' := by
  rw [Bool.eq_iff_iff, isDirty_iff, isDirty_iff]
  unfold cleanBlock
  split
  · simp only [mem_clearDirty]; simp_all
  · rfl

/-- A store makes its block dirty for the observer's set where its caches can hold it, and no other block (R33). -/
theorem isDirty_storeBy {cfg : Config} {ms : MemSys} {o a : Nat} {v : Byte} {k : CohSet} {b : Nat} :
    isDirty (storeBy cfg o a v ms) k b = true ↔
      isDirty ms k b = true ∨ (canCache cfg ms (blkBase a (cbsM cfg)) o = true ∧ k = cohAt cfg a o ∧ b = blkBase a (cbsM cfg)) := by
  simp only [isDirty_iff]
  by_cases h : canCache cfg ms (blkBase a (cbsM cfg)) o = true
  · rw [storeBy_cached h, storeCached_dirty, mem_setDirty]
    simp only [h, true_and, cohAt, Prod.mk.injEq]
    exact or_comm
  · rw [storeBy_uncached h]; simp [h]

end Sys2Proof.Machine
end

