-- ==== Sys2Proof/Laws/Copies.lean ====
section
/-!
SUPPORT. What each operation on the memory system does to each copy of each cache, the caches common to several sets among them (R55,
R57, R120 to R122, R140).
-/

namespace Sys2Proof.Machine

/-! ### What becomes of each copy of each cache -/

/-- The caches changed one by one. -/
theorem CopiesBecome.of_map {ms ms' : MemSys} {f : Cache → Cache} {p} (h : ms'.caches = ms.caches.map f)
    (hf : ∀ c ∈ ms.caches, (f c).serves = c.serves ∧ (f c).sets = c.sets ∧ (f c).ways = c.ways ∧
      ∀ b, p c b (Table.get? c.lines b) (Table.get? (f c).lines b)) : CopiesBecome ms ms' p := by
  unfold CopiesBecome
  rw [h, List.forall₂_map_right_iff, List.forall₂_same]
  exact hf

/-- The caches as they were. -/
theorem CopiesBecome.of_same {ms ms' : MemSys} {p} (h : ms'.caches = ms.caches)
    (hf : ∀ c ∈ ms.caches, ∀ b, p c b (Table.get? c.lines b) (Table.get? c.lines b)) : CopiesBecome ms ms' p :=
  CopiesBecome.of_map (f := id) (by simp [h]) (fun c hc => ⟨rfl, rfl, rfl, hf c hc⟩)

/-- One change after another. -/
theorem CopiesBecome.trans {a b c : MemSys} {p q r} (h1 : CopiesBecome a b p) (h2 : CopiesBecome b c q)
    (h : ∀ x y b d d' d'', y.serves = x.serves → p x b d d' → q y b d' d'' → r x b d d'') : CopiesBecome a c r := by
  unfold CopiesBecome at *
  generalize a.caches = l1 at *; generalize b.caches = l2 at *; generalize c.caches = l3 at *
  induction h1 generalizing l3 with
  | nil => cases h2; exact .nil
  | cons hx _ ih =>
    cases h2 with
    | cons hy h2 =>
      exact .cons ⟨hy.1.trans hx.1, hy.2.1.trans hx.2.1, hy.2.2.1.trans hx.2.2.1, fun b => h _ _ b _ _ _ hx.1 (hx.2.2.2 b) (hy.2.2.2 b)⟩ (ih _ h2)

/-- What is known of each copy of each cache may be used. -/
theorem CopiesBecome.with_mem {ms ms' : MemSys} {p} (h : CopiesBecome ms ms' p) :
    CopiesBecome ms ms' (fun c b d d' => c ∈ ms.caches ∧ d = Table.get? c.lines b ∧ p c b d d') := by
  unfold CopiesBecome at *
  have aux : ∀ l l' : List Cache, (∀ c ∈ l, c ∈ ms.caches) →
      List.Forall₂ (fun c c' => c'.serves = c.serves ∧ c'.sets = c.sets ∧ c'.ways = c.ways ∧
        ∀ b, p c b (Table.get? c.lines b) (Table.get? c'.lines b)) l l' →
      List.Forall₂ (fun c c' => c'.serves = c.serves ∧ c'.sets = c.sets ∧ c'.ways = c.ways ∧
        ∀ b, c ∈ ms.caches ∧ Table.get? c.lines b = Table.get? c.lines b ∧ p c b (Table.get? c.lines b) (Table.get? c'.lines b)) l l' := by
    intro l l' hm h
    induction h with
    | nil => exact .nil
    | cons hx _ ih =>
      exact .cons ⟨hx.1, hx.2.1, hx.2.2.1, fun b => ⟨hm _ List.mem_cons_self, rfl, hx.2.2.2 b⟩⟩
        (ih fun c hc => hm c (List.mem_cons_of_mem _ hc))
  exact aux _ _ (fun c h => h) h

theorem CopiesBecome.mono {ms ms' : MemSys} {p q : Cache → Nat → Option (List Byte) → Option (List Byte) → Prop}
    (h : CopiesBecome ms ms' p) (hpq : ∀ c b d d', c ∈ ms.caches → d = Table.get? c.lines b → p c b d d' → q c b d d') :
    CopiesBecome ms ms' q := by
  have h2 := CopiesBecome.with_mem h
  unfold CopiesBecome at *
  exact List.Forall₂.imp (fun c c' h => ⟨h.1, h.2.1, h.2.2.1, fun b => hpq c b _ _ (h.2.2.2 b).1 rfl (h.2.2.2 b).2.2⟩) h2

/-- It is enough to look at one block after the other. -/
theorem CopiesBecome.of_each {ms ms' : MemSys} {p : Cache → Nat → Option (List Byte) → Option (List Byte) → Prop}
    (h : ∀ b0, CopiesBecome ms ms' (fun c b d d' => b = b0 → p c b d d')) :
    CopiesBecome ms ms' p := by
  unfold CopiesBecome at *
  generalize ms.caches = l at *; generalize ms'.caches = l' at *
  induction l generalizing l' with
  | nil => cases h 0; exact .nil
  | cons c l ih =>
    cases l' with
    | nil => cases h 0
    | cons c' l' =>
      simp only [List.forall₂_cons] at h ⊢
      exact ⟨⟨(h 0).1.1, (h 0).1.2.1, (h 0).1.2.2.1, fun b => (h b).1.2.2.2 b rfl⟩, ih _ fun b => (h b).2⟩

/-! ### Single caches -/

theorem get?_replaceLine (b b' : Nat) (d : List Byte) (c : Cache) :
    Table.get? (replaceLine b d c).lines b' =
      if b' = b then (Table.get? c.lines b').map (fun _ => d) else Table.get? c.lines b' := by
  by_cases hb : b' = b
  · subst hb; rw [if_pos rfl]; unfold replaceLine
    cases h : Table.get? c.lines b' with
    | none => simp [h]
    | some d0 => simp [addLine_lines, Table.get?_put_same]
  · rw [if_neg hb, get?_replaceLine_other _ _ hb]

theorem replaceLine_sets (b : Nat) (d : List Byte) (c : Cache) : (replaceLine b d c).sets = c.sets := by unfold replaceLine; split <;> rfl

theorem replaceLine_ways (b : Nat) (d : List Byte) (c : Cache) : (replaceLine b d c).ways = c.ways := by unfold replaceLine; split <;> rfl

theorem get?_dropLine (b b' : Nat) (c : Cache) :
    Table.get? (dropLine b c).lines b' = if b' = b then none else Table.get? c.lines b' := by
  by_cases hb : b' = b
  · subst hb; rw [if_pos rfl]; exact Table.get?_del_same _ _
  · rw [if_neg hb]; exact Table.get?_del_other _ hb

theorem patchLine_sets (b i : Nat) (v : Byte) (c : Cache) : (patchLine b i v c).sets = c.sets := by unfold patchLine; split <;> rfl

theorem patchLine_ways (b i : Nat) (v : Byte) (c : Cache) : (patchLine b i v c).ways = c.ways := by unfold patchLine; split <;> rfl

/-! ### Invalidate, clean, flush -/

/-- An invalidate takes the block out of the caches of the set, and no other copy changes (R120). -/
theorem copies_invalidateBlock (cfg : Config) (k : CohSet) (b : Nat) (ms : MemSys) :
    CopiesBecome ms (invalidateBlock cfg k b ms) (fun c b' d d' =>
   d' = if cacheable cfg b = true ∧ b' = b ∧ reaches cfg b k c = true then none else d) := by
  unfold invalidateBlock
  split
  next hc =>
    refine CopiesBecome.of_map rfl fun c _ => ?_
    simp only [hc, true_and]
    by_cases hr : reaches cfg b k c = true
    · simp only [hr, if_true, and_true]
      exact ⟨rfl, rfl, rfl, fun b' => get?_dropLine _ _ _⟩
    · simp [hr]
  next hc => exact CopiesBecome.of_same rfl (fun c _ b => by simp [hc])

/-- A clean that writes memory makes the copies in the common caches those of memory; no other copy changes (R121). -/
theorem copies_cleanBlock (cfg : Config) (k : CohSet) (b : Nat) (ms : MemSys) :
    CopiesBecome ms (cleanBlock cfg k b ms) (fun c b' d d' =>
   d' = if cacheable cfg b = true ∧ isDirty ms k b = true ∧ b' = b ∧ common cfg b c = true then
            d.map (fun _ => memBlock cfg (cleanBlock cfg k b ms).mem b) else d) := by
  by_cases h : (cacheable cfg b && isDirty ms k b) = true
  · have e : cleanBlock cfg k b ms = { writeMem cfg b b (blockView cfg ms k b) ms with dirty := clearDirty k b ms.dirty } := by
      unfold cleanBlock; rw [if_pos h]
    rw [Bool.and_eq_true] at h
    rw [e]
    refine CopiesBecome.of_map (f := fun c => if common cfg b c then
      replaceLine b (memBlock cfg (Memory.writeBytes ms.mem b (blockView cfg ms k b)) b) c else c) rfl fun c _ => ?_
    simp only [h.1, h.2, true_and]
    by_cases hr : common cfg b c = true
    · simp only [hr, if_true, and_true]
      refine ⟨replaceLine_serves _ _ _, replaceLine_sets _ _ _, replaceLine_ways _ _ _, fun b' => ?_⟩
      rw [get?_replaceLine]; rfl
    · simp [hr]
  · have e : cleanBlock cfg k b ms = ms := by unfold cleanBlock; rw [if_neg h]
    rw [e]
    rw [Bool.and_eq_true] at h
    exact CopiesBecome.of_same rfl (fun c _ b => by rw [if_neg]; tauto)

/-- A flush is a clean and then an invalidate (R122). -/
theorem copies_flushBlock (cfg : Config) (k : CohSet) (b : Nat) (ms : MemSys) :
    CopiesBecome ms (flushBlock cfg k b ms) (fun c b' d d' =>
    d' = if cacheable cfg b = true ∧ b' = b ∧ reaches cfg b k c = true then none
            else if cacheable cfg b = true ∧ b' = b ∧ isDirty ms k b = true ∧ common cfg b c = true then
              d.map (fun _ => memBlock cfg (flushBlock cfg k b ms).mem b)
            else d) := by
  rw [flushBlock_mem]
  refine CopiesBecome.trans (copies_cleanBlock cfg k b ms) (copies_invalidateBlock cfg k b _) fun x y b' d d' d'' hs h1 h2 => ?_
  rw [h2, h1, reaches_congr hs]
  split
  · rfl
  · split
    next h => rw [if_pos ⟨h.1, h.2.2.1, h.2.1, h.2.2.2⟩]
    next h => rw [if_neg (by tauto)]

/-! ### Stores -/

/-- A fetch gives at most one cache on the observer's path the block, where the set held none. -/
theorem copies_fetchedCaches (cfg : Config) (ms : MemSys) (b o : Nat) :
    CopiesBecome ms { ms with caches := fetchedCaches cfg ms b o } (fun c b' d d' =>
   d' = d ∨ b' = b ∧ onPath cfg b o c = true ∧ heldCopy cfg ms (cohSetOf cfg b o) b = none ∧ d' = some (blockView cfg ms (cohSetOf cfg b o) b)) := by
  unfold fetchedCaches
  split
  next => exact CopiesBecome.of_same rfl (fun _ _ _ => .inl rfl)
  next hn =>
    have hn' : heldCopy cfg ms (cohSetOf cfg b o) b = none := by simpa using hn
    simp only [hn', true_and]
    unfold CopiesBecome
    simp only
    generalize blockView cfg ms (cohSetOf cfg b o) b = bv
    induction ms.caches with
    | nil => exact .nil
    | cons c l ih =>
      unfold mapFirst
      split
      next hp =>
        refine .cons ⟨rfl, rfl, rfl, fun b' => ?_⟩ (List.forall₂_same.2 fun c _ => ⟨rfl, rfl, rfl, fun _ => .inl rfl⟩)
        by_cases hb : b' = b
        · subst hb; exact .inr ⟨rfl, hp, by rw [addLine_lines, Table.get?_put_same]⟩
        · exact .inl (by rw [addLine_lines, Table.get?_put_other _ _ hb])
      next => exact .cons ⟨rfl, rfl, rfl, fun _ => .inl rfl⟩ ih

/-- A store of zero: the caches of the set patch their copies, or one fetches the block, where a cache can satisfy it; else the common
caches hold what memory then holds (R55, R57). -/
theorem copies_storeBy (cfg : Config) (o x : Nat) (ms : MemSys) :
    CopiesBecome ms (storeBy cfg o x 0 ms) (fun c b' d d' =>
  if b' = blkBase x (cbsM cfg) then
    if canCache cfg ms b' o then
       if reaches cfg b' (cohSetOf cfg b' o) c then (∀ l, d = some l → d' = some (l.set (x - b') 0)) ∧
          (d = none → d' = none ∨ heldCopy cfg ms (cohSetOf cfg b' o) b' = none ∧
            d' = some ((blockView cfg ms (cohSetOf cfg b' o) b').set (x - b') 0))
       else d' = d
    else if common cfg b' c then d' = d.map (fun _ => memBlock cfg (storeBy cfg o x 0 ms).mem b') else d' = d
  else d' = d) := by
  by_cases hcan : canCache cfg ms (blkBase x (cbsM cfg)) o = true
  · rw [storeBy_cached hcan]
    set b := blkBase x (cbsM cfg) with hb
    have h2 : CopiesBecome { ms with caches := fetchedCaches cfg ms b o }
        (storeCached cfg o b (x - b) 0 ms) (fun c b' d d' =>
      d' = if b' = b ∧ reaches cfg b (cohSetOf cfg b o) c = true then d.map (fun l => l.set (x-b) 0) else d) := by
      refine CopiesBecome.of_map (f := fun c => if reaches cfg b (cohSetOf cfg b o) c then patchLine b (x-b) 0 c else c) rfl fun c _ => ?_
      by_cases hr : reaches cfg b (cohSetOf cfg b o) c = true
      · simp only [hr, if_true, and_true]
        refine ⟨patchLine_serves _ _ _ _, patchLine_sets _ _ _ _, patchLine_ways _ _ _ _, fun b' => ?_⟩
        by_cases hbb : b' = b
        · subst hbb; rw [if_pos rfl, get?_patchLine_same]
        · rw [if_neg hbb, get?_patchLine_other _ _ _ hbb]
      · simp [hr]
    refine CopiesBecome.trans (CopiesBecome.with_mem (copies_fetchedCaches cfg ms b o)) h2 fun c c1 b' d d' d'' hs ⟨hm, hd, h1⟩ h2 => ?_
    rw [reaches_congr hs] at h2
    by_cases hbb : b' = b
    · subst hbb
      rw [if_pos rfl, if_pos hcan]
      by_cases hr : reaches cfg b (cohSetOf cfg b o) c = true
      · rw [if_pos ⟨rfl, hr⟩] at h2
        rw [if_pos hr]
        refine ⟨fun l hl => ?_, fun hn => ?_⟩
        · rcases h1 with rfl | ⟨-, -, hnone, -⟩
          · rw [h2, hl]; rfl
          · have := heldIn_isSome_of_mem hm hr (hd.symm.trans hl)
            rw [heldCopy_eq] at hnone; rw [hnone] at this; cases this
        · rcases h1 with rfl | ⟨-, -, hnone, hv⟩
          · rw [hn] at h2; exact .inl h2
          · rw [hv] at h2; exact .inr ⟨hnone, h2⟩
      · rw [if_neg (fun h => hr h.2)] at h2
        rw [if_neg hr, h2]
        rcases h1 with h1 | ⟨-, hp, -, -⟩
        · exact h1
        · exact absurd (onPath_reaches hp) hr
    · rw [if_neg hbb]
      rw [if_neg (fun h => hbb h.1)] at h2
      rcases h1 with h1 | ⟨h, -⟩
      · rw [h2, h1]
      · exact absurd h hbb
  · rw [storeBy_uncached hcan]
    set b := blkBase x (cbsM cfg) with hb
    refine CopiesBecome.of_map (f := fun c => if common cfg b c then
      replaceLine b (memBlock cfg (Memory.writeBytes ms.mem x [0]) b) c else c) rfl fun c _ => ?_
    by_cases hr : common cfg b c = true
    · simp only [hr, if_true]
      refine ⟨replaceLine_serves _ _ _, replaceLine_sets _ _ _, replaceLine_ways _ _ _, fun b' => ?_⟩
      rw [get?_replaceLine]
      by_cases hbb : b' = b
      · subst hbb; rw [if_pos rfl, if_pos rfl, if_neg hcan, if_pos hr]; rfl
      · rw [if_neg hbb, if_neg hbb]
    · simp only [hr]
      refine ⟨rfl, rfl, rfl, fun b' => ?_⟩
      by_cases hbb : b' = b
      · subst hbb; rw [if_pos rfl, if_neg hcan, if_neg hr]; rfl
      · rw [if_neg hbb]; rfl

/-! ### A block that no cache can take stays so -/

theorem Table.countP_le_put (p : Nat → Bool) (t : Table (List Byte)) (k : Nat) (v : List Byte) :
    t.countP (fun e => p e.1) ≤ (Table.put k v t).countP (fun e => p e.1) := by
  induction t with
  | nil => simp
  | cons e t ih =>
    obtain ⟨k', v'⟩ := e
    unfold Table.put
    split
    · simp [List.countP_cons]
    · split
      next h => subst h; simp [List.countP_cons]
      next => simp only [List.countP_cons]; omega

/-- The same cache, holding at least as much. -/
def Fuller (cfg : Config) (c c' : Cache) : Prop :=
  c'.serves = c.serves ∧ c'.sets = c.sets ∧ c'.ways = c.ways ∧ ∀ b, occupancy cfg c b ≤ occupancy cfg c' b

theorem fuller_addLine (cfg : Config) (b : Nat) (d : List Byte) (c : Cache) : Fuller cfg c (addLine b d c) :=
  ⟨rfl, rfl, rfl, fun b' => Table.countP_le_put (fun e => slot cfg c e == slot cfg c b') _ _ _⟩

theorem Fuller.refl (cfg : Config) (c : Cache) : Fuller cfg c c := ⟨rfl, rfl, rfl, fun _ => Nat.le_refl _⟩

theorem Fuller.trans {cfg : Config} {c c' c'' : Cache} (h : Fuller cfg c c') (g : Fuller cfg c' c'') : Fuller cfg c c'' :=
  ⟨g.1.trans h.1, g.2.1.trans h.2.1, g.2.2.1.trans h.2.2.1, fun b => (h.2.2.2 b).trans (g.2.2.2 b)⟩

theorem fuller_patchLine (cfg : Config) (b i : Nat) (v : Byte) (c : Cache) : Fuller cfg c (patchLine b i v c) := by
  unfold patchLine; split
  · exact fuller_addLine _ _ _ _
  · exact .refl _ _

theorem fuller_replaceLine (cfg : Config) (b : Nat) (d : List Byte) (c : Cache) : Fuller cfg c (replaceLine b d c) := by
  unfold replaceLine; split
  · exact fuller_addLine _ _ _ _
  · exact .refl _ _

theorem onPath_of_fuller {cfg : Config} {b o : Nat} {c c' : Cache} (h : Fuller cfg c c')
    (hp : onPath cfg b o c' = true) : onPath cfg b o c = true := by
  unfold onPath hasRoom at *
  rw [reaches_congr h.1, servedAt_congr h.1, h.2.2.1] at hp
  simp only [Bool.and_eq_true, decide_eq_true_eq] at hp ⊢
  exact ⟨hp.1, Nat.lt_of_le_of_lt (h.2.2.2 b) hp.2⟩

/-- No cache holds fewer blocks after a store. -/
theorem mem_storeBy {cfg : Config} {o x : Nat} {v : Byte} {ms : MemSys} {c' : Cache} (h : c' ∈ (storeBy cfg o x v ms).caches) :
    ∃ c ∈ ms.caches, Fuller cfg c c' := by
  unfold storeBy at h
  split at h
  · simp only [storeCached, List.mem_map] at h
    obtain ⟨c0, h0, rfl⟩ := h
    have : ∃ c ∈ ms.caches, Fuller cfg c c0 := by
      rcases mem_fetchedCaches h0 with h | ⟨-, c, hc, -, rfl⟩
      · exact ⟨_, h, .refl _ _⟩
      · exact ⟨c, hc, fuller_addLine _ _ _ _⟩
    obtain ⟨c, hc, hf⟩ := this
    refine ⟨c, hc, hf.trans ?_⟩
    split
    · exact fuller_patchLine _ _ _ _ _
    · exact .refl _ _
  · simp only [writeMem, List.mem_map] at h
    obtain ⟨c, hc, rfl⟩ := h
    refine ⟨c, hc, ?_⟩
    split
    · exact fuller_replaceLine _ _ _ _
    · exact .refl _ _

theorem heldCopy_storeBy_other {cfg : Config} {o x : Nat} {v : Byte} {ms : MemSys} {b : Nat}
    (h : b ≠ blkBase x (cbsM cfg) ∨ canCache cfg ms (blkBase x (cbsM cfg)) o = false) (k : CohSet) :
    heldCopy cfg (storeBy cfg o x v ms) k b = heldCopy cfg ms k b := by
  by_cases hc : canCache cfg ms (blkBase x (cbsM cfg)) o = true
  · rw [storeBy_cached hc]; exact heldCopy_storeCached_other _ _ _ _ (.inl (h.resolve_right (by simp [hc])))
  · rw [storeBy_uncached hc]; exact heldCopy_writeMem _ _ _ _ _ _ _

/-- What no cache could take it cannot take after a store either. -/
theorem not_canCache_storeBy {cfg : Config} {o x : Nat} {v : Byte} {ms : MemSys} {b : Nat} (h : canCache cfg ms b o = false) :
    canCache cfg (storeBy cfg o x v ms) b o = false := by
  have hh : heldCopy cfg (storeBy cfg o x v ms) (cohSetOf cfg b o) b = heldCopy cfg ms (cohSetOf cfg b o) b :=
    heldCopy_storeBy_other (by by_cases hb : b = blkBase x (cbsM cfg); exact .inr (hb ▸ h); exact .inl hb) _
  unfold canCache at *
  rw [hh]
  cases hcb : cacheable cfg b with
  | false => rfl
  | true =>
    rw [hcb, Bool.true_and, Bool.or_eq_false_iff] at h
    rw [Bool.true_and, h.1, Bool.false_or]
    rw [List.any_eq_false]
    intro c' hc' hp
    obtain ⟨c, hc, hf⟩ := mem_storeBy hc'
    exact absurd (onPath_of_fuller hf hp) (List.any_eq_false.1 h.2 c hc)

/-! ### The stores of `CBO.ZERO` -/

/-- The memory system after `m` stores of zero from address `a` on. -/
def zeroed (cfg : Config) (o a : Nat) (ms : MemSys) : Nat → MemSys
  | 0 => ms
  | m + 1 => storeBy cfg o (a + m) 0 (zeroed cfg o a ms m)

theorem storeBytesBy_zeros (cfg : Config) (o a : Nat) (ms : MemSys) (n : Nat) :
    storeBytesBy cfg o a (List.replicate n 0) ms = zeroed cfg o a ms n := by
  have h : ∀ (l l' : List Byte) a ms,
      storeBytesBy cfg o a (l ++ l') ms = storeBytesBy cfg o (a + l.length) l' (storeBytesBy cfg o a l ms) := by
    intro l
    induction l with
    | nil => intros; rfl
    | cons v l ih =>
      intro l' a ms
      simp only [List.cons_append, storeBytesBy, ih, List.length_cons]
      rw [show a + 1 + l.length = a + (l.length + 1) by omega]
  induction n with
  | zero => rfl
  | succ n ih => rw [List.replicate_succ', h, ih]; simp [storeBytesBy, zeroed]

/-- One of `m` bytes from address `a` on lies in the block at base `b`. -/
def Touched (cfg : Config) (a b m : Nat) : Prop :=
  ∃ x, a ≤ x ∧ x < a + m ∧ blkBase x (cbsM cfg) = b

/-- The bytes of a block with those of `m` bytes from address `a` on zero. -/
def zeroIn (cfg : Config) (a b m : Nat) (l : List Byte) : List Byte :=
  (List.range (cbsM cfg)).map (fun i => if a ≤ b + i ∧ b + i < a + m then (0 : Byte) else l.getD i 0)

theorem zeroIn_set {cfg : Config} {a b m : Nat} {l : List Byte} (hb : blkBase (a + m) (cbsM cfg) = b) :
    (zeroIn cfg a b m l).set (a + m - b) 0 = zeroIn cfg a b (m+1) l := by
  have h1 := blkBase_le (a+m) (cbsM cfg)
  have h2 := lt_blkBase_add (a+m) (cbsM_pos cfg)
  rw [hb] at h1 h2
  apply List.ext_getElem
  · simp [zeroIn]
  · intro i h3 h4
    simp only [zeroIn, List.length_map, List.length_range, List.length_set] at h3 h4
    rw [List.getElem_set]
    simp only [zeroIn, List.getElem_map, List.getElem_range]
    by_cases hi : a + m - b = i
    · rw [if_pos hi, if_pos (by omega)]
    · rw [if_neg hi]
      by_cases hc : a ≤ b + i ∧ b + i < a + m
      · rw [if_pos hc, if_pos (by omega)]
      · rw [if_neg hc, if_neg (by omega)]

theorem zeroIn_untouched {cfg : Config} {a b m : Nat} {l : List Byte} (hl : l.length = cbsM cfg) (hT : ¬ Touched cfg a b m)
    (hb : b % cbsM cfg = 0) : zeroIn cfg a b m l = l := by
  apply List.ext_getElem
  · simp [zeroIn, hl]
  · intro i h3 h4
    simp only [zeroIn, List.length_map, List.length_range] at h3
    simp only [zeroIn, List.getElem_map, List.getElem_range]
    rw [if_neg, List.getD_eq_getElem?_getD, List.getElem?_eq_getElem h4]; rfl
    intro h; exact hT ⟨b + i, h.1, h.2, blkBase_add hb h3⟩

/-- Where the stores stand with the block at base `b`: none has come to it (`u`), or its caches have satisfied all that came (`c`), or
memory has (`w`). -/
inductive ZeroPhase (cfg : Config) (o a : Nat) (ms : MemSys) (b m : Nat) : Prop
  | u (ht : ¬ Touched cfg a b m) (cb : CopiesBecome ms (zeroed cfg o a ms m) (fun _ b' d d' => b' = b → d' = d))
      (held : heldCopy cfg (zeroed cfg o a ms m) (cohSetOf cfg b o) b = heldCopy cfg ms (cohSetOf cfg b o) b)
      (can : canCache cfg ms b o = false → canCache cfg (zeroed cfg o a ms m) b o = false)
  | c (ht : Touched cfg a b m) (can : canCache cfg ms b o = true)
      (held : (heldCopy cfg (zeroed cfg o a ms m) (cohSetOf cfg b o) b).isSome = true)
      (cb : CopiesBecome ms (zeroed cfg o a ms m) (fun c b' d d' => b' = b →
        if reaches cfg b (cohSetOf cfg b o) c then
          (∀ l, d = some l → d' = some (zeroIn cfg a b m l)) ∧
          (d = none → d' = none ∨ heldCopy cfg ms (cohSetOf cfg b o) b = none ∧
            d' = some (zeroIn cfg a b m (blockView cfg ms (cohSetOf cfg b o) b)))
        else d' = d))
  | w (ht : Touched cfg a b m) (can : canCache cfg (zeroed cfg o a ms m) b o = false)
      (hn : cacheable cfg b = true → heldCopy cfg ms (cohSetOf cfg b o) b = none)
      (cb : CopiesBecome ms (zeroed cfg o a ms m) (fun c b' d d' => b' = b →
        if common cfg b c then d' = d.map (fun _ => memBlock cfg (zeroed cfg o a ms m).mem b) else d' = d))
      (first : ∃ m0 ≤ m, ¬ Touched cfg a b m0 ∧ Touched cfg a b (m0 + 1) ∧ canCache cfg (zeroed cfg o a ms m0) b o = false)

theorem cacheable_of_canCache {cfg : Config} {ms : MemSys} {b o : Nat} (h : canCache cfg ms b o = true) : cacheable cfg b = true := by
  unfold canCache at h; exact (Bool.and_eq_true _ _ ▸ h).1

theorem mem_zeros_other {cfg : Config} {o a : Nat} {ms : MemSys} {b m : Nat} (hT : ¬ Touched cfg a b m) (hb : b % cbsM cfg = 0) {i : Nat}
    (hi : i < cbsM cfg) : Memory.read (zeroed cfg o a ms m).mem (b+i) = Memory.read ms.mem (b+i) := by
  rw [← storeBytesBy_zeros]
  refine mem_storeBytesBy_outside ms o _ ?_
  rw [List.length_replicate]
  by_contra h
  exact hT ⟨b + i, by omega, by omega, blkBase_add hb hi⟩

theorem blockView_of_none {cfg : Config} {ms ms' : MemSys} {k : CohSet} {b : Nat} (hb : b % cbsM cfg = 0)
    (h : heldCopy cfg ms k b = none) (h' : heldCopy cfg ms' k b = none)
    (hm : ∀ i < cbsM cfg, Memory.read ms'.mem (b + i) = Memory.read ms.mem (b + i)) : blockView cfg ms' k b = blockView cfg ms k b := by
  unfold blockView
  refine List.map_congr_left fun i hi => ?_
  rw [List.mem_range] at hi
  rw [view_of_none (by rw [blkBase_add hb hi]; exact h'), view_of_none (by rw [blkBase_add hb hi]; exact h)]
  exact hm i hi

theorem memBlock_congr {cfg : Config} {m m' : Memory} {b : Nat}
    (h : ∀ i < cbsM cfg, Memory.read m (b + i) = Memory.read m' (b + i)) : memBlock cfg m b = memBlock cfg m' b := by
  unfold memBlock; exact List.map_congr_left fun i hi => h i (List.mem_range.1 hi)

theorem zeroPhase {cfg : Config} {o a : Nat} {ms : MemSys} {b : Nat} (hw : LinesWhole cfg ms) (hb : b % cbsM cfg = 0) (m : Nat) :
    ZeroPhase cfg o a ms b m := by
  induction m with
  | zero => exact .u (by rintro ⟨x, h1, h2, _⟩; omega) (CopiesBecome.of_same rfl fun _ _ _ _ => rfl) rfl id
  | succ m ih =>
    have hst := copies_storeBy cfg o (a+m) (zeroed cfg o a ms m)
    by_cases hx : b = blkBase (a + m) (cbsM cfg)
    · have hT : Touched cfg a b (m+1) := ⟨a+m, by omega, by omega, hx.symm⟩
      by_cases hcan : canCache cfg (zeroed cfg o a ms m) b o = true
      · -- cached
        have hheld : (heldCopy cfg (zeroed cfg o a ms (m+1)) (cohSetOf cfg b o) b).isSome = true := by
          show (heldCopy cfg (storeBy _ _ _ _ _) _ _).isSome = true
          subst hx
          rw [storeBy_cached hcan, heldCopy_storeCached_same _ _ hcan]; rfl
        rcases ih with ⟨ht, cb, held, can⟩ | ⟨ht, can, held, cb⟩ | ⟨ht, can, _, _, _⟩
        · refine .c hT (by cases h : canCache cfg ms b o with | true => rfl | false => rw [can h] at hcan; cases hcan) hheld ?_
          refine CopiesBecome.trans (CopiesBecome.with_mem cb) hst fun c c1 b' d d' d'' hs ⟨hm, hd, h1⟩ h2 hbb => ?_
          subst hbb
          rw [if_pos hx, if_pos hcan, reaches_congr hs] at h2
          rw [h1 rfl] at h2
          split at h2
          next hr =>
            rw [if_pos hr]
            refine ⟨fun l hl => ?_, fun hn => ?_⟩
            · rw [h2.1 l hl, ← zeroIn_set hx.symm, zeroIn_untouched (hw c hm (b', l) (Table.mem_of_get? (hd.symm.trans hl))) ht hb]
            · rcases h2.2 hn with h | ⟨h, h'⟩
              · exact .inl h
              · rw [held] at h
                refine .inr ⟨h, ?_⟩
                rw [h', blockView_of_none hb h (held.trans h) (fun i hi => mem_zeros_other ht hb hi), ← zeroIn_set hx.symm, zeroIn_untouched (length_blockView _ _ _ _) ht hb]
          next hr => rw [if_neg hr]; exact h2
        · refine .c hT can hheld ?_
          refine CopiesBecome.trans cb hst fun c c1 b' d d' d'' hs h1 h2 hbb => ?_
          subst hbb
          rw [if_pos hx, if_pos hcan, reaches_congr hs] at h2
          replace h1 := h1 rfl
          split at h1
          next hr =>
            rw [if_pos hr] at h2 ⊢
            refine ⟨fun l hl => ?_, fun hn => ?_⟩
            · rw [h2.1 _ (h1.1 l hl), ← zeroIn_set hx.symm]
            · rcases h1.2 hn with h | ⟨h, h'⟩
              · rcases h2.2 h with h | ⟨h, h'⟩
                · exact .inl h
                · rw [h] at held; cases held
              · refine .inr ⟨h, ?_⟩
                rw [h2.1 _ h', ← zeroIn_set hx.symm]
          next hr => rw [if_neg hr] at h2 ⊢; rw [h2, h1]
        · rw [can] at hcan; cases hcan
      · -- written
        have hcf : canCache cfg (zeroed cfg o a ms m) b o = false := by simpa using hcan
        have hcf' : canCache cfg (zeroed cfg o a ms (m+1)) b o = false := not_canCache_storeBy hcf
        rcases ih with ⟨ht, cb, held, can⟩ | ⟨ht, can, held, cb⟩ | ⟨ht, can, hn, cb, first⟩
        · refine .w hT hcf' (fun hc => ?_) ?_ ⟨m, Nat.le_succ _, ht, hT, hcf⟩
          · rw [← held]
            cases h : heldCopy cfg (zeroed cfg o a ms m) (cohSetOf cfg b o) b with
            | none => rfl
            | some d => exact absurd (canCache_of_heldCopy hc (by rw [h]; rfl)) hcan
          · refine CopiesBecome.trans cb hst fun c c1 b' d d' d'' hs h1 h2 hbb => ?_
            subst hbb
            rw [if_pos hx, if_neg hcan, common_congr hs, h1 rfl] at h2
            exact h2
        · exact absurd (canCache_of_heldCopy (cacheable_of_canCache can) held) hcan
        · refine .w hT hcf' hn ?_ (let ⟨m0, h, r⟩ := first; ⟨m0, Nat.le_succ_of_le h, r⟩)
          refine CopiesBecome.trans cb hst fun c c1 b' d d' d'' hs h1 h2 hbb => ?_
          subst hbb
          rw [if_pos hx, if_neg hcan, common_congr hs] at h2
          replace h1 := h1 rfl
          split at h1
          next hk => rw [if_pos hk] at h2 ⊢; rw [h2, h1]; cases d <;> rfl
          next hk => rw [if_neg hk] at h2 ⊢; rw [h2, h1]
    · have hT : Touched cfg a b (m+1) ↔ Touched cfg a b m := by
        constructor
        · rintro ⟨x, h1, h2, h3⟩
          by_cases hxa : x = a + m
          · subst hxa; exact absurd h3.symm hx
          · exact ⟨x, h1, by omega, h3⟩
        · rintro ⟨x, h1, h2, h3⟩; exact ⟨x, h1, by omega, h3⟩
      have hh : heldCopy cfg (zeroed cfg o a ms (m+1)) (cohSetOf cfg b o) b = heldCopy cfg (zeroed cfg o a ms m) (cohSetOf cfg b o) b :=
        heldCopy_storeBy_other (.inl hx) _
      have hz : ∀ l, zeroIn cfg a b (m+1) l = zeroIn cfg a b m l := by
        intro l; unfold zeroIn; refine List.map_congr_left fun i hi => ?_
        rw [List.mem_range] at hi
        have : b + i ≠ a + m := fun h => hx (by rw [← h, blkBase_add hb hi])
        by_cases hc : a ≤ b + i ∧ b + i < a + m
        · rw [if_pos hc, if_pos (by omega)]
        · rw [if_neg hc, if_neg (by omega)]
      have hmm : memBlock cfg (zeroed cfg o a ms (m+1)).mem b = memBlock cfg (zeroed cfg o a ms m).mem b :=
        memBlock_congr fun i hi => mem_storeBy_other _ _ _ (fun h => hx (by rw [← h, blkBase_add hb hi]))
      rcases ih with ⟨ht, cb, held, can⟩ | ⟨ht, can, held, cb⟩ | ⟨ht, can, hn, cb, first⟩
      · refine .u (hT.not.2 ht) ?_ (hh.trans held) (fun h => not_canCache_storeBy (can h))
        refine CopiesBecome.trans cb hst fun c c1 b' d d' d'' hs h1 h2 hbb => ?_
        subst hbb; rw [if_neg hx] at h2; rw [h2, h1 rfl]
      · refine .c (hT.2 ht) can (by rw [hh]; exact held) ?_
        refine CopiesBecome.trans cb hst fun c c1 b' d d' d'' hs h1 h2 hbb => ?_
        subst hbb; rw [if_neg hx] at h2; subst h2; simp only [hz]; exact h1 rfl
      · refine .w (hT.2 ht) (not_canCache_storeBy can) hn ?_ (let ⟨m0, h, r⟩ := first; ⟨m0, Nat.le_succ_of_le h, r⟩)
        refine CopiesBecome.trans cb hst fun c c1 b' d d' d'' hs h1 h2 hbb => ?_
        subst hbb; rw [if_neg hx] at h2; subst h2; simp only [hmm]; exact h1 rfl

theorem copies_zeros_unaligned {cfg : Config} {o a : Nat} {ms : MemSys} {b : Nat} (hb : b % cbsM cfg ≠ 0) (m : Nat) :
    CopiesBecome ms (zeroed cfg o a ms m) (fun _ b' d d' => b' = b → d' = d) := by
  induction m with
  | zero => exact CopiesBecome.of_same rfl fun _ _ _ _ => rfl
  | succ m ih =>
    refine CopiesBecome.trans ih (copies_storeBy cfg o (a+m) _) fun c c1 b' d d' d'' hs h1 h2 hbb => ?_
    subst hbb
    rw [if_neg (fun h => hb (by rw [h]; exact blkBase_mod _ _)), h1 rfl] at h2
    exact h2

/-- What the stores of `CBO.ZERO` do to each copy of each cache (R140). -/
theorem copies_zeros (cfg : Config) (o pa : Nat) (ms : MemSys) (hw : LinesWhole cfg ms) (t : MemSys)
    (ht : t = storeBytesBy cfg o (blkBase pa (cbsZ cfg)) (List.replicate (cbsZ cfg) 0) ms) :
    CopiesBecome ms t (fun c b d d' =>
          let k := cohSetOf cfg b o
          let held := heldCopy cfg ms k b
          let zeroed := fun l : List Byte => (List.range (cbsM cfg)).map
            (fun i => if b + i ∈ block pa (cbsZ cfg) then (0 : Byte) else l.getD i 0)
          if ∃ a ∈ block pa (cbsZ cfg), blkBase a (cbsM cfg) = b then
            if common cfg b c = true then
              (d' = d ∨ d' = d.map (fun _ => memBlock cfg t.mem b)) ∧
              (canCache cfg ms b o = false → d' = d.map (fun _ => memBlock cfg t.mem b)) ∧
              (canCache cfg ms b o = true → held.isSome = true ∨ cbsZ cfg ≤ cbsM cfg → d' = d)
            else if cacheable cfg b = true ∧ reaches cfg b k c = true then
              (∀ l, d = some l → d' = some (zeroed l)) ∧
              (d = none → d' = none ∨ held = none ∧ d' = some (zeroed (blockView cfg ms k b)))
            else d' = d
          else d' = d) := by
  rw [storeBytesBy_zeros] at ht
  subst ht
  set a := blkBase pa (cbsZ cfg) with ha
  have hTb : ∀ b, (∃ x ∈ block pa (cbsZ cfg), blkBase x (cbsM cfg) = b) ↔ Touched cfg a b (cbsZ cfg) := by
    intro b; unfold Touched; simp only [mem_block, and_assoc]; rfl
  have hz : ∀ b l, (List.range (cbsM cfg)).map (fun i => if b + i ∈ block pa (cbsZ cfg) then (0 : Byte) else l.getD i 0) = zeroIn cfg a b (cbsZ cfg) l := by
    intro b l; unfold zeroIn; simp only [mem_block, ha]
  refine CopiesBecome.of_each fun b => ?_
  by_cases hb : b % cbsM cfg = 0
  · rcases zeroPhase (o := o) (a := a) hw hb (cbsZ cfg) with ⟨ht, cb, held, can⟩ | ⟨ht, can, held, cb⟩ | ⟨ht, can, hn, cb, first⟩
    · refine CopiesBecome.mono cb fun c b' d d' hm hd h hbb => ?_
      subst hbb; rw [if_neg ((hTb b').not.2 ht)]; exact h rfl
    · refine CopiesBecome.mono cb fun c b' d d' hm hd h hbb => ?_
      subst hbb; rw [if_pos ((hTb b').2 ht)]; simp only [hz]
      replace h := h rfl
      split at h
      next hr =>
        rw [if_neg (by rw [common_of_reaches hr]; simp), if_pos ⟨cacheable_of_canCache can, hr⟩]; exact h
      next hr =>
        subst h
        split
        · refine ⟨.inl rfl, fun h => ?_, fun _ _ => rfl⟩
          rw [can] at h; cases h
        · rw [if_neg (fun h => hr h.2)]
    · refine CopiesBecome.mono cb fun c b' d d' hm hd h hbb => ?_
      subst hbb; rw [if_pos ((hTb b').2 ht)]; simp only [hz]
      replace h := h rfl
      split at h
      next hk =>
        rw [if_pos hk]
        refine ⟨.inr h, fun _ => h, fun hc hor => ?_⟩
        exfalso
        rcases hor with hs | hle
        · rw [hn (cacheable_of_canCache hc)] at hs; cases hs
        · obtain ⟨m0, -, hn0, hn1, hcf⟩ := first
          have : m0 = 0 := by
            by_contra hm0
            apply hn0
            obtain ⟨x, hx1, hx2, hx3⟩ := ht
            refine ⟨a, Nat.le_refl _, by omega, ?_⟩
            rw [← hx3]
            -- a and x in one cbsM block
            have hd : cbsZ cfg ∣ cbsM cfg := Nat.pow_dvd_pow 2 ((Nat.pow_le_pow_iff_right (by omega)).1 hle)
            obtain ⟨q, hq⟩ := hd
            have h1 := blkBase_le x (cbsM cfg)
            have h2 := lt_blkBase_add x (cbsM_pos cfg)
            rw [← mem_block_iff_blkBase (cbsM_pos cfg), mem_block]
            rw [blkBase_eq x, hq] at *
            rw [ha, blkBase_eq] at *
            set z := cbsZ cfg
            set n := pa / z
            set y := x / (z * q)
            rw [Nat.mul_assoc] at *
            have hxz : z * n ≤ x ∧ x < z * n + z := ⟨hx1, hx2⟩
            have k1 : q * y ≤ n := by
              by_contra hh
              have : z * (n + 1) ≤ z * (q * y) := Nat.mul_le_mul_left _ (by omega)
              rw [Nat.mul_add] at this; omega
            exact ⟨Nat.mul_le_mul_left _ k1, by omega⟩
          subst this
          rw [show zeroed cfg o a ms 0 = ms from rfl, hc] at hcf; cases hcf
      next hk =>
        rw [if_neg hk, h]
        split
        next hcr =>
          refine ⟨fun l hl => ?_, fun hn => .inl hn⟩
          have := heldIn_isSome_of_mem hm hcr.2 (hd.symm.trans hl)
          have hn' := hn hcr.1
          rw [heldCopy_eq] at hn'; rw [hn'] at this; cases this
        next => rfl
  · refine CopiesBecome.mono (copies_zeros_unaligned hb (cbsZ cfg)) fun c b' d d' hm hd h hbb => ?_
    subst hbb
    rw [if_neg]; exact h rfl
    rintro ⟨x, -, hx⟩
    exact hb (by rw [← hx]; exact blkBase_mod _ _)

end Sys2Proof.Machine
end

