-- ==== Sys2Proof/Laws/Exec.lean ====
section
/-!
SUPPORT. What an instruction and a step can do, said once: every next state of `exec` and of `step` is one of the forms below.
-/

namespace Sys2Proof.Machine

/-- The exceptions the access of a CMO instruction can take (R167). -/
def Cause.ofAccess (c : Cause) : Prop :=
  c = .breakpoint ∨ c = .storeAccessFault ∨ c = .storePageFault ∨ c = .storeGuestPageFault

/-- What the checks of a management or zero instruction answer when they trap (R172, R174 to R176, R182, R186, R187). -/
theorem accessCheck_trap {cfg : Config} {h : Hart} {cls : AccessClass} {n : Nat} {ea : Word} {c : Cause} {g : Option Nat}
    (ht : accessCheck cfg h cls n ea = .trap c g) : c = .storeAccessFault ∨ c = .storePageFault ∨ c = .storeGuestPageFault := by
  unfold accessCheck at ht
  simp only at ht
  split at ht
  next k gp _ => cases k <;> simp only [walkTrap, Access.trap.injEq] at ht <;> simp [← ht.1]
  next =>
    split at ht
    · simp only [Access.trap.injEq] at ht; simp [← ht.1]
    · split at ht
      · simp only [Access.trap.injEq] at ht; simp [← ht.1]
      · split at ht
        · simp only [Access.trap.injEq] at ht; simp [← ht.1]
        · split at ht <;> cases ht

/-- Every next state of a management instruction from the trigger check on. -/
theorem cbmAccess_cases {op : BlockOp} {rs1 : Reg} {s t : State} (h : cbmAccess op rs1 s = .next t) :
    (∃ c g, c.ofAccess ∧ t = raiseFault c g (eaCbo s rs1) (cbsM s.cfg) s) ∨
    (∃ pa, triggerCheck s.cfg s.hart .cbm (eaCbo s rs1) (cbsM s.cfg) = .pass ∧
      accessCheck s.cfg s.hart .cbm (cbsM s.cfg) (eaCbo s rs1) = .granted pa ∧
      t = retire (performOp op pa (cmoTags s.hart rs1) s)) := by
  unfold cbmAccess at h
  simp only at h
  split at h
  next => cases h
  next => cases h; exact .inl ⟨_, _, .inl rfl, rfl⟩
  next htr =>
    split at h
    next c g hc => cases h; exact .inl ⟨c, g, .inr (accessCheck_trap hc), rfl⟩
    next => cases h
    next pa hg =>
      split at h
      next => cases h; exact .inl ⟨_, _, .inr (.inl rfl), rfl⟩
      next => cases h; exact .inr ⟨pa, htr, hg, rfl⟩

/-- Every next state of `CBO.ZERO` from the trigger check on. -/
theorem cbzAccess_cases {rs1 : Reg} {s t : State} (h : cbzAccess rs1 s = .next t) :
    (∃ c g, c.ofAccess ∧ t = raiseFault c g (eaCbo s rs1) (cbsZ s.cfg) s) ∨
    (∃ pa, triggerCheck s.cfg s.hart .cbz (eaCbo s rs1) (cbsZ s.cfg) = .pass ∧
      accessCheck s.cfg s.hart .cbz (cbsZ s.cfg) (eaCbo s rs1) = .granted pa ∧
      t = retire (performZero pa (cmoTags s.hart rs1) s)) := by
  unfold cbzAccess at h
  simp only at h
  split at h
  next => cases h
  next => cases h; exact .inl ⟨_, _, .inl rfl, rfl⟩
  next htr =>
    split at h
    next c g hc => cases h; exact .inl ⟨c, g, .inr (accessCheck_trap hc), rfl⟩
    next => cases h
    next pa hg =>
      split at h
      next => cases h; exact .inl ⟨_, _, .inr (.inl rfl), rfl⟩
      next => cases h; exact .inr ⟨pa, htr, hg, rfl⟩

/-- Every next state of a prefetch. -/
theorem prefetch_cases {k : PrefetchKind} {rs1 : Reg} {offset : Int} {s t : State} (h : prefetch k rs1 offset s = .next t) :
    t = raiseFault .breakpoint none (eaPrefetch s rs1 offset) (cbsM s.cfg) s ∨ t = retire s ∨ ∃ pa, t = retire (hint pa s) := by
  unfold prefetch at h
  simp only at h
  split at h
  next => cases h
  next => cases h; exact .inl rfl
  next =>
    split at h
    next => cases h
    next => cases h; exact .inr (.inl rfl)
    next pa _ => cases h; exact .inr (.inr ⟨pa, rfl⟩)

/-- Every next state of an instruction: an illegal instruction trap, a trap of its access, or a retirement after its operation, its
stores, its hint or nothing. -/
theorem exec_cases {i : Instr} {s t : State} (h : exec i s = .next t) :
    (t = raiseIllegal (encode i) s) ∨
    (∃ c g ea n, c.ofAccess ∧ t = raiseFault c g ea n s) ∨
    (∃ op pa rs1, t = retire (performOp op pa (cmoTags s.hart rs1) s)) ∨
    (∃ pa rs1, t = retire (performZero pa (cmoTags s.hart rs1) s)) ∨
    t = retire s ∨ ∃ pa, t = retire (hint pa s) := by
  have hcbm : ∀ {op : BlockOp} {rs1 : Reg}, cbmAccess op rs1 s = .next t →
      (∃ c g ea n, c.ofAccess ∧ t = raiseFault c g ea n s) ∨ (∃ op pa rs1, t = retire (performOp op pa (cmoTags s.hart rs1) s)) := by
    intro op rs1 h
    rcases cbmAccess_cases h with ⟨c, g, hc, ht⟩ | ⟨pa, _, _, ht⟩
    · exact .inl ⟨c, g, _, _, hc, ht⟩
    · exact .inr ⟨op, pa, _, ht⟩
  have hcbz : ∀ {rs1 : Reg}, cbzAccess rs1 s = .next t →
      (∃ c g ea n, c.ofAccess ∧ t = raiseFault c g ea n s) ∨ (∃ pa rs1, t = retire (performZero pa (cmoTags s.hart rs1) s)) := by
    intro rs1 h
    rcases cbzAccess_cases h with ⟨c, g, hc, ht⟩ | ⟨pa, _, _, ht⟩
    · exact .inl ⟨c, g, _, _, hc, ht⟩
    · exact .inr ⟨pa, _, ht⟩
  have hpf : ∀ {k : PrefetchKind} {rs1 : Reg} {offset : Int}, prefetch k rs1 offset s = .next t →
      (∃ c g ea n, c.ofAccess ∧ t = raiseFault c g ea n s) ∨ t = retire s ∨ ∃ pa, t = retire (hint pa s) := by
    intro k rs1 offset h
    rcases prefetch_cases h with ht | ht
    · exact .inl ⟨_, _, _, _, .inl rfl, ht⟩
    · exact .inr ht
  cases i with
  | cboInval rs1 =>
    simp only [exec, execCboInval] at h
    split at h
    next => cases h; exact .inl rfl
    next => exact (hcbm h).elim (fun h => .inr (.inl h)) (fun h => .inr (.inr (.inl h)))
    next => exact (hcbm h).elim (fun h => .inr (.inl h)) (fun h => .inr (.inr (.inl h)))
  | cboClean rs1 =>
    simp only [exec, execCboClean] at h
    split at h
    next => cases h; exact .inl rfl
    next => exact (hcbm h).elim (fun h => .inr (.inl h)) (fun h => .inr (.inr (.inl h)))
    next => exact (hcbm h).elim (fun h => .inr (.inl h)) (fun h => .inr (.inr (.inl h)))
  | cboFlush rs1 =>
    simp only [exec, execCboFlush] at h
    split at h
    next => cases h; exact .inl rfl
    next => exact (hcbm h).elim (fun h => .inr (.inl h)) (fun h => .inr (.inr (.inl h)))
    next => exact (hcbm h).elim (fun h => .inr (.inl h)) (fun h => .inr (.inr (.inl h)))
  | cboZero rs1 =>
    simp only [exec, execCboZero] at h
    split at h
    next => cases h; exact .inl rfl
    next => exact (hcbz h).elim (fun h => .inr (.inl h)) (fun h => .inr (.inr (.inr (.inl h))))
    next => exact (hcbz h).elim (fun h => .inr (.inl h)) (fun h => .inr (.inr (.inr (.inl h))))
  | prefetchI rs1 offset => exact (hpf h).elim (fun h => .inr (.inl h)) (fun h => .inr (.inr (.inr (.inr h))))
  | prefetchR rs1 offset => exact (hpf h).elim (fun h => .inr (.inl h)) (fun h => .inr (.inr (.inr (.inr h))))
  | prefetchW rs1 offset => exact (hpf h).elim (fun h => .inr (.inl h)) (fun h => .inr (.inr (.inr (.inr h))))

/-- Every next state of the instruction at `pc`: an instruction's, a reserved word's trap, a hint's advance of `pc`, or a `FENCE`. -/
theorem runNext_cases {s t : State} (h : runNext s = .next t) :
    ∃ w, fetchWord s = some w ∧
      ((∃ i, decodeFor s.cfg w = .cmo i ∧ exec i s = .next t) ∨
        (decodeFor s.cfg w = .reservedCbo ∧ t = runReserved w s) ∨
        (decodeFor s.cfg w = .oriHint ∧ t = runHint s) ∨
        ∃ p q, decodeFor s.cfg w = .fence p q ∧ t = runFence p q s) := by
  unfold runNext at h
  split at h
  · split at h
    next w hw =>
      refine ⟨w, hw, ?_⟩
      unfold runWord at h
      split at h
      next i hd => exact .inl ⟨i, hd, h⟩
      next hd => cases h; exact .inr (.inl ⟨hd, rfl⟩)
      next hd => cases h; exact .inr (.inr (.inl ⟨hd, rfl⟩))
      next p q hd => cases h; exact .inr (.inr (.inr ⟨p, q, hd, rfl⟩))
      next => cases h
      next => cases h
    next => cases h
  · cases h

/-- Every next state of a step: a move's, or one of the instruction at `pc` (`runNext_cases`). -/
theorem step_cases {s t : State} (h : step s = .next t) :
    (∃ m rest, s.inputs = .act m :: rest ∧ t = applyMove m { s with inputs := rest }) ∨
    ∃ rest, (s.inputs = .run :: rest ∨ s.inputs = [] ∧ rest = []) ∧ runNext { s with inputs := rest } = .next t := by
  unfold step at h
  split at h
  next hi => exact .inr ⟨[], .inr ⟨hi, rfl⟩, by rw [← hi]; exact h⟩
  next rest hi => exact .inr ⟨rest, .inl hi, h⟩
  next m rest hi => cases h; exact .inl ⟨m, rest, hi, rfl⟩

/-- Performing an operation does nothing, or puts it at the end of the global memory order with its effect, where the bytes a load
returns can be and the execution so far stays legal. -/
theorem perform_cases (n : Nat) (bytes : List Byte) (src : List Source) (s : State) :
    perform n bytes src s = s ∨ ∃ e, s.pending[n]? = some e ∧
      let e' : Event := { e with op := e.op.performed bytes src }
      returnOk s e' = true ∧ LegalSoFar s.cfg s.initMem (s.history ++ [e']) (s.pending.eraseIdx n) ∧
      perform n bytes src s =
        { s with history := s.history ++ [e'], pending := s.pending.eraseIdx n, sys := e'.op.effect s.cfg e'.obs s.sys } := by
  unfold perform
  split
  next => exact .inl rfl
  next e he =>
    simp only
    split
    next h =>
      simp only [Bool.and_eq_true, decide_eq_true_eq] at h
      exact .inr ⟨e, he, h.1, h.2, rfl⟩
    next => exact .inl rfl

/-- Overtaking does nothing, or exchanges two operations that wait, the execution so far staying legal. -/
theorem overtake_cases (n : Nat) (s : State) :
    overtake n s = s ∨ LegalSoFar s.cfg s.initMem s.history (swapAt n s.pending) ∧
      overtake n s = { s with pending := swapAt n s.pending } := by
  unfold overtake
  split
  next h => exact .inr ⟨of_decide_eq_true h, rfl⟩
  next => exact .inl rfl

/-- Exchanging two elements keeps the elements of a list. -/
theorem swapAt_perm {α : Type} (n : Nat) (l : List α) : (swapAt n l).Perm l := by
  induction n generalizing l with
  | zero =>
    match l with
    | [] => exact .refl _
    | [_] => exact .refl _
    | a :: b :: l => exact .swap a b l
  | succ n ih =>
    match l with
    | [] => exact .refl _
    | a :: l => exact (ih l).cons a

/-- What a move leaves alone, whatever the move: the platform, the initial data and the trap records. -/
theorem move_frame (m : Move) (s : State) :
    (move m s).cfg = s.cfg ∧ (move m s).initMem = s.initMem ∧ (move m s).traps = s.traps ∧ (move m s).inputs = s.inputs
      ∧ (move m s).tick = s.tick := by
  cases m with
  | schedule o => simp only [move, schedule]; split <;> simp
  | allocate c b => simp [move]
  | deallocate c b d => simp [move]
  | writeBack c b => simp [move]
  | load o a n tags => simp only [move, loadMove]; split <;> simp
  | store o a bs tags => simp only [move, storeMove]; split <;> simp
  | perform n bs src =>
    rcases perform_cases n bs src s with h | ⟨e, _, _, _, h⟩
    · simp [move, h]
    · simp [move, h]
  | overtake n => rcases overtake_cases n s with h | ⟨_, h⟩ <;> simp [move, h]
  | defer b => simp [move]
  | host a => cases a <;> simp [move, hostMove]

end Sys2Proof.Machine
end

