-- ==== Sys2Proof/Laws/Ordering.lean ====
section
/-!
SUPPORT. A legal execution stays legal when a step's own operations take their place at its end (R90 to R94).
-/

namespace Sys2Proof.Machine

/-- An event of a later step precedes nothing of an earlier one in program order. -/
theorem po_eq_false {a b : Event} (h : b.tick ≤ a.tick) : po a b = false := by
  unfold po
  rw [Bool.and_eq_false_iff]
  exact .inr (decide_eq_false (by omega))

/-- Events that `p` refuses add nothing to a search. -/
theorem any_append_false {l l' : List Event} {p : Event → Bool} (h : ∀ e ∈ l', p e = false) :
    (l ++ l').any p = l.any p := by
  rw [List.any_append, (List.any_eq_false (l := l')).2 (fun e he => by simp [h e he]), Bool.or_false]

/-- Preserved program order between two operations does not depend on the operations of later steps. -/
theorem ppo_append (cfg : Config) {ex l : List Event} {a b : Event} (h : ∀ e ∈ l, b.tick ≤ e.tick) :
    ppo cfg (ex ++ l) a b = ppo cfg ex a b := by
  have hp : ∀ e ∈ l, po e b = false := fun e he => po_eq_false (h e he)
  have h4 : ppo4 cfg (ex ++ l) a b = ppo4 cfg ex a b :=
    any_append_false fun e he => by cases e.op <;> simp [hp e he]
  have h2 : ppo2 cfg (ex ++ l) a b = ppo2 cfg ex a b := by
    unfold ppo2
    congr 2
    funext i
    simp only
    rw [any_append_false fun e he => by simp [hp e he]]
  have h12 : ppo12 (ex ++ l) a b = ppo12 ex a b := by
    unfold ppo12
    rw [any_append_false fun e he => by simp [hp e he]]
  have h13 : ppo13 (ex ++ l) a b = ppo13 ex a b := by
    unfold ppo13
    rw [any_append_false fun e he => by simp [hp e he]]
  unfold ppo ppoMain
  rw [h4, h2, h12, h13]

/-- An execution that respects preserved program order still does with a step's operations at its end. -/
theorem respectsPpo_append {cfg : Config} {ex l : List Event} {n : Nat} (h : RespectsPpo cfg ex) (hex : ∀ e ∈ ex, e.tick < n)
    (hl : ∀ e ∈ l, e.tick = n) : RespectsPpo cfg (ex ++ l) := by
  refine List.pairwise_append.2 ⟨?_, ?_, fun a ha b hb => ?_⟩
  · refine List.Pairwise.imp_of_mem (fun {a b} ha _ hab => ?_) h
    rw [ppo_append cfg (fun e he => by have := hex a ha; have := hl e he; omega)]
    exact hab
  · refine List.pairwise_of_forall_mem_list fun a ha b hb => ?_
    unfold ppo
    rw [po_eq_false (by have := hl a ha; have := hl b hb; omega)]
    rfl
  · unfold ppo
    rw [po_eq_false (by have := hex a ha; have := hl b hb; omega)]
    rfl

/-! ### Load values -/

theorem qualifying_append (cfg : Config) (init : Memory) {all l : List Event} {r : Event} (x : Nat)
    (h : ∀ e ∈ l, po e r = false) (before rest : List Event) :
    qualifying cfg init (all ++ l) r x before rest = qualifying cfg init all r x before rest := by
  induction rest generalizing before with
  | nil => rfl
  | cons i rest ih =>
    unfold qualifying qualifies
    rw [any_append_false fun e he => by simp [h e he], ih]

/-- What a load may return it may still return when later steps have added their operations. -/
theorem mem_allowed_append {cfg : Config} {init : Memory} {before after l : List Event} {r : Event} {x : Nat} {v : Written}
    (h : ∀ e ∈ l, po e r = false) (hv : v ∈ allowed cfg init before after r x) :
    v ∈ allowed cfg init before (after ++ l) r x := by
  have hf : (after ++ l).filter (fun e => po e r) = after.filter (fun e => po e r) := by
    rw [List.filter_append, (List.filter_eq_nil_iff (l := l)).2 (fun e he => by simp [h e he]), List.append_nil]
  unfold allowed at hv ⊢
  simp only at hv ⊢
  rw [← List.append_assoc, qualifying_append cfg init x h]
  rw [List.mem_append] at hv ⊢
  refine hv.imp (fun hv => ?_) (fun hv => ?_)
  · unfold rvwmoValue at hv ⊢
    rw [hf]
    exact hv
  · unfold nonCoh valuesOf at hv ⊢
    rw [List.filter_append, List.filterMap_append]
    exact List.mem_append_left _ hv

theorem loadOk_append {cfg : Config} {init : Memory} {before after l : List Event} {r : Event} (h : ∀ e ∈ l, po e r = false)
    (hr : loadOk cfg init before after r = true) : loadOk cfg init before (after ++ l) r = true := by
  unfold loadOk at hr ⊢
  split
  next a n bs src hop =>
    rw [hop] at hr
    simp only [Bool.or_eq_true, List.all_eq_true] at hr ⊢
    refine hr.imp id fun hr e he => ?_
    have := hr e he
    rw [List.contains_iff_mem] at this ⊢
    exact mem_allowed_append h this
  next => rfl

/-- Nothing is asked of the values of an operation that returns no byte. -/
theorem loadOk_of_silent {cfg : Config} {init : Memory} {before after : List Event} {e : Event}
    (h : e.isLoad = false ∨ ∃ a n src, e.op = .load a n [] src) : loadOk cfg init before after e = true := by
  unfold loadOk
  rcases h with h | ⟨a, n, src, h⟩
  · unfold Event.isLoad at h
    split
    next hop => rw [hop] at h; cases h
    next => rfl
  · rw [h]; simp

theorem loadValuesOk_append {cfg : Config} {init : Memory} {before ex l : List Event} (hp : ∀ r ∈ ex, ∀ e ∈ l, po e r = false)
    (hl : ∀ e ∈ l, e.isLoad = false ∨ ∃ a n src, e.op = .load a n [] src) (h : loadValuesOk cfg init before ex = true) :
    loadValuesOk cfg init before (ex ++ l) = true := by
  induction ex generalizing before with
  | nil =>
    rw [List.nil_append]
    clear h hp
    induction l generalizing before with
    | nil => rfl
    | cons e l ih =>
      unfold loadValuesOk
      rw [ih (fun e he => hl e (List.mem_cons_of_mem _ he)), Bool.and_true]
      exact loadOk_of_silent (hl e List.mem_cons_self)
  | cons r ex ih =>
    unfold loadValuesOk at h
    rw [Bool.and_eq_true] at h
    rw [List.cons_append]
    unfold loadValuesOk
    rw [Bool.and_eq_true]
    exact ⟨loadOk_append (hp r List.mem_cons_self) h.1, ih (fun r hr => hp r (List.mem_cons_of_mem _ hr)) h.2⟩

/-! ### Atomicity -/

/-- Later operations lie between no source and paired store, where they are not the source. -/
theorem betweenSource_append {x : Nat} {src : Source} {before after l : List Event}
    (h : ∀ o t, src = some (o, t) → ∀ e ∈ l, e.isStoreNamed x o t = false) :
    betweenSource x src before (after ++ l) = betweenSource x src before after := by
  unfold betweenSource
  cases src with
  | none => rfl
  | some s =>
    obtain ⟨o, t⟩ := s
    have hl := h o t rfl
    simp only
    rw [any_append_false hl]
    split
    · rfl
    · split
      next ha =>
        clear h
        induction after with
        | nil => cases ha
        | cons e after ih =>
          rw [List.cons_append, List.takeWhile_cons, List.takeWhile_cons]
          cases hs : e.isStoreNamed x o t with
          | true => rfl
          | false =>
            rw [List.any_cons, hs, Bool.false_or] at ha
            simp only [Bool.not_false, if_true]
            rw [ih ha]
      · rfl

/-- A load that is not performed names no source. -/
theorem sourceOf_of_silent {e : Event} (h : e.isLoad = false ∨ ∃ a n, e.op = .load a n [] []) (x : Nat) : sourceOf e x = none := by
  unfold sourceOf
  rcases h with h | ⟨a, n, h⟩
  · unfold Event.isLoad at h
    split
    next hop => rw [hop] at h; cases h
    next => rfl
  · rw [h]; simp

/-- What later operations, none of them a load that is performed, leave of the judgement on a paired store. -/
theorem atomicOk_append {cfg : Config} {before after l : List Event} {w : Event}
    (hs : ∀ r ∈ before ++ after, ∀ x o t, sourceOf r x = some (some (o, t)) → ∀ e ∈ l, e.isStoreNamed x o t = false)
    (hl : ∀ e ∈ l, ∀ x, sourceOf e x = none) (h : atomicOk cfg before w after = true) : atomicOk cfg before w (after ++ l) = true := by
  unfold atomicOk at h ⊢
  split
  next => rfl
  next t hp =>
    rw [hp] at h
    simp only at h ⊢
    rw [← List.append_assoc, List.all_append, Bool.and_eq_true]
    refine ⟨List.all_eq_true.2 fun r hr => ?_, List.all_eq_true.2 fun r hr => ?_⟩
    · have := List.all_eq_true.1 h r hr
      rw [Bool.or_eq_true] at this ⊢
      refine this.imp id fun this => List.all_eq_true.2 fun i hi => ?_
      have := List.all_eq_true.1 this i hi
      split
      next => rfl
      next src hsrc =>
        rw [hsrc] at this
        rw [betweenSource_append fun o t hst => hs r hr _ o t (hst ▸ hsrc)]
        exact this
    · rw [Bool.or_eq_true]
      exact .inr (List.all_eq_true.2 fun i _ => by simp [hl r hr])

/-- Paired stores in two pieces of a list. -/
theorem atomicityOk_split (cfg : Config) (waiting before ex l : List Event) :
    atomicityOk cfg waiting before (ex ++ l) = (atomicityOk cfg (l ++ waiting) before ex && atomicityOk cfg waiting (before ++ ex) l) := by
  induction ex generalizing before with
  | nil => simp [atomicityOk]
  | cons e ex ih => simp [atomicityOk, ih, Bool.and_assoc]

/-- The paired stores that are judged stay so when later operations wait behind all others. -/
theorem atomicityOk_wait {cfg : Config} {waiting before ex l : List Event}
    (hs : ∀ r ∈ before ++ ex ++ waiting, ∀ x o t, sourceOf r x = some (some (o, t)) → ∀ e ∈ l, e.isStoreNamed x o t = false)
    (hl : ∀ e ∈ l, ∀ x, sourceOf e x = none) (h : atomicityOk cfg waiting before ex = true) :
    atomicityOk cfg (waiting ++ l) before ex = true := by
  induction ex generalizing before with
  | nil => rfl
  | cons e ex ih =>
    unfold atomicityOk at h ⊢
    rw [Bool.and_eq_true] at h ⊢
    rw [← List.append_assoc]
    refine ⟨atomicOk_append (fun r hr => hs r ?_) hl h.1, ih (fun r hr => hs r ?_) h.2⟩
    · simp only [List.mem_append, List.mem_cons] at hr ⊢; tauto
    · simpa only [List.append_assoc, List.singleton_append] using hr

/-- Operations that are not paired ask nothing of atomicity. -/
theorem atomicityOk_unpaired {cfg : Config} {waiting before l : List Event} (hl : ∀ e ∈ l, e.tags.pair = none) :
    atomicityOk cfg waiting before l = true := by
  induction l generalizing before with
  | nil => rfl
  | cons e l ih =>
    unfold atomicityOk
    rw [ih (fun e he => hl e (List.mem_cons_of_mem _ he)), Bool.and_true]
    unfold atomicOk
    rw [hl e List.mem_cons_self]

/-- The store a load names as its source is of an earlier step than the operations of a later one. -/
theorem SourcesIssued.ne_later {ex l : List Event} {n : Nat} (h : SourcesIssued ex) (hex : ∀ e ∈ ex, e.tick < n)
    (hl : ∀ e ∈ l, e.tick = n) {r : Event} (hr : r ∈ ex) {x o t : Nat} (hs : sourceOf r x = some (some (o, t))) {e : Event}
    (he : e ∈ l) : e.isStoreNamed x o t = false := by
  obtain ⟨m, hm, hn⟩ := h r hr x o t hs
  unfold Event.isStoreNamed at hn ⊢
  simp only [Bool.and_eq_true, decide_eq_true_eq] at hn
  have h1 := hex m hm
  have h2 := hl e he
  rw [decide_eq_false (p := e.tick = t) (by omega)]
  simp

theorem SourcesIssued.append {ex l : List Event} (h : SourcesIssued ex) (hl : ∀ e ∈ l, ∀ x, sourceOf e x = none) :
    SourcesIssued (ex ++ l) := by
  intro r hr x o t hs
  rcases List.mem_append.1 hr with hr | hr
  · obtain ⟨m, hm, hn⟩ := h r hr x o t hs
    exact ⟨m, List.mem_append_left _ hm, hn⟩
  · rw [hl r hr] at hs; cases hs

/-- An execution so far in which nothing waits is a legal execution. -/
theorem legalSoFar_nil {cfg : Config} {init : Memory} {ex : List Event} : LegalSoFar cfg init ex [] ↔ Legal cfg init ex := by
  unfold LegalSoFar; rw [List.append_nil]

/-- The operations a step issues keep an execution so far legal when they wait behind all others (R90). -/
theorem legalSoFar_wait {cfg : Config} {init : Memory} {done waiting l : List Event} {n : Nat} (h : LegalSoFar cfg init done waiting)
    (hsrc : SourcesIssued (done ++ waiting)) (hex : ∀ e ∈ done ++ waiting, e.tick < n)
    (hl : ∀ e ∈ l, e.tick = n ∧ (e.isLoad = false ∨ ∃ a m, e.op = .load a m [] [])) :
    LegalSoFar cfg init done (waiting ++ l) := by
  unfold LegalSoFar
  rw [← List.append_assoc]
  exact ⟨respectsPpo_append h.1 hex (fun e he => (hl e he).1),
    loadValuesOk_append (fun r hr e he => po_eq_false (by have := hex r hr; have := (hl e he).1; omega))
      (fun e he => (hl e he).2.imp id fun ⟨a, m, h⟩ => ⟨a, m, [], h⟩) h.2.1,
    atomicityOk_wait (fun r hr x o t hs e he => hsrc.ne_later hex (fun e he => (hl e he).1) hr hs he)
      (fun e he => sourceOf_of_silent (hl e he).2) h.2.2⟩

/-- The operations of one step, none of them a load or paired, keep an execution legal when they come at its end (R90). -/
theorem legal_append {cfg : Config} {init : Memory} {ex l : List Event} {n : Nat} (h : Legal cfg init ex) (hsrc : SourcesIssued ex)
    (hex : ∀ e ∈ ex, e.tick < n) (hl : ∀ e ∈ l, e.tick = n ∧ e.isLoad = false ∧ e.tags.pair = none) :
    Legal cfg init (ex ++ l) := by
  have hw := legalSoFar_wait (legalSoFar_nil.2 h) (by simpa using hsrc) (by simpa using hex)
    (fun e he => ⟨(hl e he).1, .inl (hl e he).2.1⟩)
  rw [List.nil_append] at hw
  refine ⟨hw.1, hw.2.1, ?_⟩
  rw [atomicityOk_split, List.append_nil, hw.2.2, Bool.true_and]
  exact atomicityOk_unpaired fun e he => (hl e he).2.2

/-- Issuing operations, none of them a load or paired, keeps the history legal (R90). -/
theorem HistoryLegal.issue {s : State} (h : HistoryLegal s) {es : List Event}
    (hl : ∀ e ∈ es, e.tick = s.tick ∧ e.isLoad = false ∧ e.tags.pair = none) :
    LegalSoFar s.cfg s.initMem (issue es s).history (issue es s).pending := by
  cases ha : atOnce s with
  | true =>
    have hp : s.pending = [] := by
      simp only [atOnce, Bool.and_eq_true, List.isEmpty_iff] at ha; exact ha.2
    have hpast := h.past
    have hlegal := h.legal
    have hsrc := h.sources
    unfold EventsPast at hpast
    rw [hp, List.append_nil] at hpast hsrc
    rw [hp] at hlegal
    simp only [Machine.issue, ha, if_true, hp]
    exact legalSoFar_nil.2 (legal_append (legalSoFar_nil.1 hlegal) hsrc hpast hl)
  | false =>
    simp only [Machine.issue, ha]
    exact legalSoFar_wait h.legal h.sources h.past (fun e he => ⟨(hl e he).1, .inl (hl e he).2.1⟩)

/-! ### Sources -/

theorem source_of_valuesOf {x : Nat} {l : List Event} {v : Written} (h : v ∈ valuesOf x l) :
    ∃ e ∈ l, e.storeValue? x = some v.1 ∧ v.2 = some (e.obs, e.tick) := by
  unfold valuesOf at h
  obtain ⟨e, he, hv⟩ := List.mem_filterMap.1 h
  obtain ⟨b, hb, rfl⟩ := Option.map_eq_some_iff.1 hv
  exact ⟨e, he, hb, rfl⟩

theorem source_of_afterInvFrom {cfg : Config} {init : Memory} {o x : Nat} {l : List Event} {v : Written}
    (h : v ∈ afterInvFrom cfg init o x l) : v = initialValue init x ∨ v ∈ valuesOf x l := by
  have hmono : ∀ {l l' : List Event} {v : Written}, (∀ e ∈ l, e ∈ l') → v ∈ valuesOf x l → v ∈ valuesOf x l' := by
    intro l l' v hl hv
    unfold valuesOf at hv ⊢
    rw [List.mem_filterMap] at hv ⊢
    exact hv.imp fun e he => ⟨hl e he.1, he.2⟩
  have hsub : ∀ {l : List Event}, ∀ e ∈ coherentStores cfg o x l, e ∈ l := fun e he => List.mem_of_mem_filter he
  induction l with
  | nil => exact .inl (List.mem_singleton.1 h)
  | cons e l ih =>
    unfold afterInvFrom at h
    split at h
    · split at h
      next => exact .inl (List.mem_singleton.1 h)
      next u us hu =>
        rw [List.mem_singleton.1 h]
        exact .inr (hmono (fun e he => List.mem_cons_of_mem _ (hsub e he)) (hu ▸ List.mem_cons_self))
    · rcases List.mem_append.1 h with h | h
      · exact .inr (hmono (fun e' he => List.mem_singleton.1 (hsub e' he) ▸ List.mem_cons_self) h)
      · exact (ih h).imp id (hmono fun e he => List.mem_cons_of_mem _ he)

/-- A value a load may return is the initial one or a store's of the execution. -/
theorem source_of_allowed {cfg : Config} {init : Memory} {before after : List Event} {r : Event} {x : Nat} {v : Written}
    (h : v ∈ allowed cfg init before after r x) :
    v = initialValue init x ∨ ∃ e ∈ before ++ after, e.storeValue? x = some v.1 ∧ v.2 = some (e.obs, e.tick) := by
  have hq : ∀ (all pre rest : List Event), (∀ e ∈ pre ++ rest, e ∈ before) → ∀ S ∈ qualifying cfg init all r x pre rest, v ∈ S →
      v = initialValue init x ∨ ∃ e ∈ before ++ after, e.storeValue? x = some v.1 ∧ v.2 = some (e.obs, e.tick) := by
    intro all pre rest
    induction rest generalizing pre with
    | nil => intro _ S hS; cases hS
    | cons i rest ih =>
      intro hsub S hS hv
      unfold qualifying at hS
      simp only at hS
      have hrest := ih (pre ++ [i]) (by simpa using hsub)
      split at hS
      · rcases List.mem_cons.1 hS with rfl | hS
        · unfold afterInv at hv
          refine (source_of_afterInvFrom hv).imp id fun hv => ?_
          obtain ⟨e, he, h⟩ := source_of_valuesOf hv
          refine ⟨e, List.mem_append_left _ (hsub e ?_), h⟩
          simp only [List.mem_append, List.mem_reverse, List.mem_cons] at he ⊢
          rcases he with he | he
          · split at he
            · exact .inr (.inl (List.mem_singleton.1 he))
            · cases he
          · exact .inl he
        · exact hrest _ hS hv
      · exact hrest _ hS hv
  unfold allowed at h
  simp only at h
  rcases List.mem_append.1 h with h | h
  · split at h
    · rw [List.mem_singleton.1 h]
      unfold rvwmoValue
      simp only
      cases hl : (valuesOf x (coherentStores cfg r.obs x (before ++ after.filter (fun e => po e r)))).getLast? with
      | none => exact .inl rfl
      | some u =>
        obtain ⟨e, he, h⟩ := source_of_valuesOf (List.mem_of_getLast? hl)
        refine .inr ⟨e, ?_, h⟩
        have := List.mem_of_mem_filter he
        simp only [List.mem_append, List.mem_filter] at this ⊢
        exact this.imp id And.left
    · obtain ⟨S, hS, hv⟩ := List.mem_flatten.1 h
      exact hq _ [] before (fun e he => he) S hS hv
  · unfold nonCoh at h
    obtain ⟨e, he, h⟩ := source_of_valuesOf h
    exact .inr ⟨e, List.mem_of_mem_filter he, h⟩

/-- What the load value axiom says of one load of the execution. -/
theorem loadOk_of_loadValuesOk {cfg : Config} {init : Memory} {pre before after : List Event} {r : Event}
    (h : loadValuesOk cfg init pre (before ++ r :: after) = true) : loadOk cfg init (pre ++ before) after r = true := by
  induction before generalizing pre with
  | nil =>
    rw [List.nil_append] at h
    unfold loadValuesOk at h
    rw [List.append_nil]
    exact (Bool.and_eq_true _ _ ▸ h).1
  | cons e before ih =>
    rw [List.cons_append] at h
    unfold loadValuesOk at h
    have := ih (Bool.and_eq_true _ _ ▸ h).2
    rwa [List.append_assoc, List.singleton_append] at this

end Sys2Proof.Machine
end

