-- ==== Sys2Proof/Laws/PerInstr.lean ====
section
/-!
SUPPORT. A statement about every instruction, one lemma for each constructor: the word of an instruction has the length mark of a
32-bit instruction and a zero destination field (R100 to R102).
-/

namespace Sys2Proof.Laws.WordShape

/-- The two low bits are `11`, and bits 11 to 7 are zero (R100 to R102). -/
def Statement (i : Instr) : Prop :=
  (encode i).extractLsb' 0 2 = 0b11#2 ∧ (encode i).extractLsb' 7 5 = 0b00000#5

/-- The low twelve bits of a word, `rd` and `opcode`, stand below whatever is above them. -/
theorem low_fields (hi : BitVec 20) (rd : BitVec 5) (opcode : BitVec 7) :
    (hi ++ rd ++ opcode).extractLsb' 0 2 = opcode.extractLsb' 0 2 ∧ (hi ++ rd ++ opcode).extractLsb' 7 5 = rd := by
  constructor <;> refine BitVec.eq_of_getLsbD_eq fun i h => ?_
  · simp only [BitVec.getLsbD_extractLsb', BitVec.getLsbD_append]
    rw [if_pos (by omega)]
  · simp only [BitVec.getLsbD_extractLsb', BitVec.getLsbD_append]
    rw [if_neg (by omega), if_pos (by omega)]
    simp [h]

theorem cbo_shape (funct12 : BitVec 12) (rs1 : Reg) :
    (cboWord funct12 rs1).extractLsb' 0 2 = 0b11#2 ∧ (cboWord funct12 rs1).extractLsb' 7 5 = 0b00000#5 :=
  ⟨(low_fields _ _ _).1.trans rfl, (low_fields _ _ _).2⟩

theorem prefetch_shape (pfop : BitVec 5) (rs1 : Reg) (offset : Int) :
    (prefetchWord pfop rs1 offset).extractLsb' 0 2 = 0b11#2 ∧ (prefetchWord pfop rs1 offset).extractLsb' 7 5 = 0b00000#5 :=
  ⟨(low_fields _ _ _).1.trans rfl, (low_fields _ _ _).2⟩

theorem cboInval (rs1 : Reg) : Statement (.cboInval rs1) := cbo_shape _ rs1

theorem cboClean (rs1 : Reg) : Statement (.cboClean rs1) := cbo_shape _ rs1

theorem cboFlush (rs1 : Reg) : Statement (.cboFlush rs1) := cbo_shape _ rs1

theorem cboZero (rs1 : Reg) : Statement (.cboZero rs1) := cbo_shape _ rs1

theorem prefetchI (rs1 : Reg) (offset : Int) : Statement (.prefetchI rs1 offset) := prefetch_shape _ rs1 offset

theorem prefetchR (rs1 : Reg) (offset : Int) : Statement (.prefetchR rs1 offset) := prefetch_shape _ rs1 offset

theorem prefetchW (rs1 : Reg) (offset : Int) : Statement (.prefetchW rs1 offset) := prefetch_shape _ rs1 offset

end Sys2Proof.Laws.WordShape
end

