-- ==== Sys2Proof/Tests/Slice0.lean ====
section
/-!
SUPPORT. The model's own tests: ill-formed terms that are refused, words written out from the encodings of the spec, single steps,
the test vectors of `spec/95_test_vectors.md`, and for every obligation with hypotheses a witness that meets them.
-/

namespace Sys2Proof.Tests

open Sys2Proof.Machine

/-! ### Helpers -/

/-- There is a next state, and it is as asked. -/
def gives (o : Host.Outcome State Fault Refusal) (p : State → Bool) : Bool :=
  match o with
  | .next t => p t
  | .fault _ => false
  | .refused _ => false

theorem next_of_gives {o : Host.Outcome State Fault Refusal} {p : State → Bool} (h : gives o p = true) :
    ∃ t, o = .next t ∧ p t = true := by
  cases o with
  | next t => exact ⟨t, rfl, h⟩
  | fault => cases h
  | refused => cases h

/-- One step that runs a word. -/
def runs (w : Nat) (s : State) : Host.Outcome State Fault Refusal :=
  step (s.withFetchWord 32 w)

/-- The reason a step is refused. -/
def refusal (o : Host.Outcome State Fault Refusal) : Option Refusal :=
  match o with
  | .next _ => none
  | .fault _ => none
  | .refused r => some r

/-- The reason a step faults. -/
def stop (o : Host.Outcome State Fault Refusal) : Option Fault :=
  match o with
  | .next _ => none
  | .fault r => some r
  | .refused _ => none

/-- Two lists hold the same values. -/
def sameSet {α : Type} [BEq α] (l l' : List α) : Bool := l.all l'.contains && l'.all l.contains

/-- The reset state in another mode, translation off and the PMP open, `a0` and the control registers as given; the three vectors at
`0x100`, `0x200`, `0x300`. -/
def inMode (m : Mode) (menv senv henv a0 : Word) : State :=
  { State.reset with hart := { Hart.reset with
      mode := m
      x    := Hart.reset.x.set 10 a0
      pmp  := { rows := [], below := { r := true, w := true, x := true } }
      csr  := { Csrs.reset with
        menvcfg := menv, senvcfg := senv, henvcfg := henv, mtvec := 0x100, stvec := 0x200, vstvec := 0x300 } } }

/-- M-mode with `a0` as given. -/
def inM (a0 : Word) : State := inMode .M 0 0 0 a0

/-- A cache on the path of these observers to every location. -/
def everywhere (l : List Nat) : List PathRegion := [{ base := 0, size := 2 ^ 56, observers := l }]

/-- The block at `0x2000` is cached with every byte 7, and has been stored to. -/
def dirtied (s : State) : State :=
  { s with sys := { mem := []
                    caches := [{ serves := everywhere [0], sets := 64, ways := 8, lines := [(0x2000, List.replicate 64 7)] }]
                    dirty := [(.group 0, 0x2000)] } }

/-- One page, at `0x2000`, is mapped to itself with the leaf entries given, for every class of CMO instruction; every other mode and
page is not. -/
def paged (m : Mode) (mstatus : Word) (pte gpte : Option Pte) : State :=
  let s := inMode m 0xF0 0xF0 0xF0 0x2010
  { s with hart := { s.hart with
      csr  := { s.hart.csr with mstatus := mstatus }
      walk := { bare := [], rows := [{ mode := m, classes := [.cbm, .cbz, .pf .I, .pf .R, .pf .W], page := 2,
                                       result := .done 2 3 pte gpte }] } } }

/-- The leaf bits in the order the spec writes them: `XWR`, then `U`. -/
def leaf (x w r u : Bool) : Pte := { r := r, w := w, x := x, u := u }

/-- A platform with other parameters. -/
def onPlatform (f : Config → Config) (s : State) : State := { s with cfg := f s.cfg }

/-! ### Ill-formed terms are refused -/

theorem test_wf_refuses_unaligned_offset : (Instr.prefetchI 5 33).wf = false := by decide
theorem test_wf_refuses_half_offset : (Instr.prefetchR 5 16).wf = false := by decide
theorem test_wf_refuses_offset_below : (Instr.prefetchW 5 (-2080)).wf = false := by decide
theorem test_wf_refuses_offset_above : (Instr.prefetchI 5 2048).wf = false := by decide
theorem test_wf_takes_the_extremes : (Instr.prefetchI 5 (-2048)).wf = true ∧ (Instr.prefetchR 5 2016).wf = true := by decide

/-! ### Words written out field by field from R101 to R103 -/

theorem test_decode_cboInval :
    decode (0b000000000000#12 ++ 0b01010#5 ++ 0b010#3 ++ 0b00000#5 ++ 0b0001111#7) = .cmo (.cboInval 10) := by decide
theorem test_decode_cboClean :
    decode (0b000000000001#12 ++ 0b11111#5 ++ 0b010#3 ++ 0b00000#5 ++ 0b0001111#7) = .cmo (.cboClean 31) := by decide
theorem test_decode_cboFlush :
    decode (0b000000000010#12 ++ 0b00001#5 ++ 0b010#3 ++ 0b00000#5 ++ 0b0001111#7) = .cmo (.cboFlush 1) := by decide
theorem test_decode_cboZero :
    decode (0b000000000100#12 ++ 0b00000#5 ++ 0b010#3 ++ 0b00000#5 ++ 0b0001111#7) = .cmo (.cboZero 0) := by decide
theorem test_decode_prefetchI :
    decode (0b1000000#7 ++ 0b00000#5 ++ 0b00000#5 ++ 0b110#3 ++ 0b00000#5 ++ 0b0010011#7) = .cmo (.prefetchI 0 (-2048)) := by decide
theorem test_decode_prefetchR :
    decode (0b0111111#7 ++ 0b00001#5 ++ 0b11111#5 ++ 0b110#3 ++ 0b00000#5 ++ 0b0010011#7) = .cmo (.prefetchR 31 2016) := by decide
theorem test_decode_prefetchW :
    decode (0b1111111#7 ++ 0b00011#5 ++ 0b01011#5 ++ 0b110#3 ++ 0b00000#5 ++ 0b0010011#7) = .cmo (.prefetchW 11 (-32)) := by decide
/-- `funct12 = 3`, and `rd = 1`, are reserved (R105). -/
theorem test_decode_reserved : decode 0x0035200F#32 = .reservedCbo ∧ decode 0x0005208F#32 = .reservedCbo := by decide
/-- `pfop = 2` is another hint (R106); `FENCE.I` and `ORI x1` are the host's. -/
theorem test_decode_others : decode 0x00256013#32 = .oriHint ∧ decode 0x0000100F#32 = .notCmo ∧ decode 0x00156093#32 = .notCmo := by
  decide
/-- `fence o,w` (`spec/95_test_vectors.md` PO7). -/
theorem test_decode_fence : decode 0x0410000F#32 = .fence 0b0100#4 0b0001#4 := by decide
theorem test_decode_tooShort : decodeBytes [0x0F, 0x20, 0x05] = .tooShort := by decide
/-- The words of `spec/95_test_vectors.md` section 2.1, from the assembler's notation. -/
theorem test_assemble : assemble "cbo.zero" 0 10 = some 0x0045200F#32 ∧ assemble "prefetch.r" 64 10 = some 0x04156013#32
    ∧ assemble "cbo.zero" 8 10 = none ∧ assemble "prefetch.i" 2048 10 = none := by decide
theorem test_operand : (Instr.prefetchW 11 (-32)).operand = "-32(a1)" ∧ (Instr.cboZero 0).operand = "(zero)" := by decide

/-! ### Single steps -/

/-- `cbo.inval (a0)`: the stored-to copy is dropped and memory keeps what it had (R120, CA3). -/
theorem test_cboInval_drops :
    gives (runs 0x0005200F (dirtied (inM 0x203F))) (fun t => t.sys.caches.all (fun c => c.lines.isEmpty) && t.sys.dirty.isEmpty
      && decide (Memory.read t.sys.mem 0x2000 = 0) && decide (t.hart.pc = 0x1004)) = true := by decide
/-- In U-mode with `CBIE = 00` it is an illegal instruction (R168, R197, R201). -/
theorem test_cboInval_illegal :
    gives (runs 0x0005200F (inMode .U 0 0 0 0x2000)) (fun t => decide (t.hart.pc = 0x100) && decide (t.hart.mode = .M)
      && decide (t.hart.csr.mepc = 0x1000) && decide (t.hart.csr.mcause = 2) && decide (t.hart.csr.mtval = 0x5200F)
      && t.history.isEmpty) = true := by decide
/-- `cbo.clean (a0)`: memory receives the stored data, the copy stays (R121, CA4). -/
theorem test_cboClean_writes_back :
    gives (runs 0x0015200F (dirtied (inM 0x2001))) (fun t => t.sys.caches.all (fun c => decide (c.lines.map (·.1) = [0x2000]))
      && t.sys.dirty.isEmpty && decide (Memory.read t.sys.mem 0x203F = 7) && decide (Memory.read t.sys.mem 0x2040 = 0)) = true := by
  decide
/-- Of a block that nothing was stored to, nothing is written (R68, CA1). -/
theorem test_cboClean_clean_block :
    gives (runs 0x0015200F (let s := dirtied (inM 0x2001); { s with sys := { s.sys with dirty := [] } }))
      (fun t => decide (Memory.read t.sys.mem 0x2000 = 0)) = true := by decide
/-- `cbo.flush (a0)`: memory receives the data and the copy goes (R122). -/
theorem test_cboFlush_both :
    gives (runs 0x0025200F (dirtied (inM 0x2020))) (fun t => t.sys.caches.all (fun c => c.lines.isEmpty) && t.sys.dirty.isEmpty
      && decide (Memory.read t.sys.mem 0x2000 = 7)) = true := by decide
/-- `cbo.inval` with `CBIE = 01` performs a flush (R125, E3). -/
theorem test_cboFlush_as_inval :
    gives (runs 0x0005200F (dirtied (inMode .S 0x10 0 0 0x2020))) (fun t => decide (Memory.read t.sys.mem 0x2000 = 7)
      && decide (t.history.map (·.op) = [.flush 0x2000])) = true := by decide
set_option maxRecDepth 4000 in
/-- `cbo.zero (a0)` with `a0 = 0x203F`: the 63 bytes below are zeroed as well, and `0x2040` is not (R140). -/
theorem test_cboZero_whole_block :
    gives (runs 0x0045200F
        (let s := inM 0x203F; { s with sys := { s.sys with mem := [(0x1FFF, 9), (0x2000, 9), (0x203F, 9), (0x2040, 9)] } }))
      (fun t => decide ([0x1FFF, 0x2000, 0x203F, 0x2040].map (viewOf t.cfg t.sys 0) = [9, 0, 0, 9])) = true := by decide
/-- Without write permission on one byte of the block it stores nothing at all (R187, R200, A4). -/
theorem test_cboZero_denied :
    gives (runs 0x0045200F (let s := inMode .U 0xF0 0xF0 0xF0 0x2000
      { s with
        hart := { s.hart with pmp := { s.hart.pmp with
          rows := [{ modes := [.U], base := 0x203F, size := 1, perm := { r := true, w := false, x := false } }] } }
        sys := { s.sys with mem := [(0x2000, 9)] } }))
      (fun t => decide (t.hart.csr.mcause = 7) && t.history.isEmpty && decide (viewOf t.cfg t.sys 0 0x2000 = 9)) = true := by decide
/-- A prefetch from an address that wraps around: `pc` advances and nothing is recorded (R104, R154). -/
theorem test_prefetchI_wraps :
    gives (runs 0x80056013 (inM 0)) (fun t => decide (t.hart.pc = 0x1004) && t.history.isEmpty && t.traps.isEmpty) = true
      ∧ eaPrefetch (inM 0) 10 (-2048) = 0xFFFFFFFFFFFFF800#64 := by decide
theorem test_prefetchR_wraps_rv32 :
    eaPrefetch (onPlatform (fun c => { c with xlen := .rv32 }) (inM 0xFFFFFFFF)) 10 2016 = 0x7DF := by decide
theorem test_prefetchR_from_reset : gives (runs 0x04156013 State.reset) (fun t => decide (t.hart.pc = 0x1004)) = true := by decide
/-- In U-mode with every control register zero, on a page it may not touch (R170, R177, T7, E19). -/
theorem test_prefetchW_never_traps :
    gives (runs 0x00356013 (let s := paged .U 0 (some (leaf false true true false)) none
      { s with hart := { s.hart with
          csr  := Csrs.reset
          walk := { s.hart.walk with rows :=
            s.hart.walk.rows ++ [{ mode := .U, classes := [.fetch], page := 1, result := .done 1 1 none none }] } } }))
      (fun t => decide (t.hart.pc = 0x1004) && t.traps.isEmpty) = true := by decide
/-- A reserved word traps, a hint does nothing (R105, R106). -/
theorem test_reserved_and_hint :
    gives (runs 0x0035200F State.reset) (fun t => decide (t.hart.csr.mcause = 2)) = true
      ∧ gives (runs 0x00256013 State.reset) (fun t => decide (t.hart.pc = 0x1004) && t.traps.isEmpty) = true := by decide
/-- `fence rw,rw` takes its place in program order (R93). -/
theorem test_fence :
    gives (runs 0x0330000F State.reset) (fun t => decide (t.history.map (·.op)
      = [.fence { i := false, o := false, r := true, w := true } { i := false, o := false, r := true, w := true }])) = true := by
  decide
/-- An instruction of the base set is refused by name, and a misaligned or unmapped `pc` faults. -/
theorem test_stops :
    refusal (runs 0x00000013 (inM 0)) = some .hostInstruction
      ∧ stop (step (let s := inM 0; { s with hart := { s.hart with pc := 0x1002 } })) = some .fetchMisaligned
      ∧ stop (step (paged .U 0 none none)) = some .fetchDenied := by decide

/-! ### The vectors of `spec/95_test_vectors.md` -/

/-- The enable test in a mode, with the control registers given. -/
def enableIn (m : Mode) (menv senv henv : Word) (g : Gated) : Enable :=
  cmoEnable resetConfig (inMode m menv senv henv 0).hart g

/-- Section 2.3, `cbo.inval`, E1 to E8. -/
theorem test_enable_inval :
    enableIn .M 0 0 0 .inval = .perform ∧ enableIn .S 0 0 0 .inval = .illegalInstruction
      ∧ enableIn .S 0x10 0 0 .inval = .performFlushInstead ∧ enableIn .S 0x30 0 0 .inval = .perform
      ∧ enableIn .U 0x30 0 0 .inval = .illegalInstruction ∧ enableIn .U 0x30 0x10 0 .inval = .performFlushInstead
      ∧ enableIn .U 0x10 0x30 0 .inval = .performFlushInstead ∧ enableIn .U 0x30 0x30 0 .inval = .perform := by decide
/-- Section 2.3, `cbo.inval` in the virtual modes and without S-mode, E9 to E12 and E20. -/
theorem test_enable_inval_virtual :
    enableIn .VS 0x30 0 0 .inval = .illegalInstruction ∧ enableIn .VS 0 0 0x30 .inval = .illegalInstruction
      ∧ enableIn .VU 0x30 0 0x30 .inval = .illegalInstruction ∧ enableIn .VU 0x30 0x30 0x10 .inval = .performFlushInstead
      ∧ cmoEnable { resetConfig with modes := [.M, .U] } (inMode .U 0x30 0 0 0).hart .inval = .perform := by decide
/-- Section 2.3, the other instructions, E13 to E18. -/
theorem test_enable_clean_flush_zero :
    enableIn .U 0x40 0 0 .clean = .illegalInstruction ∧ enableIn .U 0x40 0x40 0 .flush = .perform
      ∧ enableIn .S 0x30 0 0 .clean = .illegalInstruction ∧ enableIn .S 0 0 0 .zero = .illegalInstruction
      ∧ enableIn .S 0x80 0 0 .zero = .perform
      ∧ cmoEnable resetConfig { Hart.reset with csr := { Csrs.reset with mstatus := 0x20000 } } .zero = .perform
      ∧ effPriv { Hart.reset with csr := { Csrs.reset with mstatus := 0x20000 } } = .U := by decide

/-- A hart without `SUM`, and one with it. -/
def noSum : Csrs := Csrs.reset
def withSum : Csrs := { Csrs.reset with mstatus := 0x40000 }

/-- Section 2.4, what a management and a zero instruction ask of a page: T1, T2, T4 to T10. -/
theorem test_page_management_zero :
    [(Mode.U, noSum, leaf false false true true), (.U, noSum, leaf true false false true), (.U, noSum, leaf false true true true),
      (.S, noSum, leaf false true true true), (.S, withSum, leaf false true true true), (.U, noSum, leaf false true true false),
      (.S, noSum, leaf true true true false), (.U, noSum, leaf false true false true), (.VS, withSum, leaf true false true true)].map
      (fun v => (pageOk resetConfig v.2.1 v.1 .cbm v.2.2, pageOk resetConfig v.2.1 v.1 .cbz v.2.2))
      = [(true, false), (true, false), (true, true), (false, false), (true, true), (false, false), (true, true), (false, false),
        (false, false)] := by decide

/-- An event of hart 0 on the byte at address 0, with no annotation. -/
def ev (tick : Nat) (op : MemOp) : Event := { obs := 0, tick := tick, op := op, tags := Tags.plain }
def st (tick : Nat) (v : Byte) : Event := ev tick (.store 0 [v])
def inv (tick : Nat) : Event := ev tick (.invalidate 0)
def cln (tick : Nat) : Event := ev tick (.clean 0)
def fls (tick : Nat) : Event := ev tick (.flush 0)
/-- A load of the byte at address 0. -/
def ld (tick : Nat) : Event := ev tick (.load 0 1 [0] [none])
/-- The values of a byte that a load may return, whichever stores they come from, are these. -/
def values (l : List Written) (vs : List Byte) : Bool := sameSet (l.map (·.1)) vs
/-- A load of the byte at address 0, after the events given, may return these values and no other. -/
def mayReturn (before : List Event) (vs : List Byte) : Bool :=
  values (allowed resetConfig [] before [] (ld 99) 0) vs

/-- Section 2.7, LV1 to LV4, LV6 to LV10, LV13, LV14. -/
theorem test_load_values :
    mayReturn [st 1 1, inv 2] [0, 1] ∧ mayReturn [st 1 1, cln 2, st 3 2, inv 4] [1, 2]
      ∧ mayReturn [fls 1, st 2 1, inv 3] [0, 1] ∧ mayReturn [st 1 1, inv 2, st 3 2] [2]
      ∧ mayReturn [st 1 1, inv 2, cln 3, inv 4] [0, 1] ∧ mayReturn [st 1 1, fls 2] [1] ∧ mayReturn [st 1 1, cln 2, inv 3] [1]
      ∧ mayReturn [st 1 1, cln 2, st 3 2, cln 4, st 5 3, inv 6] [2, 3] ∧ mayReturn [cln 1, st 2 1, cln 3, inv 4] [1]
      ∧ mayReturn [st 1 1, inv 2, st 3 2, inv 4] [0, 1, 2] ∧ mayReturn [st 1 1] [1] := by decide
/-- Section 2.7, LV5: a store by an observer outside the set, wherever it stands. -/
theorem test_load_values_foreign :
    values (allowed resetConfig [] [inv 1] [{ st 3 7 with obs := 9 }] (ld 2) 0) [0, 7] = true
      ∧ values (allowed resetConfig [] [{ st 1 7 with obs := 9 }] [] (ld 2) 0) [0, 7] = true := by decide
/-- Section 2.7, LV16: the initial data is `0xAA`. -/
theorem test_load_values_initial :
    values (allowed resetConfig [(0, 0xAA)] [st 1 0, inv 2] [] (ld 3) 0) [0xAA, 0] = true := by decide
/-- Two harts coherent with each other: hart 1 stores, hart 0 invalidates and loads. -/
theorem test_load_values_two_harts :
    let cfg := { resetConfig with harts := [0, 1], coh := [CohRegion.mk 0 4096 [(0, 0), (1, 0)]] }
    let s1 : Event := { st 1 1 with obs := 1 }
    values (allowed cfg [] [s1, inv 2] [] (ld 3) 0) [0, 1] = true ∧ values (allowed cfg [] [inv 2, s1] [] (ld 3) 0) [1] = true
      ∧ values (allowed cfg [] [inv 2] [s1] (ld 3) 0) [0] = true := by decide

/-- A load or store of four bytes elsewhere. -/
def lw (tick a : Nat) : Event := ev tick (.load a 4 [0, 0, 0, 0] [none, none, none, none])
def sw (tick a : Nat) : Event := ev tick (.store a [0, 0, 0, 0])
/-- A `FENCE` with the predecessor and successor bits of its word. -/
def fen (tick : Nat) (p q : BitVec 4) : Event := ev tick (.fence (fenceSet p) (fenceSet q))
/-- The first event is ordered before the last of those given. -/
def ordered (cfg : Config) (a b : Event) (between : List Event) : Bool := ppo cfg (a :: between ++ [b]) a b

/-- Section 2.8: PO1 to PO6, PO8, PO10, PO12, PO13. -/
theorem test_ordering :
    ordered resetConfig (sw 1 0) (cln 2) [] ∧ ordered resetConfig (fls 1) (lw 2 8) [] ∧ ordered resetConfig (fls 1) (lw 2 64) [] = false
      ∧ ordered resetConfig (lw 1 0) (inv 2) [] ∧ ordered resetConfig (cln 1) (sw 2 64) [] = false
      ∧ ordered resetConfig (cln 1) (sw 3 64) [fen 2 1 1] ∧ ordered resetConfig (cln 1) (sw 3 64) [fen 2 2 3] = false
      ∧ ordered resetConfig (sw 1 0) (lw 2 0) [] = false ∧ ordered resetConfig (inv 1) (cln 2) []
      ∧ ordered resetConfig (sw 1 60) (cln 2) [] := by decide
/-- The platform with an I/O region below address 64. -/
def ioPlatform : Config :=
  { resetConfig with pma :=
      { base := 0, size := 64, attrs := { vacant with perm := { r := true, w := true, x := false } } } :: resetConfig.pma }

/-- Section 2.8, PO7: the block in an I/O region is in set O. -/
theorem test_ordering_io :
    ordered ioPlatform (cln 1) (sw 3 64) [fen 2 1 1] = false ∧ ordered ioPlatform (cln 1) (sw 3 64) [fen 2 4 1] = true := by decide
/-- Section 2.8, PO9: an address dependency. -/
theorem test_ordering_dependency :
    ordered resetConfig (lw 1 64) { fls 2 with tags := { Tags.plain with addrDep := [1] } } [] = true := by decide

/-! ### Witnesses: for each obligation with hypotheses, states and operands that meet them -/

theorem enabled_of {i : Instr} {s : State}
    (h : (gateOf i).all (fun g => decide (cmoEnable s.cfg s.hart g ≠ .illegalInstruction)) = true) : Enabled i s := by
  intro g hg
  rw [hg] at h
  simpa using h

theorem untriggered_of {i : Instr} {s : State}
    (h : decide (triggerCheck s.cfg s.hart (classOf i) (eaOf s i) (accessSize s.cfg i) = .pass) = true) : Untriggered i s := by
  unfold Untriggered; exact of_decide_eq_true h

theorem translated_of {i : Instr} {s : State} {ppage gpage : Nat} {pte gpte : Option Pte}
    (h : decide (translate s.hart (effPriv s.hart) (classOf i) (eaOf s i) = .done ppage gpage pte gpte) = true) :
    Translated i s ppage gpage pte gpte := by
  unfold Translated; exact of_decide_eq_true h

theorem granted_of {i : Instr} {s : State} {pa : Nat}
    (h : decide (accessCheck s.cfg s.hart (classOf i) (accessSize s.cfg i) (eaOf s i) = .granted pa) = true) : Granted i s pa :=
  accessCheck_granted_iff.1 (of_decide_eq_true h)

theorem pageGrants_of {i : Instr} {s : State} {pte : Option Pte}
    (h : pte.all (pageOk s.cfg s.hart.csr (effPriv s.hart) (classOf i)) = true) : PageGrants i s pte := pageGrants_iff.2 h

theorem gStageGrants_of {i : Instr} {s : State} {gpte : Option Pte} (h : gpte.all (gStageOk s.cfg (classOf i)) = true) :
    GStageGrants i s gpte := gStageGrants_iff.2 h

/-! Encoding. `DecodeInvertsEncode`: `test_wf_takes_the_extremes`. `EncodeInvertsDecode`: the `test_decode` theorems. -/

/-- A hart without any of the extensions. -/
def bare : State := onPlatform (fun c => { c with hasZicbom := false, hasZicboz := false, hasZicbop := false }) State.reset

theorem witness_AbsentExtensionIsReservedOrNoOp :
    (gateOf (.cboZero 10) = some .zero ∧ bare.cfg.hasZicboz = false) ∧ (classOf (.cboInval 10) = .cbm ∧ bare.cfg.hasZicbom = false)
      ∧ ((Instr.prefetchI 10 (-2048)).wf = true ∧ gateOf (.prefetchI 10 (-2048)) = none ∧ bare.cfg.hasZicbop = false) := by decide

/-- A wrong `rd` with a defined `funct12`; a `funct12` between two defined ones; another hint. -/
theorem witness_ReservedAndHintWords :
    (let w := 0x0005208F#32
     w.extractLsb' 0 7 = 0b0001111#7 ∧ w.extractLsb' 12 3 = 0b010#3 ∧ w.extractLsb' 7 5 ≠ 0#5)
      ∧ (let w := 0x0035200F#32
         w.extractLsb' 0 7 = 0b0001111#7 ∧ w.extractLsb' 12 3 = 0b010#3 ∧ w.extractLsb' 20 12 ≠ 0#12 ∧ w.extractLsb' 20 12 ≠ 1#12
           ∧ w.extractLsb' 20 12 ≠ 2#12 ∧ w.extractLsb' 20 12 ≠ 4#12)
      ∧ (let w := 0x00256013#32
         w.extractLsb' 0 7 = 0b0010011#7 ∧ w.extractLsb' 12 3 = 0b110#3 ∧ w.extractLsb' 7 5 = 0#5 ∧ w.extractLsb' 20 5 ≠ 0#5
           ∧ w.extractLsb' 20 5 ≠ 1#5 ∧ w.extractLsb' 20 5 ≠ 3#5) := by decide

theorem witness_RegisterZeroIsHardwired : (31 : Reg) ≠ 0 := by decide

/-- The first and the last address of a block, and the one above it. -/
theorem witness_BlocksAreNapotRanges : 0x2000 ∈ block 0x2015 (2 ^ 6) ∧ 0x203F ∈ block 0x2015 (2 ^ 6) ∧ 0x2040 ∉ block 0x2015 (2 ^ 6)
    ∧ block 7 (2 ^ 0) = [7] := by decide

/-- The modes are reached with both answers by the `test_enable` theorems. -/
theorem witness_DefaultEnableByMode : resetConfig.enableRows = [] ∧ (inMode .VU 0x30 0x30 0x10 0).hart.mode = .VU := by decide

theorem witness_DisabledInstructionsAreIllegal :
    gateOf (.cboZero 10) = some .zero
      ∧ cmoEnable (inMode .S 0x7F 0 0 0).cfg (inMode .S 0x7F 0 0 0).hart .zero = .illegalInstruction := by decide

theorem witness_PrefetchNeverIllegalNoneVirtual :
    gateOf (.prefetchR 10 64) = none ∧ (∃ t, exec (.prefetchR 10 64) (inMode .VU 0 0 0 5) = .next t ∧ t.traps.isEmpty = true)
      ∧ ∃ t, exec (.cboInval 10) (inMode .VS 0x30 0 0 5) = .next t ∧ decide (t.traps.map (·.cause) = [.illegalInstruction]) = true :=
  ⟨rfl, next_of_gives (by decide), next_of_gives (by decide)⟩

theorem witness_NoMisalignedException : ∃ t, exec (.cboClean 10) (inM 0x2001) = .next t ∧ t.traps.isEmpty = true :=
  next_of_gives (by decide)

/-- The page permission tests: a user page without `SUM`, an illegal encoding, and a page that grants while the PMP denies. -/
theorem witness_ManagementPagePermission :
    (let p := leaf false true true true
     let s := paged .S 0 (some p) none
     classOf (.cboClean 10) = .cbm ∧ Enabled (.cboClean 10) s ∧ Untriggered (.cboClean 10) s
      ∧ Translated (.cboClean 10) s 2 3 (some p) none ∧ userOk s.hart.csr (effPriv s.hart) p = false)
      ∧ (let p := leaf false true false true
         let s := paged .U 0 (some p) none
         Enabled (.cboFlush 10) s ∧ Untriggered (.cboFlush 10) s ∧ Translated (.cboFlush 10) s 2 3 (some p) none
          ∧ legalXwr p = false)
      ∧ (let p := leaf true false false true
         let s0 := paged .U 0 (some p) none
         let s := { s0 with hart := { s0.hart with pmp := Hart.reset.pmp } }
         Enabled (.cboInval 10) s ∧ Untriggered (.cboInval 10) s ∧ Translated (.cboInval 10) s 2 3 (some p) none
          ∧ (legalXwr p = true ∧ p.x = true ∧ userOk s.hart.csr (effPriv s.hart) p = true)
          ∧ ∃ t, exec (.cboInval 10) s = .next t ∧ decide (t.traps.map (·.cause) = [.storeAccessFault]) = true) :=
  ⟨⟨rfl, enabled_of (by decide), untriggered_of (by decide), translated_of (by decide), by decide⟩,
    ⟨enabled_of (by decide), untriggered_of (by decide), translated_of (by decide), by decide⟩,
    enabled_of (by decide), untriggered_of (by decide), translated_of (by decide), by decide, next_of_gives (by decide)⟩

/-- A read-only page, and a writable one while the PMP denies. -/
theorem witness_ZeroPagePermission :
    (let p := leaf false false true true
     let s := paged .U 0 (some p) none
     Enabled (.cboZero 10) s ∧ Untriggered (.cboZero 10) s ∧ Translated (.cboZero 10) s 2 3 (some p) none ∧ p.w = false)
      ∧ (let p := leaf false true true true
         let s0 := paged .U 0 (some p) none
         let s := { s0 with hart := { s0.hart with pmp := Hart.reset.pmp } }
         Enabled (.cboZero 10) s ∧ Untriggered (.cboZero 10) s ∧ Translated (.cboZero 10) s 2 3 (some p) none
          ∧ (legalXwr p = true ∧ p.w = true ∧ userOk s.hart.csr (effPriv s.hart) p = true)
          ∧ ∃ t, exec (.cboZero 10) s = .next t ∧ decide (t.traps.map (·.cause) = [.storeAccessFault]) = true) :=
  ⟨⟨enabled_of (by decide), untriggered_of (by decide), translated_of (by decide), by decide⟩,
    enabled_of (by decide), untriggered_of (by decide), translated_of (by decide), by decide, next_of_gives (by decide)⟩

/-- `MPRV` with each value of `MPP` and `MPV`, and without effect below M-mode (R171). -/
theorem witness_LegalEncodingsAndUserAccess :
    let h := fun (m : Mode) (mstatus : Word) => ({ Hart.reset with mode := m, csr := { Csrs.reset with mstatus := mstatus } } : Hart)
    effPriv (h .U 0x21800) = .U ∧ effPriv (h .M 0x1800) = .M ∧ effPriv (h .M 0x8000021800) = .M ∧ effPriv (h .M 0x20800) = .S
      ∧ effPriv (h .M 0x8000020800) = .VS ∧ effPriv (h .M 0x20000) = .U ∧ effPriv (h .M 0x8000020000) = .VU := by decide

/-- A G-stage entry that is not a user page, one that is read-only for `CBO.ZERO`, and one with an illegal encoding. -/
theorem witness_GStageFaults :
    [(Instr.cboClean 10, leaf false true true false), (.cboZero 10, leaf false false true true),
      (.cboFlush 10, leaf true true false true)].all (fun v =>
        let s := paged .VS 0 (some (leaf false true true false)) (some v.2)
        (gateOf v.1).isSome && (gateOf v.1).all (fun g => decide (cmoEnable s.cfg s.hart g ≠ .illegalInstruction))
          && decide (triggerCheck s.cfg s.hart (classOf v.1) (eaOf s v.1) (accessSize s.cfg v.1) = .pass)
          && decide (translate s.hart (effPriv s.hart) (classOf v.1) (eaOf s v.1)
              = .done 2 3 (some (leaf false true true false)) (some v.2))
          && pageOk s.cfg s.hart.csr (effPriv s.hart) (classOf v.1) (leaf false true true false)
          && !(legalXwr v.2 && v.2.u && (decide (classOf v.1 = .cbm) || v.2.w))) = true := by decide

/-- A hart whose walks do not complete. -/
def unwalked (k : WalkFault) : State :=
  let s := inMode .VS 0xF0 0 0xF0 0x2010
  { s with hart := { s.hart with walk := { bare := [], rows :=
      [{ mode := .VS, classes := [.cbm, .cbz, .pf .R], page := 2, result := .fault k 3 }] } } }

theorem witness_WalkFaultsAreStoreFaults :
    [WalkFault.access, .page, .guestPage].all (fun k =>
      decide (cmoEnable (unwalked k).cfg (unwalked k).hart .zero ≠ .illegalInstruction)
        && decide (triggerCheck (unwalked k).cfg (unwalked k).hart .cbz 0x2010 64 = .pass)
        && decide (translate (unwalked k).hart (effPriv (unwalked k).hart) .cbz (eaOf (unwalked k) (.cboZero 10)) = .fault k 3))
      = true := by decide

/-- A platform that takes an access fault where a location is not cacheable, and on which none is. -/
def uncached : State :=
  onPlatform (fun c => { c with
    uncachedCbo := .accessFault
    pma := [PmaRegion.mk 0 (2 ^ 56) { perm := { r := true, w := true, x := true }, kind := .mainMemory, cacheable := false,
                                      incoherent := [] }] }) (inM 0x2010)

/-- A hart in U-mode, everything enabled, whose PMP grants on the last byte of the block at `0x2000` only what is given. -/
def lastByte (r w x : Bool) : State :=
  let s := inMode .U 0xF0 0xF0 0xF0 0x2010
  { s with hart := { s.hart with pmp := { s.hart.pmp with
      rows := [{ modes := [.U], base := 0x203F, size := 1, perm := { r := r, w := w, x := x } }] } } }

/-- An address without any permission; a block whose addresses have a permission each, not the same one (read and execute, write
alone); and a location that is not cacheable on a platform that faults there, to a management instruction and to `CBO.ZERO`. -/
theorem witness_ManagementAccessPermission :
    (let s := lastByte false false false
     Enabled (.cboInval 10) s ∧ Untriggered (.cboInval 10) s ∧ Translated (.cboInval 10) s 2 2 none none
      ∧ PageGrants (.cboInval 10) s none ∧ GStageGrants (.cboInval 10) s none
      ∧ (0x203F ∈ block (inPage 2 (eaOf s (.cboInval 10))) (cbsM s.cfg)
        ∧ joint s.cfg s.hart (effPriv s.hart) 0x203F = { r := false, w := false, x := false }))
      ∧ (let s0 := lastByte false true false
         let s := { s0 with hart := { s0.hart with pmp := { s0.hart.pmp with below := { r := true, w := false, x := true } } } }
         let j := joint s.cfg s.hart (effPriv s.hart)
         Enabled (.cboFlush 10) s ∧ Untriggered (.cboFlush 10) s ∧ Translated (.cboFlush 10) s 2 2 none none
          ∧ ((∀ a ∈ block (inPage 2 (eaOf s (.cboFlush 10))) (cbsM s.cfg), (j a).r = true ∨ (j a).w = true ∨ (j a).x = true)
            ∧ (j 0x2000).w = false ∧ j 0x203F = { r := false, w := true, x := false })
          ∧ ∃ t, exec (.cboFlush 10) s = .next t ∧ t.traps.isEmpty = true)
      ∧ [Instr.cboClean 10, .cboZero 10].all (fun i => decide (gateOf i ≠ none)
          && decide (accessCheck uncached.cfg uncached.hart (classOf i) (accessSize uncached.cfg i) (eaOf uncached i) = .granted 0x2010)
          && decide (uncached.cfg.uncachedCbo = .accessFault) && decide ((pmaAt uncached.cfg 0x2010).cacheable = false)
          && gives (exec i uncached) (fun t => decide (t.traps.map (·.cause) = [.storeAccessFault]))) = true :=
  ⟨⟨enabled_of (by decide), untriggered_of (by decide), translated_of (by decide), pageGrants_of rfl, gStageGrants_of rfl,
    by decide⟩,
    ⟨enabled_of (by decide), untriggered_of (by decide), translated_of (by decide), by decide, next_of_gives (by decide)⟩,
    by decide⟩

theorem witness_ZeroAccessPermission :
    [lastByte true false false, lastByte true true false].all (fun s =>
      decide (cmoEnable s.cfg s.hart .zero ≠ .illegalInstruction) && decide (triggerCheck s.cfg s.hart .cbz 0x2010 64 = .pass)
        && decide (translate s.hart (effPriv s.hart) .cbz (eaCbo s 10) = .done 2 2 none none)) = true
      ∧ (joint resetConfig (lastByte true false false).hart .U 0x203F).w = false
      ∧ ((∀ a ∈ block (inPage 2 (eaCbo (lastByte true true false) 10)) (cbsZ resetConfig),
          (joint resetConfig (lastByte true true false).hart .U a).w = true) ∧ CacheableOrLetThrough (lastByte true true false) 0x2010)
      ∧ ∃ t, exec (.cboZero 10) (lastByte true true false) = .next t ∧ t.traps.isEmpty = true :=
  ⟨by decide, by decide, ⟨by decide, .inl rfl⟩, next_of_gives (by decide)⟩

/-- The halves of the block at `0x2000` have different PMAs, both granting everything (A6). -/
def halves : State :=
  onPlatform (fun c => { c with pma :=
    { base := 0x2020, size := 32, attrs := { vacant with perm := { r := true, w := true, x := true } } } :: c.pma }) (inM 0x2010)

/-- A page that may be written and not read. -/
def writeOnly : State :=
  onPlatform (fun c => { c with pma :=
    { base := 0, size := 2 ^ 56, attrs := { vacant with perm := { r := false, w := true, x := false } } } :: c.pma }) (inM 0x2010)

/-- The second half of the block at `0x2000` is no location that may be accessed. -/
def halfDenied : State :=
  onPlatform (fun c => { c with pma := { base := 0x2020, size := 32, attrs := vacant } :: c.pma }) (inM 0x2010)

/-- A management instruction, a zero instruction, and a prefetch whose block is not granted. -/
theorem witness_PmaConstraintsOrRefusal :
    (Enabled (.cboClean 10) halves ∧ Untriggered (.cboClean 10) halves ∧ Translated (.cboClean 10) halves 2 2 none none
      ∧ PageGrants (.cboClean 10) halves none ∧ GStageGrants (.cboClean 10) halves none
      ∧ BlockGranted (.cboClean 10) halves (inPage 2 (eaOf halves (.cboClean 10)))
      ∧ ∃ a ∈ block (inPage 2 (eaOf halves (.cboClean 10))) (accessSize halves.cfg (.cboClean 10)),
          ∃ a' ∈ block (inPage 2 (eaOf halves (.cboClean 10))) (accessSize halves.cfg (.cboClean 10)),
            pmaAt halves.cfg a ≠ pmaAt halves.cfg a')
      ∧ (Enabled (.cboZero 10) writeOnly ∧ Untriggered (.cboZero 10) writeOnly ∧ Translated (.cboZero 10) writeOnly 2 2 none none
      ∧ BlockGranted (.cboZero 10) writeOnly (inPage 2 (eaOf writeOnly (.cboZero 10)))
      ∧ ∃ a ∈ block (inPage 2 (eaOf writeOnly (.cboZero 10))) (accessSize writeOnly.cfg (.cboZero 10)),
          (pmaAt writeOnly.cfg a).perm.w = true ∧ (pmaAt writeOnly.cfg a).perm.r = false)
      ∧ gateOf (.prefetchR 10 0) = none ∧ Untriggered (.prefetchR 10 0) halfDenied
      ∧ Translated (.prefetchR 10 0) halfDenied 2 2 none none ∧ ¬ BlockGranted (.prefetchR 10 0) halfDenied 0x2010
      ∧ (0x2000 ∈ block 0x2010 64 ∧ 0x2020 ∈ block 0x2010 64 ∧ pmaAt halfDenied.cfg 0x2000 ≠ pmaAt halfDenied.cfg 0x2020)
      ∧ refusal (exec (.prefetchR 10 0) halfDenied) = some .pmaConstraintsNotMet :=
  ⟨⟨enabled_of (by decide), untriggered_of (by decide), translated_of (by decide), pageGrants_of rfl, gStageGrants_of rfl,
    blockGranted_iff.2 (by decide), 0x2000, by decide, 0x2020, by decide, by decide⟩,
    ⟨enabled_of (by decide), untriggered_of (by decide), translated_of (by decide), blockGranted_iff.2 (by decide),
      0x2000, by decide, by decide⟩,
    rfl, untriggered_of (by decide), translated_of (by decide), fun h => absurd (blockGranted_iff.1 h) (by decide), by decide, by decide⟩

/-- A walk that fails, a page and a G-stage page that do not grant, and a block of which one byte does not. -/
theorem witness_PrefetchWithoutPermissionRetires :
    let i := Instr.prefetchR 10 32
    gateOf i = none
      ∧ (Untriggered i (unwalked .access) ∧ translate (unwalked .access).hart .VS (classOf i) (eaOf (unwalked .access) i) = .fault .access 3)
      ∧ (let s := paged .U 0 (some (leaf false true true false)) none
         Untriggered i s ∧ Translated i s 2 3 (some (leaf false true true false)) none
          ∧ pageOk s.cfg s.hart.csr (effPriv s.hart) (classOf i) (leaf false true true false) = false)
      ∧ (let s := paged .VS 0 none (some (leaf false true true false))
         Untriggered i s ∧ Translated i s 2 3 none (some (leaf false true true false))
          ∧ gStageOk s.cfg (classOf i) (leaf false true true false) = false)
      ∧ (let s := lastByte false false false
         Untriggered i s ∧ Translated i s 2 2 none none
          ∧ (pmaOk s.cfg (inPage 2 (eaOf s i)) (accessSize s.cfg i) = true ∧ jointOk s.cfg s.hart .U (classOf i) 0x203F = false)) :=
  ⟨rfl, ⟨untriggered_of (by decide), by decide⟩, ⟨untriggered_of (by decide), translated_of (by decide), by decide⟩,
    ⟨untriggered_of (by decide), translated_of (by decide), by decide⟩, untriggered_of (by decide), translated_of (by decide),
    by decide⟩

/-- A prefetch that must name its permission, on an address of each kind; and a location that the hart cannot access. -/
theorem witness_PrefetchPagePermission :
    (let cfg := { resetConfig with prefetchStrictR := true }
     cfg.prefetchStrictR = true ∧ jointOk cfg (lastByte false false true).hart .U (.pf .R) 0x203F = false
      ∧ jointOk cfg (lastByte true false false).hart .U (.pf .R) 0x203F = true)
      ∧ observes resetConfig 0 0x2000 = true ∧ observes resetConfig 1 0x2000 = false := by decide

theorem witness_MxrHasNoEffect :
    (∃ t, exec (.cboClean 10) (inM 0x2010) = .next t ∧ t.traps.isEmpty = true)
      ∧ refusal (exec (.cboClean 10) halves) = some .pmaConstraintsNotMet :=
  ⟨next_of_gives (by decide), by decide⟩

/-- A hart with the debug triggers given, on a platform with the policy given. -/
def watched (p : TriggerPolicy) (l : List Trigger) : State :=
  let s := onPlatform (fun c => { c with triggers := p }) (inM 0x2010)
  { s with hart := { s.hart with csr := { s.hart.csr with triggers := l } } }

/-- A type 6 address trigger on stores, at the last byte of the block; one of type 2; one of type 6 above the block; and one of type 6
that looks at accesses of one byte (`size = 1`). -/
def storeTrigger : Trigger := { tdata1 := 0x6000000000000002, tdata2 := 0x203F }
def oldTrigger : Trigger := { tdata1 := 0x2000000000000002, tdata2 := 0x203F }
def farTrigger : Trigger := { tdata1 := 0x6000000000000002, tdata2 := 0x2040 }
def sizedTrigger : Trigger := { tdata1 := 0x6000000000010002, tdata2 := 0x203F }

/-- What the recommendations make optional is not implemented. -/
def bareTriggers : TriggerPolicy :=
  .recommended { zicbomAddress := false, zicbozData := false, zicbopAddress := false, prefetchLoads := [], prefetchStores := [] }

theorem witness_EnabledTriggerIsRefused :
    Enabled (.cboInval 10) (watched .unspecified [storeTrigger])
      ∧ (storeTrigger.enabled resetConfig = true ∧ storeTrigger.dataMatch resetConfig = false
        ∧ storeTrigger.inBlock (eaOf (watched .unspecified [storeTrigger]) (.cboInval 10)) (cbsM resetConfig) = true)
      ∧ Enabled (.cboInval 10) State.reset ∧ NoTrigger State.reset :=
  ⟨enabled_of (by decide), by decide, enabled_of (by decide), by unfold NoTrigger; decide⟩

/-- A trigger that matches; and a type 2 trigger at the block beside type 6 triggers that do not match. -/
theorem witness_RecommendedTriggersOnZero :
    (let s := watched bareTriggers [storeTrigger]
     Enabled (.cboZero 10) s ∧ (storeTrigger.type s.cfg = 6 ∧ storeTrigger.dataMatch s.cfg = false ∧ storeTrigger.store = true
        ∧ storeTrigger.size = 0 ∧ storeTrigger.inBlock (eaCbo s 10) (cbsZ s.cfg) = true)
      ∧ ∃ t, exec (.cboZero 10) s = .next t ∧ decide (t.traps.map (·.cause) = [.breakpoint]) = true)
      ∧ (let s := watched bareTriggers [oldTrigger, farTrigger, sizedTrigger]
         Enabled (.cboZero 10) s ∧ (∀ t ∈ s.hart.csr.triggers, t.type s.cfg = 6 → t.dataMatch s.cfg = false ∧
            (t.store = false ∨ t.size ≠ 0 ∨ t.inBlock (eaCbo s 10) (cbsZ s.cfg) = false))
          ∧ ∃ t, exec (.cboZero 10) s = .next t ∧ t.traps.isEmpty = true) :=
  ⟨⟨enabled_of (by decide), by decide, next_of_gives (by decide)⟩, enabled_of (by decide), by decide, next_of_gives (by decide)⟩

/-! Taking a trap and returning -/

theorem witness_TrapsArePrecise : ∃ t, exec (.cboZero 10) (lastByte true false true) = .next t ∧ decide (t.traps ≠ []) = true :=
  next_of_gives (by decide)

theorem witness_TrapRecordContents :
    ∃ t, exec (.cboZero 10) (unwalked .guestPage) = .next t
      ∧ (decide (t.traps.map (·.cause) = [.storeGuestPageFault]) && t.traps.all (fun r => r.gpa.isSome)) = true :=
  next_of_gives (by decide)

/-- A hart with every exception delegated as far as it goes. -/
def delegating (m : Mode) : State :=
  let s := inMode m 0 0 0 0
  { s with hart := { s.hart with csr := { s.hart.csr with medeleg := 0xFFFFFF, hedeleg := 0xFFFFFF } } }

/-- A guest-page fault's record, and an illegal instruction's. -/
def guestRecord : TrapRecord := { cause := .storeGuestPageFault, epc := 0x1000, tval := 0x2000, gpa := some 0x3000, guestVirtual := true }
def plainRecord : TrapRecord := { cause := .illegalInstruction, epc := 0x1000, tval := 0, gpa := none, guestVirtual := false }

/-- A hart without the hypervisor extension. -/
def noHypervisor : Config := { resetConfig with modes := [.M, .S, .U] }

theorem witness_TrapEntryToM :
    trapTarget resetConfig (delegating .M).hart .illegalInstruction = .M ∧ hasHypervisor resetConfig = true ∧ plainRecord.gpa = none
      ∧ trapTarget resetConfig (inMode .VS 0 0 0 0).hart guestRecord.cause = .M ∧ guestRecord.gpa = some 0x3000
      ∧ trapTarget noHypervisor (delegating .M).hart plainRecord.cause = .M ∧ hasHypervisor noHypervisor = false := by decide

theorem witness_TrapEntryToS :
    trapTarget resetConfig (delegating .U).hart .illegalInstruction = .S ∧ hasHypervisor resetConfig = true ∧ plainRecord.gpa = none
      ∧ trapTarget resetConfig (delegating .VS).hart guestRecord.cause = .S ∧ guestRecord.gpa = some 0x3000
      ∧ trapTarget noHypervisor (delegating .U).hart plainRecord.cause = .S ∧ hasHypervisor noHypervisor = false := by decide

theorem witness_TrapEntryToVS :
    trapTarget resetConfig (delegating .VU).hart .illegalInstruction = .VS
      ∧ trapTarget resetConfig (delegating .VS).hart .storePageFault = .VS := by decide

/-- A trap from each mode to each target, and back. -/
theorem witness_ReturnRestoresWhatEntrySaved :
    [Mode.M, .S, .U, .VS, .VU].all (fun m => decide (plainRecord.epc = (delegating m).hart.pc)
        && decide (xtrunc resetConfig.xlen (delegating m).hart.pc = (delegating m).hart.pc)
        && pcAligned resetConfig (delegating m).hart.pc && hasHypervisor resetConfig) = true
      ∧ trapTarget resetConfig (delegating .M).hart plainRecord.cause = .M
      ∧ trapTarget resetConfig (delegating .U).hart plainRecord.cause = .S
      ∧ trapTarget resetConfig (delegating .VU).hart plainRecord.cause = .VS
      ∧ trapTarget { resetConfig with modes := [.M, .U] } (delegating .U).hart plainRecord.cause = .M
      ∧ hasHypervisor { resetConfig with modes := [.M, .U] } = false := by decide

/-- Without the hypervisor extension, bit 39 of `mstatus` is no `MPV`: `MRET` returns to S-mode (R202). -/
theorem test_mret_without_hypervisor :
    (returnM noHypervisor { (delegating .M).hart with csr := { Csrs.reset with mstatus := 0x8000000800#64 } }).mode = .S := by decide

/-! What the instructions do -/

/-! Each instruction's operation performed at once, on an address inside a stored-to block; and held back. -/

/-- The memory system holds the operations of instructions back. -/
def heldBack (s : State) : State := { s with deferred := true }

theorem witness_InvalidateExecutes :
    let s := dirtied (inM 0x203F)
    (cmoEnable s.cfg s.hart .inval = .perform ∧ Untriggered (.cboInval 10) s ∧ Granted (.cboInval 10) s 0x203F
      ∧ CacheableOrLetThrough s 0x203F ∧ cacheable s.cfg (blkBase 0x203F (cbsM s.cfg)) = true ∧ atOnce s = true)
      ∧ atOnce (heldBack s) = false :=
  ⟨⟨by decide, untriggered_of (by decide), granted_of (by decide), .inl rfl, by decide, rfl⟩, rfl⟩

theorem witness_CleanExecutes :
    let s := dirtied (inM 0x2000)
    (Enabled (.cboClean 10) s ∧ Untriggered (.cboClean 10) s ∧ Granted (.cboClean 10) s 0x2000 ∧ CacheableOrLetThrough s 0x2000
      ∧ isDirty s.sys (cohAt s.cfg 0x2000 s.hart.id) 0x2000 = true ∧ atOnce s = true)
      ∧ atOnce (heldBack s) = false :=
  ⟨⟨enabled_of (by decide), untriggered_of (by decide), granted_of (by decide), .inl rfl, by decide, rfl⟩, rfl⟩

theorem witness_FlushExecutes :
    (let s := dirtied (inM 0x2000)
     Enabled (.cboFlush 10) s ∧ Untriggered (.cboFlush 10) s ∧ Granted (.cboFlush 10) s 0x2000 ∧ CacheableOrLetThrough s 0x2000
      ∧ atOnce s = true ∧ atOnce (heldBack s) = false)
      ∧ (let s := dirtied (inMode .VS 0x30 0 0x10 0x2000)
         cmoEnable s.cfg s.hart .inval = .performFlushInstead ∧ Untriggered (.cboInval 10) s ∧ Granted (.cboInval 10) s 0x2000
          ∧ CacheableOrLetThrough s 0x2000) :=
  ⟨⟨enabled_of (by decide), untriggered_of (by decide), granted_of (by decide), .inl rfl, rfl, rfl⟩,
    by decide, untriggered_of (by decide), granted_of (by decide), .inl rfl⟩

theorem witness_ZeroExecutes :
    let s := dirtied (inMode .U 0x80 0x80 0 0x203F)
    LinesWhole s.cfg s.sys ∧ Enabled (.cboZero 10) s ∧ Untriggered (.cboZero 10) s ∧ Granted (.cboZero 10) s 0x203F
      ∧ CacheableOrLetThrough s 0x203F ∧ (atOnce s = true ∧ canCache s.cfg s.sys 0x2000 s.hart.id = true
        ∧ cbsZ s.cfg ≤ cbsM s.cfg) ∧ atOnce (heldBack s) = false :=
  ⟨by decide, enabled_of (by decide), untriggered_of (by decide), granted_of (by decide), .inl rfl, by decide, rfl⟩

/-- A memory system whose caches hold nothing is coherent. -/
theorem coherent_of_empty {cfg : Config} {ms : MemSys} (hc : ∀ c ∈ ms.caches, c.lines = []) (hd : ms.dirty = []) :
    SysCoherent cfg ms where
  sorted := fun c h => by rw [hc c h]; exact List.Pairwise.nil
  whole := fun c h e he => by rw [hc c h] at he; cases he
  aligned := fun c h e he => by rw [hc c h] at he; cases he
  agree := fun c h c' _ _ _ _ _ _ _ hg => by rw [hc c h] at hg; cases hg
  held := fun k b h => by rw [hd] at h; cases h
  once := by unfold DirtyOnce; rw [hd]; exact List.nodup_nil
  backed := fun c h b d _ hg => by rw [hc c h] at hg; cases hg
  fits := fun c h b => by unfold occupancy; rw [hc c h]; exact Nat.zero_le _

/-- The reset state with an instruction placed, ready to be stepped. -/
def ready (w : Nat) : State := State.reset.withFetchWord 32 w

theorem inM_coherent (a0 : Word) : CachesCoherent (inM a0) :=
  coherent_of_empty (fun c h => by rw [List.mem_singleton.1 h]) rfl

theorem witness_PrefetchExecutes :
    let s := inM 0x2010
    CachesCoherent s ∧ gateOf (.prefetchW 10 32) = none ∧ Untriggered (.prefetchW 10 32) s
      ∧ (∀ ppage gpage pte gpte, Translated (.prefetchW 10 32) s ppage gpage pte gpte →
          PmaMet (.prefetchW 10 32) s (inPage ppage (eaOf s (.prefetchW 10 32)))) := by
  refine ⟨inM_coherent 0x2010, rfl, untriggered_of (by decide), fun ppage gpage pte gpte h => ?_⟩
  have h2 : Translated (.prefetchW 10 32) (inM 0x2010) 2 2 none none := translated_of (by decide)
  rw [Translated, h2] at h
  cases h
  unfold PmaMet
  decide

theorem witness_PrefetchIsNotOrdered :
    CachesCoherent (inM 0x2010) ∧ gateOf (.prefetchI 10 0) = none ∧ ∃ t, exec (.prefetchI 10 0) (inM 0x2010) = .next t
      ∧ t.traps.isEmpty = true :=
  ⟨inM_coherent 0x2010, rfl, next_of_gives (by decide)⟩

/-- An instruction that retires and one that traps. -/
theorem witness_InstructionFrame :
    (∃ t, exec (.cboZero 10) (inM 0x2010) = .next t ∧ decide (t.traps = []) = true)
      ∧ ∃ t, exec (.cboZero 10) (lastByte true false true) = .next t ∧ decide (t.traps ≠ []) = true :=
  ⟨next_of_gives (by decide), next_of_gives (by decide)⟩

/-- Each of the four clauses has a next state. -/
theorem witness_MemoryFrame :
    (∃ t, exec (.prefetchR 10 0) (inM 0x2010) = .next t ∧ t.traps.isEmpty = true)
      ∧ (cmoEnable resetConfig (inM 0x2010).hart .inval = .perform
        ∧ ∃ t, exec (.cboInval 10) (inM 0x2010) = .next t ∧ t.traps.isEmpty = true)
      ∧ (accessCheck resetConfig (inM 0x2010).hart .cbz 64 (eaOf (inM 0x2010) (.cboZero 10)) = .granted 0x2010
        ∧ 0x1FFF ∉ block 0x2010 64 ∧ 0x2040 ∉ block 0x2010 64)
      ∧ (accessCheck resetConfig (lastByte true false true).hart .cbz 64 (eaOf (lastByte true false true) (.cboZero 10))
          = .trap .storeAccessFault none
        ∧ ∃ t, exec (.cboZero 10) (lastByte true false true) = .next t ∧ decide (t.traps ≠ []) = true) :=
  ⟨next_of_gives (by decide), ⟨by decide, next_of_gives (by decide)⟩, by decide, by decide, next_of_gives (by decide)⟩

/-- Two harts, the other one with a reservation. -/
def twoHarts : State :=
  { inM 0x2010 with others := [{ Hart.reset with id := 1, resv := some { base := 0x2000, size := 8 } }] }

theorem witness_OtherHartsLoseOnlyReservations :
    ∃ t, exec (.cboClean 10) twoHarts = .next t ∧ decide (t.others.length = 1) = true :=
  next_of_gives (by decide)

/-! Memory ordering -/

theorem witness_LoadsStayAfterManagementOperations :
    Legal resetConfig [] [inv 1, ld 2] ∧ po (inv 1) (ld 2) = true ∧ overlap resetConfig (inv 1) (ld 2) = true := by decide

/-- The overlap with a management operation as the later and as the earlier operation; an acquire annotation; an address dependency, a
control dependency, and an address dependency of a load between. -/
theorem witness_ManagementOperationsAreOrderedAsStores :
    let acq : Event := { lw 1 64 with tags := { Tags.plain with acquire := true } }
    let dep : Event := { fls 2 with tags := { Tags.plain with addrDep := [1] } }
    let br : Event := { cln 2 with tags := { Tags.plain with ctrlDep := [1] } }
    let mid : Event := { lw 2 128 with tags := { Tags.plain with addrDep := [1] } }
    (Legal resetConfig [] [lw 1 60, cln 2] ∧ po (lw 1 60) (cln 2) = true ∧ overlap resetConfig (lw 1 60) (cln 2) = true
        ∧ inMainMemory resetConfig (lw 1 60) = true ∧ inMainMemory resetConfig (cln 2) = true)
      ∧ (Legal resetConfig [] [fls 1, sw 2 0] ∧ overlap resetConfig (fls 1) (sw 2 0) = true ∧ (sw 2 0).isStore = true)
      ∧ (Legal resetConfig [] [acq, cln 2] ∧ po acq (cln 2) = true ∧ acq.isLoad = true ∧ acq.tags.acquire = true)
      ∧ (Legal resetConfig [] [lw 1 64, dep] ∧ po (lw 1 64) dep = true ∧ (lw 1 64).isLoad = true ∧ 1 ∈ dep.tags.addrDep)
      ∧ (Legal resetConfig [] [lw 1 64, br] ∧ po (lw 1 64) br = true ∧ 1 ∈ br.tags.ctrlDep)
      ∧ (Legal resetConfig [] [lw 1 64, mid, inv 3] ∧ po (lw 1 64) mid = true ∧ po mid (inv 3) = true ∧ 1 ∈ mid.tags.addrDep) := by
  decide

theorem witness_FencesClassifyManagementOperations :
    (Legal resetConfig [] [cln 1, fen 2 1 1, sw 3 64] ∧ inFenceSet resetConfig (fenceSet 1) (cln 1) = true
        ∧ inFenceSet resetConfig (fenceSet 1) (sw 3 64) = true)
      ∧ (Legal ioPlatform [] [cln 1, fen 2 4 1, sw 3 64] ∧ inMainMemory ioPlatform (cln 1) = false
        ∧ inFenceSet ioPlatform (fenceSet 4) (cln 1) = true) := by decide

/-- The three cases, each with its hypotheses met, the clean by an observer outside the load's set among them; and a flush as the
invalidate. -/
theorem witness_ValuesAfterInvalidate :
    ((inv 9).op = .invalidate 0 ∧ (∀ e ∈ [st 1 1], e.isCleanOf resetConfig 0 = false)
      ∧ ({ cln 3 with obs := 9 } : Event).isCleanOf resetConfig 0 = true ∧ (∀ e ∈ [st 4 2], e.isCleanOf resetConfig 0 = false)
      ∧ valuesOf 0 (coherentStores resetConfig 0 0 [cln 2]) = []
      ∧ (valuesOf 0 (coherentStores resetConfig 0 0 [st 1 1, st 2 3])).getLast? = some (3, some (0, 2)))
      ∧ (fls 9).op = .flush 0 ∧ 63 < 0 + cbsM resetConfig
      ∧ afterInv resetConfig [] 0 0 [st 1 1, st 2 3] { fls 9 with obs := 9 } = [(3, some (0, 2))] := by decide

/-- An invalidate that qualifies, after one that does not (LV4: a store stands between); one whose store stands behind the load in the
global memory order and between the two in program order; a byte that only coherent observers store to; and the latest store before
the load in the global memory order, and the initial value where no store comes before it; and
a load of an execution, legal with the store's value and not with the initial one. -/
theorem witness_LoadValuesBesideInvalidates :
    (([inv 1, st 2 1, inv 3] = [inv 1, st 2 1] ++ inv 3 :: [] ∧ (inv 3).isInvalOf resetConfig 0 = true
        ∧ ∀ e ∈ [inv 1, st 2 1, inv 3] ++ [], e.writes 0 = true → po (inv 3) e = true → po e (ld 4) = false)
        ∧ values (allowed resetConfig [] [inv 1, st 2 1, inv 3] [] (ld 4) 0) [0, 1] = true)
      ∧ qualifying resetConfig [] [inv 1, st 2 1] (ld 4) 0 [] [inv 1, st 2 1] = []
      ∧ (qualifying resetConfig [] [inv 1, st 2 1] (ld 4) 0 [] [inv 1] = [] ∧ po (inv 1) (st 2 1) = true ∧ po (st 2 1) (ld 4) = true
        ∧ allowed resetConfig [] [inv 1] [st 2 1] (ld 4) 0 = [(1, some (0, 2))])
      ∧ (let e : Event := { st 5 7 with obs := 9 }
         e ∈ [inv 1] ++ [e] ∧ e.storeValue? 0 = some 7 ∧ coherentAt resetConfig 0 0 e.obs = false)
      ∧ allowed resetConfig [] [st 1 1, st 3 2] [] (ld 4) 0 = [(2, some (0, 3))]
      ∧ allowed resetConfig [(0, 9)] [] [st 5 1] (ld 4) 0 = [(9, none)]
      ∧ (let r := ev 2 (.load 0 1 [7] [some (0, 1)])
         Legal resetConfig [] ([st 1 7] ++ r :: []) ∧ r.obs ∈ resetConfig.harts
          ∧ ¬ Legal resetConfig [] [st 1 7, ev 2 (.load 0 1 [0] [none])]) := by decide

/-! Caches, control registers, the step and its invariants -/

/-- The block at `0x2000` is clean in the cache of hart 0's set and dirty in that of hart 1's set. -/
def twoSets : MemSys where
  mem := []
  caches := [{ serves := everywhere [0], sets := 1, ways := 1, lines := [(0x2000, List.replicate 64 0)] },
             { serves := everywhere [1], sets := 1, ways := 1, lines := [(0x2000, List.replicate 64 7)] }]
  dirty := [(.group 1, 0x2000)]
def twoSetsConfig : Config := { resetConfig with coh := [CohRegion.mk 0 (2 ^ 56) [(0, 0), (1, 1)]], harts := [0, 1] }

theorem get?_one {b b' : Nat} {d d' : List Byte} (h : Table.get? [(b, d)] b' = some d') : b' = b ∧ d' = d := by
  have hm := Table.mem_of_get? h
  simpa using hm

theorem twoSets_coherent : SysCoherent twoSetsConfig twoSets where
  sorted := by unfold LinesSorted; decide
  whole := by unfold LinesWhole; decide
  aligned := by unfold LinesAligned; decide
  agree := fun c hc c' hc' k b d d' hr hr' hg hg' => by
    simp only [twoSets, List.mem_cons, List.not_mem_nil, or_false] at hc hc'
    rcases hc with rfl | rfl <;> rcases hc' with rfl | rfl
    · exact (get?_one hg).2.trans (get?_one hg').2.symm
    · obtain ⟨rfl, -⟩ := get?_one hg
      exact absurd (reaches_setOfCache hr ▸ reaches_setOfCache hr' : setOfCache _ _ _ = setOfCache _ _ _) (by decide)
    · obtain ⟨rfl, -⟩ := get?_one hg
      exact absurd (reaches_setOfCache hr ▸ reaches_setOfCache hr' : setOfCache _ _ _ = setOfCache _ _ _) (by decide)
    · exact (get?_one hg).2.trans (get?_one hg').2.symm
  held := fun k b h => by
    obtain ⟨rfl, rfl⟩ := Prod.mk.inj (List.mem_singleton.1 h)
    decide
  once := by unfold DirtyOnce; decide
  backed := fun c hc b d hk hg => by
    simp only [twoSets, List.mem_cons, List.not_mem_nil, or_false] at hc
    rcases hc with rfl | rfl <;> (obtain ⟨rfl, -⟩ := get?_one hg; exact absurd hk (by decide))
  fits := fun c hc b => by
    simp only [twoSets, List.mem_cons, List.not_mem_nil, or_false] at hc
    rcases hc with rfl | rfl <;> exact List.countP_le_length

/-- A clean copy of one set beside a dirty copy of another: the first is not written back, the second is. -/
theorem witness_CacheMovesWriteBackOnlyDirtyBlocks :
    SysCoherent twoSetsConfig twoSets
      ∧ (twoSets.caches[0]?.any (fun c => !isDirty twoSets (setOfCache twoSetsConfig 0x2000 c) 0x2000)) = true
      ∧ (writeBackLine twoSetsConfig 0 0x2000 twoSets).mem = []
      ∧ Memory.read (writeBackLine twoSetsConfig 1 0x2000 twoSets).mem 0x203F = 7 :=
  ⟨twoSets_coherent, by decide, by decide, by decide⟩

/-- The full set of values, and one value alone, with a supported, an unsupported and the reserved value written. -/
theorem witness_ControlRegisterWrites :
    cbieLegal resetConfig.cbieM ≠ [] ∧ cbieLegal [0b01#2] ≠ [] ∧ cbie (0x30 : Word) ∈ cbieLegal resetConfig.cbieM
      ∧ cbie (0x20 : Word) ∉ cbieLegal resetConfig.cbieM ∧ bare.cfg.hasZicbom = false ∧ resetConfig.hasZicbom = true := by decide

/-- A clean of the block at `0x2000` that hart 0 issued and a load of it by the device 9, both waiting, with this move next. -/
def waiting (m : Move) : State :=
  { dirtied (inM 0) with
    pending := [ev 1 (.clean 0x2000), { ev 2 (.load 0x2000 1 [] []) with obs := 9 }], inputs := [.act m], tick := 3 }

theorem witness_StepRunsDecodedInstruction :
    (let s := ready 0x0005200F
     s.inputs = [] ∧ pcAligned s.cfg s.hart.pc = true ∧ fetchByte s 0 = some 0x0F ∧ fetchByte s 1 = some 0x20
      ∧ fetchByte s 2 = some 0x05 ∧ fetchByte s 3 = some 0x00 ∧ decodeBytes [0x0F, 0x20, 0x05, 0x00] = .cmo (.cboInval 10)
      ∧ classOf (.cboInval 10) = .cbm ∧ s.cfg.hasZicbom = true ∧ ({ s with inputs := [.run] } : State).inputs = .run :: [])
      ∧ (let s := waiting (.perform 0 [] [])
         s.pending[0]? = some (ev 1 (.clean 0x2000)) ∧ 0x2000 % cbsM s.cfg = 0 ∧ returnOk s (ev 1 (.clean 0x2000)) = true
          ∧ LegalSoFar s.cfg s.initMem (s.history ++ [ev 1 (.clean 0x2000)]) (s.pending.eraseIdx 0)) := by decide

/-- Program 2 without its `FENCE`: the device's load can be performed before the clean, and returns what memory had; after the clean
it returns the stored data. -/
theorem test_device_reads_before_clean :
    gives (step (waiting (.perform 1 [0] [none]))) (fun t => decide (t.history.map (·.op) = [.load 0x2000 1 [0] [none]])
      && decide (t.pending.map (·.op) = [.clean 0x2000])) = true
      ∧ gives (step (waiting (.perform 0 [] []))) (fun t => decide (viewOf t.cfg t.sys 9 0x2000 = 7)) = true := by decide

/-- Of management operations on two blocks the later can be performed first; on one block it cannot (R95, PO10). -/
theorem test_management_operations_overtake :
    gives (step { waiting (.perform 1 [] []) with pending := [ev 1 (.clean 0x2000), ev 2 (.flush 0x2040)] })
        (fun t => decide (t.history.map (·.op) = [.flush 0x2040])) = true
      ∧ gives (step { waiting (.perform 1 [] []) with pending := [ev 1 (.clean 0x2000), ev 2 (.flush 0x2000)] })
        (fun t => t.history.isEmpty) = true := by decide

/-- Two stores to a byte of an I/O region (no PPO rule orders them) and a load of it: the later store overtakes the earlier one, so that
the load, performed first, returns what the earlier one wrote, a legal execution (R90, R92). In main memory it cannot (PPO rule 1). -/
theorem test_overtaking_stores :
    let s : State := { waiting (.overtake 0) with cfg := ioPlatform, pending := [st 1 1, st 2 2, ev 3 (.load 0 1 [] [])] }
    let load := perform 2 [1] [some (0, 1)]
    Legal ioPlatform [] [ev 3 (.load 0 1 [1] [some (0, 1)]), st 2 2, st 1 1] ∧ (load s).history = []
      ∧ gives (step s) (fun t => decide ((load t).history = [ev 3 (.load 0 1 [1] [some (0, 1)])])
        && decide ((load t).pending = [st 2 2, st 1 1])) = true
      ∧ gives (step { s with cfg := resetConfig }) (fun t => decide (t.pending.map (·.tick) = [1, 2, 3])) = true := by decide

/-- One store of a `CBO.ZERO` that waits is performed before another at a lower address: part of the block is seen zeroed (R142). -/
theorem test_zero_is_not_atomic :
    gives (step { waiting (.perform 1 [] []) with pending := zeroEvents 0 1 Tags.plain [0x2000, 0x2001] })
      (fun t => decide ([0x2000, 0x2001].map (viewOf t.cfg t.sys 0) = [7, 0])) = true := by decide

/-- A cache without room for a block does not allocate it (R4); one shared by two sets holds what memory holds after a clean, after the
invalidate that makes it a flush, and after a store that no cache of the set can satisfy (R205, log entry 29). -/
theorem test_cache_organisation :
    (allocateLine twoSetsConfig 0 0x3000 twoSets).caches.map (fun c => c.lines.map (·.1)) = [[0x2000], [0x2000]]
      ∧ (let shared : Cache := { serves := everywhere [0, 1], sets := 0, ways := 1, lines := [(0x2000, List.replicate 64 0)] }
         let ms := cleanBlock twoSetsConfig (.group 1) 0x2000 { twoSets with caches := twoSets.caches ++ [shared] }
         common twoSetsConfig 0x2000 shared = true ∧ ms.caches.map (fun c => c.lines.map (fun e => e.2.head?))
          = [[some 0], [some 7], [some 7]]
          ∧ (invalidateBlock twoSetsConfig (.group 1) 0x2000 ms).caches.map (fun c => c.lines.map (fun e => e.2.head?))
            = [[some 0], [], [some 7]]
          ∧ (storeBy twoSetsConfig 0 0x2000 5 { twoSets with caches := [shared] }).caches.map (fun c => c.lines.map (fun e => e.2.head?))
            = [[some 5]]) := by decide

/-- A cache on a hart's path to one region of memory only (R54): it holds blocks there, none elsewhere, and none through which the border
runs (log entry 29). -/
theorem test_cache_serves_a_region :
    let ms : MemSys := { twoSets with dirty := [], caches :=
      [{ serves := [{ base := 0x3000, size := 0x60, observers := [0] }], sets := 64, ways := 1, lines := [] }] }
    [0x2000, 0x3000, 0x3040].map (fun b => (allocateLine resetConfig 0 b ms).caches.map (fun c => c.lines.map (·.1)))
        = [[[]], [[0x3000]], [[]]]
      ∧ [0x2000, 0x3000, 0x3040].map (fun b => canCache resetConfig ms b 0) = [false, true, false] := by decide

/-- The trigger registers by their numbers and names (R27), and a write of `tselect` that names no trigger; on a hart with none `tdata1`
reads as zero and a write of `tdata2` is dropped (log entry 13). -/
theorem test_trigger_registers :
    [CsrName.tselect, .tdata1, .tdata2].map (·.number?) = [some 0x7A0, some 0x7A1, some 0x7A2]
      ∧ csrRead resetConfig .tdata2 (csrWrite resetConfig 0 .tdata2 0x2000 Csrs.reset) = 0x2000
      ∧ (csrWrite resetConfig 0 .tselect 1 Csrs.reset).tselect = 0
      ∧ (let r : Csrs := { Csrs.reset with triggers := [] }
         csrRead resetConfig .tdata1 r = 0 ∧ csrWrite resetConfig 0 .tdata2 5 r = r) := by decide

/-- An SC paired with the load of step 3. -/
def sc : Event := { st 4 1 with tags := { Tags.plain with amoOrSc := true, pair := some 3 } }

/-- The paired load read the initial data: another hart's store before the SC breaks atomicity, however the load's value came (R92, log
entry 40). -/
theorem test_atomicity :
    atomicOk twoSetsConfig [{ st 1 5 with obs := 1 }, inv 2, ld 3] sc [] = false ∧ atomicOk twoSetsConfig [inv 2, ld 3] sc [] = true := by
  decide

/-- On a byte of an I/O region no PPO rule keeps the paired load before the SC: performed after it, the load reads, across an invalidate,
the store before another hart's, which lies between that store and the SC (R92). -/
theorem test_atomicity_load_after :
    let cfg : Config := { ioPlatform with coh := twoSetsConfig.coh, harts := [0, 1] }
    let r := ev 3 (.load 0 1 [7] [some (0, 1)])
    ¬ Legal cfg [] [st 1 7, { st 1 5 with obs := 1 }, sc, inv 2, r] ∧ Legal cfg [] [st 1 7, sc, inv 2, r] := by decide

/-- A step of the state below runs `cbo.zero (zero)`. -/
theorem ready_steps : ∃ t, step (ready 0x0040200F) = .next t ∧ t.traps.isEmpty = true := next_of_gives (by decide)

theorem witness_StepKeepsPlatform : ∃ s t, step s = .next t :=
  let ⟨t, h, _⟩ := ready_steps; ⟨_, t, h⟩

theorem witness_StepKeepsMemoryCanonical : MemoryCanonical (ready 0x0040200F) ∧ ∃ t, step (ready 0x0040200F) = .next t :=
  ⟨by decide, let ⟨t, h, _⟩ := ready_steps; ⟨t, h⟩⟩

theorem witness_StepKeepsCachesCoherent : CachesCoherent (ready 0x0040200F) ∧ ∃ t, step (ready 0x0040200F) = .next t :=
  ⟨coherent_of_empty (by decide) (by decide), let ⟨t, h, _⟩ := ready_steps; ⟨t, h⟩⟩

theorem witness_StepKeepsHartsWellFormed :
    PcsAligned (ready 0x0040200F) ∧ ModesLegal (ready 0x0040200F) ∧ RegistersFit (ready 0x0040200F) ∧ MppLegal (ready 0x0040200F)
      ∧ ∃ t, step (ready 0x0040200F) = .next t := by
  refine ⟨?_, ?_, ?_, ?_, let ⟨t, h, _⟩ := ready_steps; ⟨t, h⟩⟩
  · unfold PcsAligned AllHarts; decide
  · unfold ModesLegal AllHarts; decide
  · unfold RegistersFit AllHarts FitsXlen; decide
  · unfold MppLegal AllHarts; decide

theorem witness_StepKeepsCbieLegal : CbieLegalEverywhere (ready 0x0040200F) ∧ ∃ t, step (ready 0x0040200F) = .next t :=
  ⟨by unfold CbieLegalEverywhere AllHarts CbieHeldLegal; decide, let ⟨t, h, _⟩ := ready_steps; ⟨t, h⟩⟩

theorem witness_StepKeepsHistoryLegal : HistoryLegal (ready 0x0040200F) ∧ ∃ t, step (ready 0x0040200F) = .next t :=
  ⟨⟨by unfold EventsPast; decide, (fun _ h => nomatch h), by decide⟩, let ⟨t, h, _⟩ := ready_steps; ⟨t, h⟩⟩

/-- Before anything has happened, every set sees the initial data. -/
theorem latestSeen_of_fresh {s : State} (hc : ∀ c ∈ s.sys.caches, c.lines = []) (hd : s.sys.dirty = []) (hh : s.history = [])
    (hm : s.sys.mem = s.initMem) : LatestSeen s where
  coherent := coherent_of_empty hc hd
  stored := fun k b h => by rw [hd] at h; cases h
  seen := fun o a _ => by
    have hl : latestStore s a = Memory.read s.sys.mem a := by unfold latestStore; rw [hh, hm]; rfl
    have hn : heldCopy s.cfg s.sys (cohAt s.cfg a o) (blkBase a (cbsM s.cfg)) = none :=
      List.findSome?_eq_none_iff.2 fun c h => by rw [hc c h]; simp [Table.get?]
    exact ⟨(view_of_none hn).trans hl.symm, fun _ => hl.symm⟩

theorem witness_StepKeepsLatestStoreSeen : LatestSeen (ready 0x0040200F) ∧ ∃ t, step (ready 0x0040200F) = .next t :=
  ⟨latestSeen_of_fresh (by decide) (by decide) (by decide) (by decide), let ⟨t, h, _⟩ := ready_steps; ⟨t, h⟩⟩

end Sys2Proof.Tests
end

section
/-!
SUPPORT. The ordering of loads behind management operations (R71), and what a prefetch leaves alone (R74).
-/

namespace Sys2Proof.Machine

/-! ### Preserved program order in a legal execution -/

/-- An execution that respects preserved program order never shows two operations the other way round. -/
theorem RespectsPpo.not_sublist {cfg : Config} {ex : List Event} {a b : Event} (h : RespectsPpo cfg ex)
    (hab : ppo cfg ex a b = true) : ¬ [b, a].Sublist ex := fun hs => by
  have hba : ppo cfg ex a b = false := List.pairwise_iff_forall_sublist.1 h hs
  rw [hab] at hba
  cases hba

theorem Event.isFence_of_isLoad {e : Event} (h : e.isLoad = true) : e.isFence = false := by
  unfold Event.isLoad at h
  unfold Event.isFence
  split at h <;> simp_all

theorem Event.isFence_of_isCbm {e : Event} (h : e.isCbm = true) : e.isFence = false := by
  unfold Event.isCbm at h
  unfold Event.isFence
  split at h <;> simp_all

/-- The additional overlapping-address rule is a rule of preserved program order, in main memory and outside it (R71). -/
theorem ppo_of_cbm_load {cfg : Config} {a b : Event} (ex : List Event) (ha : a.isCbm = true) (hb : b.isLoad = true)
    (hpo : po a b = true) (hov : overlap cfg a b = true) : ppo cfg ex a b = true := by
  have hrule : ppoCbmLoad cfg a b = true := by simp [ppoCbmLoad, ha, hb, hov]
  simp [ppo, hpo, hrule, Event.isFence_of_isCbm ha, Event.isFence_of_isLoad hb]

/-- Settles O43: the additional rule is part of preserved program order, which a legal execution respects. -/
theorem loadsStayAfterManagementOperations : Obligations.LoadsStayAfterManagementOperations :=
  fun _ _ ex _ _ ⟨hppo, _, _⟩ ha hb hpo hov => RespectsPpo.not_sublist hppo (ppo_of_cbm_load ex ha hb hpo hov)

/-! ### Prefetches -/

/-- Every next state of an instruction that no control gates, which is a prefetch: a breakpoint, or a retirement with or without the
hint. -/
theorem exec_ungated_cases {i : Instr} {s t : State} (hi : gateOf i = none) (h : exec i s = .next t) :
    t = raiseFault .breakpoint none (eaOf s i) (accessSize s.cfg i) s ∨ t = retire s ∨ ∃ pa, t = retire (hint pa s) := by
  cases i with
  | cboInval rs1 => cases hi
  | cboClean rs1 => cases hi
  | cboFlush rs1 => cases hi
  | cboZero rs1 => cases hi
  | prefetchI rs1 offset => exact prefetch_cases (k := .I) h
  | prefetchR rs1 offset => exact prefetch_cases (k := .R) h
  | prefetchW rs1 offset => exact prefetch_cases (k := .W) h

/-- Whether or not the hardware acts on a hint, every set of coherent observers sees what it saw. -/
theorem view_hint {s : State} (hs : CachesCoherent s) (pa : Nat) (k : CohSet) (a : Nat) :
    view s.cfg (hint pa s).sys k a = view s.cfg s.sys k a := by
  rw [hint_sys]
  split
  · exact view_hintLine hs _ _ _ k a
  · rfl

/-- Settles O39: a trap and a retirement leave the memory system and the operations alone, and a hint changes no view. -/
theorem prefetchIsNotOrdered : Obligations.PrefetchIsNotOrdered := by
  intro i s t hs hi h
  rcases exec_ungated_cases hi h with rfl | rfl | ⟨pa, rfl⟩
  · exact ⟨rfl, rfl, fun _ _ => rfl⟩
  · exact ⟨rfl, rfl, fun _ _ => rfl⟩
  · exact ⟨rfl, rfl, view_hint hs pa⟩

end Sys2Proof.Machine
end

section
/-!
SUPPORT. Which exceptions a CMO instruction can take at all (R167, R170, R190), and when a management or zero instruction takes the
page fault of its leaf entry (R174, R175) or the access fault of its block (R187).
-/

namespace Sys2Proof.Machine

/-! ### The exceptions an instruction can take -/

/-- The exceptions of an access are none of the three that no CMO instruction takes for its access. -/
theorem Cause.ofAccess.ne {c : Cause} (h : c.ofAccess) :
    c ≠ .illegalInstruction ∧ c ≠ .virtualInstruction ∧ c ≠ .storeMisaligned := by
  rcases h with rfl | rfl | rfl | rfl <;> decide

/-- The trap records an instruction adds: an illegal instruction exception of an instruction that a control register gates, or an
exception of the access (R167, R168). -/
theorem exec_traps {i : Instr} {s t : State} (h : exec i s = .next t) :
    ∃ new, t.traps = s.traps ++ new ∧
      ∀ r ∈ new, (gateOf i ≠ none ∧ r.cause = .illegalInstruction) ∨ r.cause.ofAccess := by
  cases hi : gateOf i with
  | none =>
    rcases exec_ungated_cases hi h with rfl | rfl | ⟨pa, rfl⟩
    · exact ⟨[_], rfl, by simp [faultRecord, Cause.ofAccess]⟩
    · exact ⟨[], by simp, by simp⟩
    · exact ⟨[], by simp, by simp⟩
  | some g =>
    rcases exec_cases h with rfl | ⟨c, gpa, ea, n, hc, rfl⟩ | ⟨op, pa, rs1, rfl⟩ | ⟨pa, rs1, rfl⟩ | rfl | ⟨pa, rfl⟩
    · exact ⟨[_], rfl, by simp [illegalRecord]⟩
    · exact ⟨[_], rfl, by simpa [faultRecord] using .inr hc⟩
    · exact ⟨[], by simp, by simp⟩
    · exact ⟨[], by simp, by simp⟩
    · exact ⟨[], by simp, by simp⟩
    · exact ⟨[], by simp, by simp⟩

/-- Settles O12: an illegal instruction exception is taken by a gated instruction only, a virtual instruction exception by none. -/
theorem prefetchNeverIllegalNoneVirtual : Obligations.PrefetchNeverIllegalNoneVirtual := by
  intro i s t h
  obtain ⟨new, ht, hnew⟩ := exec_traps h
  refine ⟨new, ht, fun r hr => ?_, fun hi r hr => ?_⟩
  · rcases hnew r hr with ⟨-, hc⟩ | hc
    · simp [hc]
    · exact hc.ne.2.1
  · rcases hnew r hr with ⟨hg, -⟩ | hc
    · exact absurd hi hg
    · exact hc.ne.1

/-- Settles O13: neither the control registers nor the access give an address misaligned exception. -/
theorem noMisalignedException : Obligations.NoMisalignedException := by
  intro i s t h
  obtain ⟨new, ht, hnew⟩ := exec_traps h
  refine ⟨new, ht, fun r hr => ?_⟩
  rcases hnew r hr with ⟨-, hc⟩ | hc
  · simp [hc]
  · exact hc.ne.2.2

/-! ### The faults of a management or zero instruction that comes to the checks -/

/-- Which check of a translated access gives which fault (R174 to R176, R186, R187). -/
theorem accessCheck_trap_cases {i : Instr} {s : State} {ppage gpage : Nat} {pte gpte : Option Pte} {c : Cause} {g : Option Nat}
    (ht : Translated i s ppage gpage pte gpte)
    (h : accessCheck s.cfg s.hart (classOf i) (accessSize s.cfg i) (eaOf s i) = .trap c g) :
    (c = .storePageFault ∧ ¬ PageGrants i s pte) ∨ (c = .storeGuestPageFault ∧ ¬ GStageGrants i s gpte) ∨
      (c = .storeAccessFault ∧ ¬ BlockGranted i s (inPage ppage (eaOf s i))) := by
  rw [accessCheck_of_translated ht] at h
  rw [pageGrants_iff, gStageGrants_iff, blockGranted_iff]
  split at h
  next hp => cases h; exact .inl ⟨rfl, by simpa using hp⟩
  next =>
    split at h
    next hg => cases h; exact .inr (.inl ⟨rfl, by simpa using hg⟩)
    next =>
      split at h
      next hb => cases h; exact .inr (.inr ⟨rfl, by simpa using hb⟩)
      next => split at h <;> cases h

/-- An enabled management or zero instruction is its access: the operation selected, or the stores (R125 to R127, R141). -/
theorem exec_of_enabled {i : Instr} {s : State} (hg : gateOf i ≠ none) (he : Enabled i s) :
    (∃ op rs1, classOf i = .cbm ∧ accessSize s.cfg i = cbsM s.cfg ∧ eaOf s i = eaCbo s rs1 ∧ exec i s = cbmAccess op rs1 s) ∨
    (∃ rs1, i = .cboZero rs1 ∧ exec i s = cbzAccess rs1 s) := by
  cases i with
  | cboInval rs1 =>
    left
    cases hc : cmoEnable s.cfg s.hart .inval with
    | illegalInstruction => exact absurd hc (he _ rfl)
    | performFlushInstead => exact ⟨.flush, rs1, rfl, rfl, rfl, by simp only [exec, execCboInval, hc]⟩
    | perform => exact ⟨.invalidate, rs1, rfl, rfl, rfl, by simp only [exec, execCboInval, hc]⟩
  | cboClean rs1 =>
    refine .inl ⟨.clean, rs1, rfl, rfl, rfl, ?_⟩
    cases hc : cmoEnable s.cfg s.hart .clean with
    | illegalInstruction => exact absurd hc (he _ rfl)
    | performFlushInstead => simp only [exec, execCboClean, hc]
    | perform => simp only [exec, execCboClean, hc]
  | cboFlush rs1 =>
    refine .inl ⟨.flush, rs1, rfl, rfl, rfl, ?_⟩
    cases hc : cmoEnable s.cfg s.hart .flush with
    | illegalInstruction => exact absurd hc (he _ rfl)
    | performFlushInstead => simp only [exec, execCboFlush, hc]
    | perform => simp only [exec, execCboFlush, hc]
  | cboZero rs1 =>
    refine .inr ⟨rs1, rfl, ?_⟩
    cases hc : cmoEnable s.cfg s.hart .zero with
    | illegalInstruction => exact absurd hc (he _ rfl)
    | performFlushInstead => simp only [exec, execCboZero, hc]
    | perform => simp only [exec, execCboZero, hc]
  | prefetchI rs1 offset => exact absurd rfl hg
  | prefetchR rs1 offset => exact absurd rfl hg
  | prefetchW rs1 offset => exact absurd rfl hg

/-- Every next state of an enabled management or zero instruction that no trigger stops: the fault its checks answer, the access fault
of an uncacheable location (log entry 26), or one without a trap. -/
theorem exec_checked_cases {i : Instr} {s t : State} (hg : gateOf i ≠ none) (he : Enabled i s) (hu : Untriggered i s)
    (h : exec i s = .next t) :
    (∃ c g, accessCheck s.cfg s.hart (classOf i) (accessSize s.cfg i) (eaOf s i) = .trap c g ∧
      t = raiseFault c g (eaOf s i) (accessSize s.cfg i) s) ∨
    (∃ pa, Granted i s pa ∧ uncachedFault s.cfg pa = true ∧
      t = raiseFault .storeAccessFault none (eaOf s i) (accessSize s.cfg i) s) ∨
    t.traps = s.traps := by
  unfold Untriggered at hu
  simp only [← accessCheck_granted_iff]
  rcases exec_of_enabled hg he with ⟨op, rs1, hcls, hsize, hea, hx⟩ | ⟨rs1, rfl, hx⟩
  · rw [hcls, hsize, hea] at hu ⊢
    rw [hx] at h
    simp only [cbmAccess, hu] at h
    split at h
    next c g ha => cases h; exact .inl ⟨c, g, ha, rfl⟩
    next => cases h
    next pa ha =>
      split at h
      next hn => cases h; exact .inr (.inl ⟨pa, ha, hn, rfl⟩)
      next => cases h; exact .inr (.inr rfl)
  · simp only [classOf, accessSize, eaOf] at hu ⊢
    rw [hx] at h
    simp only [cbzAccess, hu] at h
    split at h
    next c g ha => cases h; exact .inl ⟨c, g, ha, rfl⟩
    next => cases h
    next pa ha =>
      split at h
      next hn => cases h; exact .inr (.inl ⟨pa, ha, hn, rfl⟩)
      next => cases h; exact .inr (.inr rfl)

/-! ### The page fault of the leaf entry -/

/-- Without a leaf entry's permission a management or zero instruction takes the store page fault (R174, R175). -/
theorem exec_of_pageDenied {i : Instr} {s : State} {ppage gpage : Nat} {pte gpte : Option Pte} (hg : gateOf i ≠ none)
    (he : Enabled i s) (hu : Untriggered i s) (ht : Translated i s ppage gpage pte gpte) (hp : ¬ PageGrants i s pte) :
    exec i s = .next (raiseFault .storePageFault none (eaOf s i) (accessSize s.cfg i) s) :=
  exec_of_trap hg he hu (accessCheck_pageFault ht hp)

/-- With it, it takes none (R174, R175). -/
theorem no_pageFault_of_pageGrants {i : Instr} {s t : State} {ppage gpage : Nat} {pte gpte : Option Pte} {r : TrapRecord}
    (hg : gateOf i ≠ none) (he : Enabled i s) (hu : Untriggered i s) (ht : Translated i s ppage gpage pte gpte)
    (hp : PageGrants i s pte) (h : exec i s = .next t) (hr : t.traps = s.traps ++ [r]) : r.cause ≠ .storePageFault := by
  rcases exec_checked_cases hg he hu h with ⟨c, g, ha, rfl⟩ | ⟨pa, -, -, rfl⟩ | hsame
  · obtain rfl : faultRecord s c g (eaOf s i) (accessSize s.cfg i) = r := by simpa using hr
    rcases accessCheck_trap_cases ht ha with ⟨-, hn⟩ | ⟨rfl, -⟩ | ⟨rfl, -⟩
    · exact absurd hp hn
    · simp [faultRecord]
    · simp [faultRecord]
  · obtain rfl : faultRecord s .storeAccessFault none (eaOf s i) (accessSize s.cfg i) = r := by simpa using hr
    simp [faultRecord]
  · simp [hsame] at hr

/-- An instruction of the management class is gated, and accesses a block of `CBS_M` bytes (R6, R168). -/
theorem gated_of_cbm {i : Instr} (cfg : Config) (h : classOf i = .cbm) : gateOf i ≠ none ∧ accessSize cfg i = cbsM cfg := by
  cases i <;> simp [classOf, gateOf, accessSize] at h ⊢

/-- What a management instruction asks of a leaf entry (R174). -/
theorem pageGrants_cbm_iff {i : Instr} {s : State} {p : Pte} (h : classOf i = .cbm) :
    PageGrants i s (some p) ↔
      legalXwr p = true ∧ (p.r = true ∨ p.w = true ∨ p.x = true) ∧ userOk s.hart.csr (effPriv s.hart) p = true := by
  simp [pageGrants_iff, pageOk, permits, h, and_assoc, or_assoc]

/-- What `CBO.ZERO` asks of a leaf entry (R175). -/
theorem pageGrants_zero_iff {rs1 : Reg} {s : State} {p : Pte} :
    PageGrants (.cboZero rs1) s (some p) ↔
      legalXwr p = true ∧ p.w = true ∧ userOk s.hart.csr (effPriv s.hart) p = true := by
  simp [pageGrants_iff, pageOk, permits, classOf, and_assoc]

/-- Settles O14: the leaf entry's test is the first that can fault once translation has completed, and no other gives a page fault. -/
theorem managementPagePermission : Obligations.ManagementPagePermission := by
  intro i s ppage gpage p gpte hcls he hu ht
  obtain ⟨hg, hsize⟩ := gated_of_cbm s.cfg hcls
  have hok := pageGrants_cbm_iff (s := s) (p := p) hcls
  rw [← hsize]
  exact ⟨fun hp => exec_of_pageDenied hg he hu ht (mt hok.1 hp),
    fun hp t h r hr => no_pageFault_of_pageGrants hg he hu ht (hok.2 hp) h hr⟩

/-- Settles O15, as O14 with the permission that `CBO.ZERO` asks. -/
theorem zeroPagePermission : Obligations.ZeroPagePermission := by
  intro rs1 s ppage gpage p gpte he hu ht
  have hg : gateOf (.cboZero rs1) ≠ none := by simp [gateOf]
  exact ⟨fun hp => exec_of_pageDenied hg he hu ht (mt pageGrants_zero_iff.1 hp),
    fun hp t h r hr => no_pageFault_of_pageGrants hg he hu ht (pageGrants_zero_iff.2 hp) h hr⟩

/-! ### The access fault of the block -/

/-- What `CBO.ZERO` asks of its block (R187). -/
theorem blockGranted_zero_iff {rs1 : Reg} {s : State} {pa : Nat} :
    BlockGranted (.cboZero rs1) s pa ↔ ∀ a ∈ block pa (cbsZ s.cfg), (joint s.cfg s.hart (effPriv s.hart) a).w = true :=
  Iff.rfl

/-- The physical address of a granted access lies in the page that translation gives. -/
theorem Granted.pa_eq {i : Instr} {s : State} {pa ppage gpage : Nat} {pte gpte : Option Pte} (h : Granted i s pa)
    (ht : Translated i s ppage gpage pte gpte) : pa = inPage ppage (eaOf s i) := by
  obtain ⟨ppage', _, _, _, ht', -, -, rfl, -, -⟩ := h
  cases (show WalkResult.done .. = .done .. from ht'.symm.trans ht)
  rfl

/-- Settles O20: the joint permissions are the last test that can fault, the platform's own fault on uncacheable locations aside. -/
theorem zeroAccessPermission : Obligations.ZeroAccessPermission := by
  intro rs1 s ppage gpage pte gpte he hu ht hp hgs
  have hg : gateOf (.cboZero rs1) ≠ none := by simp [gateOf]
  refine ⟨fun hb => exec_of_trap hg he hu (accessCheck_accessFault ht hp hgs (mt blockGranted_zero_iff.1 hb)), fun hb hc t h => ?_⟩
  rcases exec_checked_cases hg he hu h with ⟨c, g, ha, -⟩ | ⟨pa, hgr, hn, -⟩ | hsame
  · rcases accessCheck_trap_cases ht ha with ⟨-, hn⟩ | ⟨-, hn⟩ | ⟨-, hn⟩
    · exact absurd hp hn
    · exact absurd hgs hn
    · exact absurd (blockGranted_zero_iff.2 hb) hn
  · rw [hgr.pa_eq ht] at hn
    exact absurd hn (Bool.eq_false_iff.1 (uncachedFault_eq_false hc))
  · exact hsame

end Sys2Proof.Machine
end

section
/-!
SUPPORT. The `MXR` bits have no effect (R179): every check, every operation and trap entry commute with writing bit 19 of `mstatus`
and of `vsstatus`.
-/

namespace Sys2Proof.Machine

/-! ### Writes of different bits commute -/

theorem eq_of_getBit {w w' : Word} (h : ∀ m, getBit w m = getBit w' m) : w = w' :=
  BitVec.eq_of_getLsbD_eq fun m _ => h m

theorem setBit_comm (w : Word) {n m : Nat} (b c : Bool) (hn : n < 64) (hm : m < 64) (h : n ≠ m) :
    setBit (setBit w n b) m c = setBit (setBit w m c) n b := by
  refine eq_of_getBit fun k => ?_
  simp only [getBit_setBit _ _ _ hn, getBit_setBit _ _ _ hm]
  by_cases hk : k = n
  · rw [if_pos hk, if_pos hk, if_neg (by omega)]
  · rw [if_neg hk, if_neg hk]

theorem setField2_setBit (w : Word) {lo n : Nat} (v : BitVec 2) (b : Bool) (hlo : lo + 1 < 64) (hn : n < 64)
    (h : n < lo ∨ lo + 2 ≤ n) : setField2 (setBit w n b) lo v = setBit (setField2 w lo v) n b := by
  refine eq_of_getBit fun k => ?_
  simp only [getBit_setBit _ _ _ hn, getBit_setField2 _ _ _ hlo]
  by_cases hk : k = n
  · rw [if_pos hk, if_pos hk, if_neg (by omega)]
  · rw [if_neg hk, if_neg hk]

/-! ### The state with other `MXR` bits -/

/-- The registers with `MXR` of `mstatus` set to `b` and that of `vsstatus` to `b'`. -/
def Csrs.withMxr (b b' : Bool) (c : Csrs) : Csrs :=
  { c with mstatus := setBit c.mstatus 19 b, vsstatus := setBit c.vsstatus 19 b' }

/-- The hart with these `MXR` bits. -/
def Hart.withMxr (b b' : Bool) (h : Hart) : Hart :=
  { h with csr := h.csr.withMxr b b' }

/-- The state with these `MXR` bits in the executing hart. -/
def State.withMxr (b b' : Bool) (s : State) : State :=
  { s with hart := s.hart.withMxr b b' }

/-- An outcome with a function applied to its next state. -/
def mapNext (f : State → State) : Host.Outcome State Fault Refusal → Host.Outcome State Fault Refusal
  | .next t => .next (f t)
  | .fault e => .fault e
  | .refused r => .refused r

section MxrBits

variable (b b' : Bool)

theorem getBit_setMxr (w : Word) {m : Nat} (h : m ≠ 19) : getBit (setBit w 19 b) m = getBit w m := by
  rw [getBit_setBit _ _ _ (by decide), if_neg h]

/-! ### The checks -/

/-- `MPRV`, `MPP` and `MPV` are other bits (R24, R171). -/
@[simp] theorem effPriv_withMxr (h : Hart) : effPriv (h.withMxr b b') = effPriv h := by
  have hmpp : getField2 (setBit h.csr.mstatus 19 b) 11 = getField2 h.csr.mstatus 11 :=
    getField2_setBit _ _ (by decide) (by decide)
  have hbit := fun m => getBit_setMxr b h.csr.mstatus (m := m)
  simp only [effPriv, mprv, mpp, mpv, Hart.withMxr, Csrs.withMxr, hmpp, hbit 17 (by decide), hbit 39 (by decide)]
  rfl

/-- `SUM` is another bit (R180). -/
@[simp] theorem userOk_withMxr (c : Csrs) (m : Mode) (p : Pte) : userOk (c.withMxr b b') m p = userOk c m p := by
  cases m with
  | M => rfl
  | U => rfl
  | VU => rfl
  | S => simp only [userOk, statusSum, Csrs.withMxr, getBit_setMxr _ _ (show 18 ≠ 19 by decide)]
  | VS => simp only [userOk, statusSum, Csrs.withMxr, getBit_setMxr _ _ (show 18 ≠ 19 by decide)]

@[simp] theorem pageOk_withMxr (cfg : Config) (c : Csrs) (m : Mode) (cls : AccessClass) :
    pageOk cfg (c.withMxr b b') m cls = pageOk cfg c m cls := by
  funext p
  simp only [pageOk, userOk_withMxr]

/-- The checks of an access read the registers through the effective mode and the user-access test only. -/
@[simp] theorem accessCheck_withMxr (cfg : Config) (h : Hart) (cls : AccessClass) (size : Nat) (ea : Word) :
    accessCheck cfg (h.withMxr b b') cls size ea = accessCheck cfg h cls size ea := by
  unfold accessCheck
  rw [effPriv_withMxr, show (h.withMxr b b').csr = h.csr.withMxr b b' from rfl]
  simp only [pageOk_withMxr]
  rfl

@[simp] theorem prefetchCheck_withMxr (cfg : Config) (h : Hart) (k : PrefetchKind) (ea : Word) :
    prefetchCheck cfg (h.withMxr b b') k ea = prefetchCheck cfg h k ea := by
  unfold prefetchCheck
  rw [effPriv_withMxr, show (h.withMxr b b').csr = h.csr.withMxr b b' from rfl]
  simp only [pageOk_withMxr]
  rfl

/-! ### Trap entry -/

/-- A write of another bit commutes with that of `MXR`. -/
theorem setBit_setMxr (w : Word) {n : Nat} (c : Bool) (hn : n < 64) (h : n ≠ 19) :
    setBit (setBit w 19 b) n c = setBit (setBit w n c) 19 b :=
  setBit_comm w b c (by decide) hn h.symm

/-- Trap entry to M-mode writes other fields of `mstatus` and reads none of `MXR` (R201). -/
theorem mstatusOnTrap_setMxr (hyp : Bool) (m : Mode) (gva : Bool) (w : Word) :
    mstatusOnTrap hyp m gva (setBit w 19 b) = setBit (mstatusOnTrap hyp m gva w) 19 b := by
  have hmie := getBit_setMxr b w (m := 3) (by decide)
  have hmpp := setField2_setBit w (lo := 11) (n := 19) (level m) b (by decide) (by decide) (by decide)
  have hcomm := fun v n => setBit_setMxr b v (n := n)
  simp only [mstatusOnTrap, hmie, hmpp, hcomm _ 7 _ (by decide) (by decide), hcomm _ 3 _ (by decide) (by decide),
    hcomm _ 39 _ (by decide) (by decide), hcomm _ 38 _ (by decide) (by decide)]
  cases hyp <;> rfl

/-- Trap entry to a supervisor mode likewise (R201). -/
theorem sstatusOnTrap_setMxr (m : Mode) (w : Word) : sstatusOnTrap m (setBit w 19 b) = setBit (sstatusOnTrap m w) 19 b := by
  have hsie := getBit_setMxr b w (m := 1) (by decide)
  have hcomm := fun v n => setBit_setMxr b v (n := n)
  simp only [sstatusOnTrap, hsie, hcomm _ 8 _ (by decide) (by decide), hcomm _ 5 _ (by decide) (by decide),
    hcomm _ 1 _ (by decide) (by decide)]

theorem enterM_withMxr (cfg : Config) (n : Nat) (r : TrapRecord) (h : Hart) :
    enterM cfg n r (h.withMxr b b') = (enterM cfg n r h).withMxr b b' := by
  simp only [enterM, Hart.withMxr, Csrs.withMxr, mstatusOnTrap_setMxr]

theorem enterS_withMxr (cfg : Config) (n : Nat) (r : TrapRecord) (h : Hart) :
    enterS cfg n r (h.withMxr b b') = (enterS cfg n r h).withMxr b b' := by
  simp only [enterS, Hart.withMxr, Csrs.withMxr, sstatusOnTrap_setMxr]

theorem enterVS_withMxr (cfg : Config) (r : TrapRecord) (h : Hart) :
    enterVS cfg r (h.withMxr b b') = (enterVS cfg r h).withMxr b b' := by
  simp only [enterVS, Hart.withMxr, Csrs.withMxr, sstatusOnTrap_setMxr]

/-- Trap entry goes to the same mode, and keeps both bits. -/
theorem trapEntry_withMxr (cfg : Config) (n : Nat) (r : TrapRecord) (h : Hart) :
    trapEntry cfg n r (h.withMxr b b') = (trapEntry cfg n r h).withMxr b b' := by
  have htarget : trapTarget cfg (h.withMxr b b') r.cause = trapTarget cfg h r.cause := rfl
  unfold trapEntry
  rw [htarget]
  cases trapTarget cfg h r.cause with
  | S => exact enterS_withMxr b b' cfg n r h
  | VS => exact enterVS_withMxr b b' cfg r h
  | M => exact enterM_withMxr b b' cfg n r h
  | U => exact enterM_withMxr b b' cfg n r h
  | VU => exact enterM_withMxr b b' cfg n r h

/-- The same trap record is taken. -/
theorem takeTrap_withMxr (r : TrapRecord) (s : State) : takeTrap r (s.withMxr b b') = (takeTrap r s).withMxr b b' := by
  unfold takeTrap
  rw [show (s.withMxr b b').hart = s.hart.withMxr b b' from rfl, trapEntry_withMxr]
  rfl

@[simp] theorem raiseIllegal_withMxr (w : InstrWord) (s : State) : raiseIllegal w (s.withMxr b b') = (raiseIllegal w s).withMxr b b' :=
  takeTrap_withMxr b b' (illegalRecord s w) s

@[simp] theorem raiseFault_withMxr (c : Cause) (g : Option Nat) (ea : Word) (n : Nat) (s : State) :
    raiseFault c g ea n (s.withMxr b b') = (raiseFault c g ea n s).withMxr b b' := by
  have hrec : faultRecord (s.withMxr b b') c g ea n = faultRecord s c g ea n := by
    unfold faultRecord
    rw [show (s.withMxr b b').hart = s.hart.withMxr b b' from rfl, effPriv_withMxr]
    rfl
  unfold raiseFault
  rw [hrec, takeTrap_withMxr]

/-! ### The instructions -/

@[simp] theorem withMxr_cfg (s : State) : (s.withMxr b b').cfg = s.cfg := rfl
@[simp] theorem withMxr_hart (s : State) : (s.withMxr b b').hart = s.hart.withMxr b b' := rfl
@[simp] theorem eaCbo_withMxr (s : State) (rs1 : Reg) : eaCbo (s.withMxr b b') rs1 = eaCbo s rs1 := rfl
@[simp] theorem eaPrefetch_withMxr (s : State) (rs1 : Reg) (offset : Int) :
    eaPrefetch (s.withMxr b b') rs1 offset = eaPrefetch s rs1 offset := rfl
@[simp] theorem cmoTags_withMxr (h : Hart) (rs1 : Reg) : cmoTags (h.withMxr b b') rs1 = cmoTags h rs1 := rfl
@[simp] theorem cmoEnable_withMxr (cfg : Config) (h : Hart) (g : Gated) : cmoEnable cfg (h.withMxr b b') g = cmoEnable cfg h g := rfl
@[simp] theorem triggerCheck_withMxr (cfg : Config) (h : Hart) (cls : AccessClass) (ea : Word) (size : Nat) :
    triggerCheck cfg (h.withMxr b b') cls ea size = triggerCheck cfg h cls ea size := rfl
@[simp] theorem retire_withMxr (s : State) : retire (s.withMxr b b') = (retire s).withMxr b b' := rfl
@[simp] theorem performOp_withMxr (op : BlockOp) (pa : Nat) (tags : Tags) (s : State) :
    performOp op pa tags (s.withMxr b b') = (performOp op pa tags s).withMxr b b' := rfl
@[simp] theorem performZero_withMxr (pa : Nat) (tags : Tags) (s : State) :
    performZero pa tags (s.withMxr b b') = (performZero pa tags s).withMxr b b' := rfl
@[simp] theorem hint_withMxr (pa : Nat) (s : State) : hint pa (s.withMxr b b') = (hint pa s).withMxr b b' := rfl

@[simp] theorem mapNext_next (f : State → State) (t : State) : mapNext f (.next t) = .next (f t) := rfl
@[simp] theorem mapNext_refused (f : State → State) (r : Refusal) : mapNext f (.refused r) = .refused r := rfl

/-- A management instruction from the trigger check on: the same answers of the checks, and the same outcome with the other bits. -/
theorem cbmAccess_withMxr (op : BlockOp) (rs1 : Reg) (s : State) :
    cbmAccess op rs1 (s.withMxr b b') = mapNext (State.withMxr b b') (cbmAccess op rs1 s) := by
  cases htr : triggerCheck s.cfg s.hart .cbm (eaCbo s rs1) (cbsM s.cfg) with
  | unspecified => simp [cbmAccess, htr]
  | breakpoint => simp [cbmAccess, htr]
  | pass =>
    cases hac : accessCheck s.cfg s.hart .cbm (cbsM s.cfg) (eaCbo s rs1) with
    | trap c g => simp [cbmAccess, htr, hac]
    | pmaUnspecified => simp [cbmAccess, htr, hac]
    | granted pa => cases hun : uncachedFault s.cfg pa <;> simp [cbmAccess, htr, hac, hun]

/-- `CBO.ZERO` from the trigger check on. -/
theorem cbzAccess_withMxr (rs1 : Reg) (s : State) :
    cbzAccess rs1 (s.withMxr b b') = mapNext (State.withMxr b b') (cbzAccess rs1 s) := by
  cases htr : triggerCheck s.cfg s.hart .cbz (eaCbo s rs1) (cbsZ s.cfg) with
  | unspecified => simp [cbzAccess, htr]
  | breakpoint => simp [cbzAccess, htr]
  | pass =>
    cases hac : accessCheck s.cfg s.hart .cbz (cbsZ s.cfg) (eaCbo s rs1) with
    | trap c g => simp [cbzAccess, htr, hac]
    | pmaUnspecified => simp [cbzAccess, htr, hac]
    | granted pa => cases hun : uncachedFault s.cfg pa <;> simp [cbzAccess, htr, hac, hun]

theorem prefetch_withMxr (k : PrefetchKind) (rs1 : Reg) (offset : Int) (s : State) :
    prefetch k rs1 offset (s.withMxr b b') = mapNext (State.withMxr b b') (prefetch k rs1 offset s) := by
  cases htr : triggerCheck s.cfg s.hart (.pf k) (eaPrefetch s rs1 offset) (cbsM s.cfg) with
  | unspecified => simp [prefetch, htr]
  | breakpoint => simp [prefetch, htr]
  | pass => cases hpc : prefetchCheck s.cfg s.hart k (eaPrefetch s rs1 offset) <;> simp [prefetch, htr, hpc]

/-- An instruction does in the state with other `MXR` bits what it does in the state, and leaves them as they are (R179). -/
theorem exec_withMxr (i : Instr) (s : State) : exec i (s.withMxr b b') = mapNext (State.withMxr b b') (exec i s) := by
  cases i with
  | cboInval rs1 => cases hc : cmoEnable s.cfg s.hart .inval <;> simp [exec, execCboInval, hc, cbmAccess_withMxr]
  | cboClean rs1 => cases hc : cmoEnable s.cfg s.hart .clean <;> simp [exec, execCboClean, hc, cbmAccess_withMxr]
  | cboFlush rs1 => cases hc : cmoEnable s.cfg s.hart .flush <;> simp [exec, execCboFlush, hc, cbmAccess_withMxr]
  | cboZero rs1 => cases hc : cmoEnable s.cfg s.hart .zero <;> simp [exec, execCboZero, hc, cbzAccess_withMxr]
  | prefetchI rs1 offset => exact prefetch_withMxr b b' .I rs1 offset s
  | prefetchR rs1 offset => exact prefetch_withMxr b b' .R rs1 offset s
  | prefetchW rs1 offset => exact prefetch_withMxr b b' .W rs1 offset s

end MxrBits

/-- Settles O24: execution commutes with writing the two bits. -/
theorem mxrHasNoEffect : Obligations.MxrHasNoEffect := by
  intro i s b b'
  have h := exec_withMxr b b' i s
  refine ⟨fun t ht => ?_, fun r hr => ?_⟩
  · rw [ht] at h
    exact h
  · rw [hr] at h
    exact h

end Sys2Proof.Machine
end

section
/-!
SUPPORT. The instruction word as six fields, what the decoder makes of the fields (R101 to R106, R110), and the round trip between
instructions and their words.
-/

namespace Sys2Proof.Machine

/-! ### The fields of a word -/

/-- A word by the fields that both formats share: bits 31 to 25, 24 to 20, `rs1`, `funct3`, `rd` and `opcode` (R101, R102). -/
def fieldsWord (hi : BitVec 7) (mid rs1 : BitVec 5) (funct3 : BitVec 3) (rd : BitVec 5) (opcode : BitVec 7) : InstrWord :=
  hi ++ mid ++ rs1 ++ funct3 ++ rd ++ opcode

/-- Every word is the word of its fields. -/
theorem word_eq_fieldsWord (w : InstrWord) :
    w = fieldsWord (w.extractLsb' 25 7) (w.extractLsb' 20 5) (w.extractLsb' 15 5) (w.extractLsb' 12 3) (w.extractLsb' 7 5)
      (w.extractLsb' 0 7) := by
  unfold fieldsWord
  rw [BitVec.extractLsb'_append_extractLsb'_eq_extractLsb' (by decide), BitVec.extractLsb'_append_extractLsb'_eq_extractLsb' (by decide),
    BitVec.extractLsb'_append_extractLsb'_eq_extractLsb' (by decide), BitVec.extractLsb'_append_extractLsb'_eq_extractLsb' (by decide),
    BitVec.extractLsb'_append_extractLsb'_eq_extractLsb' (by decide)]
  exact BitVec.extractLsb'_eq_self.symm

/-- A mask acts on each field. -/
theorem fieldsWord_and (hi hi' : BitVec 7) (mid mid' rs1 rs1' : BitVec 5) (f f' : BitVec 3) (rd rd' : BitVec 5) (op op' : BitVec 7) :
    fieldsWord hi mid rs1 f rd op &&& fieldsWord hi' mid' rs1' f' rd' op' =
      fieldsWord (hi &&& hi') (mid &&& mid') (rs1 &&& rs1') (f &&& f') (rd &&& rd') (op &&& op') := by
  have h : (hi ++ mid ++ rs1 ++ f ++ rd ++ op) &&& (hi' ++ mid' ++ rs1' ++ f' ++ rd' ++ op') =
      (hi &&& hi') ++ (mid &&& mid') ++ (rs1 &&& rs1') ++ (f &&& f') ++ (rd &&& rd') ++ (op &&& op') := by
    simp only [BitVec.and_append]
  exact h

theorem append_inj {n m : Nat} {a a' : BitVec n} {b b' : BitVec m} : a ++ b = a' ++ b' ↔ a = a' ∧ b = b' := by
  constructor
  · intro h
    exact ⟨by simpa only [BitVec.extractLsb'_append_eq_left] using congrArg (BitVec.extractLsb' m n) h,
      by simpa only [BitVec.extractLsb'_append_eq_right] using congrArg (BitVec.extractLsb' 0 m) h⟩
  · rintro ⟨rfl, rfl⟩; rfl

/-- Words are equal exactly when their fields are. -/
theorem fieldsWord_inj {hi hi' : BitVec 7} {mid mid' rs1 rs1' : BitVec 5} {f f' : BitVec 3} {rd rd' : BitVec 5} {op op' : BitVec 7} :
    fieldsWord hi mid rs1 f rd op = fieldsWord hi' mid' rs1' f' rd' op' ↔
      hi = hi' ∧ mid = mid' ∧ rs1 = rs1' ∧ f = f' ∧ rd = rd' ∧ op = op' := by
  have h : hi ++ mid ++ rs1 ++ f ++ rd ++ op = hi' ++ mid' ++ rs1' ++ f' ++ rd' ++ op' ↔
      hi = hi' ∧ mid = mid' ∧ rs1 = rs1' ∧ f = f' ∧ rd = rd' ∧ op = op' := by
    simp only [append_inj, and_assoc]
  exact h

theorem rs1Of_fieldsWord (hi : BitVec 7) (mid rs1 : BitVec 5) (f : BitVec 3) (rd : BitVec 5) (op : BitVec 7) :
    rs1Of (fieldsWord hi mid rs1 f rd op) = rs1.toFin := by
  have h := (fieldsWord_inj.1 (word_eq_fieldsWord (fieldsWord hi mid rs1 f rd op))).2.2.1
  rw [rs1Of, ← h]

theorem offsetOf_fieldsWord (hi : BitVec 7) (mid rs1 : BitVec 5) (f : BitVec 3) (rd : BitVec 5) (op : BitVec 7) :
    offsetOf (fieldsWord hi mid rs1 f rd op) = hi.toInt * 32 := by
  have h := (fieldsWord_inj.1 (word_eq_fieldsWord (fieldsWord hi mid rs1 f rd op))).1
  rw [offsetOf, ← h]

/-! ### The mask and match values as fields (R103) -/

theorem cboMask_fields : cboMask = fieldsWord 127#7 31#5 0#5 7#3 31#5 127#7 := by decide

theorem prefetchMask_fields : prefetchMask = fieldsWord 0#7 31#5 0#5 7#3 31#5 127#7 := by decide

theorem and_ones7 (a : BitVec 7) : a &&& 127#7 = a := BitVec.and_allOnes
theorem and_ones5 (a : BitVec 5) : a &&& 31#5 = a := BitVec.and_allOnes
theorem and_ones3 (a : BitVec 3) : a &&& 7#3 = a := BitVec.and_allOnes

/-- The test for a row of the CBO format: the fields beside `rs1` are the row's. -/
theorem and_cboMask_iff (hi hi' : BitVec 7) (mid mid' rs1 : BitVec 5) (f f' : BitVec 3) (rd rd' : BitVec 5) (op op' : BitVec 7) :
    fieldsWord hi mid rs1 f rd op &&& cboMask = fieldsWord hi' mid' 0#5 f' rd' op' ↔
      hi = hi' ∧ mid = mid' ∧ f = f' ∧ rd = rd' ∧ op = op' := by
  rw [cboMask_fields, fieldsWord_and, fieldsWord_inj]
  simp only [and_ones7, and_ones5, and_ones3, BitVec.and_zero, true_and]

/-- The test for a row of the PREFETCH format: the fields beside the offset and `rs1` are the row's. -/
theorem and_prefetchMask_iff (hi : BitVec 7) (mid mid' rs1 : BitVec 5) (f f' : BitVec 3) (rd rd' : BitVec 5) (op op' : BitVec 7) :
    fieldsWord hi mid rs1 f rd op &&& prefetchMask = fieldsWord 0#7 mid' 0#5 f' rd' op' ↔
      mid = mid' ∧ f = f' ∧ rd = rd' ∧ op = op' := by
  rw [prefetchMask_fields, fieldsWord_and, fieldsWord_inj]
  simp only [and_ones7, and_ones5, and_ones3, BitVec.and_zero, true_and]

/-- The test for the CBO space: `funct3` and `opcode` (R105). -/
theorem and_cboSpace_iff (hi : BitVec 7) (mid rs1 : BitVec 5) (f : BitVec 3) (rd : BitVec 5) (op : BitVec 7) :
    fieldsWord hi mid rs1 f rd op &&& 0x0000707F#32 = 0x0000200F#32 ↔ f = 2#3 ∧ op = 15#7 := by
  rw [show 0x0000707F#32 = fieldsWord 0#7 0#5 0#5 7#3 0#5 127#7 by decide,
    show 0x0000200F#32 = fieldsWord 0#7 0#5 0#5 2#3 0#5 15#7 by decide, fieldsWord_and, fieldsWord_inj]
  simp only [and_ones7, and_ones3, BitVec.and_zero, true_and]

/-- The test for `ORI` with destination `x0` (R106). -/
theorem and_oriSpace_iff (hi : BitVec 7) (mid rs1 : BitVec 5) (f : BitVec 3) (rd : BitVec 5) (op : BitVec 7) :
    fieldsWord hi mid rs1 f rd op &&& 0x00007FFF#32 = 0x00006013#32 ↔ f = 6#3 ∧ rd = 0#5 ∧ op = 19#7 := by
  rw [show 0x00007FFF#32 = fieldsWord 0#7 0#5 0#5 7#3 31#5 127#7 by decide,
    show 0x00006013#32 = fieldsWord 0#7 0#5 0#5 6#3 0#5 19#7 by decide, fieldsWord_and, fieldsWord_inj]
  simp only [and_ones7, and_ones5, and_ones3, BitVec.and_zero, true_and]

/-! ### The decoder on the fields -/

/-- The decoder's tests as tests of the fields, in its order (R110). -/
theorem decode_fieldsWord (hi : BitVec 7) (mid rs1 : BitVec 5) (f : BitVec 3) (rd : BitVec 5) (op : BitVec 7) :
    decode (fieldsWord hi mid rs1 f rd op) =
      if hi = 0#7 ∧ mid = 0#5 ∧ f = 2#3 ∧ rd = 0#5 ∧ op = 15#7 then .cmo (.cboInval rs1.toFin)
      else if hi = 0#7 ∧ mid = 1#5 ∧ f = 2#3 ∧ rd = 0#5 ∧ op = 15#7 then .cmo (.cboClean rs1.toFin)
      else if hi = 0#7 ∧ mid = 2#5 ∧ f = 2#3 ∧ rd = 0#5 ∧ op = 15#7 then .cmo (.cboFlush rs1.toFin)
      else if hi = 0#7 ∧ mid = 4#5 ∧ f = 2#3 ∧ rd = 0#5 ∧ op = 15#7 then .cmo (.cboZero rs1.toFin)
      else if mid = 0#5 ∧ f = 6#3 ∧ rd = 0#5 ∧ op = 19#7 then .cmo (.prefetchI rs1.toFin (hi.toInt * 32))
      else if mid = 1#5 ∧ f = 6#3 ∧ rd = 0#5 ∧ op = 19#7 then .cmo (.prefetchR rs1.toFin (hi.toInt * 32))
      else if mid = 3#5 ∧ f = 6#3 ∧ rd = 0#5 ∧ op = 19#7 then .cmo (.prefetchW rs1.toFin (hi.toInt * 32))
      else if f = 2#3 ∧ op = 15#7 then .reservedCbo
      else if f = 6#3 ∧ rd = 0#5 ∧ op = 19#7 then .oriHint
      else if fieldsWord hi mid rs1 f rd op &&& 0xF000707F#32 = 0x0000000F#32 then
        .fence ((fieldsWord hi mid rs1 f rd op).extractLsb' 24 4) ((fieldsWord hi mid rs1 f rd op).extractLsb' 20 4)
      else .notCmo := by
  unfold decode
  simp only [and_cboSpace_iff, and_oriSpace_iff, rs1Of_fieldsWord, offsetOf_fieldsWord]
  rw [show 0x0000200F#32 = fieldsWord 0#7 0#5 0#5 2#3 0#5 15#7 by decide,
    show 0x0010200F#32 = fieldsWord 0#7 1#5 0#5 2#3 0#5 15#7 by decide,
    show 0x0020200F#32 = fieldsWord 0#7 2#5 0#5 2#3 0#5 15#7 by decide,
    show 0x0040200F#32 = fieldsWord 0#7 4#5 0#5 2#3 0#5 15#7 by decide,
    show 0x00006013#32 = fieldsWord 0#7 0#5 0#5 6#3 0#5 19#7 by decide,
    show 0x00106013#32 = fieldsWord 0#7 1#5 0#5 6#3 0#5 19#7 by decide,
    show 0x00306013#32 = fieldsWord 0#7 3#5 0#5 6#3 0#5 19#7 by decide]
  simp only [and_cboMask_iff, and_prefetchMask_iff]

/-! ### The words of the instructions as fields -/

/-- The words of the CBO format (R101). -/
theorem cboWord_fields (mid : BitVec 5) (rs1 : Reg) :
    cboWord (0#7 ++ mid) rs1 = fieldsWord 0#7 mid (BitVec.ofFin rs1) 2#3 0#5 15#7 := rfl

/-- The words of the PREFETCH format (R102). -/
theorem prefetchWord_fields (pfop : BitVec 5) (rs1 : Reg) (offset : Int) :
    prefetchWord pfop rs1 offset = fieldsWord (BitVec.ofInt 7 (offset / 32)) pfop (BitVec.ofFin rs1) 6#3 0#5 19#7 := rfl

/-- The offset a PREFETCH word can hold is read back (R104). -/
theorem toInt_ofInt_of_offsetOk {offset : Int} (h : offsetOk offset = true) : (BitVec.ofInt 7 (offset / 32)).toInt * 32 = offset := by
  simp only [offsetOk, Bool.and_eq_true, decide_eq_true_eq] at h
  rw [BitVec.toInt_ofInt_eq_self (by decide) (by omega) (by omega)]
  omega

/-- Every offset that is read from a word is one it can hold. -/
theorem offsetOk_toInt (hi : BitVec 7) : offsetOk (hi.toInt * 32) = true := by
  have h1 := BitVec.le_toInt hi
  have h2 := BitVec.toInt_lt (x := hi)
  simp only [offsetOk, Bool.and_eq_true, decide_eq_true_eq]
  omega

/-- Settles O1: each row's fields pass the row's test and no earlier one. -/
theorem decodeInvertsEncode : Obligations.DecodeInvertsEncode := by
  intro i hi
  cases i with
  | cboInval rs1 => rw [encode, show 0x000#12 = 0#7 ++ 0#5 from rfl, cboWord_fields, decode_fieldsWord]; rfl
  | cboClean rs1 => rw [encode, show 0x001#12 = 0#7 ++ 1#5 from rfl, cboWord_fields, decode_fieldsWord]; rfl
  | cboFlush rs1 => rw [encode, show 0x002#12 = 0#7 ++ 2#5 from rfl, cboWord_fields, decode_fieldsWord]; rfl
  | cboZero rs1 => rw [encode, show 0x004#12 = 0#7 ++ 4#5 from rfl, cboWord_fields, decode_fieldsWord]; rfl
  | prefetchI rs1 offset => rw [encode, prefetchWord_fields, decode_fieldsWord, toInt_ofInt_of_offsetOk hi]; simp
  | prefetchR rs1 offset => rw [encode, prefetchWord_fields, decode_fieldsWord, toInt_ofInt_of_offsetOk hi]; simp
  | prefetchW rs1 offset => rw [encode, prefetchWord_fields, decode_fieldsWord, toInt_ofInt_of_offsetOk hi]; simp

/-- The word of a prefetch whose offset and register are read from fields has those fields. -/
theorem prefetchWord_of_fields (pfop rs1 : BitVec 5) (hi : BitVec 7) :
    prefetchWord pfop rs1.toFin (hi.toInt * 32) = fieldsWord hi pfop rs1 6#3 0#5 19#7 := by
  rw [prefetchWord_fields, Int.mul_ediv_cancel _ (by decide), BitVec.ofInt_toInt]

/-- Settles O2: the fields of a word that passes a row's test are those of the row's word. -/
theorem encodeInvertsDecode : Obligations.EncodeInvertsDecode := by
  intro w i
  rw [word_eq_fieldsWord w]
  generalize w.extractLsb' 25 7 = hi, w.extractLsb' 20 5 = mid, w.extractLsb' 15 5 = rs1, w.extractLsb' 12 3 = f,
    w.extractLsb' 7 5 = rd, w.extractLsb' 0 7 = op
  rw [decode_fieldsWord]
  intro h
  split at h
  next hf => obtain ⟨rfl, rfl, rfl, rfl, rfl⟩ := hf; cases h; exact ⟨rfl, rfl⟩
  split at h
  next hf => obtain ⟨rfl, rfl, rfl, rfl, rfl⟩ := hf; cases h; exact ⟨rfl, rfl⟩
  split at h
  next hf => obtain ⟨rfl, rfl, rfl, rfl, rfl⟩ := hf; cases h; exact ⟨rfl, rfl⟩
  split at h
  next hf => obtain ⟨rfl, rfl, rfl, rfl, rfl⟩ := hf; cases h; exact ⟨rfl, rfl⟩
  split at h
  next hf => obtain ⟨rfl, rfl, rfl, rfl⟩ := hf; cases h; exact ⟨offsetOk_toInt hi, prefetchWord_of_fields _ rs1 hi⟩
  split at h
  next hf => obtain ⟨rfl, rfl, rfl, rfl⟩ := hf; cases h; exact ⟨offsetOk_toInt hi, prefetchWord_of_fields _ rs1 hi⟩
  split at h
  next hf => obtain ⟨rfl, rfl, rfl, rfl⟩ := hf; cases h; exact ⟨offsetOk_toInt hi, prefetchWord_of_fields _ rs1 hi⟩
  repeat' split at h
  all_goals cases h

/-- Settles O3: the words written out decode as listed. -/
theorem sampleWordsDecode : Obligations.SampleWordsDecode := by
  unfold Obligations.SampleWordsDecode
  decide

/-! ### The bytes of a word -/

/-- The word of four bytes as a number (R80). -/
theorem toNat_wordOfBytes (b0 b1 b2 b3 : Byte) :
    (wordOfBytes b0 b1 b2 b3).toNat = b0.toNat + 2 ^ 8 * b1.toNat + 2 ^ 16 * b2.toNat + 2 ^ 24 * b3.toNat := by
  unfold wordOfBytes
  rw [BitVec.toNat_append, BitVec.toNat_append, BitVec.toNat_append, ← Nat.shiftLeft_add_eq_or_of_lt b2.isLt,
    ← Nat.shiftLeft_add_eq_or_of_lt b1.isLt, ← Nat.shiftLeft_add_eq_or_of_lt b0.isLt]
  simp only [Nat.shiftLeft_eq]
  omega

/-- The bytes of a word are the word's. -/
theorem wordOfBytes_bytesOfWord (w : InstrWord) :
    wordOfBytes (w.extractLsb' 0 8) (w.extractLsb' 8 8) (w.extractLsb' 16 8) (w.extractLsb' 24 8) = w := by
  unfold wordOfBytes
  rw [BitVec.extractLsb'_append_extractLsb'_eq_extractLsb' (by decide), BitVec.extractLsb'_append_extractLsb'_eq_extractLsb' (by decide),
    BitVec.extractLsb'_append_extractLsb'_eq_extractLsb' (by decide)]
  exact BitVec.extractLsb'_eq_self

/-- Settles O4: four bytes are one word, least significant first, and a word is its four bytes. -/
theorem wordsAreLittleEndian : Obligations.WordsAreLittleEndian :=
  ⟨fun b0 b1 b2 b3 _ => ⟨rfl, toNat_wordOfBytes b0 b1 b2 b3⟩, fun w _ => congrArg decode (wordOfBytes_bytesOfWord w)⟩

/-! ### What a hart makes of the words -/

/-- The word of a well-formed instruction, to a hart with or without its extension (R107). -/
theorem decodeFor_encode (cfg : Config) {i : Instr} (hi : i.wf = true) :
    decodeFor cfg (encode i) = if implemented cfg i then .cmo i else absent i := by
  unfold decodeFor
  rw [decodeInvertsEncode i hi]

theorem runWord_of_reserved {w : InstrWord} {s : State} (h : decodeFor s.cfg w = .reservedCbo) :
    runWord w s = .next (raiseIllegal w s) := by
  unfold runWord
  rw [h]
  rfl

theorem runWord_of_hint {w : InstrWord} {s : State} (h : decodeFor s.cfg w = .oriHint) :
    runWord w s = .next { s with hart := { s.hart with pc := nextPc s.cfg s.hart.pc }, tick := s.tick + 1 } := by
  unfold runWord
  rw [h]
  rfl

/-- Settles O5: without its extension an instruction's word is what `absent` says. -/
theorem absentExtensionIsReservedOrNoOp : Obligations.AbsentExtensionIsReservedOrNoOp := by
  intro s i hi
  have hd := decodeFor_encode s.cfg hi
  refine ⟨fun hg hz => runWord_of_reserved ?_, fun hc hm => runWord_of_reserved ?_, fun hg hp => runWord_of_hint ?_⟩
  · cases i <;> simp_all [gateOf, implemented, absent]
  · cases i <;> simp_all [classOf, implemented, absent]
  · cases i <;> simp_all [gateOf, implemented, absent]

/-- A word that is no instruction is the same to every hart. -/
theorem decodeFor_of_not_cmo {cfg : Config} {w : InstrWord} {d : Decoded} (h : decode w = d) (hd : ∀ i, d ≠ .cmo i) :
    decodeFor cfg w = d := by
  unfold decodeFor
  rw [h]
  split
  · exact absurd rfl (hd _)
  · rfl

/-- Settles O6: by its fields such a word passes no row's test, and then the test of its space. -/
theorem reservedAndHintWords : Obligations.ReservedAndHintWords := by
  intro w s
  have hw := word_eq_fieldsWord w
  have hf : w.extractLsb' 20 12 = w.extractLsb' 25 7 ++ w.extractLsb' 20 5 :=
    (BitVec.extractLsb'_append_extractLsb'_eq_extractLsb' (x := w) (start₂ := 25) (start₁ := 20) (len₁ := 5) (len₂ := 7)
      (by decide)).symm
  constructor
  · intro hop hf3 hne
    refine runWord_of_reserved (decodeFor_of_not_cmo ?_ (by simp))
    rw [hf, show 0#12 = 0#7 ++ 0#5 from rfl, show 1#12 = 0#7 ++ 1#5 from rfl, show 2#12 = 0#7 ++ 2#5 from rfl,
      show 4#12 = 0#7 ++ 4#5 from rfl] at hne
    simp only [ne_eq] at hne
    rw [append_inj, append_inj, append_inj, append_inj] at hne
    rw [hw, hop, hf3, decode_fieldsWord, if_neg (by tauto), if_neg (by tauto), if_neg (by tauto), if_neg (by tauto)]
    simp
  · intro hop hf3 hrd h0 h1 h3
    refine runWord_of_hint (decodeFor_of_not_cmo ?_ (by simp))
    rw [hw, hop, hf3, hrd, decode_fieldsWord]
    simp [h0, h1, h3]

end Sys2Proof.Machine
end

section
/-!
SUPPORT. Taking a trap and returning from one: the record, the mode it is taken to, what each status register becomes, and that a return
undoes the entry (R196 to R202).
-/

namespace Sys2Proof.Machine

/-! ### Precision and the record -/

/-- Every next state of an instruction is a trap's, with a record of its own address, or one with no new record. -/
theorem exec_trap_or_not {i : Instr} {s t : State} (h : exec i s = .next t) :
    (∃ r, r.epc = s.hart.pc ∧ t = takeTrap r s) ∨ t.traps = s.traps := by
  rcases exec_cases h with rfl | ⟨c, g, ea, n, -, rfl⟩ | ⟨op, pa, rs1, rfl⟩ | ⟨pa, rs1, rfl⟩ | rfl | ⟨pa, rfl⟩
  · exact .inl ⟨_, rfl, rfl⟩
  · exact .inl ⟨_, rfl, rfl⟩
  · exact .inr rfl
  · exact .inr rfl
  · exact .inr rfl
  · exact .inr rfl

/-- Settles O27: taking a trap changes the hart's mode, `pc` and control registers and adds the record. -/
theorem trapsArePrecise : Obligations.TrapsArePrecise := by
  intro i s t h ht
  rcases exec_trap_or_not h with ⟨r, hr, rfl⟩ | hsame
  · exact ⟨⟨r, rfl, hr⟩, rfl, rfl, rfl, rfl, rfl, trapEntry_x _ _ _ _, trapEntry_resv _ _ _ _, rfl, rfl⟩
  · exact absurd hsame ht

/-- The size of the block of any access is a power of two up to the size of a page (R6). -/
theorem accessSize_eq (cfg : Config) (i : Instr) : ∃ n ≤ 12, accessSize cfg i = 2 ^ n := by
  have hm : ∃ n ≤ 12, cbsM cfg = 2 ^ n := ⟨_, Nat.le_of_lt_succ cfg.cbsMLog.isLt, rfl⟩
  cases i with
  | cboZero rs1 => exact ⟨_, Nat.le_of_lt_succ cfg.cbsZLog.isLt, rfl⟩
  | _ => exact hm

theorem accessSize_pos (cfg : Config) (i : Instr) : 0 < accessSize cfg i := by
  obtain ⟨n, -, h⟩ := accessSize_eq cfg i
  rw [h]
  exact Nat.two_pow_pos n

theorem accessSize_dvd_page (cfg : Config) (i : Instr) : accessSize cfg i ∣ 4096 := by
  obtain ⟨n, hn, h⟩ := accessSize_eq cfg i
  rw [h, show 4096 = 2 ^ 12 from rfl]
  exact Nat.pow_dvd_pow 2 hn

/-- Blocks of a size that divides `m` do not cross a multiple of `m`. -/
theorem blkBase_add_le_of_dvd {a size m : Nat} (hd : size ∣ m) (ha : a < m) : blkBase a size + size ≤ m := by
  obtain ⟨q, rfl⟩ := hd
  have hlt : a / size < q := Nat.div_lt_of_lt_mul ha
  have hle : size * (a / size + 1) ≤ size * q := Nat.mul_le_mul_left _ hlt
  rw [blkBase_eq]
  rwa [Nat.mul_add, Nat.mul_one] at hle

/-- The address a fault reports, as a number (R198). -/
theorem toNat_drawTval (tick : Nat) (ea : Word) (cfg : Config) (i : Instr) :
    (drawTval tick ea (accessSize cfg i)).toNat =
      blkBase ea.toNat (accessSize cfg i) + Config.freeOffset tick % accessSize cfg i := by
  have hoff := Nat.mod_lt (Config.freeOffset tick) (accessSize_pos cfg i)
  have hle := blkBase_add_le_of_dvd
    ((accessSize_dvd_page cfg i).trans (show 4096 ∣ 2 ^ 64 by decide)) ea.isLt
  rw [drawTval, BitVec.toNat_ofNat, Nat.mod_eq_of_lt (by omega)]

/-- The address a fault reports lies in the block of the effective address (R198, D10). -/
theorem toNat_drawTval_mem_block (tick : Nat) (ea : Word) (cfg : Config) (i : Instr) :
    (drawTval tick ea (accessSize cfg i)).toNat ∈ block ea.toNat (accessSize cfg i) := by
  have hoff := Nat.mod_lt (Config.freeOffset tick) (accessSize_pos cfg i)
  rw [mem_block, toNat_drawTval]
  omega

/-- Two addresses of one block are at places of one block in any two pages that hold them at the same offset. -/
theorem inPage_mem_block {x a size : Nat} (p : Nat) (hd : size ∣ 4096) (hs : 0 < size) (h : x ∈ block a size) :
    p * 4096 + x % 4096 ∈ block (p * 4096 + a % 4096) size := by
  obtain ⟨q, hq⟩ := hd
  have hdiv : ∀ y, (p * 4096 + y % 4096) / size = p * q + y / size % q := by
    intro y
    rw [hq, show p * (size * q) + y % (size * q) = y % (size * q) + size * (p * q) by ring, Nat.add_mul_div_left _ _ hs,
      Nat.mod_mul_right_div_self, Nat.add_comm]
  rw [mem_block_iff_blkBase hs, blkBase_eq, blkBase_eq] at h ⊢
  rw [hdiv, hdiv, Nat.eq_of_mul_eq_mul_left hs h]

/-- Settles O28: the draw is inside the block, which lies in one page. -/
theorem trapRecordContents : Obligations.TrapRecordContents := by
  refine ⟨by decide, fun s w => ?_, fun c g i s => ⟨toNat_drawTval_mem_block _ _ _ _, ?_, ?_⟩⟩
  · cases h : s.cfg.tvalHoldsWord with
    | true => exact .inr (by simp [illegalRecord, h])
    | false => exact .inl (by simp [illegalRecord, h])
  · rintro rfl; rfl
  · rintro p rfl
    exact ⟨rfl, inPage_mem_block p (accessSize_dvd_page _ _) (accessSize_pos _ _) (toNat_drawTval_mem_block _ _ _ _)⟩

/-! ### The mode a trap is taken to -/

theorem virt_iff {m : Mode} : virt m = true ↔ m = .VS ∨ m = .VU := by cases m <;> simp [virt]

/-- Settles O29: the two tests of delegation. -/
theorem trapDelegation : Obligations.TrapDelegation := by
  intro cfg h c
  unfold trapTarget
  simp only [Bool.and_eq_true, decide_eq_true_eq, virt_iff, and_assoc]
  split
  next hs =>
    split
    next hv => tauto
    next hv =>
      refine ⟨⟨nofun, fun h => absurd h.2.2.2 hv⟩, ⟨nofun, fun h => absurd hs h⟩, by simp⟩
  next hs => exact ⟨⟨nofun, fun h => absurd ⟨h.1, h.2.1, h.2.2.1⟩ hs⟩, ⟨fun _ => hs, fun _ => rfl⟩, .inl rfl⟩

/-- A trap that is not taken to M-mode is one of a mode below it, on a hart with S-mode. -/
theorem delegated_of_trapTarget {cfg : Config} {h : Hart} {c : Cause} (ht : trapTarget cfg h c ≠ .M) :
    h.mode ≠ .M ∧ cfg.modes.contains .S = true := by
  obtain ⟨-, hM, -⟩ := trapDelegation cfg h c
  obtain ⟨hm, hs, -⟩ := not_not.1 (mt hM.2 ht)
  exact ⟨hm, hs⟩

/-- Trap entry, by the mode the trap is taken to; a supervisor mode that it enters exists. -/
theorem trapEntry_cases (cfg : Config) (tick : Nat) (r : TrapRecord) (h : Hart) :
    (trapTarget cfg h r.cause = .M ∧ trapEntry cfg tick r h = enterM cfg tick r h) ∨
    (trapTarget cfg h r.cause = .S ∧ cfg.modes.contains .S = true ∧ trapEntry cfg tick r h = enterS cfg tick r h) ∨
    (trapTarget cfg h r.cause = .VS ∧ cfg.modes.contains .VS = true ∧ trapEntry cfg tick r h = enterVS cfg r h) := by
  obtain ⟨hVS, -, ht⟩ := trapDelegation cfg h r.cause
  rcases ht with ht | ht | ht
  · exact .inl ⟨ht, by simp only [trapEntry, ht]⟩
  · obtain ⟨-, hs⟩ := delegated_of_trapTarget (ht.trans_ne (by decide))
    exact .inr (.inl ⟨ht, hs, by simp only [trapEntry, ht]⟩)
  · obtain ⟨-, -, -, -, hvs, -⟩ := hVS.1 ht
    exact .inr (.inr ⟨ht, hvs, by simp only [trapEntry, ht]⟩)

theorem hart_takeTrap_M {r : TrapRecord} {s : State} (h : trapTarget s.cfg s.hart r.cause = .M) :
    (takeTrap r s).hart = enterM s.cfg s.tick r s.hart := by
  simp only [takeTrap_hart, trapEntry, h]

theorem hart_takeTrap_S {r : TrapRecord} {s : State} (h : trapTarget s.cfg s.hart r.cause = .S) :
    (takeTrap r s).hart = enterS s.cfg s.tick r s.hart := by
  simp only [takeTrap_hart, trapEntry, h]

theorem hart_takeTrap_VS {r : TrapRecord} {s : State} (h : trapTarget s.cfg s.hart r.cause = .VS) :
    (takeTrap r s).hart = enterVS s.cfg r s.hart := by
  simp only [takeTrap_hart, trapEntry, h]

/-! ### The status registers after entry -/

/-- A bit of `mstatus` after entry to M-mode (R201). -/
theorem getBit_mstatusOnTrap (hyp : Bool) (m : Mode) (gva : Bool) (w : Word) (n : Nat) :
    getBit (mstatusOnTrap hyp m gva w) n =
      if hyp = true ∧ n = 38 then gva else if hyp = true ∧ n = 39 then virt m
      else if n = 3 then false else if n = 7 then getBit w 3
      else if 11 ≤ n ∧ n < 13 then (level m).getLsbD (n - 11) else getBit w n := by
  cases hyp with
  | true => simp [mstatusOnTrap, getBit_setBit, getBit_setField2]
  | false => simp [mstatusOnTrap, getBit_setBit, getBit_setField2]

/-- `MPP` after entry to M-mode. -/
theorem mpp_mstatusOnTrap (hyp : Bool) (m : Mode) (gva : Bool) (w : Word) : mpp (mstatusOnTrap hyp m gva w) = level m := by
  have h : getField2 (setBit (setBit (setField2 w 11 (level m)) 7 (getBit w 3)) 3 false) 11 = level m := by
    rw [getField2_setBit _ _ (by decide) (by decide), getField2_setBit _ _ (by decide) (by decide),
      getField2_setField2 _ _ (by decide)]
  cases hyp with
  | true =>
    simp only [mpp, mstatusOnTrap, if_true]
    rw [getField2_setBit _ _ (by decide) (by decide), getField2_setBit _ _ (by decide) (by decide), h]
  | false => exact h

/-- A bit of a supervisor status register after entry to its mode (R201). -/
theorem getBit_sstatusOnTrap (m : Mode) (w : Word) (n : Nat) :
    getBit (sstatusOnTrap m w) n =
      if n = 1 then false else if n = 5 then getBit w 1 else if n = 8 then decide (level m = 1) else getBit w n := by
  simp [sstatusOnTrap, getBit_setBit]

/-- A bit of `hstatus` after entry to HS-mode (R201). -/
theorem getBit_hstatusOnTrap (m : Mode) (gva : Bool) (w : Word) (n : Nat) :
    getBit (hstatusOnTrap m gva w) n = if n = 6 then gva else if n = 7 then virt m else getBit w n := by
  simp [hstatusOnTrap, getBit_setBit]

theorem toNat_causeCode (c : Cause) : (BitVec.ofNat 64 c.code).toNat = c.code := by cases c <;> rfl

theorem level_eq_one_iff {m : Mode} : level m = 1#2 ↔ m = .S ∨ m = .VS := by cases m <;> simp [level]

/-- Settles O30: by the bits of `mstatus` after entry; of the registers that entry to M-mode does not write, by unfolding. -/
theorem trapEntryToM : Obligations.TrapEntryToM := by
  intro r s h
  rw [hart_takeTrap_M h]
  have hb := getBit_mstatusOnTrap (hasHypervisor s.cfg) s.hart.mode r.guestVirtual s.hart.csr.mstatus
  refine ⟨rfl, rfl, rfl, toNat_causeCode _, rfl, mpp_mstatusOnTrap _ _ _ _, ?_, ?_, ?_, ?_, ?_, rfl, rfl, rfl, rfl, rfl, rfl, rfl, rfl,
    rfl, rfl, rfl, rfl, rfl, rfl, rfl, rfl, rfl, rfl, rfl, rfl, ?_, ?_⟩
  · simp [enterM, hb]
  · simp [enterM, hb]
  · intro hh
    simp only [enterM, mpv, hb]
    simp [hh]
  · rintro hh n (rfl | rfl) <;> simp only [enterM, hb] <;> simp [hh]
  · intro n hn
    simp only [List.mem_cons, List.not_mem_nil, or_false, not_or] at hn
    simp only [enterM, hb]
    rw [if_neg (by tauto), if_neg (by tauto), if_neg (by tauto), if_neg (by tauto), if_neg (by omega)]
  · intro hg
    simp [enterM, hg]
  · intro g hg
    simp [enterM, hg, savedGpa]

/-- Settles O31: by the bits of `mstatus` and of `hstatus` after entry. -/
theorem trapEntryToS : Obligations.TrapEntryToS := by
  intro r s h
  rw [hart_takeTrap_S h]
  have hb := getBit_sstatusOnTrap s.hart.mode s.hart.csr.mstatus
  have hhb := getBit_hstatusOnTrap s.hart.mode r.guestVirtual s.hart.csr.hstatus
  refine ⟨rfl, rfl, rfl, toNat_causeCode _, rfl, ?_, ?_, ?_, ?_, ?_, ?_, ?_, rfl, rfl, rfl, rfl, rfl, rfl, rfl, rfl, rfl, rfl, rfl, rfl,
    rfl, rfl, rfl, rfl, rfl, rfl, rfl, ?_, ?_⟩
  · simp [enterS, hb, level_eq_one_iff]
  · simp [enterS, hb]
  · simp [enterS, hb]
  · intro n hn
    simp only [List.mem_cons, List.not_mem_nil, or_false, not_or] at hn
    simp only [enterS, hb]
    rw [if_neg (by tauto), if_neg (by tauto), if_neg (by tauto)]
  · intro hh
    simp [enterS, hh, hhb]
  · intro hh
    simp [enterS, hh]
  · intro n hn
    simp only [List.mem_cons, List.not_mem_nil, or_false, not_or] at hn
    simp only [enterS]
    split
    · rw [hhb, if_neg (by tauto), if_neg (by tauto)]
    · rfl
  · intro hg
    simp [enterS, hg]
  · intro g hg
    simp [enterS, hg, savedGpa]

/-- Settles O32: by the bits of `vsstatus` after entry. A trap is taken to VS-mode from a virtual mode, so that `SPP` tells VS-mode from VU-mode. -/
theorem trapEntryToVS : Obligations.TrapEntryToVS := by
  intro r s h
  obtain ⟨-, -, -, hmode, -⟩ := (trapDelegation s.cfg s.hart r.cause).1.1 h
  rw [hart_takeTrap_VS h]
  have hb := getBit_sstatusOnTrap s.hart.mode s.hart.csr.vsstatus
  refine ⟨rfl, rfl, rfl, toNat_causeCode _, ?_, ?_, ?_, ?_⟩
  · simp only [enterVS, hb]
    rcases hmode with hm | hm <;> simp [hm, level]
  · simp [enterVS, hb]
  · simp [enterVS, hb]
  · intro n hn
    simp only [List.mem_cons, List.not_mem_nil, or_false, not_or] at hn
    simp only [enterVS, hb]
    rw [if_neg (by tauto), if_neg (by tauto), if_neg (by tauto)]

/-! ### Instruction addresses -/

/-- The low bits that a mask clears are zero. -/
theorem toNat_and_mod {w m : Word} {n : Nat} (h : m.setWidth n = 0#n) : (w &&& m).toNat % 2 ^ n = 0 := by
  rw [← BitVec.toNat_setWidth, BitVec.setWidth_and, h, BitVec.and_zero]
  rfl

/-- A word whose low bits are zero is as a mask that clears them leaves it. -/
theorem and_not_of_mod {w m : Word} {n : Nat} (hm : ∀ k, m.getLsbD k = decide (k < n)) (h : w.toNat % 2 ^ n = 0) :
    w &&& ~~~m = w := by
  refine BitVec.eq_of_getLsbD_eq fun k hk => ?_
  have hlow : k < n → w.getLsbD k = false := fun hkn => by
    have h0 : w.setWidth n = 0#n := BitVec.eq_of_toNat_eq (by rw [BitVec.toNat_setWidth, h]; simp)
    have hb := congrArg (fun v => BitVec.getLsbD v k) h0
    simpa [BitVec.getLsbD_setWidth, hkn] using hb
  rw [BitVec.getLsbD_and, BitVec.getLsbD_not, hm]
  by_cases hkn : k < n
  · simp [hlow hkn]
  · simp [hk, hkn]

/-- An address an instruction may have is as `alignPc` leaves it (R81). -/
theorem alignPc_of_aligned {cfg : Config} {w : Word} (h : pcAligned cfg w = true) : alignPc cfg w = w := by
  have hmod : w.toNat % ialign cfg = 0 := of_decide_eq_true h
  unfold ialign at hmod
  unfold alignPc
  split
  next hc => rw [if_pos hc] at hmod; exact and_not_of_mod (n := 1) (fun k => by rw [testBit_one]; simp) hmod
  next hc => rw [if_neg hc] at hmod; exact and_not_of_mod (n := 2) testBit_three hmod

/-! ### Returning -/

/-- The mode is its level and its virtualisation bit (R23). -/
theorem modeOf_level_virt (m : Mode) : modeOf (level m) (virt m) = m := by cases m <;> rfl

/-- The level of a mode other than M is 1 or 0, as one bit tells. -/
theorem level_of_spp {m : Mode} (h : m ≠ .M) : (if decide (level m = 1) = true then (1 : BitVec 2) else 0) = level m := by
  cases m with
  | M => exact absurd rfl h
  | _ => rfl

/-- Settles O33: each status register holds after entry what the return reads. -/
theorem returnRestoresWhatEntrySaved : Obligations.ReturnRestoresWhatEntrySaved := by
  intro r s hepc hfit hal hvirt
  have hpc : alignPc s.cfg (xtrunc s.cfg.xlen r.epc) = s.hart.pc := by
    rw [hepc, hfit]
    exact alignPc_of_aligned hal
  have hv : (hasHypervisor s.cfg && virt s.hart.mode) = virt s.hart.mode := by
    cases hm : virt s.hart.mode with
    | true => rw [hvirt hm]; rfl
    | false => rw [Bool.and_false]
  obtain ⟨hVS, -, -⟩ := trapDelegation s.cfg s.hart r.cause
  refine ⟨fun ht => ?_, fun ht => ?_, fun ht => ?_⟩
  · have hb := getBit_mstatusOnTrap (hasHypervisor s.cfg) s.hart.mode r.guestVirtual s.hart.csr.mstatus
    have hmpv : (hasHypervisor s.cfg && mpv (mstatusOnTrap (hasHypervisor s.cfg) s.hart.mode r.guestVirtual s.hart.csr.mstatus)) =
        virt s.hart.mode := by
      rw [← hv, mpv, hb]
      cases hasHypervisor s.cfg with
      | true => simp
      | false => rfl
    rw [hart_takeTrap_M ht]
    refine ⟨?_, hpc, ?_⟩
    · simp only [returnM, enterM, mpp_mstatusOnTrap, hmpv, modeOf_level_virt]
    · simp [returnM, enterM, mstatusOnRet, getBit_setBit, hb]
  · obtain ⟨hmode, -⟩ := delegated_of_trapTarget (ht.trans_ne (by decide))
    have hb := getBit_sstatusOnTrap s.hart.mode s.hart.csr.mstatus
    have hspv : (hasHypervisor s.cfg && getBit (if hasHypervisor s.cfg then hstatusOnTrap s.hart.mode r.guestVirtual s.hart.csr.hstatus
        else s.hart.csr.hstatus) 7) = virt s.hart.mode := by
      rw [← hv]
      cases hh : hasHypervisor s.cfg with
      | true => simp [getBit_hstatusOnTrap]
      | false => rfl
    rw [hart_takeTrap_S ht]
    refine ⟨?_, hpc, ?_⟩
    · have hspp : getBit (sstatusOnTrap s.hart.mode s.hart.csr.mstatus) 8 = decide (level s.hart.mode = 1) := by simp [hb]
      simp only [returnS, enterS, hspv, hspp, level_of_spp hmode, modeOf_level_virt]
    · simp [returnS, enterS, sstatusOnRet, getBit_setBit, hb]
  · obtain ⟨hmode, -, -, hvm, -⟩ := hVS.1 ht
    have hb := getBit_sstatusOnTrap s.hart.mode s.hart.csr.vsstatus
    rw [hart_takeTrap_VS ht]
    refine ⟨?_, hpc, ?_⟩
    · have hspp : getBit (sstatusOnTrap s.hart.mode s.hart.csr.vsstatus) 8 = decide (level s.hart.mode = 1) := by simp [hb]
      rw [← virt_iff] at hvm
      have hmv := modeOf_level_virt s.hart.mode
      rw [hvm] at hmv
      simp only [returnVS, enterVS, hspp, level_of_spp hmode, hmv]
    · simp [returnVS, enterVS, sstatusOnRet, getBit_setBit, hb]

end Sys2Proof.Machine
end

section
/-!
SUPPORT. What a step does to the memory system, to the trap records and to the harts, said once, and the invariants of each that every
step keeps (R4, R20 to R24, R30, R36, R63 to R67, R108, R196).
-/

namespace Sys2Proof.Machine

/-! ### What a step does to the memory system -/

/-- From one state to another the memory system and the history change together: operations are performed, or a cache moves on its
own (R64 to R66, R206). The platform and the initial data stay. -/
structure MemoryStep (s t : State) : Prop where
  cfg     : t.cfg = s.cfg
  initMem : t.initMem = s.initMem
  change  : (∃ es, t.history = s.history ++ es ∧ t.sys = effects s.cfg es s.sys) ∨
    t.history = s.history ∧ ((∃ i b, t.sys = allocateLine s.cfg i b s.sys) ∨
      (∃ i b dest, t.sys = deallocateLine s.cfg i b dest s.sys) ∨ ∃ i b, t.sys = writeBackLine s.cfg i b s.sys)

/-- Nothing happens to the memory system. -/
theorem MemoryStep.same {s t : State} (hc : t.cfg = s.cfg) (hi : t.initMem = s.initMem) (hh : t.history = s.history)
    (hs : t.sys = s.sys) : MemoryStep s t :=
  ⟨hc, hi, .inl ⟨[], by simp [hh], hs⟩⟩

/-- Operations that are issued are performed at once or change nothing but what waits. -/
theorem memoryStep_issue (es : List Event) (s : State) : MemoryStep s (issue es s) := by
  cases h : atOnce s with
  | true => exact ⟨rfl, rfl, .inl ⟨es, by simp [h], by simp [h]⟩⟩
  | false => exact .same rfl rfl (by simp [h]) (by simp [h])

/-- The hardware acts on a hint by an allocation or not at all (R150). -/
theorem hintLine_cases (cfg : Config) (pick o pa : Nat) (ms : MemSys) :
    hintLine cfg pick o pa ms = ms ∨ ∃ i b, hintLine cfg pick o pa ms = allocateLine cfg i b ms := by
  unfold hintLine
  split
  next => exact .inl rfl
  next i _ => exact .inr ⟨i, _, rfl⟩

theorem memoryStep_hint (pa : Nat) (s : State) : MemoryStep s (hint pa s) := by
  cases h : Config.hintActs s.tick with
  | false => exact .same rfl rfl rfl (by simp [h])
  | true =>
    rcases hintLine_cases s.cfg (Config.hintCache s.tick) s.hart.id pa s.sys with hl | ⟨i, b, hl⟩
    · exact .same rfl rfl rfl (by simp [h, hl])
    · exact ⟨rfl, rfl, .inr ⟨rfl, .inl ⟨i, b, by simp [h, hl]⟩⟩⟩

/-- What an instruction does to the memory system: nothing, its operations, or its hint. -/
theorem exec_memoryStep {i : Instr} {s t : State} (h : exec i s = .next t) : MemoryStep s t := by
  rcases exec_cases h with rfl | ⟨c, g, ea, n, -, rfl⟩ | ⟨op, pa, rs1, rfl⟩ | ⟨pa, rs1, rfl⟩ | rfl | ⟨pa, rfl⟩
  · exact .same rfl rfl rfl rfl
  · exact .same rfl rfl rfl rfl
  · exact ⟨rfl, rfl, (memoryStep_issue _ s).change⟩
  · exact ⟨rfl, rfl, (memoryStep_issue _ s).change⟩
  · exact .same rfl rfl rfl rfl
  · exact ⟨rfl, rfl, (memoryStep_hint pa s).change⟩

/-- What a move does to the memory system. -/
theorem move_memoryStep (m : Move) (s : State) : MemoryStep s (move m s) := by
  obtain ⟨hc, hi, -⟩ := move_frame m s
  cases m with
  | schedule o => simp only [move, schedule]; split <;> exact .same rfl rfl rfl rfl
  | allocate c b => exact ⟨hc, hi, .inr ⟨rfl, .inl ⟨c, b, rfl⟩⟩⟩
  | deallocate c b dest => exact ⟨hc, hi, .inr ⟨rfl, .inr (.inl ⟨c, b, dest, rfl⟩)⟩⟩
  | writeBack c b => exact ⟨hc, hi, .inr ⟨rfl, .inr (.inr ⟨c, b, rfl⟩)⟩⟩
  | load o a n tags => simp only [move, loadMove]; split <;> exact .same rfl rfl rfl rfl
  | store o a bs tags => simp only [move, storeMove]; split <;> exact .same rfl rfl rfl rfl
  | perform n bs src =>
    rcases perform_cases n bs src s with h | ⟨e, -, -, -, h⟩
    · simp only [move, h]; exact .same rfl rfl rfl rfl
    · simp only [move, h]; exact ⟨rfl, rfl, .inl ⟨[_], rfl, rfl⟩⟩
  | overtake n => rcases overtake_cases n s with h | ⟨-, h⟩ <;> simp only [move, h] <;> exact .same rfl rfl rfl rfl
  | defer b => exact .same rfl rfl rfl rfl
  | host a => cases a with
    | fence p q => exact memoryStep_issue _ s
    | _ => exact .same rfl rfl rfl rfl

/-- What a step does to the memory system. -/
theorem step_memoryStep {s t : State} (h : step s = .next t) : MemoryStep s t := by
  rcases step_cases h with ⟨m, rest, -, rfl⟩ | ⟨rest, -, h⟩
  · have hm := move_memoryStep m { s with inputs := rest }
    exact ⟨hm.cfg, hm.initMem, hm.change⟩
  · rcases runNext_cases h with ⟨w, -, ⟨i, -, hx⟩ | ⟨-, rfl⟩ | ⟨-, rfl⟩ | ⟨p, q, -, rfl⟩⟩
    · have hm := exec_memoryStep hx
      exact ⟨hm.cfg, hm.initMem, hm.change⟩
    · exact .same rfl rfl rfl rfl
    · exact .same rfl rfl rfl rfl
    · exact ⟨rfl, rfl, (memoryStep_issue _ { s with inputs := rest }).change⟩

/-- Settles O55: operations keep memory canonical, a write-back too, and no other move of a cache writes it. -/
theorem stepKeepsMemoryCanonical : Obligations.StepKeepsMemoryCanonical := by
  rintro s t ⟨hm, hi⟩ h
  obtain ⟨-, hinit, hchange⟩ := step_memoryStep h
  refine ⟨?_, by rwa [hinit]⟩
  rcases hchange with ⟨es, -, hs⟩ | ⟨-, ⟨i, b, hs⟩ | ⟨i, b, dest, hs⟩ | ⟨i, b, hs⟩⟩
  · rw [hs]; exact effects_mem_wf hm es
  · rw [hs, allocateLine_mem]; exact hm
  · rw [hs, deallocateLine_mem]; exact hm
  · rw [hs]; exact writeBackLine_mem_wf hm i b

/-- Settles O56: operations and the caches' own moves keep the memory system coherent. -/
theorem stepKeepsCachesCoherent : Obligations.StepKeepsCachesCoherent := by
  intro s t hc h
  obtain ⟨hcfg, -, hchange⟩ := step_memoryStep h
  unfold CachesCoherent at hc ⊢
  rw [hcfg]
  rcases hchange with ⟨es, -, hs⟩ | ⟨-, ⟨i, b, hs⟩ | ⟨i, b, dest, hs⟩ | ⟨i, b, hs⟩⟩
  · rw [hs]; exact hc.effects es
  · rw [hs]; exact hc.allocateLine i b
  · rw [hs]; exact hc.deallocateLine i b dest
  · rw [hs]; exact hc.writeBackLine i b

/-! ### What a step does to the trap records -/

/-- Settles O54: an instruction adds its record, a reserved word that of an illegal instruction, and nothing else adds one. -/
theorem stepKeepsPlatform : Obligations.StepKeepsPlatform := by
  intro s t h
  refine ⟨(step_memoryStep h).cfg, (step_memoryStep h).initMem, ?_⟩
  rcases step_cases h with ⟨m, rest, -, rfl⟩ | ⟨rest, -, h⟩
  · obtain ⟨-, -, ht, -⟩ := move_frame m { s with inputs := rest }
    exact ⟨[], by simpa [applyMove] using ht⟩
  · rcases runNext_cases h with ⟨w, -, ⟨i, -, hx⟩ | ⟨-, rfl⟩ | ⟨-, rfl⟩ | ⟨p, q, -, rfl⟩⟩
    · obtain ⟨new, hn, -⟩ := exec_traps hx
      exact ⟨new, hn⟩
    · exact ⟨_, rfl⟩
    · exact ⟨[], by simp⟩
    · exact ⟨[], by simp [runFence]⟩

/-! ### What a step does to the harts -/

/-- A property of harts that every change a step makes to one keeps. -/
structure HartInvariant (cfg : Config) (p : Hart → Prop) : Prop where
  trap    : ∀ tick r h, p h → p (trapEntry cfg tick r h)
  advance : ∀ h, p h → p { h with pc := nextPc cfg h.pc }
  host    : ∀ tick a h, p h → p (hostHart cfg tick a h)
  lose    : ∀ h, p h → p { h with resv := none }

theorem forall_loseReservations {p : Hart → Prop} (hl : ∀ h, p h → p { h with resv := none }) (tick : Nat) {hs : List Hart}
    (h : ∀ g ∈ hs, p g) : ∀ g ∈ loseReservations tick hs, p g := by
  intro g hg
  obtain ⟨g0, hg0, rfl⟩ := List.mem_map.1 hg
  split
  · exact hl g0 (h g0 hg0)
  · exact h g0 hg0

/-- Every instruction keeps such a property. -/
theorem HartInvariant.exec {cfg : Config} {p : Hart → Prop} (hp : HartInvariant cfg p) {i : Instr} {s t : State} (hcfg : s.cfg = cfg)
    (hs : AllHarts p s) (h : exec i s = .next t) : AllHarts p t := by
  obtain ⟨hh, ho⟩ := hs
  subst hcfg
  have htrap : ∀ r, AllHarts p (takeTrap r s) := fun r => ⟨hp.trap _ _ _ hh, ho⟩
  have hretire : ∀ s' : State, s'.cfg = s.cfg → s'.hart = s.hart → s'.others = s.others → AllHarts p (retire s') := by
    intro s' hc he hos
    refine ⟨?_, forall_loseReservations hp.lose s'.tick (by rwa [hos])⟩
    rw [retire_hart, hc, he]
    exact hp.advance _ hh
  rcases exec_cases h with rfl | ⟨c, g, ea, n, -, rfl⟩ | ⟨op, pa, rs1, rfl⟩ | ⟨pa, rs1, rfl⟩ | rfl | ⟨pa, rfl⟩
  · exact htrap _
  · exact htrap _
  · exact hretire _ rfl rfl rfl
  · exact hretire _ rfl rfl rfl
  · exact hretire _ rfl rfl rfl
  · exact hretire _ rfl rfl rfl

theorem forall_mapFirst {q : Hart → Bool} {p : Hart → Prop} {g : Hart} (hg : p g) {hs : List Hart} (h : ∀ x ∈ hs, p x) :
    ∀ x ∈ mapFirst q (fun _ => g) hs, p x := by
  induction hs with
  | nil => exact h
  | cons x hs ih =>
    rw [List.forall_mem_cons] at h
    unfold mapFirst
    split
    · exact List.forall_mem_cons.2 ⟨hg, h.2⟩
    · exact List.forall_mem_cons.2 ⟨h.1, ih h.2⟩

/-- A host instruction that is no `FENCE` acts on the hart's registers only. -/
theorem hostMove_of_not_fence {a : HostAction} (s : State) (h : ∀ p q, a ≠ .fence p q) :
    hostMove a s = { s with hart := hostHart s.cfg s.tick a s.hart } := by
  cases a with
  | fence p q => exact absurd rfl (h p q)
  | _ => rfl

/-- Every move keeps such a property. -/
theorem HartInvariant.move {cfg : Config} {p : Hart → Prop} (hp : HartInvariant cfg p) (m : Move) {s : State} (hcfg : s.cfg = cfg)
    (hs : AllHarts p s) : AllHarts p (move m s) := by
  subst hcfg
  cases m with
  | schedule o =>
    simp only [Machine.move, schedule]
    split
    · exact hs
    next g hg => exact ⟨hs.2 g (List.mem_of_find?_eq_some hg), forall_mapFirst hs.1 hs.2⟩
  | allocate c b => exact hs
  | deallocate c b dest => exact hs
  | writeBack c b => exact hs
  | load o a n tags => simp only [Machine.move, loadMove]; split <;> exact hs
  | store o a bs tags => simp only [Machine.move, storeMove]; split <;> exact hs
  | perform n bs src => rcases perform_cases n bs src s with h | ⟨e, -, -, -, h⟩ <;> simp only [Machine.move, h] <;> exact hs
  | overtake n => rcases overtake_cases n s with h | ⟨-, h⟩ <;> simp only [Machine.move, h] <;> exact hs
  | defer b => exact hs
  | host a =>
    by_cases ha : ∃ q r, a = .fence q r
    · obtain ⟨q, r, rfl⟩ := ha
      exact hs
    · rw [Machine.move, hostMove_of_not_fence s (fun q r he => ha ⟨q, r, he⟩)]
      exact ⟨hp.host s.tick a s.hart hs.1, hs.2⟩

/-- Every step keeps such a property. -/
theorem HartInvariant.step {p : Hart → Prop} {s t : State} (hp : HartInvariant s.cfg p) (hs : AllHarts p s)
    (h : step s = .next t) : AllHarts p t := by
  rcases step_cases h with ⟨m, rest, -, rfl⟩ | ⟨rest, -, h⟩
  · exact hp.move m (s := { s with inputs := rest }) rfl hs
  · rcases runNext_cases h with ⟨w, -, ⟨i, -, hx⟩ | ⟨-, rfl⟩ | ⟨-, rfl⟩ | ⟨q, r, -, rfl⟩⟩
    · exact hp.exec (s := { s with inputs := rest }) rfl hs hx
    · exact ⟨hp.trap _ _ _ hs.1, hs.2⟩
    · exact ⟨hp.advance _ hs.1, hs.2⟩
    · exact ⟨hp.advance _ hs.1, hs.2⟩

/-! ### Instruction addresses and register values -/

theorem fitsXlen_xtrunc (cfg : Config) (w : Word) : FitsXlen cfg (xtrunc cfg.xlen w) := xtrunc_xtrunc _ _

/-- The alignment of instructions divides what truncation to `XLEN` takes away. -/
theorem toNat_xtrunc_mod (x : Xlen) (w : Word) {m : Nat} (hm : m ∣ 2 ^ 32) : (xtrunc x w).toNat % m = w.toNat % m := by
  cases x with
  | rv64 => rfl
  | rv32 =>
    have hlt : w.toNat % 2 ^ 32 < 2 ^ 64 := (Nat.mod_lt _ (by decide)).trans (by decide)
    rw [xtrunc, BitVec.toNat_setWidth, BitVec.toNat_setWidth, Nat.mod_eq_of_lt hlt, Nat.mod_mod_of_dvd _ hm]

theorem pcAligned_iff {cfg : Config} {w : Word} : pcAligned cfg w = true ↔ w.toNat % ialign cfg = 0 := decide_eq_true_iff

theorem ialign_dvd_four (cfg : Config) : ialign cfg ∣ 4 := by
  unfold ialign
  split <;> decide

/-- Truncation keeps the alignment of an instruction address. -/
theorem pcAligned_xtrunc {cfg : Config} {w : Word} (h : pcAligned cfg w = true) : pcAligned cfg (xtrunc cfg.xlen w) = true := by
  rw [pcAligned_iff] at h ⊢
  rwa [toNat_xtrunc_mod _ _ ((ialign_dvd_four cfg).trans (by decide))]

/-- A multiple of four is an address an instruction may have (R81). -/
theorem pcAligned_of_mod_four {cfg : Config} {w : Word} (h : w.toNat % 4 = 0) : pcAligned cfg w = true :=
  pcAligned_iff.2 (Nat.mod_eq_zero_of_dvd ((ialign_dvd_four cfg).trans (Nat.dvd_of_mod_eq_zero h)))

theorem pcAligned_nextPc {cfg : Config} {w : Word} (h : pcAligned cfg w = true) : pcAligned cfg (nextPc cfg w) = true := by
  refine pcAligned_xtrunc ?_
  rw [pcAligned_iff] at h ⊢
  have h4 := ialign_dvd_four cfg
  have h64 : ialign cfg ∣ 2 ^ 64 := h4.trans (by decide)
  rw [BitVec.toNat_add, Nat.mod_mod_of_dvd _ h64]
  exact Nat.mod_eq_zero_of_dvd (Nat.dvd_add (Nat.dvd_of_mod_eq_zero h) h4)

theorem pcAligned_tvecBase (cfg : Config) (w : Word) : pcAligned cfg (tvecBase w) = true :=
  pcAligned_of_mod_four (toNat_and_mod (n := 2) (by decide))

theorem pcAligned_alignPc (cfg : Config) (w : Word) : pcAligned cfg (alignPc cfg w) = true := by
  rw [pcAligned_iff]
  unfold ialign alignPc
  split
  · exact toNat_and_mod (n := 1) (by decide)
  · exact toNat_and_mod (n := 2) (by decide)

/-- Clearing bits keeps a value in `XLEN` bits. -/
theorem fitsXlen_and {cfg : Config} {w : Word} (m : Word) (h : FitsXlen cfg w) : FitsXlen cfg (w &&& m) := by
  unfold FitsXlen at h ⊢
  cases hx : cfg.xlen with
  | rv64 => rfl
  | rv32 =>
    rw [hx] at h
    refine BitVec.eq_of_getLsbD_eq fun i hi => ?_
    have hbit := congrArg (fun v => BitVec.getLsbD v i) h
    simp only [xtrunc, BitVec.getLsbD_setWidth, BitVec.getLsbD_and, hi, decide_true, Bool.true_and] at hbit ⊢
    rw [← hbit]
    by_cases h32 : i < 32 <;> simp [h32]

theorem fitsXlen_alignPc {cfg : Config} {w : Word} (h : FitsXlen cfg w) : FitsXlen cfg (alignPc cfg w) := by
  unfold alignPc
  split <;> exact fitsXlen_and _ h

/-! ### `MPP` -/

theorem getField2_mergeBits {mask : Word} {lo : Nat} (old new : Word) (h0 : getBit mask lo = false) (h1 : getBit mask (lo + 1) = false) :
    getField2 (mergeBits mask old new) lo = getField2 old lo := by
  refine BitVec.eq_of_getLsbD_eq fun i hi => ?_
  rw [getLsbD_getField2, getLsbD_getField2, getBit_mergeBits]
  have hi2 : i = 0 ∨ i = 1 := by omega
  rcases hi2 with rfl | rfl
  · rw [Nat.add_zero, h0]; rfl
  · rw [h1]; rfl

theorem level_ne_two (m : Mode) : level m ≠ 2 := by cases m <;> decide

theorem mpp_legalMpp {old w : Word} (h : mpp old ≠ 2) : mpp (legalMpp old w) ≠ 2 := by
  unfold legalMpp
  split
  · rwa [mpp, getField2_setField2 _ _ (by decide)]
  next hw => exact hw

/-- A write of the upper half leaves the fields of the lower one. -/
theorem getField2_writeHigh (x : Xlen) (old v : Word) {lo : Nat} (h0 : getBit (~~~lowHalf) lo = false)
    (h1 : getBit (~~~lowHalf) (lo + 1) = false) : getField2 (writeHigh x old v) lo = getField2 old lo := by
  cases x with
  | rv32 => exact getField2_mergeBits _ _ h0 h1
  | rv64 => rfl

/-- No write of a register by a host instruction makes `MPP` the reserved value (R24). -/
theorem mpp_csrWrite (cfg : Config) (tick : Nat) (c : CsrName) (v : Word) {r : Csrs} (h : mpp r.mstatus ≠ 2) :
    mpp (csrWrite cfg tick c v r).mstatus ≠ 2 := by
  cases c with
  | mstatus => exact mpp_legalMpp h
  | mstatush => rwa [csrWrite, mpp, getField2_writeHigh _ _ _ (by decide) (by decide)]
  | sstatus => rwa [csrWrite, mpp, getField2_mergeBits _ _ (by decide) (by decide)]
  | menvcfg => simp only [csrWrite]; split <;> exact h
  | menvcfgh => simp only [csrWrite]; split <;> exact h
  | senvcfg => simp only [csrWrite]; split <;> exact h
  | henvcfg => simp only [csrWrite]; split <;> exact h
  | henvcfgh => simp only [csrWrite]; split <;> exact h
  | tselect => simp only [csrWrite]; split <;> exact h
  | _ => exact h

theorem mpp_setBit {w : Word} {n : Nat} (b : Bool) (hn : n < 64) (h : n < 11 ∨ 13 ≤ n) : mpp (setBit w n b) = mpp w :=
  getField2_setBit w b hn h

theorem mpp_sstatusOnTrap (m : Mode) (w : Word) : mpp (sstatusOnTrap m w) = mpp w := by
  rw [sstatusOnTrap, mpp_setBit _ (by decide) (by decide), mpp_setBit _ (by decide) (by decide), mpp_setBit _ (by decide) (by decide)]

/-! ### Well-formed harts -/

/-- What a well-formed hart is: the four invariants of one hart (R20, R21, R23, R24, R81). -/
structure HartOk (cfg : Config) (h : Hart) : Prop where
  aligned : pcAligned cfg h.pc = true
  mode    : cfg.modes.contains h.mode = true
  fits    : FitsXlen cfg h.pc ∧ ∀ r : Reg, FitsXlen cfg h.x[r]
  mpp     : mpp h.csr.mstatus ≠ 2

/-- A general register written by a host instruction holds an `XLEN`-bit value. -/
theorem HartOk.writeX {cfg : Config} {h : Hart} (hh : HartOk cfg h) (rd : Reg) (v : Word) (deps : List Nat) :
    HartOk cfg (writeX cfg rd v deps h) := by
  unfold Machine.writeX
  split
  · exact hh
  · refine ⟨hh.aligned, hh.mode, ⟨hh.fits.1, fun r => ?_⟩, hh.mpp⟩
    by_cases hr : rd = r
    · subst hr
      simpa using fitsXlen_xtrunc cfg v
    · have hne : rd.val ≠ r.val := fun he => hr (Fin.ext he)
      simpa [Vector.getElem_set_ne _ _ hne] using hh.fits.2 r

/-- A return happens only into a mode that exists. -/
theorem HartOk.returnTo {cfg : Config} {h t : Hart} (hh : HartOk cfg h) (hx : t.x = h.x)
    (hpc : ∃ w, t.pc = alignPc cfg (xtrunc cfg.xlen w)) (hm : Machine.mpp t.csr.mstatus ≠ 2) : HartOk cfg (returnTo cfg h t) := by
  unfold Machine.returnTo
  split
  next hc =>
    obtain ⟨w, hw⟩ := hpc
    refine ⟨?_, hc, ⟨?_, ?_⟩, hm⟩
    · rw [hw]; exact pcAligned_alignPc cfg _
    · rw [hw]; exact fitsXlen_alignPc (fitsXlen_xtrunc cfg w)
    · rw [hx]; exact hh.fits.2
  · exact hh

/-- A hart that enters a trap is well formed, where the mode it enters exists. -/
theorem HartOk.trap {cfg : Config} (hM : cfg.modes.contains .M = true) (tick : Nat) (r : TrapRecord) {h : Hart} (hh : HartOk cfg h) :
    HartOk cfg (trapEntry cfg tick r h) := by
  have hpc : ∀ w, pcAligned cfg (xtrunc cfg.xlen (tvecBase w)) = true := fun w => pcAligned_xtrunc (pcAligned_tvecBase cfg w)
  rcases trapEntry_cases cfg tick r h with ⟨-, he⟩ | ⟨-, hS, he⟩ | ⟨-, hVS, he⟩
  · rw [he]
    exact ⟨hpc _, hM, ⟨fitsXlen_xtrunc _ _, hh.fits.2⟩, by simpa [enterM, mpp_mstatusOnTrap] using level_ne_two h.mode⟩
  · rw [he]
    exact ⟨hpc _, hS, ⟨fitsXlen_xtrunc _ _, hh.fits.2⟩, by simpa [enterS, mpp_sstatusOnTrap] using hh.mpp⟩
  · rw [he]
    exact ⟨hpc _, hVS, ⟨fitsXlen_xtrunc _ _, hh.fits.2⟩, hh.mpp⟩

theorem HartOk.host {cfg : Config} (tick : Nat) (a : HostAction) {h : Hart} (hh : HartOk cfg h) : HartOk cfg (hostHart cfg tick a h) := by
  have hretM := hh.returnTo (t := returnM cfg h) rfl ⟨_, rfl⟩ (by simpa [returnM, mstatusOnRet, mpp_setBit] using hh.mpp)
  have hretS := hh.returnTo (t := returnS cfg h) rfl ⟨_, rfl⟩ (by simpa [returnS, sstatusOnRet, mpp_setBit] using hh.mpp)
  have hretVS := hh.returnTo (t := returnVS cfg h) rfl ⟨_, rfl⟩ hh.mpp
  cases a with
  | writeX rd v deps => exact hh.writeX rd v deps
  | setPc v =>
    simp only [hostHart]
    split
    next hv => exact ⟨hv, hh.mode, ⟨fitsXlen_xtrunc _ _, hh.fits.2⟩, hh.mpp⟩
    · exact hh
  | branch deps => exact ⟨hh.aligned, hh.mode, hh.fits, hh.mpp⟩
  | fence p q => exact hh
  | reserve r => exact ⟨hh.aligned, hh.mode, hh.fits, hh.mpp⟩
  | writeCsr c v => exact ⟨hh.aligned, hh.mode, hh.fits, mpp_csrWrite cfg tick c v hh.mpp⟩
  | readCsr rd c => exact hh.writeX rd _ _
  | setWalk w => exact ⟨hh.aligned, hh.mode, hh.fits, hh.mpp⟩
  | setPmp p => exact ⟨hh.aligned, hh.mode, hh.fits, hh.mpp⟩
  | setMode m =>
    simp only [hostHart]
    split
    next hm => exact ⟨hh.aligned, hm, hh.fits, hh.mpp⟩
    · exact hh
  | mret =>
    simp only [hostHart]
    split
    · exact hretM
    · exact hh
  | sret =>
    simp only [hostHart]
    split
    · exact hretS
    · exact hretS
    · exact hretVS
    · exact hh
    · exact hh

/-- Every change a step makes to a hart keeps it well formed. -/
theorem hartInvariant_hartOk {cfg : Config} (hM : cfg.modes.contains .M = true) : HartInvariant cfg (HartOk cfg) where
  trap tick r _ hh := hh.trap hM tick r
  advance _ hh := ⟨pcAligned_nextPc hh.aligned, hh.mode, ⟨fitsXlen_xtrunc _ _, hh.fits.2⟩, hh.mpp⟩
  host tick a _ hh := hh.host tick a
  lose _ hh := ⟨hh.aligned, hh.mode, hh.fits, hh.mpp⟩

/-- A state's harts are well formed when they meet the four invariants. -/
theorem allHarts_hartOk_iff {s : State} (hM : s.cfg.modes.contains .M = true) :
    AllHarts (HartOk s.cfg) s ↔ PcsAligned s ∧ ModesLegal s ∧ RegistersFit s ∧ MppLegal s := by
  constructor
  · rintro ⟨hh, ho⟩
    exact ⟨⟨hh.aligned, fun h hm => (ho h hm).aligned⟩, ⟨hM, hh.mode, fun h hm => (ho h hm).mode⟩,
      ⟨hh.fits, fun h hm => (ho h hm).fits⟩, ⟨hh.mpp, fun h hm => (ho h hm).mpp⟩⟩
  · rintro ⟨⟨ha, hao⟩, ⟨-, hm, hmo⟩, ⟨hf, hfo⟩, ⟨hp, hpo⟩⟩
    exact ⟨⟨ha, hm, hf, hp⟩, fun h hx => ⟨hao h hx, hmo h hx, hfo h hx, hpo h hx⟩⟩

/-- Settles O57: well-formedness is a property of each hart that every change keeps. -/
theorem stepKeepsHartsWellFormed : Obligations.StepKeepsHartsWellFormed := by
  intro s t hp hm hr hmpp h
  obtain ⟨hM, -⟩ := id hm
  have hcfg := (step_memoryStep h).cfg
  have ht := (hartInvariant_hartOk hM).step ((allHarts_hartOk_iff hM).2 ⟨hp, hm, hr, hmpp⟩) h
  rw [← hcfg] at ht hM
  exact (allHarts_hartOk_iff hM).1 ht

/-! ### `CBIE` -/

/-- A write of a `CBIE` field leaves a supported value, where there is one to choose (R108, D31). -/
theorem cbieAfterWrite_mem {supported : List (BitVec 2)} (tick : Nat) (old v : BitVec 2) (h : cbieLegal supported ≠ []) :
    cbieAfterWrite supported tick old v ∈ cbieLegal supported := by
  simp only [cbieAfterWrite]
  split
  next hv => simpa using hv
  next =>
    have hlt := Nat.mod_lt (Config.freeCbie tick) (List.length_pos_iff.2 h)
    rw [List.getD_eq_getElem _ _ hlt]
    exact List.getElem_mem hlt

/-- `CBIE` after a write of an `envcfg` register (R108). -/
theorem cbie_envcfgWrite (cfg : Config) (supported : List (BitVec 2)) (tick : Nat) (old v : Word) :
    cbie (envcfgWrite cfg supported tick old v) =
      if cfg.hasZicbom then cbieAfterWrite supported tick (cbie old) (cbie v) else 0 := by
  simp only [envcfgWrite]
  rw [cbie, getField2_setBit _ _ (by decide) (by decide), getField2_setBit _ _ (by decide) (by decide),
    getField2_setField2 _ _ (by decide)]

theorem cbie_envcfgWrite_mem {cfg : Config} {supported : List (BitVec 2)} (hz : cfg.hasZicbom = true) (tick : Nat) {old : Word} (v : Word)
    (h : cbie old ∈ cbieLegal supported) : cbie (envcfgWrite cfg supported tick old v) ∈ cbieLegal supported := by
  rw [cbie_envcfgWrite, if_pos hz]
  exact cbieAfterWrite_mem tick _ _ (List.ne_nil_of_mem h)

theorem cbie_writeHigh (x : Xlen) (old v : Word) : cbie (writeHigh x old v) = cbie old :=
  getField2_writeHigh _ _ _ (by decide) (by decide)

/-- No write of a register by a host instruction makes `CBIE` an unsupported value. -/
theorem cbieHeldLegal_csrWrite {cfg : Config} (tick : Nat) (c : CsrName) (v : Word) {h : Hart} (hh : CbieHeldLegal cfg h) :
    CbieHeldLegal cfg { h with csr := csrWrite cfg tick c v h.csr } := by
  intro hz
  obtain ⟨hm, hs, hv⟩ := hh hz
  cases c with
  | menvcfg => simp only [csrWrite]; split; exacts [⟨cbie_envcfgWrite_mem hz _ _ hm, hs, hv⟩, ⟨hm, hs, hv⟩]
  | senvcfg => simp only [csrWrite]; split; exacts [⟨hm, cbie_envcfgWrite_mem hz _ _ hs, hv⟩, ⟨hm, hs, hv⟩]
  | henvcfg => simp only [csrWrite]; split; exacts [⟨hm, hs, cbie_envcfgWrite_mem hz _ _ hv⟩, ⟨hm, hs, hv⟩]
  | menvcfgh => simp only [csrWrite]; split; exacts [⟨by rwa [cbie_writeHigh], hs, hv⟩, ⟨hm, hs, hv⟩]
  | henvcfgh => simp only [csrWrite]; split; exacts [⟨hm, hs, by rwa [cbie_writeHigh]⟩, ⟨hm, hs, hv⟩]
  | tselect => simp only [csrWrite]; split <;> exact ⟨hm, hs, hv⟩
  | _ => exact ⟨hm, hs, hv⟩

/-- `CBIE` is the same in a hart with the same three registers. -/
theorem CbieHeldLegal.congr {cfg : Config} {h h' : Hart} (hh : CbieHeldLegal cfg h) (hm : h'.csr.menvcfg = h.csr.menvcfg)
    (hs : h'.csr.senvcfg = h.csr.senvcfg) (hv : h'.csr.henvcfg = h.csr.henvcfg) : CbieHeldLegal cfg h' := by
  unfold CbieHeldLegal
  rw [hm, hs, hv]
  exact hh

/-- Every change a step makes to a hart keeps `CBIE` legal. -/
theorem hartInvariant_cbieHeldLegal (cfg : Config) : HartInvariant cfg (CbieHeldLegal cfg) where
  trap tick r h hh := by
    rcases trapEntry_cases cfg tick r h with ⟨-, he⟩ | ⟨-, -, he⟩ | ⟨-, -, he⟩ <;> rw [he] <;> exact hh.congr rfl rfl rfl
  advance h hh := hh.congr rfl rfl rfl
  lose h hh := hh.congr rfl rfl rfl
  host tick a h hh := by
    have hret : ∀ g : Hart, g.csr.menvcfg = h.csr.menvcfg → g.csr.senvcfg = h.csr.senvcfg → g.csr.henvcfg = h.csr.henvcfg →
        CbieHeldLegal cfg (returnTo cfg h g) := by
      intro g hm hs hv
      unfold returnTo
      split
      · exact hh.congr hm hs hv
      · exact hh
    have hwrite : ∀ rd v deps, CbieHeldLegal cfg (writeX cfg rd v deps h) := by
      intro rd v deps
      unfold writeX
      split <;> exact hh.congr rfl rfl rfl
    cases a with
    | writeX rd v deps => exact hwrite _ _ _
    | readCsr rd c => exact hwrite _ _ _
    | writeCsr c v => exact cbieHeldLegal_csrWrite tick c v hh
    | setPc v => simp only [hostHart]; split <;> exact hh.congr rfl rfl rfl
    | setMode m => simp only [hostHart]; split <;> exact hh.congr rfl rfl rfl
    | mret =>
      simp only [hostHart]
      split
      · exact hret _ rfl rfl rfl
      · exact hh
    | sret =>
      simp only [hostHart]
      split
      · exact hret _ rfl rfl rfl
      · exact hret _ rfl rfl rfl
      · exact hret _ rfl rfl rfl
      · exact hh
      · exact hh
    | _ => exact hh.congr rfl rfl rfl

/-- Settles O58: `CBIE` is legal in each hart after every change of it. -/
theorem stepKeepsCbieLegal : Obligations.StepKeepsCbieLegal := by
  intro s t hs h
  unfold CbieLegalEverywhere
  rw [(step_memoryStep h).cfg]
  exact (hartInvariant_cbieHeldLegal s.cfg).step hs h

/-! ### Writes of the control registers -/

/-- A bit of an `envcfg` register after a write of it (R37, R108, log entry 12). -/
theorem getBit_envcfgWrite (cfg : Config) (supported : List (BitVec 2)) (tick : Nat) (old v : Word) (n : Nat) (h : n ≠ 4 ∧ n ≠ 5) :
    getBit (envcfgWrite cfg supported tick old v) n =
      if n = 7 then cfg.hasZicboz && cbze v else if n = 6 then cfg.hasZicbom && cbcfe v
      else if getBit 0xE#64 n then getBit old n else getBit v n := by
  simp only [envcfgWrite]
  rw [getBit_setBit _ _ _ (by decide), getBit_setBit _ _ _ (by decide), getBit_setField2 _ _ _ (by decide), if_neg (c := 4 ≤ n ∧ _) (by omega),
    getBit_mergeBits]

/-- Settles O49: by the fields and the bits of the register after the write. -/
theorem controlRegisterWrites : Obligations.ControlRegisterWrites := by
  intro cfg supported tick old v hne
  have hbit := getBit_envcfgWrite cfg supported tick old v
  have hcbie := cbie_envcfgWrite cfg supported tick old v
  refine ⟨fun hz => ?_, fun hz => ?_, ?_, ?_, ?_, ?_⟩
  · rw [if_pos hz] at hcbie
    have hmem := cbieAfterWrite_mem tick (cbie old) (cbie v) hne
    rw [← hcbie, cbieLegal, List.mem_filter, decide_eq_true_eq] at hmem
    refine ⟨hmem.1, hmem.2, fun hv => ?_, ?_⟩
    · rw [hcbie, cbieAfterWrite, if_pos (by simpa using hv)]
    · rw [cbcfe, hbit 6 (by decide)]
      simp [hz]
  · rw [hcbie, cbcfe, hbit 6 (by decide)]
    simp [hz]
  · rw [cbze, hbit 7 (by decide)]
    rfl
  · refine BitVec.eq_of_getLsbD_eq fun i hi => ?_
    have h := hbit (1 + i) (by omega)
    have hmask : getBit 0xE#64 (1 + i) = true := by interval_cases i <;> decide
    rw [if_neg (by omega), if_neg (by omega), if_pos hmask] at h
    rw [BitVec.getLsbD_extractLsb', BitVec.getLsbD_extractLsb']
    exact congrArg (decide (i < 3) && ·) h
  · exact hbit 0 (by decide)
  · intro n hn
    have hmask : getBit 0xE#64 n = false := by
      have hlt : 14 < 2 ^ n := lt_of_lt_of_le (by decide) (Nat.pow_le_pow_right (by decide) hn)
      exact Nat.testBit_lt_two_pow hlt
    rw [hbit n (by omega), if_neg (by omega), if_neg (by omega), hmask]
    rfl

end Sys2Proof.Machine
end

section
/-!
SUPPORT. Every step keeps the history, with the operations that wait, a legal execution so far (R90 to R94, R206).
-/

namespace Sys2Proof.Machine

/-! ### Sources -/

/-- Which stores are issued is a matter of which operations there are, not of their order. -/
theorem SourcesIssued.of_mem_iff {ex ex' : List Event} (h : SourcesIssued ex) (hm : ∀ e, e ∈ ex' ↔ e ∈ ex) : SourcesIssued ex' := by
  intro r hr x o t hs
  obtain ⟨m, hmem, hn⟩ := h r ((hm r).1 hr) x o t hs
  exact ⟨m, (hm m).2 hmem, hn⟩

/-- Performing an operation does not change what it writes. -/
theorem storeValue?_performed (e : Event) (bytes : List Byte) (src : List Source) (x : Nat) :
    Event.storeValue? { e with op := e.op.performed bytes src } x = e.storeValue? x := by
  unfold Event.storeValue?
  cases e.op <;> rfl

theorem isStoreNamed_performed (e : Event) (bytes : List Byte) (src : List Source) (x o t : Nat) :
    Event.isStoreNamed x o t { e with op := e.op.performed bytes src } = e.isStoreNamed x o t := by
  unfold Event.isStoreNamed Event.writes
  rw [storeValue?_performed]

/-- A store with a value for the byte, its observer and its tick has the name of these. -/
theorem isStoreNamed_of_storeValue? {e : Event} {x o t : Nat} {v : Byte} (ho : e.obs = o) (ht : e.tick = t)
    (hv : e.storeValue? x = some v) : e.isStoreNamed x o t = true := by
  simp [Event.isStoreNamed, Event.writes, ho, ht, hv]

/-- An element of a list is the one at a place or one of the others. -/
theorem mem_iff_eraseIdx {α : Type} {l : List α} {n : Nat} {a : α} (h : l[n]? = some a) (m : α) : m ∈ l ↔ m = a ∨ m ∈ l.eraseIdx n := by
  obtain ⟨hn, rfl⟩ := List.getElem?_eq_some_iff.1 h
  rw [← (List.getElem_cons_eraseIdx_perm hn).mem_iff, List.mem_cons]

/-- A byte and its source at one place of a load's lists. -/
theorem mem_zip_zipIdx {bytes : List Byte} {src : List Source} {i : Nat} {v : Byte} {w : Source} (hv : bytes[i]? = some v)
    (hw : src[i]? = some w) : ((v, w), i) ∈ (bytes.zip src).zipIdx := by
  rw [List.mem_zipIdx_iff_getElem?, List.getElem?_zip_eq_some]
  exact ⟨hv, hw⟩

/-- In a legal execution every byte that a hart's load returned is one it may return (R76, R92). -/
theorem mem_allowed_of_loadOk {cfg : Config} {init : Memory} {before after : List Event} {r : Event} {a n : Nat} {bytes : List Byte}
    {src : List Source} (h : loadOk cfg init before after r = true) (hop : r.op = .load a n bytes src)
    (hr : cfg.harts.contains r.obs = true) {i : Nat} {v : Byte} {w : Source} (hv : bytes[i]? = some v) (hw : src[i]? = some w) :
    (v, w) ∈ allowed cfg init before after r (a + i) := by
  unfold loadOk at h
  simp only [hop, hr, Bool.not_true, Bool.false_or] at h
  have := List.all_eq_true.1 h _ (mem_zip_zipIdx hv hw)
  simpa using this

/-- The source that a load names when it is performed is a store among the other operations: the load value rules find it for a hart's
load, and the bytes of another observer's come from the history (R92, R206 (2)). -/
theorem source_of_performed {s : State} {e : Event} {rest : List Event} (hok : returnOk s e = true)
    (hlegal : LegalSoFar s.cfg s.initMem (s.history ++ [e]) rest) {x o t : Nat} (hs : sourceOf e x = some (some (o, t))) :
    ∃ m ∈ s.history ++ rest, m.isStoreNamed x o t = true := by
  obtain ⟨-, hloads, -⟩ := hlegal
  rw [List.append_assoc, List.singleton_append] at hloads
  have hload := loadOk_of_loadValuesOk hloads
  rw [List.nil_append] at hload
  unfold sourceOf at hs
  split at hs
  next a n bytes src hop =>
    split at hs
    next hax =>
      simp only [returnOk, hop, Bool.and_eq_true, decide_eq_true_eq, Bool.or_eq_true] at hok
      obtain ⟨⟨hbytes, hsrc⟩, hret⟩ := hok
      obtain ⟨hlt, -⟩ := List.getElem?_eq_some_iff.1 hs
      have hv : bytes[x - a]? = some bytes[x - a] := List.getElem?_eq_getElem (by omega)
      rcases hret with hh | hret
      · have hmem := mem_allowed_of_loadOk hload hop hh hv hs
        rw [Nat.add_sub_cancel' hax] at hmem
        rcases source_of_allowed hmem with hinit | ⟨m, hm, hmv, hms⟩
        · cases congrArg Prod.snd hinit
        · obtain ⟨rfl, rfl⟩ := Prod.mk.inj (Option.some.inj hms)
          exact ⟨m, hm, isStoreNamed_of_storeValue? rfl rfl hmv⟩
      · have hb := List.all_eq_true.1 hret _ (mem_zip_zipIdx hv hs)
        simp only [Nat.add_sub_cancel' hax, Bool.and_eq_true, sourceOk, List.any_eq_true, decide_eq_true_eq] at hb
        obtain ⟨⟨m, hm, ⟨ho, ht⟩, hmv⟩, -⟩ := hb
        exact ⟨m, List.mem_append_left _ hm, isStoreNamed_of_storeValue? ho ht hmv⟩
    next => cases hs
  next => cases hs

/-! ### What keeps the history legal -/

/-- A change of anything else. -/
theorem HistoryLegal.congr {s t : State} (h : HistoryLegal s) (hc : t.cfg = s.cfg) (hi : t.initMem = s.initMem)
    (hh : t.history = s.history) (hp : t.pending = s.pending) (ht : s.tick ≤ t.tick) : HistoryLegal t := by
  obtain ⟨hpast, hsrc, hlegal⟩ := h
  refine ⟨fun e he => ?_, ?_, ?_⟩
  · rw [hh, hp] at he
    exact (hpast e he).trans_le ht
  · rwa [hh, hp]
  · rwa [hc, hi, hh, hp]

/-- The operations there are after some were issued. -/
theorem mem_issue (es : List Event) (s : State) (e : Event) :
    e ∈ (Machine.issue es s).history ++ (Machine.issue es s).pending ↔ e ∈ s.history ++ s.pending ++ es := by
  cases ha : atOnce s with
  | true => simp [ha, (atOnce_iff.1 ha).2]
  | false => simp [ha]

/-- Operations issued at a step, none of them a load or paired, and a new tick. -/
theorem HistoryLegal.of_issue {s t : State} (h : HistoryLegal s) {es : List Event}
    (hl : ∀ e ∈ es, e.tick = s.tick ∧ e.isLoad = false ∧ e.tags.pair = none) (hc : t.cfg = s.cfg) (hi : t.initMem = s.initMem)
    (hh : t.history = (Machine.issue es s).history) (hp : t.pending = (Machine.issue es s).pending) (ht : t.tick = s.tick + 1) :
    HistoryLegal t := by
  refine ⟨fun e he => ?_, ?_, ?_⟩
  · rw [hh, hp, mem_issue, List.mem_append] at he
    rcases he with he | he
    · have := h.past e he; omega
    · have := (hl e he).1; omega
  · rw [hh, hp]
    exact (h.sources.append fun e he => sourceOf_of_silent (.inl (hl e he).2.1)).of_mem_iff (mem_issue es s)
  · rw [hc, hi, hh, hp]
    exact h.issue hl

/-- An operation of an observer that begins to wait, and a new tick. -/
theorem HistoryLegal.of_hold {s t : State} (h : HistoryLegal s) {e : Event} (het : e.tick = s.tick)
    (hl : e.isLoad = false ∨ ∃ a n, e.op = .load a n [] []) (hc : t.cfg = s.cfg) (hi : t.initMem = s.initMem)
    (hh : t.history = s.history) (hp : t.pending = s.pending ++ [e]) (ht : t.tick = s.tick + 1) : HistoryLegal t := by
  have hsilent : ∀ e' ∈ [e], ∀ x, sourceOf e' x = none := by simpa using sourceOf_of_silent hl
  refine ⟨fun e' he => ?_, ?_, ?_⟩
  · rw [hh, hp, ← List.append_assoc, List.mem_append, List.mem_singleton] at he
    rcases he with he | rfl
    · have := h.past e' he; omega
    · omega
  · rw [hh, hp, ← List.append_assoc]
    exact h.sources.append hsilent
  · rw [hc, hi, hh, hp]
    exact legalSoFar_wait h.legal h.sources h.past (by simpa using ⟨het, hl⟩)

/-- Performing an operation that waits: its source, where it is a load, is among the others, and a store is still the source it was. -/
theorem HistoryLegal.perform {s : State} (h : HistoryLegal s) (n : Nat) (bytes : List Byte) (src : List Source) :
    HistoryLegal (perform n bytes src s) := by
  rcases perform_cases n bytes src s with hp | ⟨e, he, hok, hlegal, hp⟩
  · rwa [hp]
  have hmem := mem_iff_eraseIdx he
  rw [hp]
  refine ⟨fun m hm => ?_, fun r hr x o t hs => ?_, hlegal⟩
  · simp only [List.append_assoc, List.singleton_append, List.mem_append, List.mem_cons] at hm
    have hpast : ∀ m, m ∈ s.history ∨ m ∈ s.pending → m.tick < s.tick := fun m hm => h.past m (List.mem_append.2 hm)
    rcases hm with hm | rfl | hm
    · exact hpast m (.inl hm)
    · exact hpast e (.inr ((hmem e).2 (.inl rfl)))
    · exact hpast m (.inr ((hmem m).2 (.inr hm)))
  · simp only [List.append_assoc, List.singleton_append, List.mem_append, List.mem_cons] at hr ⊢
    have hold : r ∈ s.history ++ s.pending → ∃ m, (m ∈ s.history ∨ m = { e with op := e.op.performed bytes src } ∨
        m ∈ s.pending.eraseIdx n) ∧ m.isStoreNamed x o t = true := by
      intro hr
      obtain ⟨m, hm, hn⟩ := h.sources r hr x o t hs
      rcases List.mem_append.1 hm with hm | hm
      · exact ⟨m, .inl hm, hn⟩
      · rcases (hmem m).1 hm with rfl | hm
        · exact ⟨_, .inr (.inl rfl), by rwa [isStoreNamed_performed]⟩
        · exact ⟨m, .inr (.inr hm), hn⟩
    rcases hr with hr | rfl | hr
    · exact hold (List.mem_append_left _ hr)
    · obtain ⟨m, hm, hn⟩ := source_of_performed hok hlegal hs
      exact ⟨m, (List.mem_append.1 hm).imp id .inr, hn⟩
    · exact hold (List.mem_append_right _ ((hmem r).2 (.inr hr)))

/-- Overtaking changes the order of the operations that wait, not which there are. -/
theorem HistoryLegal.overtake {s : State} (h : HistoryLegal s) (n : Nat) : HistoryLegal (overtake n s) := by
  rcases overtake_cases n s with ho | ⟨hlegal, ho⟩
  · rwa [ho]
  have hmem : ∀ e, e ∈ s.history ++ swapAt n s.pending ↔ e ∈ s.history ++ s.pending := fun e => by
    rw [List.mem_append, List.mem_append, (swapAt_perm n s.pending).mem_iff]
  rw [ho]
  exact ⟨fun e he => h.past e ((hmem e).1 he), h.sources.of_mem_iff hmem, hlegal⟩

/-! ### The operations of instructions -/

/-- The operation of a management instruction is of its tick, no load and not paired (R94). -/
theorem blockOp_event_silent (op : BlockOp) (b o n : Nat) (h : Hart) (rs1 : Reg) :
    ∀ e ∈ [({ obs := o, tick := n, op := op.event b, tags := cmoTags h rs1 } : Event)],
      e.tick = n ∧ e.isLoad = false ∧ e.tags.pair = none := by
  intro e he
  rw [List.mem_singleton.1 he]
  exact ⟨rfl, by cases op <;> rfl, rfl⟩

/-- So are the stores of `CBO.ZERO`. -/
theorem zeroEvents_silent (o n : Nat) (h : Hart) (rs1 : Reg) (addrs : List Nat) :
    ∀ e ∈ zeroEvents o n (cmoTags h rs1) addrs, e.tick = n ∧ e.isLoad = false ∧ e.tags.pair = none := by
  intro e he
  obtain ⟨a, -, rfl⟩ := List.mem_map.1 he
  exact ⟨rfl, rfl, rfl⟩

/-- So is a `FENCE`. -/
theorem fence_silent (o n : Nat) (p q : FenceSet) :
    ∀ e ∈ [({ obs := o, tick := n, op := .fence p q, tags := Tags.plain } : Event)],
      e.tick = n ∧ e.isLoad = false ∧ e.tags.pair = none := by
  intro e he
  rw [List.mem_singleton.1 he]
  exact ⟨rfl, rfl, rfl⟩

theorem HistoryLegal.exec {i : Instr} {s t : State} (h : HistoryLegal s) (hx : exec i s = .next t) : HistoryLegal t := by
  have htick : s.tick ≤ s.tick + 1 := Nat.le_succ _
  rcases exec_cases hx with rfl | ⟨c, g, ea, n, -, rfl⟩ | ⟨op, pa, rs1, rfl⟩ | ⟨pa, rs1, rfl⟩ | rfl | ⟨pa, rfl⟩
  · exact h.congr rfl rfl rfl rfl htick
  · exact h.congr rfl rfl rfl rfl htick
  · exact h.of_issue (blockOp_event_silent op _ _ _ _ rs1) rfl rfl rfl rfl rfl
  · exact h.of_issue (zeroEvents_silent _ _ _ rs1 _) rfl rfl rfl rfl rfl
  · exact h.congr rfl rfl rfl rfl htick
  · exact h.congr rfl rfl rfl rfl htick

theorem HistoryLegal.applyMove {s : State} (h : HistoryLegal s) (m : Move) : HistoryLegal (applyMove m s) := by
  have htick : s.tick ≤ s.tick + 1 := Nat.le_succ _
  have hsame : HistoryLegal { s with tick := s.tick + 1 } := h.congr rfl rfl rfl rfl htick
  cases m with
  | schedule o => simp only [Machine.applyMove, move, schedule]; split <;> exact h.congr rfl rfl rfl rfl htick
  | allocate c b => exact h.congr rfl rfl rfl rfl htick
  | deallocate c b dest => exact h.congr rfl rfl rfl rfl htick
  | writeBack c b => exact h.congr rfl rfl rfl rfl htick
  | load o a n tags =>
    simp only [Machine.applyMove, move, loadMove]
    split
    · exact h.of_hold (e := { obs := o, tick := s.tick, op := .load a n [] [], tags := tags }) rfl (.inr ⟨a, n, rfl⟩) rfl rfl rfl rfl rfl
    · exact hsame
  | store o a bs tags =>
    simp only [Machine.applyMove, move, storeMove]
    split
    · exact h.of_hold (e := { obs := o, tick := s.tick, op := .store a bs, tags := tags }) rfl (.inl rfl) rfl rfl rfl rfl rfl
    · exact hsame
  | perform n bs src => exact (h.perform n bs src).congr rfl rfl rfl rfl (Nat.le_succ _)
  | overtake n => exact (h.overtake n).congr rfl rfl rfl rfl (Nat.le_succ _)
  | defer b => exact h.congr rfl rfl rfl rfl htick
  | host a =>
    by_cases ha : ∃ q r, a = .fence q r
    · obtain ⟨q, r, rfl⟩ := ha
      exact h.of_issue (fence_silent s.hart.id s.tick q r) rfl rfl rfl rfl rfl
    · rw [Machine.applyMove, move, hostMove_of_not_fence s (fun q r he => ha ⟨q, r, he⟩)]
      exact h.congr rfl rfl rfl rfl htick

/-- Settles O59: operations are issued behind all others, and performed or exchanged only where the execution stays legal. -/
theorem stepKeepsHistoryLegal : Obligations.StepKeepsHistoryLegal := by
  intro s t h hstep
  have hrest : ∀ rest, HistoryLegal { s with inputs := rest } := fun rest => h.congr rfl rfl rfl rfl (Nat.le_refl _)
  rcases step_cases hstep with ⟨m, rest, -, rfl⟩ | ⟨rest, -, hrun⟩
  · exact (hrest rest).applyMove m
  · rcases runNext_cases hrun with ⟨w, -, ⟨i, -, hx⟩ | ⟨-, rfl⟩ | ⟨-, rfl⟩ | ⟨p, q, -, rfl⟩⟩
    · exact (hrest rest).exec hx
    · exact h.congr rfl rfl rfl rfl (Nat.le_succ _)
    · exact h.congr rfl rfl rfl rfl (Nat.le_succ _)
    · exact (hrest rest).of_issue (fence_silent s.hart.id s.tick (fenceSet p) (fenceSet q)) rfl rfl rfl rfl rfl

end Sys2Proof.Machine
end

section
/-!
SUPPORT. The latest store is what is seen, and what memory holds while the block is not dirty, through every operation and every move of
a cache (R60, R64 to R68, R121, R122).
-/

namespace Sys2Proof.Machine

/-! ### What is seen at one address -/

/-- The observer sees the byte at the address, and memory holds it unless the block is dirty for the observer's set. -/
structure SeenAs (cfg : Config) (ms : MemSys) (o a : Nat) (w : Byte) : Prop where
  sees   : viewOf cfg ms o a = w
  memory : isDirty ms (cohAt cfg a o) (blkBase a (cbsM cfg)) = false → Memory.read ms.mem a = w

/-- Addresses of one block have the same sets for the cache block. -/
theorem cohAt_congr {cfg : Config} {a x : Nat} (h : blkBase x (cbsM cfg) = blkBase a (cbsM cfg)) (o : Nat) :
    cohAt cfg x o = cohAt cfg a o := by
  unfold cohAt
  rw [h]

/-- Where a cache can hold the block, the set for the block is that for the address. -/
theorem cohAt_eq_cohSetOf {cfg : Config} {a : Nat} (hc : cacheable cfg (blkBase a (cbsM cfg)) = true) (o : Nat) :
    cohAt cfg a o = cohSetOf cfg a o :=
  (cohSetOf_of_cacheable hc (blkBase_le a _) (lt_blkBase_add a (cbsM_pos cfg)) o).symm

/-! ### Stores -/

theorem isDirty_storeBy_otherBlock {cfg : Config} {ms : MemSys} {o x : Nat} {v : Byte} {k : CohSet} {b : Nat}
    (h : b ≠ blkBase x (cbsM cfg)) : isDirty (storeBy cfg o x v ms) k b = isDirty ms k b := by
  rw [Bool.eq_iff_iff, isDirty_storeBy]
  exact or_iff_left fun hd => h hd.2.2

/-- After a store by an observer of the same set, or outside the block, or to a block that no cache can hold. -/
theorem SeenAs.storeBy {cfg : Config} {ms : MemSys} {o a : Nat} {w : Byte} (h : SeenAs cfg ms o a w) (hw : LinesWhole cfg ms)
    {o' x : Nat} (v : Byte) (hcoh : blkBase x (cbsM cfg) = blkBase a (cbsM cfg) → cacheable cfg (blkBase a (cbsM cfg)) = true →
      cohAt cfg a o' = cohAt cfg a o) :
    SeenAs cfg (storeBy cfg o' x v ms) o a (if x = a then v else w) := by
  by_cases hb : blkBase x (cbsM cfg) = blkBase a (cbsM cfg)
  · cases hc : cacheable cfg (blkBase a (cbsM cfg)) with
    | true =>
      have hk := hcoh hb hc
      constructor
      · unfold viewOf
        rw [← hk]
        split
        next hx => subst hx; exact viewOf_storeBy_same hw o' x v
        next hx =>
          rw [view_storeBy_other ms o' v (Ne.symm hx), hk]
          exact h.sees
      · intro hd
        have hnot := Bool.eq_false_iff.1 hd
        rw [ne_eq, isDirty_storeBy, not_or] at hnot
        obtain ⟨hclean, huncached⟩ := hnot
        have hcan : ¬ canCache cfg ms (blkBase x (cbsM cfg)) o' = true :=
          fun hcan => huncached ⟨hcan, by rw [← hk, cohAt_congr hb], hb.symm⟩
        rw [storeBy_uncached_mem hcan]
        split
        next hx => subst hx; exact Memory.read_write_same _ _ _
        next hx =>
          rw [Memory.read_write_other _ _ (Ne.symm hx)]
          exact h.memory (Bool.eq_false_iff.2 hclean)
    | false =>
      have hcan : ¬ canCache cfg ms (blkBase x (cbsM cfg)) o' = true := fun hcan => by
        rw [hb] at hcan
        rw [cacheable_of_canCache hcan] at hc
        cases hc
      have hmem : Memory.read (Machine.storeBy cfg o' x v ms).mem a = if x = a then v else w := by
        rw [storeBy_uncached_mem hcan]
        split
        next hx => subst hx; exact Memory.read_write_same _ _ _
        next hx =>
          rw [Memory.read_write_other _ _ (Ne.symm hx), ← h.sees]
          exact (view_of_uncacheable hc).symm
      exact ⟨(view_of_uncacheable hc).trans hmem, fun _ => hmem⟩
  · have hx : ¬ x = a := fun he => hb (he ▸ rfl)
    rw [if_neg hx]
    constructor
    · exact (view_storeBy_otherBlock ms o' v _ (Ne.symm hb)).trans h.sees
    · rw [isDirty_storeBy_otherBlock (Ne.symm hb), mem_storeBy_other ms o' v (Ne.symm hx)]
      exact h.memory

/-- The value that a store of bytes from address `a0` on writes to a byte. -/
def storedByte (a0 : Nat) (vs : List Byte) (x : Nat) : Option Byte :=
  if a0 ≤ x then vs[x - a0]? else none

theorem storedByte_nil (a0 x : Nat) : storedByte a0 [] x = none := by simp [storedByte]

theorem storedByte_cons (a0 : Nat) (v : Byte) (vs : List Byte) (x : Nat) :
    storedByte a0 (v :: vs) x = if a0 = x then some v else storedByte (a0 + 1) vs x := by
  unfold storedByte
  by_cases hx : a0 = x
  · subst hx; simp
  · by_cases hle : a0 ≤ x
    · obtain ⟨d, rfl⟩ := Nat.exists_eq_add_of_lt (Nat.lt_of_le_of_ne hle hx)
      rw [if_pos hle, if_neg hx, if_pos (by omega), show a0 + d + 1 - a0 = d + 1 by omega, show a0 + d + 1 - (a0 + 1) = d by omega,
        List.getElem?_cons_succ]
    · rw [if_neg hle, if_neg hx, if_neg (by omega)]

/-- After a store of bytes, each by an observer of the same set where it is in the block. -/
theorem SeenAs.storeBytesBy {cfg : Config} {ms : MemSys} {o a : Nat} {w : Byte} (h : SeenAs cfg ms o a w) (hw : LinesWhole cfg ms)
    {o' : Nat} (a0 : Nat) (vs : List Byte) (hcoh : ∀ x, (storedByte a0 vs x).isSome = true →
      blkBase x (cbsM cfg) = blkBase a (cbsM cfg) → cacheable cfg (blkBase a (cbsM cfg)) = true → cohAt cfg a o' = cohAt cfg a o) :
    SeenAs cfg (storeBytesBy cfg o' a0 vs ms) o a ((storedByte a0 vs a).getD w) := by
  induction vs generalizing a0 ms w with
  | nil => rw [storedByte_nil]; exact h
  | cons v vs ih =>
    have hnot : storedByte (a0 + 1) vs a0 = none := if_neg (by omega)
    have h1 := h.storeBy hw v (hcoh a0 (by rw [storedByte_cons, if_pos rfl]; rfl))
    have h2 := ih h1 (storeBy_whole hw o' a0 v) (a0 + 1) fun x hx =>
      hcoh x (by rw [storedByte_cons]; split; exacts [rfl, hx])
    rw [storedByte_cons]
    by_cases hx : a0 = a
    · subst hx
      rw [if_pos rfl, hnot] at h2
      rw [if_pos rfl]
      exact h2
    · rw [if_neg hx] at h2 ⊢
      exact h2

/-! ### Invalidate, clean, flush -/

/-- After an invalidate of another block, or by another set. -/
theorem SeenAs.invalidateBlock {cfg : Config} {ms : MemSys} {o a : Nat} {w : Byte} (h : SeenAs cfg ms o a w) {k : CohSet} {b : Nat}
    (hne : blkBase a (cbsM cfg) ≠ b ∨ cohAt cfg a o ≠ k) : SeenAs cfg (invalidateBlock cfg k b ms) o a w := by
  constructor
  · exact (view_invalidate_other ms hne).trans h.sees
  · rw [isDirty_invalidate_other ms (by rw [ne_eq, Prod.mk.injEq]; tauto), invalidateBlock_mem]
    exact h.memory

/-- What a set sees in a block that is not the one cleaned. -/
theorem view_cleanBlock_otherBlock {cfg : Config} (ms : MemSys) (k k' : CohSet) {a b : Nat} (hb : b % cbsM cfg = 0)
    (h : blkBase a (cbsM cfg) ≠ b) : view cfg (cleanBlock cfg k b ms) k' a = view cfg ms k' a := by
  unfold view
  rw [heldCopy_cleanBlock, mem_cleanBlock_other ms k hb h]

/-- A clean of a block that no cache can hold, or that is not dirty, does nothing. -/
theorem cleanBlock_of_clean {cfg : Config} {ms : MemSys} {k : CohSet} {b : Nat} (h : ¬ (cacheable cfg b = true ∧ isDirty ms k b = true)) :
    cleanBlock cfg k b ms = ms := by
  unfold cleanBlock
  rw [if_neg (by simpa using h)]

/-- After a clean, where no other set has the block dirty. -/
theorem SeenAs.cleanBlock {cfg : Config} {ms : MemSys} {o a : Nat} {w : Byte} (h : SeenAs cfg ms o a w) (hs : SysCoherent cfg ms)
    {k : CohSet} {b : Nat} (hb : b % cbsM cfg = 0)
    (hk : blkBase a (cbsM cfg) = b → cacheable cfg b = true → isDirty ms k b = true → k = cohAt cfg a o) :
    SeenAs cfg (cleanBlock cfg k b ms) o a w := by
  by_cases hd : cacheable cfg b = true ∧ isDirty ms k b = true
  · by_cases hab : blkBase a (cbsM cfg) = b
    · obtain rfl := hk hab hd.1 hd.2
      have hview : viewOf cfg (Machine.cleanBlock cfg (cohAt cfg a o) b ms) o a = w := (view_cleanBlock_own hs _ hb a).trans h.sees
      refine ⟨hview, fun _ => ?_⟩
      subst hab
      rw [mem_cleanBlock_same, if_pos (by simpa using hd)]
      exact h.sees
    · constructor
      · exact (view_cleanBlock_otherBlock ms k _ hb hab).trans h.sees
      · rw [isDirty_clean_other ms (by rw [ne_eq, Prod.mk.injEq]; tauto), mem_cleanBlock_other ms k hb hab]
        exact h.memory
  · rwa [cleanBlock_of_clean hd]

/-- After a flush, where no other set has the block dirty: memory has the data before the set gives its copies up. -/
theorem SeenAs.flushBlock {cfg : Config} {ms : MemSys} {o a : Nat} {w : Byte} (h : SeenAs cfg ms o a w) (hs : SysCoherent cfg ms)
    {k : CohSet} {b : Nat} (hb : b % cbsM cfg = 0)
    (hk : blkBase a (cbsM cfg) = b → cacheable cfg b = true → isDirty ms k b = true → k = cohAt cfg a o) :
    SeenAs cfg (flushBlock cfg k b ms) o a w := by
  have hclean := h.cleanBlock hs hb hk
  by_cases hne : blkBase a (cbsM cfg) ≠ b ∨ cohAt cfg a o ≠ k
  · exact hclean.invalidateBlock hne
  · obtain ⟨rfl, rfl⟩ := not_or.1 hne |>.imp not_not.1 not_not.1
    cases hc : cacheable cfg (blkBase a (cbsM cfg)) with
    | true =>
      have hmem := hclean.memory (isDirty_clean_same ms hc)
      refine ⟨(view_invalidate_same _ _ a).trans hmem, fun _ => ?_⟩
      rwa [flushBlock_mem]
    | false =>
      unfold Machine.flushBlock Machine.invalidateBlock
      rwa [if_neg (by simp [hc])]

/-! ### The caches' own moves -/

theorem SeenAs.allocateLine {cfg : Config} {ms : MemSys} {o a : Nat} {w : Byte} (h : SeenAs cfg ms o a w) (hs : SysCoherent cfg ms)
    (i b : Nat) : SeenAs cfg (allocateLine cfg i b ms) o a w := by
  constructor
  · exact (view_allocateLine hs i b _ a).trans h.sees
  · unfold isDirty
    rw [allocateLine_dirty, allocateLine_mem]
    exact h.memory

theorem SeenAs.transferLine {cfg : Config} {ms : MemSys} {o a : Nat} {w : Byte} (h : SeenAs cfg ms o a w) (hs : SysCoherent cfg ms)
    (k : CohSet) (i b : Nat) (dest : Option Nat) : SeenAs cfg (transferLine cfg k i b dest ms) o a w := by
  unfold Machine.transferLine
  split
  · exact h
  · split
    · exact h.allocateLine hs _ b
    · exact h

/-- What is seen when copies are given up and no dirty block loses its last one: another copy, or memory, which holds the same. -/
theorem SeenAs.of_fewer_copies {cfg : Config} {ms ms' : MemSys} {o a : Nat} {w : Byte} (h : SeenAs cfg ms o a w)
    (hm : ms'.mem = ms.mem) (hd : ms'.dirty = ms.dirty) (hheld : DirtyHeld cfg ms')
    (hcopy : ∀ k b d, heldCopy cfg ms' k b = some d → heldCopy cfg ms k b = some d) : SeenAs cfg ms' o a w := by
  have hdirty : ∀ k b, isDirty ms' k b = isDirty ms k b := fun k b => by rw [isDirty, isDirty, hd]
  refine ⟨?_, by rw [hdirty, hm]; exact h.memory⟩
  cases hc : heldCopy cfg ms' (cohAt cfg a o) (blkBase a (cbsM cfg)) with
  | some d =>
    rw [← h.sees]
    unfold viewOf view
    rw [hc, hcopy _ _ _ hc, hm]
  | none =>
    have hclean : isDirty ms' (cohAt cfg a o) (blkBase a (cbsM cfg)) = false := by
      refine Bool.eq_false_iff.2 fun hdt => ?_
      have := hheld _ _ (isDirty_iff.1 hdt)
      rw [hc] at this
      cases this
    rw [viewOf, view_of_none hc, hm]
    exact h.memory (by rwa [← hdirty])

/-- A copy that a set still sees when a cache has given one up is one it saw before. -/
theorem heldCopy_of_dropAt {cfg : Config} {ms : MemSys} (ha : CopiesAgree cfg ms) {i b0 : Nat} {k : CohSet} {b : Nat} {d : List Byte}
    (h : heldCopy cfg (dropAt i b0 ms) k b = some d) : heldCopy cfg ms k b = some d := by
  obtain ⟨c, hc, hr, hd⟩ := exists_of_heldIn h
  rcases mem_dropAt hc with hc | ⟨c0, hc0, rfl⟩
  · exact heldCopy_of_mem ha hc hr hd
  · rw [get?_dropLine] at hd
    split at hd
    · cases hd
    · exact heldCopy_of_mem ha hc0 (by rwa [← reaches_congr (dropLine_serves b0 c0)]) hd

theorem SeenAs.deallocateLine {cfg : Config} {ms : MemSys} {o a : Nat} {w : Byte} (h : SeenAs cfg ms o a w) (hs : SysCoherent cfg ms)
    (i b : Nat) (dest : Option Nat) : SeenAs cfg (deallocateLine cfg i b dest ms) o a w := by
  have hheld := (hs.deallocateLine i b dest).held
  rcases deallocateLine_cases cfg i b dest ms with he | ⟨c, -, ⟨-, he⟩ | ⟨-, -, he⟩⟩
  · rwa [he]
  · rw [he] at hheld ⊢
    exact h.of_fewer_copies rfl rfl hheld fun _ _ _ => heldCopy_of_dropAt hs.agree
  · rw [he] at hheld ⊢
    exact (h.transferLine hs _ i b dest).of_fewer_copies rfl rfl hheld
      fun _ _ _ => heldCopy_of_dropAt (hs.transferLine _ i b dest).agree

/-- A write-back is a clean of the block for the cache's own set, or nothing (R66, R121). -/
theorem writeBackLine_eq_cleanBlock {cfg : Config} {ms : MemSys} (hs : SysCoherent cfg ms) (i b : Nat) :
    writeBackLine cfg i b ms = ms ∨ ∃ c, ms.caches[i]? = some c ∧ b % cbsM cfg = 0 ∧ cacheable cfg b = true ∧
      isDirty ms (setOfCache cfg b c) b = true ∧ writeBackLine cfg i b ms = cleanBlock cfg (setOfCache cfg b c) b ms := by
  rcases writeBackLine_cases cfg i b ms with he | ⟨c, d, hc, hd, hmay, hr, hdirty, he⟩
  · exact .inl he
  · obtain ⟨hb, hcache, -⟩ := mayHold_iff.1 hmay
    have hcopy := heldCopy_of_mem hs.agree (List.mem_of_getElem? hc) hr hd
    refine .inr ⟨c, hc, hb, hcache, hdirty, ?_⟩
    unfold cleanBlock
    rw [he, if_pos (by simp [hcache, hdirty]), blockView_of_held hs.whole hcache hb hcopy]

/-! ### The store-since-write state -/

/-- The blocks that a store of bytes makes dirty (R33). -/
theorem isDirty_of_storeBytesBy {cfg : Config} {o : Nat} {k : CohSet} {b : Nat} (a0 : Nat) (vs : List Byte) {ms : MemSys}
    (h : isDirty (storeBytesBy cfg o a0 vs ms) k b = true) :
    isDirty ms k b = true ∨ ∃ x, (storedByte a0 vs x).isSome = true ∧ blkBase x (cbsM cfg) = b ∧ cohSetOf cfg b o = k := by
  induction vs generalizing a0 ms with
  | nil => exact .inl h
  | cons v vs ih =>
    rcases ih (a0 + 1) h with h | ⟨x, hx, hb, hk⟩
    · rcases isDirty_storeBy.1 h with h | ⟨-, rfl, rfl⟩
      · exact .inl h
      · exact .inr ⟨a0, by rw [storedByte_cons, if_pos rfl]; rfl, rfl, rfl⟩
    · exact .inr ⟨x, by rw [storedByte_cons]; split; exacts [rfl, hx], hb, hk⟩

theorem isDirty_of_invalidateBlock {cfg : Config} {k k' : CohSet} {b b' : Nat} {ms : MemSys}
    (h : isDirty (invalidateBlock cfg k b ms) k' b' = true) : isDirty ms k' b' = true := by
  unfold invalidateBlock at h
  split at h
  · exact isDirty_iff.2 (mem_clearDirty.1 (isDirty_iff.1 h)).1
  · exact h

theorem isDirty_of_cleanBlock {cfg : Config} {k k' : CohSet} {b b' : Nat} {ms : MemSys}
    (h : isDirty (cleanBlock cfg k b ms) k' b' = true) : isDirty ms k' b' = true := by
  unfold cleanBlock at h
  split at h
  · exact isDirty_iff.2 (mem_clearDirty.1 (isDirty_iff.1 h)).1
  · exact h

/-- A block that is dirty after an operation was dirty before, or the operation is a store to it (R33). -/
theorem isDirty_of_effect {cfg : Config} {e : Event} {k : CohSet} {b : Nat} {ms : MemSys}
    (h : isDirty (e.op.effect cfg e.obs ms) k b = true) :
    isDirty ms k b = true ∨ ∃ x, blkBase x (cbsM cfg) = b ∧ e.writes x = true ∧ cohSetOf cfg b e.obs = k := by
  unfold MemOp.effect at h
  split at h
  next => exact .inl h
  next a vs hop =>
    refine (isDirty_of_storeBytesBy a vs h).imp id fun ⟨x, hx, hb, hk⟩ => ⟨x, hb, ?_, hk⟩
    simpa [Event.writes, Event.storeValue?, hop, storedByte] using hx
  next => exact .inl (isDirty_of_invalidateBlock h)
  next => exact .inl (isDirty_of_cleanBlock h)
  next => exact .inl (isDirty_of_cleanBlock (isDirty_of_invalidateBlock h))
  next => exact .inl h

/-! ### One operation after another -/

/-- The state after an operation is performed, as far as what is seen depends on it. -/
def afterEvent (s : State) (e : Event) : State :=
  { s with history := s.history ++ [e], sys := e.op.effect s.cfg e.obs s.sys }

/-- What is seen depends on the platform, the initial data, the history and the memory system only. -/
theorem LatestSeen.congr {s t : State} (h : LatestSeen s) (hc : t.cfg = s.cfg) (hi : t.initMem = s.initMem)
    (hh : t.history = s.history) (hs : t.sys = s.sys) : LatestSeen t := by
  obtain ⟨hcoh, hst, hseen⟩ := h
  unfold CachesCoherent at hcoh
  unfold DirtyStored at hst
  unfold Undisturbed latestStore at hseen
  refine ⟨?_, ?_, ?_⟩
  · unfold CachesCoherent; rwa [hc, hs]
  · unfold DirtyStored; rwa [hc, hs, hh]
  · unfold Undisturbed latestStore; rwa [hc, hs, hh, hi]

/-- The latest store after one more operation. -/
theorem latestStore_afterEvent (s : State) (e : Event) (a : Nat) :
    latestStore (afterEvent s e) a = (e.storeValue? a).getD (latestStore s a) := by
  unfold latestStore afterEvent valuesOf
  rw [List.filterMap_append]
  cases h : e.storeValue? a with
  | none => simp [h]
  | some v => simp [h]

/-- What an undisturbed location was before the latest operation, and what that operation was not. -/
theorem Undisturbed.of_afterEvent {s : State} {e : Event} {o a : Nat} (h : Undisturbed (afterEvent s e) o a) :
    Undisturbed s o a ∧
      (∀ x, blkBase x (cbsM s.cfg) = blkBase a (cbsM s.cfg) → e.writes x = true → coherentAt s.cfg a o e.obs = true) ∧
      ∀ b, e.op = .invalidate b → blkBase b (cbsM s.cfg) ≠ blkBase a (cbsM s.cfg) := by
  obtain ⟨hst, hin⟩ := h
  have hmem : e ∈ s.history ++ [e] := List.mem_append_right _ (List.mem_singleton_self e)
  exact ⟨⟨fun e he => hst e (List.mem_append_left _ he), fun e he => hin e (List.mem_append_left _ he)⟩, hst e hmem, hin e hmem⟩

/-- Where a cache can hold the block, observers coherent for a location are of one set for its block. -/
theorem cohAt_of_coherentAt {cfg : Config} {a o o' : Nat} (hc : cacheable cfg (blkBase a (cbsM cfg)) = true)
    (h : coherentAt cfg a o o' = true) : cohAt cfg a o' = cohAt cfg a o := by
  rw [cohAt_eq_cohSetOf hc, cohAt_eq_cohSetOf hc]
  exact (of_decide_eq_true h).symm

/-- An undisturbed location's block is dirty for no other set than the observer's. -/
theorem DirtyStored.own {s : State} (h : DirtyStored s) {o a : Nat} (hu : Undisturbed s o a)
    (hc : cacheable s.cfg (blkBase a (cbsM s.cfg)) = true) {k : CohSet} (hd : isDirty s.sys k (blkBase a (cbsM s.cfg)) = true) :
    k = cohAt s.cfg a o := by
  obtain ⟨e, he, x, hx, hw, rfl⟩ := h _ _ (isDirty_iff.1 hd)
  exact cohAt_of_coherentAt hc (hu.1 e he x hx hw)

/-- One operation keeps what an undisturbed observer sees the latest store. -/
theorem SeenAs.effect {s : State} (hs : LatestSeen s) {e : Event} {o a : Nat} (hu : Undisturbed (afterEvent s e) o a) :
    SeenAs s.cfg (e.op.effect s.cfg e.obs s.sys) o a ((e.storeValue? a).getD (latestStore s a)) := by
  obtain ⟨hold, hstore, hinval⟩ := hu.of_afterEvent
  obtain ⟨hview, hmem⟩ := hs.seen o a hold
  have h : SeenAs s.cfg s.sys o a (latestStore s a) := ⟨hview, hmem⟩
  have hcoh : SysCoherent s.cfg s.sys := hs.coherent
  have hown : ∀ k b, blkBase a (cbsM s.cfg) = b → cacheable s.cfg b = true → isDirty s.sys k b = true → k = cohAt s.cfg a o := by
    rintro k b rfl hc hd
    exact hs.stored.own hold hc hd
  cases hop : e.op with
  | load x n bs src => rw [Event.storeValue?, hop]; exact h
  | fence p q => rw [Event.storeValue?, hop]; exact h
  | store a0 vs =>
    have hsv : ∀ x, e.storeValue? x = storedByte a0 vs x := fun x => by rw [Event.storeValue?, hop]; rfl
    rw [hsv]
    exact h.storeBytesBy hcoh.whole a0 vs fun x hx hb hc =>
      cohAt_of_coherentAt hc (hstore x hb (by rwa [Event.writes, hsv]))
  | invalidate b => rw [Event.storeValue?, hop]; exact h.invalidateBlock (.inl (hinval b hop).symm)
  | clean b => rw [Event.storeValue?, hop]; exact h.cleanBlock hcoh (blkBase_mod _ _) (hown _ _)
  | flush b => rw [Event.storeValue?, hop]; exact h.flushBlock hcoh (blkBase_mod _ _) (hown _ _)

/-- One operation keeps the latest store the value that is seen. -/
theorem LatestSeen.afterEvent {s : State} (h : LatestSeen s) (e : Event) : LatestSeen (afterEvent s e) := by
  refine ⟨SysCoherent.effect h.coherent e.obs e.op, fun k b hd => ?_, fun o a hu => ?_⟩
  · have hmem : ∀ e' ∈ s.history, e' ∈ s.history ++ [e] := fun e' he => List.mem_append_left _ he
    rcases isDirty_of_effect (isDirty_iff.2 hd) with hd | ⟨x, hb, hw, hk⟩
    · obtain ⟨e', he, hx⟩ := h.stored k b (isDirty_iff.1 hd)
      exact ⟨e', hmem e' he, hx⟩
    · exact ⟨e, List.mem_append_right _ (List.mem_singleton_self e), x, hb, hw, hk⟩
  · obtain ⟨hview, hmem⟩ := SeenAs.effect h hu
    rw [latestStore_afterEvent]
    exact ⟨hview, hmem⟩

/-- Operations one after the other keep it. -/
theorem LatestSeen.effects {s : State} (h : LatestSeen s) (es : List Event) :
    LatestSeen { s with history := s.history ++ es, sys := effects s.cfg es s.sys } := by
  induction es generalizing s with
  | nil => rw [List.append_nil]; exact h
  | cons e es ih =>
    have := ih (h.afterEvent e)
    simp only [Machine.afterEvent, List.append_assoc, List.singleton_append] at this
    exact this

/-- A move of a cache keeps it, where it keeps what is seen at each undisturbed address and makes nothing dirty. -/
theorem LatestSeen.of_cacheMove {s : State} (h : LatestSeen s) {ms : MemSys} (hcoh : SysCoherent s.cfg ms)
    (hdirty : ∀ k b, isDirty ms k b = true → isDirty s.sys k b = true)
    (hseen : ∀ o a w, Undisturbed s o a → SeenAs s.cfg s.sys o a w → SeenAs s.cfg ms o a w) : LatestSeen { s with sys := ms } := by
  refine ⟨hcoh, fun k b hd => h.stored k b (isDirty_iff.1 (hdirty k b (isDirty_iff.2 hd))), fun o a hu => ?_⟩
  have hu : Undisturbed s o a := hu
  obtain ⟨hview, hmem⟩ := h.seen o a hu
  obtain ⟨hview', hmem'⟩ := hseen o a _ hu ⟨hview, hmem⟩
  exact ⟨hview', hmem'⟩

theorem LatestSeen.writeBackLine {s : State} (h : LatestSeen s) (i b : Nat) :
    LatestSeen { s with sys := writeBackLine s.cfg i b s.sys } := by
  have hcoh : SysCoherent s.cfg s.sys := h.coherent
  rcases writeBackLine_eq_cleanBlock hcoh i b with he | ⟨c, -, hb, hc, hd, he⟩
  · rwa [he]
  · rw [he]
    refine h.of_cacheMove (hcoh.cleanBlock _ hb) (fun k b => isDirty_of_cleanBlock) fun o a w hu hw => ?_
    refine hw.cleanBlock hcoh hb ?_
    rintro rfl - -
    exact h.stored.own hu hc hd

/-- Settles O60: every operation, and every move of a cache, keeps the latest store the value that is seen. -/
theorem stepKeepsLatestStoreSeen : Obligations.StepKeepsLatestStoreSeen := by
  intro s t h hstep
  obtain ⟨hcfg, hinit, hchange⟩ := step_memoryStep hstep
  have hcoh : SysCoherent s.cfg s.sys := h.coherent
  rcases hchange with ⟨es, hh, hs⟩ | ⟨hh, ⟨i, b, hs⟩ | ⟨i, b, dest, hs⟩ | ⟨i, b, hs⟩⟩
  · exact (h.effects es).congr hcfg hinit hh hs
  · refine (h.of_cacheMove (hcoh.allocateLine i b) (fun k b' hd => ?_) fun o a w _ hw => hw.allocateLine hcoh i b).congr hcfg hinit hh hs
    rwa [isDirty, allocateLine_dirty] at hd
  · refine (h.of_cacheMove (hcoh.deallocateLine i b dest) (fun k b' hd => ?_)
      fun o a w _ hw => hw.deallocateLine hcoh i b dest).congr hcfg hinit hh hs
    rwa [isDirty, deallocateLine_dirty] at hd
  · exact (h.writeBackLine i b).congr hcfg hinit hh hs

end Sys2Proof.Machine
end

section
/-!
SUPPORT. Operands and blocks as numbers (R20, R56, R104), the enable test (R168, R169), and the checks of translation, protection and
triggers (R171 to R195).
-/

namespace Sys2Proof.Machine

/-! ### Operands and blocks -/

/-- Truncation to `XLEN` as a number (R20). -/
theorem toNat_xtrunc (x : Xlen) (w : Word) : (xtrunc x w).toNat = w.toNat % (if x = .rv32 then 2 ^ 32 else 2 ^ 64) := by
  cases x with
  | rv64 => exact (Nat.mod_eq_of_lt w.isLt).symm
  | rv32 =>
    have hlt : w.toNat % 2 ^ 32 < 2 ^ 64 := (Nat.mod_lt _ (by decide)).trans (by decide)
    rw [xtrunc, BitVec.toNat_setWidth, BitVec.toNat_setWidth, Nat.mod_eq_of_lt hlt, if_pos rfl]

/-- The sum of a word and an integer, as a number modulo `2^XLEN`. -/
theorem toNat_xtrunc_add_ofInt (x : Xlen) (w : Word) (z : Int) :
    ((xtrunc x (w + BitVec.ofInt 64 z)).toNat : Int) = (w.toNat + z) % (if x = .rv32 then 2 ^ 32 else 2 ^ 64) := by
  have hsum : ((w + BitVec.ofInt 64 z).toNat : Int) = (w.toNat + z) % 2 ^ 64 := by
    rw [BitVec.toNat_add, Int.natCast_emod, Int.natCast_add, BitVec.toNat_ofInt, Int.toNat_of_nonneg (Int.emod_nonneg _ (by decide))]
    exact Int.add_emod_emod ..
  rw [toNat_xtrunc]
  cases x with
  | rv32 =>
    rw [if_pos rfl, if_pos rfl, Int.natCast_emod, hsum]
    exact Int.emod_emod_of_dvd _ (by decide)
  | rv64 =>
    rw [if_neg nofun, if_neg nofun, Int.natCast_emod, hsum]
    exact Int.emod_emod_of_dvd _ (by decide)

/-- Settles O7: register `x0` reads as zero, and the sum wraps at `2^XLEN`. -/
theorem effectiveAddressArithmetic : Obligations.EffectiveAddressArithmetic := by
  intro s rs1 offset
  refine ⟨?_, toNat_xtrunc_add_ofInt _ _ _⟩
  unfold eaCbo readX
  split
  · rfl
  · exact toNat_xtrunc _ _

/-- Settles O8: by cases of the register written and the register read. -/
theorem registerZeroIsHardwired : Obligations.RegisterZeroIsHardwired := by
  intro cfg h v deps
  refine ⟨rfl, rfl, fun r r' hr => ?_⟩
  unfold writeX
  rw [if_neg hr]
  by_cases heq : r' = r
  · subst heq
    rw [if_pos rfl, readX, if_neg hr]
    simp [xtrunc_xtrunc]
  · have hne : r.val ≠ r'.val := fun he => heq (Fin.ext he.symm)
    rw [if_neg heq, readX, readX]
    simp [Vector.getElem_set_ne _ _ hne]

/-- Settles O9: every address of a block has the block's base. -/
theorem blocksAreNapotRanges : Obligations.BlocksAreNapotRanges := by
  intro n a
  have hpos := Nat.two_pow_pos n
  refine ⟨blkBase_mod _ _, (mem_block_iff_blkBase hpos).2 rfl, fun x => by rw [mem_block]; omega, fun x hx => ?_⟩
  have hb := (mem_block_iff_blkBase hpos).1 hx
  exact ⟨hb, by unfold block; rw [hb]⟩

/-! ### The enable test -/

/-- A platform with no entry of its own has the default test (R168). -/
theorem cmoEnable_default {cfg : Config} (h : Hart) (g : Gated) (hr : cfg.enableRows = []) :
    cmoEnable cfg h g = cmoEnableDefault cfg g h.mode h.csr.menvcfg h.csr.senvcfg h.csr.henvcfg := by
  unfold cmoEnable
  rw [hr]
  rfl

theorem hasHypervisor_iff (cfg : Config) : hasHypervisor cfg = true ↔ Mode.VS ∈ cfg.modes ∨ Mode.VU ∈ cfg.modes := by
  simp [hasHypervisor]

/-- When the default test refuses an instruction: a register that counts in the mode does not enable it (R169). -/
theorem cmoEnableDefault_illegal_iff (cfg : Config) (g : Gated) (mode : Mode) (menv senv henv : Word) :
    cmoEnableDefault cfg g mode menv senv henv = .illegalInstruction ↔
      (mode ≠ .M ∧ ¬ enables menv g = true) ∨
      ((mode = .U ∨ mode = .VU) ∧ cfg.modes.contains .S = true ∧ ¬ enables senv g = true) ∨
      ((mode = .VS ∨ mode = .VU) ∧ hasHypervisor cfg = true ∧ ¬ enables henv g = true) := by
  have hif : ∀ d f : Bool, (if d then Enable.illegalInstruction else if f then .performFlushInstead else .perform) =
      .illegalInstruction ↔ d = true := by decide
  simp only [cmoEnableDefault, hif]
  cases mode <;> simp [or_comm]

/-- When the default test answers with a flush: it does not refuse, and a register that counts in the mode asks for one (R169). -/
theorem cmoEnableDefault_flush_iff (cfg : Config) (g : Gated) (mode : Mode) (menv senv henv : Word) :
    cmoEnableDefault cfg g mode menv senv henv = .performFlushInstead ↔
      g = .inval ∧ cmoEnableDefault cfg g mode menv senv henv ≠ .illegalInstruction ∧
      ((mode ≠ .M ∧ cbie menv = 0b01#2) ∨ ((mode = .U ∨ mode = .VU) ∧ cfg.modes.contains .S = true ∧ cbie senv = 0b01#2) ∨
        ((mode = .VS ∨ mode = .VU) ∧ hasHypervisor cfg = true ∧ cbie henv = 0b01#2)) := by
  have hif : ∀ d f : Bool, (if d then Enable.illegalInstruction else if f then .performFlushInstead else .perform) =
      .performFlushInstead ↔ (if d then Enable.illegalInstruction else if f then .performFlushInstead else .perform) ≠
        .illegalInstruction ∧ f = true := by decide
  have hflush : ((decide (mode ≠ .M) && decide (cbie menv = 0b01#2))
      || (decide (mode = .U) && (cfg.modes.contains .S && decide (cbie senv = 0b01#2)))
      || (decide (mode = .VS) && (hasHypervisor cfg && decide (cbie henv = 0b01#2)))
      || (decide (mode = .VU) && (hasHypervisor cfg && decide (cbie henv = 0b01#2) || cfg.modes.contains .S && decide (cbie senv = 0b01#2))))
        = true ↔ (mode ≠ .M ∧ cbie menv = 0b01#2) ∨ ((mode = .U ∨ mode = .VU) ∧ cfg.modes.contains .S = true ∧ cbie senv = 0b01#2) ∨
        ((mode = .VS ∨ mode = .VU) ∧ hasHypervisor cfg = true ∧ cbie henv = 0b01#2) := by
    cases mode <;> simp [or_comm]
  rw [← hflush]
  refine (hif _ _).trans ((and_congr_right' ((Bool.and_eq_true_iff).trans (and_congr_left' decide_eq_true_iff))).trans ?_)
  exact and_left_comm

/-- Settles O10: the test, mode by mode. -/
theorem defaultEnableByMode : Obligations.DefaultEnableByMode := by
  intro cfg h g hr
  have hill := cmoEnableDefault_illegal_iff cfg g h.mode h.csr.menvcfg h.csr.senvcfg h.csr.henvcfg
  have hflush := cmoEnableDefault_flush_iff cfg g h.mode h.csr.menvcfg h.csr.senvcfg h.csr.henvcfg
  rw [← cmoEnable_default h g hr] at hill hflush
  simp only [List.contains_iff_mem, hasHypervisor_iff] at hill hflush
  intro on flushes hasS hasH
  have hon : ∀ env, enables env g = true ↔ on env := by
    intro env
    cases g with
    | inval => exact decide_eq_true_iff
    | clean => exact Iff.rfl
    | flush => exact Iff.rfl
    | zero => exact Iff.rfl
  simp only [hon] at hill
  refine ⟨fun hm => ?_, fun hm => ?_, fun hm => ?_, fun hm => ?_, fun hm => ?_, hflush⟩
  · rw [hm] at hill hflush
    cases hc : cmoEnable cfg h g with
    | perform => rfl
    | illegalInstruction => simp [hc] at hill
    | performFlushInstead => simp [hc] at hflush
  all_goals
    rw [hm] at hill
    rw [hill]
    simp
  · exact Iff.rfl
  · exact Iff.rfl
  · exact or_congr_right or_comm

/-- Settles O11: the enable test is the first. -/
theorem disabledInstructionsAreIllegal : Obligations.DisabledInstructionsAreIllegal := by
  intro i g s hg hd
  cases i with
  | cboInval rs1 => cases hg; simp only [exec, execCboInval, hd]
  | cboClean rs1 => cases hg; simp only [exec, execCboClean, hd]
  | cboFlush rs1 => cases hg; simp only [exec, execCboFlush, hd]
  | cboZero rs1 => cases hg; simp only [exec, execCboZero, hd]
  | prefetchI rs1 offset => cases hg
  | prefetchR rs1 offset => cases hg
  | prefetchW rs1 offset => cases hg

/-! ### Modes, leaf entries and joint permissions -/

/-- With `MPRV` set, M-mode accesses memory in the mode that `MPP` and `MPV` name (R171). -/
theorem effPriv_of_mprv {h : Hart} (hm : h.mode = .M) (hp : getBit h.csr.mstatus 17 = true) :
    effPriv h = modeOf (h.csr.mstatus.extractLsb' 11 2) (getBit h.csr.mstatus 39) :=
  if_pos (by rw [hm]; exact hp)

/-- Settles O16: by cases of the mode and of the bits. -/
theorem legalEncodingsAndUserAccess : Obligations.LegalEncodingsAndUserAccess := by
  refine ⟨fun h => ⟨fun hm => ?_, fun hm hp => ⟨fun hl => ?_, fun hl hv => ?_, fun hl hv => ?_⟩⟩, fun c p => ⟨?_, rfl, rfl, ?_, ?_⟩⟩
  · unfold effPriv
    rw [if_neg]
    rw [Bool.and_eq_true, decide_eq_true_eq]
    rintro ⟨hM, hp⟩
    rcases hm with hm | hm
    · exact hm hM
    · rw [mprv, hm] at hp; cases hp
  · rw [effPriv_of_mprv hm hp, modeOf, if_pos hl]
  · rw [effPriv_of_mprv hm hp, modeOf, if_neg hl, hv, if_pos rfl]
  · rw [effPriv_of_mprv hm hp, modeOf, if_neg hl, hv, if_neg (by decide)]
  · have hall : ∀ r w x : Bool, ((r || x) && (!w || r)) = true ↔ (x, w, r) ∈ [(false, false, true), (false, true, true),
        (true, false, false), (true, false, true), (true, true, true)] := by decide
    exact hall p.r p.w p.x
  · simp [userOk, statusSum]
  · simp [userOk, statusSum]

/-- What a prefetch asks of three permissions: one of them, and the one its kind names where the implementation requires it (R177,
R178, R188, R189). -/
theorem permits_prefetch_iff (cfg : Config) (k : PrefetchKind) (r w x : Bool) :
    permits cfg (.pf k) r w x = true ↔ (r = true ∨ w = true ∨ x = true) ∧ (k = .R → cfg.prefetchStrictR = true → r = true) ∧
      (k = .W → cfg.prefetchStrictW = true → w = true) ∧ (k = .I → cfg.prefetchStrictI = true → x = true) := by
  have hstrict : ∀ b c : Bool, (!b || c) = true ↔ (b = true → c = true) := by decide
  cases k with
  | I => simp [permits, hstrict, or_assoc]
  | R => simp [permits, hstrict, or_assoc]
  | W => simp [permits, hstrict, or_assoc]

/-- Settles O23: each test is a disjunction of the three permissions, or the one that the kind names. -/
theorem prefetchPagePermission : Obligations.PrefetchPagePermission := by
  refine ⟨fun cfg c m k => ⟨fun p => ⟨?_, ?_⟩, fun h a => permits_prefetch_iff _ _ _ _ _⟩, fun cfg h m a => ?_⟩
  · rw [pageOk, Bool.and_eq_true, Bool.and_eq_true, permits_prefetch_iff]
    tauto
  · rw [gStageOk, Bool.and_eq_true, Bool.and_eq_true, permits_prefetch_iff]
    tauto
  · simp only [joint, pmaPerm]
    split
    · rfl
    · simp [vacant]

/-! ### The checks of a management or zero instruction -/

/-- A legal leaf entry grants reading or executing, which is all a management instruction asks (R176, R181). -/
theorem gStageOk_iff {cfg : Config} {i : Instr} (hg : gateOf i ≠ none) (p : Pte) :
    gStageOk cfg (classOf i) p = true ↔ legalXwr p = true ∧ p.u = true ∧ (classOf i = .cbm ∨ p.w = true) := by
  have hcbm : gStageOk cfg .cbm p = true ↔ legalXwr p = true ∧ p.u = true := by
    obtain ⟨r, w, x, u⟩ := p
    cases r <;> cases w <;> cases x <;> simp [gStageOk, legalXwr, permits]
  cases i with
  | cboZero rs1 => simp [gStageOk, classOf, permits]; tauto
  | cboInval rs1 => simp [classOf, hcbm]
  | cboClean rs1 => simp [classOf, hcbm]
  | cboFlush rs1 => simp [classOf, hcbm]
  | prefetchI rs1 offset => exact absurd rfl hg
  | prefetchR rs1 offset => exact absurd rfl hg
  | prefetchW rs1 offset => exact absurd rfl hg

/-- Settles O17: the G-stage test is the second that can fault. -/
theorem gStageFaults : Obligations.GStageFaults := by
  intro i s ppage gpage pte g hg he hu ht hp hbad
  refine exec_of_trap hg he hu (accessCheck_guestPageFault ht hp fun hgs => hbad ?_)
  exact (gStageOk_iff hg g).1 (hgs g rfl)

/-- Settles O18: the walk comes before every test. -/
theorem walkFaultsAreStoreFaults : Obligations.WalkFaultsAreStoreFaults := by
  intro i s k gpage hg he hu ht
  have hcheck : accessCheck s.cfg s.hart (classOf i) (accessSize s.cfg i) (eaOf s i) = walkTrap k gpage := by
    simp only [accessCheck, ht]
  cases k with
  | access => exact exec_of_trap hg he hu hcheck
  | page => exact exec_of_trap hg he hu hcheck
  | guestPage => exact exec_of_trap hg he hu hcheck

/-- What a management instruction asks of its block (R186, D15). -/
theorem blockGranted_cbm_iff {i : Instr} {s : State} {pa : Nat} (hc : classOf i = .cbm) :
    BlockGranted i s pa ↔ ∀ a ∈ block pa (accessSize s.cfg i), (joint s.cfg s.hart (effPriv s.hart) a).r = true ∨
      (joint s.cfg s.hart (effPriv s.hart) a).w = true ∨ (joint s.cfg s.hart (effPriv s.hart) a).x = true := by
  simp [BlockGranted, hc, jointOk, permits, or_assoc]

/-- An instruction that passes every test takes no trap, where it is let through on uncacheable locations. -/
theorem traps_eq_of_granted {i : Instr} {s t : State} {ppage gpage : Nat} {pte gpte : Option Pte} (hg : gateOf i ≠ none)
    (he : Enabled i s) (hu : Untriggered i s) (ht : Translated i s ppage gpage pte gpte) (hp : PageGrants i s pte)
    (hgs : GStageGrants i s gpte) (hb : BlockGranted i s (inPage ppage (eaOf s i)))
    (hc : CacheableOrLetThrough s (inPage ppage (eaOf s i))) (h : exec i s = .next t) : t.traps = s.traps := by
  rcases exec_checked_cases hg he hu h with ⟨c, g, ha, -⟩ | ⟨pa, hgr, hn, -⟩ | hsame
  · rcases accessCheck_trap_cases ht ha with ⟨-, hn⟩ | ⟨-, hn⟩ | ⟨-, hn⟩
    · exact absurd hp hn
    · exact absurd hgs hn
    · exact absurd hb hn
  · rw [hgr.pa_eq ht] at hn
    exact absurd hn (Bool.eq_false_iff.1 (uncachedFault_eq_false hc))
  · exact hsame

/-- Granted on a location where the platform faults, an instruction takes the access fault (log entry 26). -/
theorem exec_of_uncachedFault {i : Instr} {s : State} {pa : Nat} (hg : gateOf i ≠ none) (he : Enabled i s) (hu : Untriggered i s)
    (hgr : Granted i s pa) (hf : uncachedFault s.cfg pa = true) :
    exec i s = .next (raiseFault .storeAccessFault none (eaOf s i) (accessSize s.cfg i) s) := by
  have ha := accessCheck_granted_iff.2 hgr
  unfold Untriggered at hu
  rcases exec_of_enabled hg he with ⟨op, rs1, hcls, hsize, hea, hx⟩ | ⟨rs1, rfl, hx⟩
  · rw [hcls, hsize, hea] at hu ha
    rw [hx, hsize, hea]
    simp only [cbmAccess, hu, ha, hf, if_true]
  · simp only [classOf, accessSize, eaOf] at hu ha ⊢
    rw [hx]
    simp only [cbzAccess, hu, ha, hf, if_true]

/-- Settles O19: the joint test is asked of each address of the block, and the platform's fault before it. -/
theorem managementAccessPermission : Obligations.ManagementAccessPermission := by
  intro i s ppage gpage pte gpte hg he hu ht hp hgs
  refine ⟨fun hc => ?_, fun hb hm hunc hpma => ?_⟩
  · obtain ⟨-, hsize⟩ := gated_of_cbm s.cfg hc
    have hgrant := blockGranted_cbm_iff (s := s) (pa := inPage ppage (eaOf s i)) hc
    rw [← hsize]
    refine ⟨fun a ha hr hw hx => exec_of_trap hg he hu (accessCheck_accessFault ht hp hgs fun hb => ?_), fun hb hlet t h => ?_⟩
    · have := hgrant.1 hb a ha
      rw [hr, hw, hx] at this
      simp at this
    · exact traps_eq_of_granted hg he hu ht hp hgs (hgrant.2 hb) hlet h
  · refine exec_of_uncachedFault hg he hu ⟨ppage, gpage, pte, gpte, ht, hp, hgs, rfl, hb, hm⟩ ?_
    simp [uncachedFault, hunc, cacheableAt, hpma]

/-! ### The PMA constraints -/

/-- The PMA constraints hold for a block when its attributes are the same everywhere and writable is readable (R183). -/
theorem pmaOk_iff {cfg : Config} {pa size : Nat} (h : 0 < size) :
    pmaOk cfg pa size = true ↔ (∀ a ∈ block pa size, ∀ a' ∈ block pa size, pmaAt cfg a = pmaAt cfg a') ∧
      ∀ a ∈ block pa size, (pmaAt cfg a).perm.w = true → (pmaAt cfg a).perm.r = true := by
  have hbase : blkBase pa size ∈ block pa size := (mem_block_iff_blkBase h).2 (blkBase_idem pa size)
  simp only [pmaOk, List.all_eq_true, Bool.and_eq_true, decide_eq_true_eq, Bool.or_eq_true, Bool.not_eq_true']
  constructor
  · intro hok
    refine ⟨fun a ha a' ha' => (hok a ha).1.trans (hok a' ha').1.symm, fun a ha hw => (hok a ha).2.resolve_left ?_⟩
    rw [hw]
    decide
  · rintro ⟨hsame, hwr⟩ a ha
    refine ⟨hsame a ha _ hbase, ?_⟩
    cases hw : (pmaAt cfg a).perm.w with
    | false => exact .inl rfl
    | true => exact .inr (hwr a ha hw)

/-- Once translation and the pages have granted a management or zero instruction its block, the PMA constraints decide (R124, R141). -/
theorem exec_of_pmaBroken {i : Instr} {s : State} {ppage gpage : Nat} {pte gpte : Option Pte} (hg : gateOf i ≠ none)
    (he : Enabled i s) (hu : Untriggered i s) (ht : Translated i s ppage gpage pte gpte) (hp : PageGrants i s pte)
    (hgs : GStageGrants i s gpte) (hb : BlockGranted i s (inPage ppage (eaOf s i)))
    (hm : ¬ PmaMet i s (inPage ppage (eaOf s i))) : exec i s = .refused .pmaConstraintsNotMet := by
  have ha : accessCheck s.cfg s.hart (classOf i) (accessSize s.cfg i) (eaOf s i) = .pmaUnspecified := by
    rw [accessCheck_of_translated ht, pageGrants_iff.1 hp, gStageGrants_iff.1 hgs, blockGranted_iff.1 hb,
      Bool.eq_false_iff.2 hm]
    rfl
  unfold Untriggered at hu
  rcases exec_of_enabled hg he with ⟨op, rs1, hcls, hsize, hea, hx⟩ | ⟨rs1, rfl, hx⟩
  · rw [hcls, hsize, hea] at hu ha
    rw [hx]
    simp only [cbmAccess, hu, ha]
  · simp only [classOf, accessSize, eaOf] at hu ha
    rw [hx]
    simp only [cbzAccess, hu, ha]

/-! ### Prefetches -/

/-- An instruction that no control gates is a prefetch (R154). -/
theorem exec_of_ungated {i : Instr} (hi : gateOf i = none) (s : State) :
    ∃ k rs1 offset, classOf i = .pf k ∧ accessSize s.cfg i = cbsM s.cfg ∧ eaOf s i = eaPrefetch s rs1 offset ∧
      exec i s = prefetch k rs1 offset s := by
  cases i with
  | cboInval rs1 => cases hi
  | cboClean rs1 => cases hi
  | cboFlush rs1 => cases hi
  | cboZero rs1 => cases hi
  | prefetchI rs1 offset => exact ⟨.I, rs1, offset, rfl, rfl, rfl, rfl⟩
  | prefetchR rs1 offset => exact ⟨.R, rs1, offset, rfl, rfl, rfl, rfl⟩
  | prefetchW rs1 offset => exact ⟨.W, rs1, offset, rfl, rfl, rfl, rfl⟩

/-- The checks of a prefetch once translation has completed (R154). -/
theorem prefetchCheck_of_translated {i : Instr} {s : State} {k : PrefetchKind} {ppage gpage : Nat} {pte gpte : Option Pte}
    (hk : classOf i = .pf k) (hsize : accessSize s.cfg i = cbsM s.cfg) (h : Translated i s ppage gpage pte gpte) :
    prefetchCheck s.cfg s.hart k (eaOf s i) =
      if !pte.all (pageOk s.cfg s.hart.csr (effPriv s.hart) (classOf i)) then .noAccess
      else if !gpte.all (gStageOk s.cfg (classOf i)) then .noAccess
      else if !pmaOk s.cfg (inPage ppage (eaOf s i)) (accessSize s.cfg i) then .pmaUnspecified
      else if !blockOk s.cfg s.hart (effPriv s.hart) (classOf i) (inPage ppage (eaOf s i)) (accessSize s.cfg i) then .noAccess
      else .acts (inPage ppage (eaOf s i)) := by
  unfold Translated at h
  rw [hk] at h ⊢
  rw [hsize]
  simp only [prefetchCheck, h]

/-- Settles O21: a management or zero instruction comes to the constraints when its block is granted, a prefetch before that. -/
theorem pmaConstraintsOrRefusal : Obligations.PmaConstraintsOrRefusal := by
  intro i s ppage gpage pte gpte he hu ht hp hgs blk hb hbad
  have hm : ¬ PmaMet i s (inPage ppage (eaOf s i)) := by
    intro hm
    obtain ⟨hsame, hwr⟩ := (pmaOk_iff (accessSize_pos s.cfg i)).1 hm
    rcases hbad with ⟨a, ha, a', ha', hne⟩ | ⟨a, ha, hw, hr⟩
    · exact hne (hsame a ha a' ha')
    · rw [hwr a ha hw] at hr; cases hr
  by_cases hg : gateOf i = none
  · obtain ⟨k, rs1, offset, hk, hsize, hea, hx⟩ := exec_of_ungated hg s
    have hcheck : prefetchCheck s.cfg s.hart k (eaOf s i) = .pmaUnspecified := by
      rw [prefetchCheck_of_translated hk hsize ht, pageGrants_iff.1 hp, gStageGrants_iff.1 hgs, Bool.eq_false_iff.2 hm]
      rfl
    unfold Untriggered at hu
    rw [hk, hsize, hea] at hu
    rw [hea] at hcheck
    rw [hx]
    simp only [prefetch, hu, hcheck]
  · exact exec_of_pmaBroken hg he hu ht hp hgs (hb hg) hm

/-- Settles O22: each way in which a prefetch lacks permission gives the one answer. -/
theorem prefetchWithoutPermissionRetires : Obligations.PrefetchWithoutPermissionRetires := by
  intro i s hi hu
  obtain ⟨k, rs1, offset, hk, hsize, hea, hx⟩ := exec_of_ungated hi s
  have hretire : prefetchCheck s.cfg s.hart k (eaOf s i) = .noAccess → exec i s = .next (retire s) := by
    intro hcheck
    unfold Untriggered at hu
    rw [hk, hsize, hea] at hu
    rw [hea] at hcheck
    rw [hx]
    simp only [prefetch, hu, hcheck]
  refine ⟨fun kind gpage ht => hretire ?_, fun ppage gpage pte gpte ht hno => hretire ?_⟩
  · rw [hk] at ht
    simp only [prefetchCheck, ht]
  · rw [prefetchCheck_of_translated hk hsize ht]
    rw [pageGrants_iff, gStageGrants_iff, blockGranted_iff] at hno
    unfold PmaMet at hno
    split
    · rfl
    next hp =>
      split
      · rfl
      next hgs =>
        simp only [Bool.not_eq_true', Bool.not_eq_false] at hp hgs
        rcases hno with hno | hno | ⟨hm, hno⟩
        · exact absurd hp hno
        · exact absurd hgs hno
        · rw [hm, Bool.eq_false_iff.2 hno]
          rfl

/-! ### Triggers -/

/-- What an enabled instruction does where the trigger check does not let it pass (R191, R192). -/
theorem exec_of_triggered {i : Instr} {s : State} (he : Enabled i s) :
    (triggerCheck s.cfg s.hart (classOf i) (eaOf s i) (accessSize s.cfg i) = .unspecified → exec i s = .refused .triggerUnspecified) ∧
    (triggerCheck s.cfg s.hart (classOf i) (eaOf s i) (accessSize s.cfg i) = .breakpoint →
      exec i s = .next (raiseFault .breakpoint none (eaOf s i) (accessSize s.cfg i) s)) := by
  by_cases hg : gateOf i = none
  · obtain ⟨k, rs1, offset, hk, hsize, hea, hx⟩ := exec_of_ungated hg s
    rw [hk, hsize, hea, hx]
    exact ⟨fun hu => by simp only [prefetch, hu], fun hu => by simp only [prefetch, hu]⟩
  · rcases exec_of_enabled hg he with ⟨op, rs1, hcls, hsize, hea, hx⟩ | ⟨rs1, rfl, hx⟩
    · rw [hcls, hsize, hea, hx]
      exact ⟨fun hu => by simp only [cbmAccess, hu], fun hu => by simp only [cbmAccess, hu]⟩
    · rw [hx]
      simp only [classOf, eaOf, accessSize]
      exact ⟨fun hu => by simp only [cbzAccess, hu], fun hu => by simp only [cbzAccess, hu]⟩

/-- A trigger that fires is of type 6 and looks at loads or stores, so that it is enabled. -/
theorem enabled_of_fires {cfg : Config} {p : TriggerParams} {cls : AccessClass} {ea : Word} {size : Nat} {t : Trigger}
    (h : t.fires cfg p cls ea size = true) : t.enabled cfg = true := by
  unfold Trigger.fires at h
  rw [Bool.and_eq_true, Bool.and_eq_true, decide_eq_true_eq] at h
  obtain ⟨⟨htype, hsees⟩, -⟩ := h
  have hls : t.load = true ∨ t.store = true := by
    cases cls with
    | fetch => cases hsees
    | cbm => exact .inr hsees
    | cbz => exact .inr hsees
    | pf k =>
      simp only [Trigger.seesAs, Bool.or_eq_true, Bool.and_eq_true] at hsees
      exact hsees.imp And.right And.right
  simpa [Trigger.enabled, htype] using hls

/-- Settles O25: an enabled trigger in the block is refused by name, and none enabled gives no answer. -/
theorem enabledTriggerIsRefused : Obligations.EnabledTriggerIsRefused := by
  intro i s he
  refine ⟨fun hp t ht hen _ hin => (exec_of_triggered he).1 ?_, fun hno => ?_⟩
  · unfold triggerCheck
    rw [hp]
    exact if_pos (List.any_eq_true.2 ⟨t, ht, by simp [hen, hin]⟩)
  · have hoff : ∀ q : Trigger → Bool, (∀ t, q t = true → t.enabled s.cfg = true) → ¬ s.hart.csr.triggers.any q = true := by
      intro q hq hany
      obtain ⟨t, ht, hqt⟩ := List.any_eq_true.1 hany
      have := hno t ht
      rw [hq t hqt] at this
      cases this
    unfold Untriggered triggerCheck
    split
    · exact if_neg (hoff _ fun t h => (Bool.and_eq_true _ _ ▸ h).1)
    · exact if_neg (hoff _ fun t => enabled_of_fires)

/-- Settles O26: an address trigger fires exactly when it has all that the recommendations ask. -/
theorem recommendedTriggersOnZero : Obligations.RecommendedTriggersOnZero := by
  intro rs1 s p hp he
  refine ⟨fun t ht htype hdata hst hsize hin => (exec_of_triggered he).2 ?_, fun hno => ?_⟩
  · have hfires : t.fires s.cfg p (classOf (.cboZero rs1)) (eaOf s (.cboZero rs1)) (accessSize s.cfg (.cboZero rs1)) = true := by
      simp [Trigger.fires, htype, hdata, hsize, classOf, Trigger.seesAs, hst, addressTriggers, eaOf, accessSize, hin]
    unfold triggerCheck
    rw [hp]
    exact if_pos (List.any_eq_true.2 ⟨t, ht, hfires⟩)
  · unfold Untriggered triggerCheck
    rw [hp]
    refine if_neg fun hany => ?_
    obtain ⟨t, ht, hfires⟩ := List.any_eq_true.1 hany
    have htype : t.type s.cfg = 6 := of_decide_eq_true (Bool.and_eq_true _ _ ▸ (Bool.and_eq_true _ _ ▸ hfires).1).1
    obtain ⟨hdata, hlacks⟩ := hno t ht htype
    simp only [Trigger.fires, hdata, classOf, Trigger.seesAs, addressTriggers, eaOf, accessSize, Bool.and_eq_true, decide_eq_true_eq,
      Bool.true_and, Bool.false_eq_true, if_false] at hfires
    obtain ⟨⟨-, hst⟩, hsize, hin⟩ := hfires
    rcases hlacks with h | h | h
    · rw [hst] at h; cases h
    · exact h hsize
    · rw [hin] at h; cases h

end Sys2Proof.Machine
end

section
/-!
SUPPORT. What the instructions do when they execute, whether at once or held back (R120 to R127, R140, R141, R150, R154), and their
frames (R20, R24, R85, R200).
-/

namespace Sys2Proof.Machine

/-! ### The operations of the management instructions -/

/-- What an operation does to the block at base `b`, for the set `k` (R120 to R122). -/
def BlockOp.act (op : BlockOp) (cfg : Config) (k : CohSet) (b : Nat) (ms : MemSys) : MemSys :=
  match op with
  | .invalidate => invalidateBlock cfg k b ms
  | .clean => cleanBlock cfg k b ms
  | .flush => flushBlock cfg k b ms

/-- An operation issued for a physical address acts on the address's block, for the observer's set there (R123). -/
theorem BlockOp.effect_event (op : BlockOp) (cfg : Config) (o pa : Nat) (ms : MemSys) :
    (op.event (blkBase pa (cbsM cfg))).effect cfg o ms = op.act cfg (cohAt cfg pa o) (blkBase pa (cbsM cfg)) ms := by
  cases op <;> simp only [BlockOp.event, MemOp.effect, BlockOp.act, cohAt, blkBase_idem]

/-- The memory system after a management operation that is performed at once. -/
theorem sys_performOp {s : State} (h : atOnce s = true) (op : BlockOp) (pa : Nat) (tags : Tags) :
    (retire (performOp op pa tags s)).sys = op.act s.cfg (cohAt s.cfg pa s.hart.id) (blkBase pa (cbsM s.cfg)) s.sys := by
  rw [retire_sys, performOp_sys, if_pos h, BlockOp.effect_event]

/-- A management operation performed at once is the last in the global memory order. -/
theorem order_performOp {s : State} (h : atOnce s = true) (op : BlockOp) (pa : Nat) (tags : Tags) :
    (retire (performOp op pa tags s)).history =
        s.history ++ [{ obs := s.hart.id, tick := s.tick, op := op.event (blkBase pa (cbsM s.cfg)), tags := tags }] ∧
      (retire (performOp op pa tags s)).pending = s.pending := by
  simp [h]

/-- A management operation that is held back waits, and nothing else changes. -/
theorem performOp_heldBack {s : State} (h : atOnce s = false) (op : BlockOp) (pa : Nat) (tags : Tags) :
    (retire (performOp op pa tags s)).sys = s.sys ∧ (retire (performOp op pa tags s)).history = s.history ∧
      (retire (performOp op pa tags s)).pending =
        s.pending ++ [{ obs := s.hart.id, tick := s.tick, op := op.event (blkBase pa (cbsM s.cfg)), tags := tags }] := by
  simp [h]

/-- A management operation that performed at once leaves memory alone outside its block, and what every set sees there. -/
theorem BlockOp.act_outside (op : BlockOp) {cfg : Config} (k k' : CohSet) {a b : Nat} (ms : MemSys) (hb : b % cbsM cfg = 0)
    (h : blkBase a (cbsM cfg) ≠ b) :
    Memory.read (op.act cfg k b ms).mem a = Memory.read ms.mem a ∧ view cfg (op.act cfg k b ms) k' a = view cfg ms k' a := by
  cases op with
  | invalidate => exact ⟨by rw [BlockOp.act, invalidateBlock_mem], view_invalidate_other ms (.inl h)⟩
  | clean => exact ⟨mem_cleanBlock_other ms k hb h, view_cleanBlock_otherBlock ms k k' hb h⟩
  | flush =>
    refine ⟨?_, (view_invalidate_other _ (.inl h)).trans (view_cleanBlock_otherBlock ms k k' hb h)⟩
    rw [BlockOp.act, flushBlock_mem]
    exact mem_cleanBlock_other ms k hb h

/-- Memory in the block after a clean, in the form of the statements. -/
theorem mem_cleanBlock_block {cfg : Config} (ms : MemSys) (k : CohSet) {a pa : Nat} (ha : a ∈ block pa (cbsM cfg)) :
    Memory.read (cleanBlock cfg k (blkBase pa (cbsM cfg)) ms).mem a =
      if cacheable cfg (blkBase pa (cbsM cfg)) = true ∧ isDirty ms k (blkBase pa (cbsM cfg)) = true then view cfg ms k a
      else Memory.read ms.mem a := by
  rw [← (mem_block_iff_blkBase (cbsM_pos cfg)).1 ha, mem_cleanBlock_same]
  simp only [Bool.and_eq_true]

/-- Outside the block of `pa` an address has another base. -/
theorem blkBase_ne_of_not_mem {cfg : Config} {a pa : Nat} (ha : a ∉ block pa (cbsM cfg)) :
    blkBase a (cbsM cfg) ≠ blkBase pa (cbsM cfg) :=
  fun he => ha ((mem_block_iff_blkBase (cbsM_pos cfg)).2 he)

/-- Another set or another block. -/
theorem other_of_pair_ne {k k' : CohSet} {b b' : Nat} (h : (k', b') ≠ (k, b)) : b' ≠ b ∨ k' ≠ k := by
  rw [ne_eq, Prod.mk.injEq] at h
  tauto

/-- Settles O34: the operation is an invalidate of the hart's set, performed at once or held back. -/
theorem invalidateExecutes : Obligations.InvalidateExecutes := by
  intro rs1 s pa hen hu hg hc k b e
  have hx : exec (.cboInval rs1) s = .next (retire (performOp .invalidate pa (cmoTags s.hart rs1) s)) := by
    simp only [exec, execCboInval, hen]
    exact cbmAccess_of_granted hu (accessCheck_granted_iff.2 hg) hc
  have hmem : (retire (performOp .invalidate pa (cmoTags s.hart rs1) s)).sys.mem = s.sys.mem := by
    by_cases h : atOnce s = true
    · rw [sys_performOp h]
      exact invalidateBlock_mem ..
    · rw [(performOp_heldBack (by simpa using h) ..).1]
  refine ⟨_, hx, rfl, rfl, hmem, fun h => ?_, fun h => performOp_heldBack h ..⟩
  obtain ⟨hhist, hpend⟩ := order_performOp h .invalidate pa (cmoTags s.hart rs1)
  refine ⟨hhist, hpend, ?_⟩
  rw [sys_performOp h]
  refine ⟨fun hcache => ⟨heldCopy_invalidate_same hcache _, isDirty_invalidate_same _ hcache⟩, fun a ha => ?_,
    fun k' b' hne => ⟨heldCopy_invalidate_other (other_of_pair_ne hne) _, isDirty_invalidate_other _ hne⟩,
    copies_invalidateBlock ..⟩
  show view s.cfg (invalidateBlock s.cfg k b s.sys) k a = _
  rw [show b = _ from ((mem_block_iff_blkBase (cbsM_pos _)).1 ha).symm]
  exact view_invalidate_same ..

/-- Settles O35: the operation is a clean of the hart's set, performed at once or held back. -/
theorem cleanExecutes : Obligations.CleanExecutes := by
  intro rs1 s pa hen hu hg hc k b e
  have hx : exec (.cboClean rs1) s = .next (retire (performOp .clean pa (cmoTags s.hart rs1) s)) := by
    have hop := cbmAccess_of_granted (op := .clean) hu (accessCheck_granted_iff.2 hg) hc
    simp only [exec, execCboClean]
    split
    next hill => exact absurd hill (hen _ rfl)
    next => exact hop
    next => exact hop
  refine ⟨_, hx, rfl, rfl, fun h => ?_, fun h => performOp_heldBack h ..⟩
  obtain ⟨hhist, hpend⟩ := order_performOp h .clean pa (cmoTags s.hart rs1)
  refine ⟨hhist, hpend, ?_⟩
  rw [sys_performOp h]
  exact ⟨fun _ _ => heldCopy_cleanBlock .., fun hcache => isDirty_clean_same _ hcache, fun _ _ hne => isDirty_clean_other _ hne,
    fun _ ha => mem_cleanBlock_block _ _ ha, fun _ ha => mem_cleanBlock_other _ _ (blkBase_mod ..) (blkBase_ne_of_not_mem ha),
    copies_cleanBlock ..⟩

/-- Settles O36: the operation is a flush of the hart's set, which is a clean and then an invalidate, performed at once or held back. -/
theorem flushExecutes : Obligations.FlushExecutes := by
  intro i rs1 s pa hi hu hg hc k b e
  have hx : exec i s = .next (retire (performOp .flush pa (cmoTags s.hart rs1) s)) := by
    rcases hi with ⟨rfl, hen⟩ | ⟨rfl, hen⟩
    · have hop := cbmAccess_of_granted (op := .flush) hu (accessCheck_granted_iff.2 hg) hc
      simp only [exec, execCboFlush]
      split
      next hill => exact absurd hill (hen _ rfl)
      next => exact hop
      next => exact hop
    · simp only [exec, execCboInval, hen]
      exact cbmAccess_of_granted hu (accessCheck_granted_iff.2 hg) hc
  refine ⟨_, hx, rfl, rfl, fun h => ?_, fun h => performOp_heldBack h ..⟩
  obtain ⟨hhist, hpend⟩ := order_performOp h .flush pa (cmoTags s.hart rs1)
  refine ⟨hhist, hpend, ?_⟩
  rw [sys_performOp h]
  refine ⟨fun hcache => ⟨heldCopy_invalidate_same hcache _, isDirty_invalidate_same _ hcache⟩, fun k' b' hne => ⟨?_, ?_⟩,
    fun a ha => ?_, fun a ha => ?_, copies_flushBlock ..⟩
  · exact (heldCopy_invalidate_other (other_of_pair_ne hne) _).trans (heldCopy_cleanBlock ..)
  · exact (isDirty_invalidate_other _ hne).trans (isDirty_clean_other _ hne)
  · rw [BlockOp.act, flushBlock_mem]
    exact mem_cleanBlock_block _ _ ha
  · rw [BlockOp.act, flushBlock_mem]
    exact mem_cleanBlock_other _ _ (blkBase_mod ..) (blkBase_ne_of_not_mem ha)

/-! ### The stores of `CBO.ZERO` -/

/-- The bytes that the stores have come to are zero in memory or lie in a dirty block. -/
theorem zero_or_dirty_zeroed (cfg : Config) (o a : Nat) (ms : MemSys) {m x : Nat} (h1 : a ≤ x) (h2 : x < a + m) :
    Memory.read (zeroed cfg o a ms m).mem x = 0 ∨ isDirty (zeroed cfg o a ms m) (cohAt cfg x o) (blkBase x (cbsM cfg)) = true := by
  induction m with
  | zero => omega
  | succ m ih =>
    by_cases hx : x = a + m
    · subst hx
      by_cases hcan : canCache cfg (zeroed cfg o a ms m) (blkBase (a + m) (cbsM cfg)) o = true
      · exact .inr (isDirty_storeBy.2 (.inr ⟨hcan, rfl, rfl⟩))
      · refine .inl ?_
        rw [zeroed, storeBy_uncached_mem hcan]
        exact Memory.read_write_same ..
    · refine (ih (by omega)).imp (fun h => ?_) fun h => isDirty_storeBy.2 (.inl h)
      rw [zeroed, mem_storeBy_other _ _ _ hx]
      exact h

/-- A dirty block stays dirty through later stores. -/
theorem isDirty_zeroed_mono {cfg : Config} {o a : Nat} {ms : MemSys} {k : CohSet} {b m n : Nat} (hmn : m ≤ n)
    (h : isDirty (zeroed cfg o a ms m) k b = true) : isDirty (zeroed cfg o a ms n) k b = true := by
  induction hmn with
  | refl => exact h
  | step _ ih => exact isDirty_storeBy.2 (.inl ih)

/-- A copy that the observer's set holds is there after later stores. -/
theorem heldCopy_zeroed_isSome {cfg : Config} {o a : Nat} {ms : MemSys} {b : Nat} (hc : cacheable cfg b = true)
    (h : (heldCopy cfg ms (cohSetOf cfg b o) b).isSome = true) (m : Nat) :
    (heldCopy cfg (zeroed cfg o a ms m) (cohSetOf cfg b o) b).isSome = true := by
  induction m with
  | zero => exact h
  | succ m ih =>
    rw [zeroed]
    by_cases hb : b = blkBase (a + m) (cbsM cfg)
    · have hcan := canCache_of_heldCopy hc ih
      subst hb
      rw [storeBy_cached hcan, heldCopy_storeCached_same _ _ hcan]
      rfl
    · rwa [heldCopy_storeBy_other (.inl hb)]

/-- Every address of a block has one base for a larger size too. -/
theorem blkBase_of_mem_smaller {x a m n : Nat} (hx : x ∈ block a (2 ^ m)) (hmn : 2 ^ m ≤ 2 ^ n) :
    blkBase x (2 ^ n) = blkBase (blkBase a (2 ^ m)) (2 ^ n) := by
  obtain ⟨q, hq⟩ := Nat.pow_dvd_pow 2 ((Nat.pow_le_pow_iff_right (by decide)).1 hmn)
  rw [← (mem_block_iff_blkBase (Nat.two_pow_pos m)).1 hx, hq, blkBase_eq, blkBase_eq (blkBase x _), blkBase_eq x, ← Nat.div_div_eq_div_mul,
    ← Nat.div_div_eq_div_mul, Nat.mul_div_cancel_left _ (Nat.two_pow_pos m)]

/-- A zeroed byte's block is dirty at the end where the hart's caches held it, or had room for it and it contains the whole range. -/
theorem isDirty_zeroed {cfg : Config} {o pa : Nat} {ms : MemSys} {x : Nat} (hx : x ∈ block pa (cbsZ cfg))
    (hcan : canCache cfg ms (blkBase x (cbsM cfg)) o = true)
    (hor : (heldCopy cfg ms (cohAt cfg x o) (blkBase x (cbsM cfg))).isSome = true ∨ cbsZ cfg ≤ cbsM cfg) :
    isDirty (zeroed cfg o (blkBase pa (cbsZ cfg)) ms (cbsZ cfg)) (cohAt cfg x o) (blkBase x (cbsM cfg)) = true := by
  have hrange := mem_block.1 hx
  rcases hor with hheld | hle
  · obtain ⟨m, rfl⟩ := Nat.exists_eq_add_of_le hrange.1
    refine isDirty_zeroed_mono (m := m + 1) (by omega) (isDirty_storeBy.2 (.inr ⟨?_, rfl, rfl⟩))
    have hc := cacheable_of_canCache hcan
    exact canCache_of_heldCopy hc (heldCopy_zeroed_isSome hc hheld m)
  · have hb : blkBase x (cbsM cfg) = blkBase (blkBase pa (cbsZ cfg)) (cbsM cfg) := blkBase_of_mem_smaller hx hle
    refine isDirty_zeroed_mono (m := 1) (by omega) (isDirty_storeBy.2 (.inr ⟨?_, ?_, hb⟩))
    · exact hb ▸ hcan
    · simp only [cohAt, hb, Nat.add_zero]

/-- The stores leave every copy and the state of every block that none of them is for. -/
theorem zeroed_other {cfg : Config} {o a : Nat} {ms : MemSys} {k : CohSet} {b m : Nat}
    (h : ∀ x, a ≤ x → x < a + m → (k, b) ≠ (cohAt cfg x o, blkBase x (cbsM cfg))) :
    heldCopy cfg (zeroed cfg o a ms m) k b = heldCopy cfg ms k b ∧ isDirty (zeroed cfg o a ms m) k b = isDirty ms k b := by
  induction m with
  | zero => exact ⟨rfl, rfl⟩
  | succ m ih =>
    obtain ⟨hheld, hdirty⟩ := ih fun x h1 h2 => h x h1 (by omega)
    have hne := h (a + m) (by omega) (by omega)
    refine ⟨Eq.trans ?_ hheld, Eq.trans ?_ hdirty⟩
    · by_cases hcan : canCache cfg (zeroed cfg o a ms m) (blkBase (a + m) (cbsM cfg)) o = true
      · rw [zeroed, storeBy_cached hcan]
        exact heldCopy_storeCached_other _ _ _ _ (other_of_pair_ne hne)
      · exact heldCopy_storeBy_other (.inr (by simpa using hcan)) k
    · rw [Bool.eq_iff_iff, zeroed, isDirty_storeBy]
      exact or_iff_left fun ⟨_, hk, hb⟩ => hne (Prod.ext hk hb)

/-- The stores of `CBO.ZERO` in two forms. -/
theorem effects_block_zeroed (cfg : Config) (o tick : Nat) (tags : Tags) (pa : Nat) (ms : MemSys) :
    effects cfg (zeroEvents o tick tags (block pa (cbsZ cfg))) ms = zeroed cfg o (blkBase pa (cbsZ cfg)) ms (cbsZ cfg) := by
  rw [block, effects_zeroEvents, storeBytesBy_zeros]

/-- Settles O37: the stores are performed at once, one after the other, or held back. -/
theorem zeroExecutes : Obligations.ZeroExecutes := by
  intro rs1 s pa hw hen hu hg hc es
  have hx : exec (.cboZero rs1) s = .next (retire (performZero pa (cmoTags s.hart rs1) s)) := by
    have hop := cbzAccess_of_granted hu (accessCheck_granted_iff.2 hg) hc
    simp only [exec, execCboZero]
    split
    next hill => exact absurd hill (hen _ rfl)
    next => exact hop
    next => exact hop
  refine ⟨_, hx, rfl, rfl, fun h => ?_, fun h => by simp [h, es, zeroEvents]⟩
  have hsys : (retire (performZero pa (cmoTags s.hart rs1) s)).sys = effects s.cfg (zeroEvents s.hart.id s.tick (cmoTags s.hart rs1)
      (block pa (cbsZ s.cfg))) s.sys := by
    rw [retire_sys, performZero_sys, if_pos h]
  refine ⟨by simp [h, es, zeroEvents], by simp [h], ?_⟩
  rw [hsys]
  refine ⟨fun a ha => ⟨viewOf_zeroEvents_inside hw _ _ _ _ ha, ?_⟩,
    fun a ha => ⟨viewOf_zeroEvents_outside _ _ _ _ _ ha, mem_zeroEvents_outside _ _ _ _ _ ha⟩, ?_⟩
  · rw [effects_block_zeroed]
    exact ⟨zero_or_dirty_zeroed _ _ _ _ (mem_block.1 ha).1 (mem_block.1 ha).2, isDirty_zeroed ha⟩
  · rw [effects_block_zeroed]
    exact ⟨fun k b hne => zeroed_other fun x h1 h2 => hne x (mem_block.2 ⟨h1, h2⟩),
      copies_zeros _ _ _ _ hw _ (storeBytesBy_zeros ..).symm⟩

/-! ### Prefetches -/

/-- Settles O38: the checks answer that the prefetch has no access or that it acts, and a hint changes no view. -/
theorem prefetchExecutes : Obligations.PrefetchExecutes := by
  intro i s hs hi hu hpma
  obtain ⟨k, rs1, offset, hk, hsize, hea, hx⟩ := exec_of_ungated hi s
  have hret : exec i s = .next (retire s) ∨ ∃ pa, exec i s = .next (retire (hint pa s)) := by
    have hcheck : prefetchCheck s.cfg s.hart k (eaOf s i) ≠ .pmaUnspecified := by
      cases ht : translate s.hart (effPriv s.hart) (classOf i) (eaOf s i) with
      | fault kind gpage =>
        rw [hk] at ht
        simp [prefetchCheck, ht]
      | done ppage gpage pte gpte =>
        rw [prefetchCheck_of_translated hk hsize ht]
        split
        · exact nofun
        next hp =>
          split
          · exact nofun
          next hg =>
            have hmet : pmaOk s.cfg (inPage ppage (eaOf s i)) (accessSize s.cfg i) = true :=
              hpma _ _ _ _ ht (pageGrants_iff.2 (by simpa using hp)) (gStageGrants_iff.2 (by simpa using hg))
            rw [hmet, if_neg nofun]
            split <;> exact nofun
    unfold Untriggered at hu
    rw [hk, hsize, hea] at hu
    rw [hea] at hcheck
    rw [hx]
    simp only [prefetch, hu]
    split
    next hbad => exact absurd hbad hcheck
    next => exact .inl rfl
    next pa _ => exact .inr ⟨pa, rfl⟩
  rcases hret with h | ⟨pa, h⟩
  · exact ⟨_, h, rfl, fun _ _ => rfl, rfl, rfl, rfl, rfl, rfl⟩
  · refine ⟨_, h, ?_, view_hint hs pa, ?_, rfl, rfl, rfl, rfl⟩
    · rw [retire_sys, hint_sys]
      split
      · exact hintLine_mem ..
      · rfl
    · rw [retire_sys, hint_sys]
      split
      · exact hintLine_dirty ..
      · rfl

/-! ### Frames -/

/-- Settles O40: a trap changes control registers, mode and `pc`; a retirement advances `pc`. -/
theorem instructionFrame : Obligations.InstructionFrame := by
  intro i s t h
  rcases exec_cases h with rfl | ⟨c, g, ea, n, -, rfl⟩ | ⟨op, pa, rs1, rfl⟩ | ⟨pa, rs1, rfl⟩ | rfl | ⟨pa, rfl⟩
  · simp
  · simp
  · exact ⟨rfl, rfl, rfl, rfl, rfl, rfl, rfl, rfl, rfl, rfl, rfl, rfl, rfl, fun _ => ⟨rfl, rfl, rfl⟩⟩
  · exact ⟨rfl, rfl, rfl, rfl, rfl, rfl, rfl, rfl, rfl, rfl, rfl, rfl, rfl, fun _ => ⟨rfl, rfl, rfl⟩⟩
  · exact ⟨rfl, rfl, rfl, rfl, rfl, rfl, rfl, rfl, rfl, rfl, rfl, rfl, rfl, fun _ => ⟨rfl, rfl, rfl⟩⟩
  · exact ⟨rfl, rfl, rfl, rfl, rfl, rfl, rfl, rfl, rfl, rfl, rfl, rfl, rfl, fun _ => ⟨rfl, rfl, rfl⟩⟩

/-- Settles O42: a retirement may take reservations, and a trap takes none. -/
theorem otherHartsLoseOnlyReservations : Obligations.OtherHartsLoseOnlyReservations := by
  intro i s t h
  have hlose : List.Forall₂ (fun h h' => h' = h ∨ h' = { h with resv := none }) s.others (loseReservations s.tick s.others) := by
    rw [loseReservations, List.forall₂_map_right_iff, List.forall₂_same]
    intro h' _
    split
    · exact .inr rfl
    · exact .inl rfl
  rcases exec_cases h with rfl | ⟨c, g, ea, n, -, rfl⟩ | ⟨op, pa, rs1, rfl⟩ | ⟨pa, rs1, rfl⟩ | rfl | ⟨pa, rfl⟩
  · exact ⟨List.forall₂_same.2 fun _ _ => .inl rfl, fun _ => rfl⟩
  · exact ⟨List.forall₂_same.2 fun _ _ => .inl rfl, fun _ => rfl⟩
  · exact ⟨hlose, fun hne => absurd rfl hne⟩
  · exact ⟨hlose, fun hne => absurd rfl hne⟩
  · exact ⟨hlose, fun hne => absurd rfl hne⟩
  · exact ⟨hlose, fun hne => absurd rfl hne⟩

/-- The next states of a gated instruction, as they bear on memory: a trap, or its operation or its stores at the address that the
access check grants (R124, R141). -/
theorem exec_gated_cases {i : Instr} {s t : State} (hi : gateOf i ≠ none) (h : exec i s = .next t) :
    (∃ r, t = takeTrap r s) ∨ ∃ pa, accessCheck s.cfg s.hart (classOf i) (accessSize s.cfg i) (eaOf s i) = .granted pa ∧
      ((∃ op rs1, accessSize s.cfg i = cbsM s.cfg ∧ t = retire (performOp op pa (cmoTags s.hart rs1) s) ∧
          (gateOf i = some .inval → cmoEnable s.cfg s.hart .inval = .perform → op = .invalidate)) ∨
        ∃ rs1, accessSize s.cfg i = cbsZ s.cfg ∧ t = retire (performZero pa (cmoTags s.hart rs1) s) ∧ gateOf i = some .zero) := by
  have hcbm : ∀ {op : BlockOp} {rs1 : Reg}, cbmAccess op rs1 s = .next t → (∃ r, t = takeTrap r s) ∨
      ∃ pa, accessCheck s.cfg s.hart .cbm (cbsM s.cfg) (eaCbo s rs1) = .granted pa ∧
        t = retire (performOp op pa (cmoTags s.hart rs1) s) := by
    intro op rs1 h
    rcases cbmAccess_cases h with ⟨c, g, -, ht⟩ | ⟨pa, -, hg, ht⟩
    · exact .inl ⟨_, ht⟩
    · exact .inr ⟨pa, hg, ht⟩
  cases i with
  | cboInval rs1 =>
    simp only [exec, execCboInval] at h
    split at h
    next => cases h; exact .inl ⟨_, rfl⟩
    next hen =>
      refine (hcbm h).imp_right fun ⟨pa, hg, ht⟩ => ⟨pa, hg, .inl ⟨_, rs1, rfl, ht, fun _ hp => ?_⟩⟩
      rw [hen] at hp
      cases hp
    next => exact (hcbm h).imp_right fun ⟨pa, hg, ht⟩ => ⟨pa, hg, .inl ⟨_, rs1, rfl, ht, fun _ _ => rfl⟩⟩
  | cboClean rs1 =>
    simp only [exec, execCboClean] at h
    split at h
    next => cases h; exact .inl ⟨_, rfl⟩
    all_goals exact (hcbm h).imp_right fun ⟨pa, hg, ht⟩ => ⟨pa, hg, .inl ⟨_, rs1, rfl, ht, nofun⟩⟩
  | cboFlush rs1 =>
    simp only [exec, execCboFlush] at h
    split at h
    next => cases h; exact .inl ⟨_, rfl⟩
    all_goals exact (hcbm h).imp_right fun ⟨pa, hg, ht⟩ => ⟨pa, hg, .inl ⟨_, rs1, rfl, ht, nofun⟩⟩
  | cboZero rs1 =>
    have hcbz : cbzAccess rs1 s = .next t → (∃ r, t = takeTrap r s) ∨
        ∃ pa, accessCheck s.cfg s.hart .cbz (cbsZ s.cfg) (eaCbo s rs1) = .granted pa ∧
          t = retire (performZero pa (cmoTags s.hart rs1) s) := by
      intro h
      rcases cbzAccess_cases h with ⟨c, g, -, ht⟩ | ⟨pa, -, hg, ht⟩
      · exact .inl ⟨_, ht⟩
      · exact .inr ⟨pa, hg, ht⟩
    simp only [exec, execCboZero] at h
    split at h
    next => cases h; exact .inl ⟨_, rfl⟩
    all_goals exact (hcbz h).imp_right fun ⟨pa, hg, ht⟩ => ⟨pa, hg, .inr ⟨rs1, rfl, ht, rfl⟩⟩
  | prefetchI rs1 offset => exact absurd rfl hi
  | prefetchR rs1 offset => exact absurd rfl hi
  | prefetchW rs1 offset => exact absurd rfl hi

/-- A prefetch writes no memory. -/
theorem exec_ungated_mem {i : Instr} {s t : State} (hi : gateOf i = none) (h : exec i s = .next t) : t.sys.mem = s.sys.mem := by
  rcases exec_ungated_cases hi h with rfl | rfl | ⟨pa, rfl⟩
  · rfl
  · rfl
  · rw [retire_sys, hint_sys]
    split
    · exact hintLine_mem ..
    · rfl

/-- A management operation changes memory, and what its hart sees, inside its block only. -/
theorem performOp_outside (op : BlockOp) {pa a : Nat} (tags : Tags) (s : State) (ha : a ∉ block pa (cbsM s.cfg)) :
    Memory.read (retire (performOp op pa tags s)).sys.mem a = Memory.read s.sys.mem a ∧
      viewOf s.cfg (retire (performOp op pa tags s)).sys s.hart.id a = viewOf s.cfg s.sys s.hart.id a := by
  by_cases h : atOnce s = true
  · rw [sys_performOp h]
    exact op.act_outside _ _ _ (blkBase_mod ..) (blkBase_ne_of_not_mem ha)
  · rw [(performOp_heldBack (by simpa using h) ..).1]
    exact ⟨rfl, rfl⟩

/-- The stores of `CBO.ZERO` change memory, and what the hart sees, inside its block only. -/
theorem performZero_outside {pa a : Nat} (tags : Tags) (s : State) (ha : a ∉ block pa (cbsZ s.cfg)) :
    Memory.read (retire (performZero pa tags s)).sys.mem a = Memory.read s.sys.mem a ∧
      viewOf s.cfg (retire (performZero pa tags s)).sys s.hart.id a = viewOf s.cfg s.sys s.hart.id a := by
  rw [retire_sys, performZero_sys]
  split
  · exact ⟨mem_zeroEvents_outside _ _ _ _ _ ha, viewOf_zeroEvents_outside _ _ _ _ _ ha⟩
  · exact ⟨rfl, rfl⟩

/-- Settles O41: of a gated instruction only what it performs at the granted address reaches memory, of a prefetch nothing. -/
theorem memoryFrame : Obligations.MemoryFrame := by
  intro i s t h
  refine ⟨fun hi => exec_ungated_mem hi h, ?_⟩
  by_cases hi : gateOf i = none
  · exact ⟨fun hg => absurd (hi.symm.trans hg) nofun, fun _ _ hg => absurd hi hg, fun hg => absurd hi hg⟩
  rcases exec_gated_cases hi h with ⟨r, rfl⟩ | ⟨pa, hgranted, ⟨op, rs1, hsize, rfl, hop⟩ | ⟨rs1, hsize, rfl, hzero⟩⟩
  · exact ⟨fun _ _ => rfl, fun _ _ _ _ _ => ⟨rfl, rfl⟩, fun _ _ => rfl⟩
  · refine ⟨fun hg hp => ?_, fun pa' hpa' _ a ha => ?_, fun _ hno => absurd hgranted (hno pa)⟩
    · rw [hop hg hp, retire_sys, performOp_sys]
      split
      · exact invalidateBlock_mem ..
      · rfl
    · rw [hgranted] at hpa'
      cases hpa'
      rw [hsize] at ha
      exact performOp_outside op _ s ha
  · refine ⟨fun hg => ?_, fun pa' hpa' _ a ha => ?_, fun _ hno => absurd hgranted (hno pa)⟩
    · rw [hzero] at hg
      cases hg
    · rw [hgranted] at hpa'
      cases hpa'
      rw [hsize] at ha
      exact performZero_outside _ s ha

end Sys2Proof.Machine
end

section
/-!
SUPPORT. Which pairs of operations preserved program order holds (R72, R91, R93, R94), and which values a load may return (R76 to R78,
R92).
-/

namespace Sys2Proof.Machine

/-! ### Preserved program order -/

/-- A `FENCE` is no memory operation, and accesses no byte (R90). -/
theorem Event.not_mem_op_of_isFence {e : Event} (h : e.isFence = true) (cfg : Config) :
    e.isLoad = false ∧ e.isStore = false ∧ e.isCbm = false ∧ (e.footprint cfg).2 = 0 := by
  obtain ⟨o, t, op, tags⟩ := e
  cases op with
  | fence p q => exact ⟨rfl, rfl, rfl, rfl⟩
  | load a n bs src => cases h
  | store a bs => cases h
  | invalidate b => cases h
  | clean b => cases h
  | flush b => cases h

/-- Rule 4 orders two memory operations of any class (R72, R93). -/
theorem ppo_of_fence {cfg : Config} {ex : List Event} {a b f : Event} {p q : FenceSet} (hf : f ∈ ex) (hop : f.op = .fence p q)
    (haf : po a f = true) (hfb : po f b = true) (ha : inFenceSet cfg p a = true) (hb : inFenceSet cfg q b = true) :
    ppo cfg ex a b = true := by
  have hmem : ∀ {s : FenceSet} {e : Event}, inFenceSet cfg s e = true → e.isFence = false := by
    intro s e he
    by_contra hfence
    obtain ⟨hl, hs, hc, -⟩ := e.not_mem_op_of_isFence (by simpa using hfence) cfg
    simp [inFenceSet, Event.storeLike, hl, hs, hc] at he
  have hpo : po a b = true := by
    simp only [po, Bool.and_eq_true, decide_eq_true_eq] at haf hfb ⊢
    exact ⟨haf.1.trans hfb.1, haf.2.trans hfb.2⟩
  have hrule : ppo4 cfg ex a b = true := by
    refine List.any_eq_true.2 ⟨f, hf, ?_⟩
    rw [hop]
    simp [haf, hfb, ha, hb]
  simp [ppo, hpo, hmem ha, hmem hb, hrule]

/-- The other rules order two memory operations to main memory (R91). -/
theorem ppo_of_main {cfg : Config} {ex : List Event} {a b : Event} (hpo : po a b = true) (ha : a.isFence = false) (hb : b.isFence = false)
    (hma : inMainMemory cfg a = true) (hmb : inMainMemory cfg b = true) (h : ppoMain cfg ex a b = true) : ppo cfg ex a b = true := by
  simp [ppo, hpo, ha, hb, hma, hmb, h]

/-- Settles O44: each row is a rule of preserved program order, which a legal execution respects. -/
theorem managementOperationsAreOrderedAsStores : Obligations.ManagementOperationsAreOrderedAsStores := by
  refine ⟨?_, fun _ _ => rfl⟩
  intro cfg init ex a b ⟨hppo, _, _⟩ hpo hma hmb hb gives hrow
  refine RespectsPpo.not_sublist hppo ?_
  have hlike : b.storeLike = true := by
    unfold Event.storeLike
    rcases hb with h | h <;> simp [h]
  have hbf : b.isFence = false := by
    by_contra hf
    obtain ⟨-, hs, hc, -⟩ := b.not_mem_op_of_isFence (by simpa using hf) cfg
    simp [hs, hc] at hb
  have hgives : gives → givesRegister a = true := by
    intro h
    simpa [givesRegister] using h
  have haf : a.isFence = false := by
    by_contra hf
    obtain ⟨hl, hs, -, hn⟩ := a.not_mem_op_of_isFence (by simpa using hf) cfg
    have hov : overlap cfg a b = false := by simp [overlap, hn]
    simp [gives, hl, hs, hov] at hrow
  refine ppo_of_main hpo haf hbf hma hmb ?_
  unfold ppoMain
  rcases hrow with h | ⟨hls, hacq⟩ | ⟨hg, ht⟩ | ⟨hg, ht⟩ | ⟨hg, m, hm, ham, hmb', ht⟩
  · simp [ppo1, hlike, h]
  · have hcbm : a.isCbm = false := by
      obtain ⟨o, t, op, tags⟩ := a
      cases op <;> simp_all [Event.isLoad, Event.isStore, Event.isCbm]
    simp [ppo567, hacq, hcbm]
  · simp [ppo9, hgives hg, ht]
  · simp [ppo11, hgives hg, hlike, ht]
  · have hany : ex.any (fun m => po a m && po m b && m.tags.addrDep.contains a.tick) = true :=
      List.any_eq_true.2 ⟨m, hm, by simp [ham, hmb', ht]⟩
    have hrule : ppo13 ex a b = true := by
      rw [ppo13, hgives hg, hlike, hany]
      rfl
    simp [hrule]

/-- Settles O45: a management operation is no load, and rule 4 orders what the two sets hold. -/
theorem fencesClassifyManagementOperations : Obligations.FencesClassifyManagementOperations := by
  refine ⟨fun cfg s e he => ?_, fun cfg init ex a b f p q ⟨hppo, _, _⟩ hf hop haf hfb ha hb =>
    RespectsPpo.not_sublist hppo (ppo_of_fence hf hop haf hfb ha hb)⟩
  obtain ⟨o, t, op, tags⟩ := e
  cases op with
  | invalidate b => rfl
  | clean b => rfl
  | flush b => rfl
  | load a n bs src => cases he
  | store a bs => cases he
  | fence p q => cases he

/-! ### The values an invalidate leaves possible -/

theorem coherentStores_append (cfg : Config) (o x : Nat) (l l' : List Event) :
    coherentStores cfg o x (l ++ l') = coherentStores cfg o x l ++ coherentStores cfg o x l' := List.filter_append ..

theorem valuesOf_append (x : Nat) (l l' : List Event) : valuesOf x (l ++ l') = valuesOf x l ++ valuesOf x l' := List.filterMap_append ..

theorem valuesOf_coherentStores_reverse (cfg : Config) (o x : Nat) (l : List Event) :
    valuesOf x (coherentStores cfg o x l.reverse) = (valuesOf x (coherentStores cfg o x l)).reverse := by
  unfold coherentStores valuesOf
  rw [List.filter_reverse, List.filterMap_reverse]

/-- Before the newest events that hold no clean or flush of the byte, the values are theirs and what the others leave. -/
theorem mem_afterInvFrom_append {cfg : Config} {init : Memory} {o x : Nat} {l : List Event} (hl : ∀ e ∈ l, e.isCleanOf cfg x = false)
    (rest : List Event) (v : Written) : v ∈ afterInvFrom cfg init o x (l ++ rest) ↔
      v ∈ valuesOf x (coherentStores cfg o x l) ∨ v ∈ afterInvFrom cfg init o x rest := by
  induction l with
  | nil => simp [coherentStores, valuesOf]
  | cons e l ih =>
    have he := hl e List.mem_cons_self
    rw [List.cons_append, afterInvFrom, if_neg (by simp [he]), List.mem_append, ih fun e' h' => hl e' (List.mem_cons_of_mem _ h'),
      ← or_assoc, ← List.singleton_append (l := l), coherentStores_append, valuesOf_append, List.mem_append]

/-- After a clean or flush of the byte, of the stores before it, oldest first, the latest is left, or the initial data. -/
theorem afterInvFrom_clean {cfg : Config} {init : Memory} {o x : Nat} {c : Event} (hc : c.isCleanOf cfg x = true) (pre : List Event) :
    afterInvFrom cfg init o x (c :: pre.reverse) =
      [((valuesOf x (coherentStores cfg o x pre)).getLast?).getD (initialValue init x)] := by
  rw [afterInvFrom, if_pos hc, valuesOf_coherentStores_reverse, ← List.head?_reverse]
  cases (valuesOf x (coherentStores cfg o x pre)).reverse with
  | nil => rfl
  | cons v l => rfl

/-- Settles O46: the events before the invalidate, newest first, up to the latest clean or flush. -/
theorem valuesAfterInvalidate : Obligations.ValuesAfterInvalidate := by
  intro cfg init o x i b v
  refine ⟨fun hi => ?_, fun hi h1 h2 before => ?_⟩
  · have hafter : ∀ before, afterInv cfg init o x before i = afterInvFrom cfg init o x before.reverse := by
      intro before
      have hno : i.isCleanOf cfg x = false := by simp only [Event.isCleanOf, hi]
      simp [afterInv, hno]
    refine ⟨fun before hno => ?_, fun pre post c hc hno => ?_⟩
    · have h := mem_afterInvFrom_append (init := init) (o := o) (l := before.reverse) (fun e he => hno e (List.mem_reverse.1 he)) [] v
      rw [List.append_nil] at h
      rw [hafter, h, valuesOf_coherentStores_reverse, List.mem_reverse, afterInvFrom, List.mem_singleton]
      exact or_comm
    · have h := mem_afterInvFrom_append (init := init) (o := o) (l := post.reverse) (fun e he => hno e (List.mem_reverse.1 he))
        (c :: pre.reverse) v
      rw [afterInvFrom_clean hc, List.mem_singleton, valuesOf_coherentStores_reverse, List.mem_reverse] at h
      rw [hafter, List.reverse_append, List.reverse_cons, List.append_assoc, List.singleton_append]
      refine ⟨fun hnil => ?_, fun u hu => ?_⟩
      · rw [hnil] at h
        exact h.trans or_comm
      · rw [hu] at h
        exact h.trans or_comm
  · have hc : i.isCleanOf cfg x = true := by
      simp [Event.isCleanOf, hi, Event.touches, Event.footprint, inRange, h1, h2]
    have hafter : afterInv cfg init o x before i = [((valuesOf x (coherentStores cfg o x before)).getLast?).getD (initialValue init x)] := by
      rw [afterInv, if_pos hc]
      exact afterInvFrom_clean hc before
    rw [hafter, List.mem_singleton]
    refine ⟨fun hnil => ?_, fun u hu => ?_⟩
    · rw [hnil]
      rfl
    · rw [hu]
      rfl

/-! ### The values a load may return -/

/-- The value that an event writes to the byte, with its name, where it is a store by an observer coherent with `o`. -/
def coherentValue (cfg : Config) (o x : Nat) (e : Event) : Option Written :=
  if e.writes x && coherentAt cfg x o e.obs then (e.storeValue? x).map (fun v => (v, some (e.obs, e.tick))) else none

theorem coherentValue_eq_some {cfg : Config} {o x : Nat} {e : Event} {w : Written} : coherentValue cfg o x e = some w ↔
    (e.writes x = true ∧ coherentAt cfg x o e.obs = true) ∧ e.storeValue? x = some w.1 ∧ w.2 = some (e.obs, e.tick) := by
  obtain ⟨v, src⟩ := w
  unfold coherentValue
  cases hw : e.storeValue? x with
  | none => simp [Event.writes, hw]
  | some u => simp [Event.writes, hw, eq_comm (a := src)]

theorem coherentValue_eq_none {cfg : Config} {o x : Nat} {e : Event} : coherentValue cfg o x e = none ↔
    ¬ (e.writes x = true ∧ coherentAt cfg x o e.obs = true) := by
  unfold coherentValue
  cases hw : e.storeValue? x with
  | none => simp [Event.writes, hw]
  | some u => simp [Event.writes, hw]

/-- The values of the coherent stores among the events that satisfy `p`. -/
theorem valuesOf_coherentStores_filter (cfg : Config) (o x : Nat) (p : Event → Bool) (l : List Event) :
    valuesOf x (coherentStores cfg o x (l.filter p)) = l.filterMap (fun e => if p e then coherentValue cfg o x e else none) := by
  unfold valuesOf coherentStores
  rw [List.filterMap_filter, List.filterMap_filter]
  rfl

theorem valuesOf_coherentStores (cfg : Config) (o x : Nat) (l : List Event) :
    valuesOf x (coherentStores cfg o x l) = l.filterMap (coherentValue cfg o x) := by
  unfold valuesOf coherentStores
  rw [List.filterMap_filter]
  rfl

/-- The last value of a list filtered is that of the last element that has one. -/
theorem getLast?_filterMap_eq_some {α β : Type} {f : α → Option β} {l : List α} {w : β} :
    (l.filterMap f).getLast? = some w ↔ ∃ pre e post, l = pre ++ e :: post ∧ f e = some w ∧ ∀ m ∈ post, f m = none := by
  rw [List.getLast?_filterMap, List.findSome?_eq_some_iff]
  constructor
  · rintro ⟨l₁, e, l₂, hl, he, hno⟩
    refine ⟨l₂.reverse, e, l₁.reverse, ?_, he, fun m hm => hno m (List.mem_reverse.1 hm)⟩
    rw [← List.reverse_reverse l, hl]
    simp
  · rintro ⟨pre, e, post, rfl, he, hno⟩
    exact ⟨post.reverse, e, pre.reverse, by simp, he, fun m hm => hno m (List.mem_reverse.1 hm)⟩

theorem getLast?_filterMap_eq_none {α β : Type} {f : α → Option β} {l : List α} :
    (l.filterMap f).getLast? = none ↔ ∀ m ∈ l, f m = none := by
  rw [List.getLast?_filterMap, List.findSome?_eq_none_iff]
  simp

/-- The value of the unmodified load value rule: of the latest store after the load in the global memory order and before it in program
order, else of the latest before the load in the global memory order, else the initial data (R92). -/
theorem eq_rvwmoValue_iff {cfg : Config} {init : Memory} {before after : List Event} {r : Event} {x : Nat} {w : Written} :
    w = rvwmoValue cfg init before after r x ↔
      (after.filterMap (fun e => if po e r then coherentValue cfg r.obs x e else none)).getLast? = some w ∨
      ((after.filterMap (fun e => if po e r then coherentValue cfg r.obs x e else none)).getLast? = none ∧
        ((before.filterMap (coherentValue cfg r.obs x)).getLast? = some w ∨
          ((before.filterMap (coherentValue cfg r.obs x)).getLast? = none ∧ w = initialValue init x))) := by
  unfold rvwmoValue
  simp only
  rw [coherentStores_append, valuesOf_append, valuesOf_coherentStores_filter, valuesOf_coherentStores, List.getLast?_append]
  cases (after.filterMap _).getLast? with
  | some u => simp [eq_comm]
  | none =>
    cases (before.filterMap _).getLast? with
    | some u => simp [eq_comm]
    | none => simp

/-- An invalidate of the byte with no coherent store between it and the load, in either order (R76). -/
theorem qualifies_iff {cfg : Config} {all post : List Event} {i r : Event} {x : Nat} :
    Machine.qualifies cfg all post i r x = true ↔ i.isInvalOf cfg x = true ∧
      (∀ e ∈ post, ¬ (e.writes x = true ∧ coherentAt cfg x r.obs e.obs = true)) ∧
      ∀ e ∈ all, (e.writes x = true ∧ coherentAt cfg x r.obs e.obs = true) → po i e = true → po e r = false := by
  unfold Machine.qualifies coherentStores
  simp [and_assoc, List.filter_eq_nil_iff]

/-- The sets of values that the qualifying invalidates leave possible, one after the other. -/
theorem mem_qualifying {cfg : Config} {init : Memory} {all : List Event} {r : Event} {x : Nat} {vs : List Written}
    (before l : List Event) : vs ∈ qualifying cfg init all r x before l ↔
      ∃ pre i post, l = pre ++ i :: post ∧ Machine.qualifies cfg all post i r x = true ∧
        vs = afterInv cfg init r.obs x (before ++ pre) i := by
  induction l generalizing before with
  | nil => simp [qualifying]
  | cons i l ih =>
    have hhead : vs ∈ qualifying cfg init all r x before (i :: l) ↔
        (Machine.qualifies cfg all l i r x = true ∧ vs = afterInv cfg init r.obs x before i) ∨
          vs ∈ qualifying cfg init all r x (before ++ [i]) l := by
      rw [qualifying]
      split
      next h => simp [h]
      next h => simp [h]
    rw [hhead, ih]
    constructor
    · rintro (⟨hq, hv⟩ | ⟨pre, i', post, rfl, hq, hv⟩)
      · exact ⟨[], i, l, rfl, hq, by rwa [List.append_nil]⟩
      · exact ⟨i :: pre, i', post, rfl, hq, by rwa [List.append_assoc] at hv⟩
    · rintro ⟨pre, i', post, hl, hq, hv⟩
      cases pre with
      | nil =>
        obtain ⟨rfl, rfl⟩ := List.cons.inj hl
        exact .inl ⟨hq, by rwa [List.append_nil] at hv⟩
      | cons e pre =>
        obtain ⟨rfl, rfl⟩ := List.cons.inj hl
        exact .inr ⟨pre, i', post, rfl, hq, by rwa [List.append_assoc]⟩

theorem mem_nonCoh {cfg : Config} {o x : Nat} {l : List Event} {v : Written} : v ∈ nonCoh cfg o x l ↔
    ∃ e ∈ l, coherentAt cfg x o e.obs = false ∧ e.storeValue? x = some v.1 ∧ v.2 = some (e.obs, e.tick) := by
  obtain ⟨b, src⟩ := v
  simp [nonCoh, valuesOf, and_assoc, eq_comm (a := src)]

/-- The values a load may return: those of a qualifying invalidate, or that of the unmodified rule where there is none, or those of
stores that are not coherent (R76, R78). -/
theorem mem_allowed {cfg : Config} {init : Memory} {before after : List Event} {r : Event} {x : Nat} {v : Written} :
    v ∈ allowed cfg init before after r x ↔ (∃ vs ∈ qualifying cfg init (before ++ after) r x [] before, v ∈ vs) ∨
      (qualifying cfg init (before ++ after) r x [] before = [] ∧ v = rvwmoValue cfg init before after r x) ∨
      v ∈ nonCoh cfg r.obs x (before ++ after) := by
  unfold allowed
  cases qualifying cfg init (before ++ after) r x [] before with
  | nil => simp
  | cons vs sets => simp [or_assoc]

/-- Settles O47: the qualifying invalidates one by one, the latest store by the two orders, and the stores that are not coherent. -/
theorem loadValuesBesideInvalidates : Obligations.LoadValuesBesideInvalidates := by
  refine ⟨?_, fun cfg init before after r a n bytes src hlegal hop hr i v w hv hw => ?_⟩
  · intro cfg init before after r x v stores qual takenFrom latest
    have hsome : ∀ w e, (if po e r then coherentValue cfg r.obs x e else none) = some w ↔ po e r = true ∧ takenFrom w e := by
      intro w e
      rw [Option.ite_none_right_eq_some, coherentValue_eq_some]
    have hnone : ∀ e, (if po e r then coherentValue cfg r.obs x e else none) = none ↔ (po e r = true → ¬ stores e) := by
      intro e
      rw [ite_eq_right_iff, coherentValue_eq_none]
    have hlatest : ∀ w, latest w ↔ w = rvwmoValue cfg init before after r x := by
      intro w
      rw [eq_rvwmoValue_iff, getLast?_filterMap_eq_some, getLast?_filterMap_eq_none, getLast?_filterMap_eq_some,
        getLast?_filterMap_eq_none]
      simp only [latest, hsome, hnone, coherentValue_eq_some, coherentValue_eq_none, takenFrom, stores, and_assoc]
      rfl
    have hqual : ∀ vs, vs ∈ qualifying cfg init (before ++ after) r x [] before ↔
        ∃ pre i post, qual pre i post ∧ vs = afterInv cfg init r.obs x pre i := by
      intro vs
      simp only [mem_qualifying, qualifies_iff, List.nil_append, and_assoc, qual, stores]
    have hnoqual : qualifying cfg init (before ++ after) r x [] before = [] ↔ ¬ ∃ pre i post, qual pre i post := by
      simp only [List.eq_nil_iff_forall_not_mem, hqual]
      exact ⟨fun h ⟨pre, i, post, hq⟩ => h _ ⟨pre, i, post, hq, rfl⟩, fun h _ ⟨pre, i, post, hq, _⟩ => h ⟨pre, i, post, hq⟩⟩
    refine ⟨?_, fun hno hcoh => ⟨_, (hlatest _).2 rfl, ?_⟩⟩
    · rw [mem_allowed, hnoqual, hlatest, mem_nonCoh]
      refine or_congr_left ⟨?_, ?_⟩
      · rintro ⟨vs, hvs, hv⟩
        obtain ⟨pre, i, post, hq, rfl⟩ := (hqual vs).1 hvs
        exact ⟨pre, i, post, hq, hv⟩
      · rintro ⟨pre, i, post, hq, hv⟩
        exact ⟨_, (hqual _).2 ⟨pre, i, post, hq, rfl⟩, hv⟩
    · have hnil : nonCoh cfg r.obs x (before ++ after) = [] := by
        refine List.eq_nil_iff_forall_not_mem.2 fun w hw => ?_
        obtain ⟨e, he, hne, hval, -⟩ := mem_nonCoh.1 hw
        have hwr : e.writes x = true := by simp [Event.writes, hval]
        rw [(hcoh e he hwr).2] at hne
        cases hne
      simp [allowed, hnoqual.2 hno, hnil]
  · obtain ⟨-, hvalues, -⟩ := hlegal
    exact mem_allowed_of_loadOk (loadOk_of_loadValuesOk (pre := []) hvalues) hop (by simpa using hr) hv hw

end Sys2Proof.Machine
end

section
/-!
SUPPORT. The caches' own moves (R64 to R68), the view `sstatus` (R25), the step (R100, R206) and the state after reset (R45).
-/

namespace Sys2Proof.Machine

/-! ### The caches' own moves -/

/-- Settles O48: a write-back is a clean of the block for the cache's own set, or nothing. -/
theorem cacheMovesWriteBackOnlyDirtyBlocks : Obligations.CacheMovesWriteBackOnlyDirtyBlocks := by
  intro cfg ms i b dest a hs
  refine ⟨fun k => view_allocateLine hs i b k a, allocateLine_dirty .., allocateLine_mem .., deallocateLine_mem ..,
    deallocateLine_dirty .., fun c hc => ?_⟩
  rcases writeBackLine_eq_cleanBlock hs i b with he | ⟨c', hc', hb, hcache, hdirty, he⟩
  · rw [he]
    exact ⟨fun _ => rfl, fun hne => absurd rfl hne⟩
  · obtain rfl := Option.some.inj (hc.symm.trans hc')
    rw [he]
    refine ⟨fun hclean => absurd (hdirty.symm.trans hclean) nofun, fun hne => ?_⟩
    have hab : blkBase a (cbsM cfg) = b := by
      by_contra hab
      exact hne (mem_cleanBlock_other ms _ hb hab)
    subst hab
    refine ⟨(mem_block_iff_blkBase (cbsM_pos cfg)).2 (blkBase_idem ..).symm, ?_, isDirty_clean_same ms hcache⟩
    rw [mem_cleanBlock_same, hcache, hdirty]
    rfl

/-! ### `sstatus` -/

/-- The bits of `mstatus` that `sstatus` shows (R25, log entry 10). -/
theorem getBit_sstatusMask (n : Nat) : getBit sstatusMask n = decide (n ∈ [1, 5, 8, 18, 19]) := by
  by_cases hn : n < 64
  · have hall : ∀ m : Fin 64, getBit sstatusMask m = decide (m.val ∈ [1, 5, 8, 18, 19]) := by decide
    exact hall ⟨n, hn⟩
  · have hno : n ∉ [1, 5, 8, 18, 19] := by
      simp only [List.mem_cons, List.not_mem_nil, or_false]
      omega
    rw [decide_eq_false hno]
    exact BitVec.getLsbD_of_ge _ _ (by omega)

/-- Truncation to `XLEN` keeps the low 32 bits. -/
theorem getBit_xtrunc (x : Xlen) (w : Word) {n : Nat} (hn : n < 32) : getBit (xtrunc x w) n = getBit w n := by
  cases x with
  | rv64 => rfl
  | rv32 => simp [getBit, xtrunc, hn, show n < 64 by omega]

/-- Settles O50: `sstatus` shows and writes the bits of its mask. -/
theorem sstatusIsAViewOfMstatus : Obligations.SstatusIsAViewOfMstatus := by
  intro cfg tick r v
  have hwrite : ∀ n, getBit (csrWrite cfg tick .sstatus v r).mstatus n =
      if getBit sstatusMask n then getBit v n else getBit r.mstatus n := fun n => getBit_mergeBits ..
  refine ⟨fun n hn => ⟨?_, ?_, rfl, rfl⟩, fun n hn => ?_⟩
  · have hmask : getBit sstatusMask n = true := by
      rcases hn with rfl | rfl <;> decide
    rw [csrRead, getBit_xtrunc _ _ (by omega)]
    unfold getBit at hmask ⊢
    rw [BitVec.getLsbD_and, hmask, Bool.and_true]
  · have hmask : getBit sstatusMask n = true := by
      rcases hn with rfl | rfl <;> decide
    rw [hwrite, if_pos hmask]
  · rw [hwrite, getBit_sstatusMask, if_neg (by simpa using hn)]

/-! ### The step -/

/-- The instruction at an aligned `pc` is that of the word in the four bytes there. -/
theorem runNext_of_bytes {s : State} {b0 b1 b2 b3 : Byte} (hpc : pcAligned s.cfg s.hart.pc = true) (h0 : fetchByte s 0 = some b0)
    (h1 : fetchByte s 1 = some b1) (h2 : fetchByte s 2 = some b2) (h3 : fetchByte s 3 = some b3) :
    runNext s = runWord (wordOfBytes b0 b1 b2 b3) s := by
  rw [runNext, if_pos hpc]
  simp only [fetchWord, h0, h1, h2, h3]

/-- A word that decodes to an instruction of an extension the hart has runs it (R107, R110). -/
theorem runWord_of_cmo {s : State} {w : InstrWord} {i : Instr} (hd : decode w = .cmo i) (hi : implemented s.cfg i = true) :
    runWord w s = exec i s := by
  have hfor : decodeFor s.cfg w = .cmo i := by
    simp only [decodeFor, hd, hi, if_true]
  simp only [runWord, hfor]

/-- The extension an instruction belongs to. -/
theorem implemented_of_classes {cfg : Config} {i : Instr} (hm : classOf i = .cbm → cfg.hasZicbom = true)
    (hz : classOf i = .cbz → cfg.hasZicboz = true) (hp : gateOf i = none → cfg.hasZicbop = true) : implemented cfg i = true := by
  cases i with
  | cboInval rs1 => exact hm rfl
  | cboClean rs1 => exact hm rfl
  | cboFlush rs1 => exact hm rfl
  | cboZero rs1 => exact hz rfl
  | prefetchI rs1 offset => exact hp rfl
  | prefetchR rs1 offset => exact hp rfl
  | prefetchW rs1 offset => exact hp rfl

/-- An operation that waits and may be performed is put at the end of the global memory order, with its effect (R90). -/
theorem perform_of_legal {s : State} {n : Nat} {bytes : List Byte} {src : List Source} {e : Event} (he : s.pending[n]? = some e)
    (hr : returnOk s { e with op := e.op.performed bytes src } = true)
    (hl : LegalSoFar s.cfg s.initMem (s.history ++ [{ e with op := e.op.performed bytes src }]) (s.pending.eraseIdx n)) :
    perform n bytes src s = { s with
      history := s.history ++ [{ e with op := e.op.performed bytes src }], pending := s.pending.eraseIdx n,
      sys := (e.op.performed bytes src).effect s.cfg e.obs s.sys } := by
  unfold perform
  rw [he]
  simp only
  rw [if_pos (by rw [hr, decide_eq_true hl]; rfl)]

/-- Settles O51: by the fetch, the decoder and the extensions; and by the effect of the operation performed. -/
theorem stepRunsDecodedInstruction : Obligations.StepRunsDecodedInstruction := by
  refine ⟨fun s b0 b1 b2 b3 i hpc h0 h1 h2 h3 hd hm hz hp => ?_, ?_⟩
  · have hi := implemented_of_classes hm hz hp
    refine ⟨fun hq => ?_, fun rest hq => ?_⟩
    · simp only [step, hq]
      rw [runNext_of_bytes hpc h0 h1 h2 h3]
      exact runWord_of_cmo hd hi
    · simp only [step, hq]
      rw [runNext_of_bytes (s := { s with inputs := rest }) hpc h0 h1 h2 h3]
      exact runWord_of_cmo hd hi
  · intro s n bytes src rest e hq he e' hr hl
    have hperform := perform_of_legal (s := { s with inputs := rest }) he hr hl
    have hstep : step s = .next (applyMove (.perform n bytes src) { s with inputs := rest }) := by
      simp only [step, hq]
    have hmove : applyMove (.perform n bytes src) { s with inputs := rest } = { s with
        inputs := rest, history := s.history ++ [e'], pending := s.pending.eraseIdx n,
        sys := (e.op.performed bytes src).effect s.cfg e.obs s.sys, tick := s.tick + 1 } := by
      simp only [applyMove, move, hperform, e']
    refine ⟨_, hmove ▸ hstep, ?_⟩
    have hsame : ∀ op, e.op = op → op.performed bytes src = op → e' = e := by
      rintro op rfl hop
      simp only [e', hop]
    refine ⟨rfl, rfl, rfl, rfl, rfl, fun a size bs sr hop => ?_, fun a vs hop => ⟨hsame _ hop rfl, ?_⟩, fun b hb =>
      ⟨fun hop => ⟨hsame _ hop rfl, ?_⟩, fun hop => ⟨hsame _ hop rfl, ?_⟩, fun hop => ⟨hsame _ hop rfl, ?_⟩⟩⟩
    · simp only [e', hop]
      exact ⟨rfl, rfl⟩
    · rw [hop]
      rfl
    all_goals
      rw [hop]
      simp only [MemOp.performed, MemOp.effect, blkBase_self hb, flushBlock]

/-! ### Reset -/

/-- Settles O52: by evaluation of the state. -/
theorem resetState : Obligations.ResetState := by
  unfold Obligations.ResetState CachesEmpty NoTrigger
  decide

/-- Caches that hold no copy, with no block stored to, are a coherent memory system. -/
theorem SysCoherent.of_empty {cfg : Config} {ms : MemSys} (hlines : ∀ c ∈ ms.caches, c.lines = []) (hdirty : ms.dirty = []) :
    SysCoherent cfg ms := by
  have hnone : ∀ {c b d}, c ∈ ms.caches → Table.get? c.lines b = some d → False := by
    intro c b d hc hd
    rw [hlines c hc] at hd
    cases hd
  refine { sorted := fun c hc => ?_, whole := fun c hc e he => ?_, aligned := fun c hc e he => ?_,
           agree := fun c hc c' hc' k b d d' _ _ hg _ => (hnone hc hg).elim, held := fun k b h => ?_, once := ?_,
           backed := fun c hc b d _ hg => (hnone hc hg).elim, fits := fun c hc b => ?_ }
  · rw [hlines c hc]
    exact List.Pairwise.nil
  · rw [hlines c hc] at he
    cases he
  · rw [hlines c hc] at he
    cases he
  · rw [hdirty] at h
    cases h
  · unfold DirtyOnce
    rw [hdirty]
    exact List.nodup_nil
  · unfold occupancy
    rw [hlines c hc]
    exact Nat.zero_le _

/-- After reset, every set sees memory, which holds the initial data, and no store was performed. -/
theorem latestSeen_reset (hc : CachesCoherent State.reset) : LatestSeen State.reset := by
  have hmem : ∀ a, Memory.read State.reset.sys.mem a = latestStore State.reset a := fun _ => rfl
  refine { coherent := hc, stored := fun k b h => (nomatch h), seen := fun o a _ => ⟨?_, fun _ => hmem a⟩ }
  refine Eq.trans (view_of_none ?_) (hmem a)
  exact List.findSome?_eq_none_iff.2 fun c hcache => by simp [List.mem_singleton.1 hcache, Table.get?]

/-- Settles O53: each invariant of the one state. -/
theorem resetMeetsInvariants : Obligations.ResetMeetsInvariants := by
  have hcoherent : CachesCoherent State.reset := .of_empty (by decide) rfl
  have hcanonical : MemoryCanonical State.reset := by decide
  have haligned : PcsAligned State.reset := by unfold PcsAligned AllHarts; decide
  have hmodes : ModesLegal State.reset := by unfold ModesLegal AllHarts; decide
  have hfit : RegistersFit State.reset := by unfold RegistersFit AllHarts FitsXlen; decide
  have hcbie : CbieLegalEverywhere State.reset := by unfold CbieLegalEverywhere AllHarts CbieHeldLegal; decide
  have hmpp : MppLegal State.reset := by unfold MppLegal AllHarts; decide
  have hhistory : HistoryLegal State.reset :=
    { past := by unfold EventsPast; decide, sources := fun _ h => (nomatch h), legal := by decide }
  exact ⟨hcanonical, hcoherent, haligned, hmodes, hfit, hcbie, hmpp, hhistory, latestSeen_reset hcoherent⟩

end Sys2Proof.Machine
end
